-- ==== Sys2Proof/Word.lean ====
section
/-!
DEFINITION. The word types of the command interface (30_encoding.md rules R101, R103) and the
value types of the block (00_scope.md rule R9).

The block has no byte-addressed memory and no numbered register; what it has of words are the
16-bit command word, the 12-bit node identity and the 32-bit pattern in which a `Real` travels on
a port.
-/

namespace Sys2Proof

/-- The 16-bit command word `INST[15:8] ‖ UNIT[7:4] ‖ OP[3:0]` (rule R101). -/
abbrev CmdWord := BitVec 16

/-- The instance number of a unit kind, the field `INST` (rule R101). -/
abbrev Inst := BitVec 8

/-- The IEEE 754 binary32 pattern in which a `Real` travels on a port (rule R103). -/
abbrev B32 := BitVec 32

/-- A 32-bit integer field of a parameter block, signed on the port (rule R106). -/
abbrev I32 := BitVec 32

/-- A node identity `NID = INST ‖ UNIT`, 12 bits (rule R101). -/
abbrev Nid := BitVec 12

/-- The node identity of instance `inst` of unit kind `unit` (rule R101). -/
def nidOf (unit : BitVec 4) (inst : Inst) : Nid := inst ++ unit

/-- The unit kind of a node identity, its low four bits (rule R101). -/
def nidUnit (n : Nid) : BitVec 4 := n.extractLsb' 0 4

/-- The instance number of a node identity, its high eight bits (rule R101). -/
def nidInst (n : Nid) : Inst := n.extractLsb' 4 8

/-- A value of type `Real` (rule R9). What a code stands for is the business of the numerics
record `NUM` (rule R12), a parameter of the model; the codes are natural numbers, so that any
numerics with countably many values (binary32, binary64, the reals a program can name) has room. -/
structure RealVal where
  code : Nat
  deriving DecidableEq, Repr, Inhabited

/-- A complex sample, an in-phase and quadrature pair (rule R9). -/
structure Cplx where
  re : RealVal
  im : RealVal
  deriving DecidableEq, Repr, Inhabited

/-- The sample type tags REAL, CPLX, BOOL and SYM (rule R103). -/
inductive Tag where
  | real | cplx | bool | sym
  deriving DecidableEq, Repr, Inhabited

/-- The code of a type tag (rule R103). -/
def Tag.code : Tag → Nat
  | .real => 0
  | .cplx => 1
  | .bool => 2
  | .sym => 3

/-- A sample inside the block: the document's tagged union over its four concrete sample types
(rule R103). -/
inductive Sample where
  | real (x : RealVal)
  | cplx (z : Cplx)
  | bool (b : Bool)
  | sym (w : BitVec 32)
  deriving DecidableEq, Repr, Inhabited

/-- The type tag of a sample (rule R103). -/
def Sample.tag : Sample → Tag
  | .real _ => .real
  | .cplx _ => .cplx
  | .bool _ => .bool
  | .sym _ => .sym

/-- A merge function of a parallel composite, named by plain data (rules R20, R145): the sum and
the difference of two real branches, which the vectors of 95_test_vectors.md use, or the `k`-th of
the merge functions the spec leaves open. -/
inductive MergeFn where
  | sum
  | difference
  | other (k : Nat)
  deriving DecidableEq, Repr

end Sys2Proof
end

