-- ==== Sys2Proof/Syntax.lean ====
section
/-!
DEFINITION. The operations of the block with their operands (00_scope.md rule R3, 30_encoding.md
rules R102, R104 and R106): one constructor for each of the 42 rows of opcode_table.json, and the
command that is issued at the command and operand ports.

A `Real` operand is the binary32 pattern the port carries (rule R103), an integer field of a
parameter block a signed 32-bit value (rule R106), an operand word (shapes W and WW) an unsigned
integer (rule R102).
-/

namespace Sys2Proof

/-- A sample as the operand port carries it (rule R103). -/
inductive PortSample where
  | real (x : B32)
  | cplx (re im : B32)
  | bit (b : Bool)
  | sym (w : BitVec 32)
  deriving DecidableEq, Repr

/-- The 42 operations, one constructor per row of opcode_table.json, in the table's order. The
first argument of each is the instance number. -/
inductive Instr where
  | pipeSerial (inst : Inst) (children : List Nid)
  | pipeParallel (inst : Inst) (children : List Nid) (merge : MergeFn) (outT : Tag)
  | pipeInit (inst : Inst) (rate : B32)
  | pipeStep (inst : Inst) (v : PortSample)
  | gzConfig (inst : Inst) (n : I32) (f : B32)
  | gzInit (inst : Inst) (rate : B32)
  | gzStep (inst : Inst) (x : B32)
  | firConfig (inst : Inst) (window t : I32) (fstart fstop beta : B32) (cx : I32)
  | firInit (inst : Inst) (rate : B32)
  | firStep (inst : Inst) (x : B32)
  | fircStep (inst : Inst) (re im : B32)
  | firSetTaps (inst : Inst) (t : Nat)
  | bqConfig (inst : Inst) (type : I32) (f0 q gainDb : B32) (cx : I32)
  | bqInit (inst : Inst) (rate : B32)
  | bqStep (inst : Inst) (x : B32)
  | bqcStep (inst : Inst) (re im : B32)
  | maConfig (inst : Inst) (n : I32)
  | maInit (inst : Inst) (rate : B32)
  | maStep (inst : Inst) (x : B32)
  | bsConfig (inst : Inst) (c : I32) (cand : List B32) (req cap : I32)
  | bsInit (inst : Inst) (rate : B32)
  | bsStep (inst : Inst) (lv : Bool)
  | bsWaitForSync (inst : Inst)
  | bchConfig (inst : Inst) (g : Nat) (n k t : I32) (fp : Nat)
  | gfExp (inst : Inst) (e : Nat)
  | gfLog (inst : Inst) (a : Nat)
  | gfMul (inst : Inst) (a b : Nat)
  | gfInv (inst : Inst) (a : Nat)
  | gfPow (inst : Inst) (a e : Nat)
  | bchEncode (inst : Inst) (msg : Nat)
  | bchSyndrome (inst : Inst) (r : Nat)
  | bchCheck (inst : Inst) (r : Nat)
  | bchCorrect (inst : Inst) (r : Nat)
  | bchDecode (inst : Inst) (c : Nat)
  | hdReset (inst : Inst)
  | hdStep (inst : Inst) (b : Bool)
  | pgReset (inst : Inst)
  | pgSync (inst : Inst) (baud : B32)
  | pgStep (inst : Inst) (b : Bool)
  | pgSetFilter (inst : Inst) (f : Nat)
  | outqDrain (inst : Inst)
  | coreReset (inst : Inst)
  deriving DecidableEq, Repr

/-- A field of a parameter block (rule R106): an integer, a `Real` or a bit pattern. -/
inductive Field where
  | int (v : I32)
  | real (x : B32)
  | bits (v : Nat)
  deriving DecidableEq, Repr

/-- What the operand port carries, one constructor for each operand shape of rule R102: N, R, S,
W, WW, P and L (with the merge function and the declared output type for PARALLEL). -/
inductive Operand where
  | none
  | rate (r : B32)
  | sample (v : PortSample)
  | word (w : Nat)
  | words (a b : Nat)
  | params (fields : List Field)
  | nodes (children : List Nid) (merge : Option (MergeFn × Tag))
  deriving DecidableEq, Repr

/-- One operation as it is issued: a command word together with its operands (rule R100). -/
structure Command where
  word : CmdWord
  operand : Operand
  deriving DecidableEq, Repr

end Sys2Proof
end

