-- ==== Sys2Proof/WellFormed.lean ====
section
/-!
DEFINITION. Which terms of `Instr` are operations a producer can issue and the block does not
reject for the form of the command itself (30_encoding.md rules R101, R106).
-/

namespace Sys2Proof

/-- The operands of `BS.CONFIG` are the count `C` and then `C` rates (rule R106): a term whose
list has another length is no parameter block. -/
def candidatesMatch (c : I32) (cand : List B32) : Bool := cand.length == c.toInt.toNat

/-- A well-formed operation: the candidate list of `BS.CONFIG` has the length `C` says (rule R106),
and `INST` is 0 for OUTQ and for `CORE.RESET` (rule R101). -/
def Instr.wellFormed : Instr → Bool
  | .bsConfig _ c cand _ _ => candidatesMatch c cand
  | .outqDrain inst => inst == 0
  | .coreReset inst => inst == 0
  | _ => true

end Sys2Proof
end

