-- ==== Sys2Proof/Decode.lean ====
section
/-!
DEFINITION. Decoding a command into an operation and encoding an operation into a command
(30_encoding.md rules R100 to R107).

The operation is fixed by `UNIT ‖ OP`, bits 7:0 of the command word; the operand shape is fixed by
the operation, not by bits of the word (rule R102). A command whose code is reserved or whose
operand does not have the operation's shape is rejected by name; the block answers it with
`ContractFault(BAD_COMMAND)` (rule R107). The instance number is decoded as it stands; whether an
instance of that number exists depends on the block, and is the first check of the operation
(rule R342).
-/

namespace Sys2Proof

/-- The operation a command code `UNIT ‖ OP` names (rule R104). -/
inductive Op where
  | pipeSerial | pipeParallel | pipeInit | pipeStep | gzConfig | gzInit | gzStep | firConfig
  | firInit | firStep | fircStep | firSetTaps | bqConfig | bqInit | bqStep | bqcStep
  | maConfig | maInit | maStep | bsConfig | bsInit | bsStep | bsWaitForSync | bchConfig
  | gfExp | gfLog | gfMul | gfInv | gfPow | bchEncode | bchSyndrome | bchCheck
  | bchCorrect | bchDecode | hdReset | hdStep | pgReset | pgSync | pgStep | pgSetFilter
  | outqDrain | coreReset
  deriving DecidableEq, Repr

/-- The command code of an operation, bits 7:0 of its word (rule R104). -/
def Op.code : Op → BitVec 8
  | .pipeSerial => 0x00
  | .pipeParallel => 0x01
  | .pipeInit => 0x02
  | .pipeStep => 0x03
  | .gzConfig => 0x10
  | .gzInit => 0x11
  | .gzStep => 0x12
  | .firConfig => 0x20
  | .firInit => 0x21
  | .firStep => 0x22
  | .fircStep => 0x23
  | .firSetTaps => 0x24
  | .bqConfig => 0x30
  | .bqInit => 0x31
  | .bqStep => 0x32
  | .bqcStep => 0x33
  | .maConfig => 0x40
  | .maInit => 0x41
  | .maStep => 0x42
  | .bsConfig => 0x50
  | .bsInit => 0x51
  | .bsStep => 0x52
  | .bsWaitForSync => 0x53
  | .bchConfig => 0x60
  | .gfExp => 0x61
  | .gfLog => 0x62
  | .gfMul => 0x63
  | .gfInv => 0x64
  | .gfPow => 0x65
  | .bchEncode => 0x66
  | .bchSyndrome => 0x67
  | .bchCheck => 0x68
  | .bchCorrect => 0x69
  | .bchDecode => 0x6A
  | .hdReset => 0x70
  | .hdStep => 0x71
  | .pgReset => 0x80
  | .pgSync => 0x81
  | .pgStep => 0x82
  | .pgSetFilter => 0x83
  | .outqDrain => 0x90
  | .coreReset => 0xF0

/-- The operation of a command code; the codes not listed are reserved (rules R104, R107). -/
def Op.ofCode (c : Nat) : Option Op :=
  match c with
  | 0x00 => some .pipeSerial
  | 0x01 => some .pipeParallel
  | 0x02 => some .pipeInit
  | 0x03 => some .pipeStep
  | 0x10 => some .gzConfig
  | 0x11 => some .gzInit
  | 0x12 => some .gzStep
  | 0x20 => some .firConfig
  | 0x21 => some .firInit
  | 0x22 => some .firStep
  | 0x23 => some .fircStep
  | 0x24 => some .firSetTaps
  | 0x30 => some .bqConfig
  | 0x31 => some .bqInit
  | 0x32 => some .bqStep
  | 0x33 => some .bqcStep
  | 0x40 => some .maConfig
  | 0x41 => some .maInit
  | 0x42 => some .maStep
  | 0x50 => some .bsConfig
  | 0x51 => some .bsInit
  | 0x52 => some .bsStep
  | 0x53 => some .bsWaitForSync
  | 0x60 => some .bchConfig
  | 0x61 => some .gfExp
  | 0x62 => some .gfLog
  | 0x63 => some .gfMul
  | 0x64 => some .gfInv
  | 0x65 => some .gfPow
  | 0x66 => some .bchEncode
  | 0x67 => some .bchSyndrome
  | 0x68 => some .bchCheck
  | 0x69 => some .bchCorrect
  | 0x6A => some .bchDecode
  | 0x70 => some .hdReset
  | 0x71 => some .hdStep
  | 0x80 => some .pgReset
  | 0x81 => some .pgSync
  | 0x82 => some .pgStep
  | 0x83 => some .pgSetFilter
  | 0x90 => some .outqDrain
  | 0xF0 => some .coreReset
  | _ => none

/-- Why a command is no operation of the table (rule R107). -/
inductive Reject where
  /-- The code is not in rule R104 and its unit number is none of 10 to 14. -/
  | reservedCode
  /-- The operand does not have the shape of the operation. -/
  | operandShape
  /-- The unit number is 10 to 14, the custom space for external nodes. -/
  | customUnit
  deriving DecidableEq, Repr

/-- The instance field of a command word, bits 15:8 (rule R101). -/
def wordInst (w : CmdWord) : Inst := w.extractLsb' 8 8

/-- The code field of a command word, bits 7:0 (rule R101). -/
def wordCode (w : CmdWord) : BitVec 8 := w.extractLsb' 0 8

/-- The unit field of a command word, bits 7:4 (rule R101). -/
def wordUnit (w : CmdWord) : BitVec 4 := w.extractLsb' 4 4

/-- The operation field of a command word, bits 3:0 (rule R101). -/
def wordOp (w : CmdWord) : BitVec 4 := w.extractLsb' 0 4

/-- The command word of an operation of one instance (rule R101). -/
def wordOf (inst : Inst) (op : Op) : CmdWord := inst ++ op.code

/-- The first `n` fields of a parameter block as `Real` patterns, with the fields after them;
`none` where one of them is of another kind. -/
def takeReals : Nat → List Field → Option (List B32 × List Field)
  | 0, fs => some ([], fs)
  | n + 1, .real x :: fs =>
    match takeReals n fs with
    | some (xs, rest) => some (x :: xs, rest)
    | none => none
  | _ + 1, _ => none

/-- The parameter block of `BS.CONFIG`: `C`, then `C` rates, then `REQ` and `CAP` (rule R106). -/
def bsFields (inst : Inst) : List Field → Option Instr
  | .int c :: fs =>
    match takeReals c.toInt.toNat fs with
    | some (cand, [.int req, .int cap]) => some (.bsConfig inst c cand req cap)
    | _ => none
  | _ => none

/-- The instruction of an operation, an instance number and an operand: `none` where the operand
does not have the operation's shape (rules R102, R104, R106). A `baud` word of `PG.SYNC` is the
binary32 pattern of a `Real`, so it has 32 bits. -/
def shaped (op : Op) (inst : Inst) (o : Operand) : Option Instr :=
  match op, o with
  | .pipeSerial, .nodes l none => some (.pipeSerial inst l)
  | .pipeParallel, .nodes l (some (f, t)) => some (.pipeParallel inst l f t)
  | .pipeInit, .rate r => some (.pipeInit inst r)
  | .pipeStep, .sample v => some (.pipeStep inst v)
  | .gzConfig, .params [.int n, .real f] => some (.gzConfig inst n f)
  | .gzInit, .rate r => some (.gzInit inst r)
  | .gzStep, .sample (.real x) => some (.gzStep inst x)
  | .firConfig, .params [.int w, .int t, .real f1, .real f2, .real b, .int cx] =>
    some (.firConfig inst w t f1 f2 b cx)
  | .firInit, .rate r => some (.firInit inst r)
  | .firStep, .sample (.real x) => some (.firStep inst x)
  | .fircStep, .sample (.cplx re im) => some (.fircStep inst re im)
  | .firSetTaps, .word t => some (.firSetTaps inst t)
  | .bqConfig, .params [.int ty, .real f0, .real q, .real g, .int cx] =>
    some (.bqConfig inst ty f0 q g cx)
  | .bqInit, .rate r => some (.bqInit inst r)
  | .bqStep, .sample (.real x) => some (.bqStep inst x)
  | .bqcStep, .sample (.cplx re im) => some (.bqcStep inst re im)
  | .maConfig, .params [.int n] => some (.maConfig inst n)
  | .maInit, .rate r => some (.maInit inst r)
  | .maStep, .sample (.real x) => some (.maStep inst x)
  | .bsConfig, .params fs => bsFields inst fs
  | .bsInit, .rate r => some (.bsInit inst r)
  | .bsStep, .sample (.bit b) => some (.bsStep inst b)
  | .bsWaitForSync, .none => some (.bsWaitForSync inst)
  | .bchConfig, .params [.bits g, .int n, .int k, .int t, .bits fp] =>
    some (.bchConfig inst g n k t fp)
  | .gfExp, .word e => some (.gfExp inst e)
  | .gfLog, .word a => some (.gfLog inst a)
  | .gfMul, .words a b => some (.gfMul inst a b)
  | .gfInv, .word a => some (.gfInv inst a)
  | .gfPow, .words a e => some (.gfPow inst a e)
  | .bchEncode, .word m => some (.bchEncode inst m)
  | .bchSyndrome, .word r => some (.bchSyndrome inst r)
  | .bchCheck, .word r => some (.bchCheck inst r)
  | .bchCorrect, .word r => some (.bchCorrect inst r)
  | .bchDecode, .word c => some (.bchDecode inst c)
  | .hdReset, .none => some (.hdReset inst)
  | .hdStep, .sample (.bit b) => some (.hdStep inst b)
  | .pgReset, .none => some (.pgReset inst)
  | .pgSync, .word w => if w < 2 ^ 32 then some (.pgSync inst (BitVec.ofNat 32 w)) else none
  | .pgStep, .sample (.bit b) => some (.pgStep inst b)
  | .pgSetFilter, .word f => some (.pgSetFilter inst f)
  | .outqDrain, .none => some (.outqDrain inst)
  | .coreReset, .none => some (.coreReset inst)
  | _, _ => none

/-- Decode a command: total, and rejecting by name (rules R101 to R107). -/
def decode (c : Command) : Except Reject Instr :=
  match Op.ofCode (wordCode c.word).toNat with
  | some op =>
    match shaped op (wordInst c.word) c.operand with
    | some i => .ok i
    | none => .error .operandShape
  | none =>
    if 0xA0 ≤ (wordCode c.word).toNat ∧ (wordCode c.word).toNat < 0xF0 then .error .customUnit
    else .error .reservedCode

/-! ### The encoder -/

/-- The operation of an instruction: its row of the table (rule R104). -/
def Instr.op : Instr → Op
  | .pipeSerial _ _ => .pipeSerial
  | .pipeParallel _ _ _ _ => .pipeParallel
  | .pipeInit _ _ => .pipeInit
  | .pipeStep _ _ => .pipeStep
  | .gzConfig _ _ _ => .gzConfig
  | .gzInit _ _ => .gzInit
  | .gzStep _ _ => .gzStep
  | .firConfig _ _ _ _ _ _ _ => .firConfig
  | .firInit _ _ => .firInit
  | .firStep _ _ => .firStep
  | .fircStep _ _ _ => .fircStep
  | .firSetTaps _ _ => .firSetTaps
  | .bqConfig _ _ _ _ _ _ => .bqConfig
  | .bqInit _ _ => .bqInit
  | .bqStep _ _ => .bqStep
  | .bqcStep _ _ _ => .bqcStep
  | .maConfig _ _ => .maConfig
  | .maInit _ _ => .maInit
  | .maStep _ _ => .maStep
  | .bsConfig _ _ _ _ _ => .bsConfig
  | .bsInit _ _ => .bsInit
  | .bsStep _ _ => .bsStep
  | .bsWaitForSync _ => .bsWaitForSync
  | .bchConfig _ _ _ _ _ _ => .bchConfig
  | .gfExp _ _ => .gfExp
  | .gfLog _ _ => .gfLog
  | .gfMul _ _ _ => .gfMul
  | .gfInv _ _ => .gfInv
  | .gfPow _ _ _ => .gfPow
  | .bchEncode _ _ => .bchEncode
  | .bchSyndrome _ _ => .bchSyndrome
  | .bchCheck _ _ => .bchCheck
  | .bchCorrect _ _ => .bchCorrect
  | .bchDecode _ _ => .bchDecode
  | .hdReset _ => .hdReset
  | .hdStep _ _ => .hdStep
  | .pgReset _ => .pgReset
  | .pgSync _ _ => .pgSync
  | .pgStep _ _ => .pgStep
  | .pgSetFilter _ _ => .pgSetFilter
  | .outqDrain _ => .outqDrain
  | .coreReset _ => .coreReset

/-- The instance number of an instruction (rule R101). -/
def Instr.inst : Instr → Inst
  | .pipeSerial inst _ => inst
  | .pipeParallel inst _ _ _ => inst
  | .pipeInit inst _ => inst
  | .pipeStep inst _ => inst
  | .gzConfig inst _ _ => inst
  | .gzInit inst _ => inst
  | .gzStep inst _ => inst
  | .firConfig inst _ _ _ _ _ _ => inst
  | .firInit inst _ => inst
  | .firStep inst _ => inst
  | .fircStep inst _ _ => inst
  | .firSetTaps inst _ => inst
  | .bqConfig inst _ _ _ _ _ => inst
  | .bqInit inst _ => inst
  | .bqStep inst _ => inst
  | .bqcStep inst _ _ => inst
  | .maConfig inst _ => inst
  | .maInit inst _ => inst
  | .maStep inst _ => inst
  | .bsConfig inst _ _ _ _ => inst
  | .bsInit inst _ => inst
  | .bsStep inst _ => inst
  | .bsWaitForSync inst => inst
  | .bchConfig inst _ _ _ _ _ => inst
  | .gfExp inst _ => inst
  | .gfLog inst _ => inst
  | .gfMul inst _ _ => inst
  | .gfInv inst _ => inst
  | .gfPow inst _ _ => inst
  | .bchEncode inst _ => inst
  | .bchSyndrome inst _ => inst
  | .bchCheck inst _ => inst
  | .bchCorrect inst _ => inst
  | .bchDecode inst _ => inst
  | .hdReset inst => inst
  | .hdStep inst _ => inst
  | .pgReset inst => inst
  | .pgSync inst _ => inst
  | .pgStep inst _ => inst
  | .pgSetFilter inst _ => inst
  | .outqDrain inst => inst
  | .coreReset inst => inst

/-- The operand of an instruction as the operand port carries it (rules R102, R103, R106). -/
def Instr.operand : Instr → Operand
  | .pipeSerial _ l => .nodes l none
  | .pipeParallel _ l f t => .nodes l (some (f, t))
  | .pipeInit _ r => .rate r
  | .pipeStep _ v => .sample v
  | .gzConfig _ n f => .params [.int n, .real f]
  | .gzInit _ r => .rate r
  | .gzStep _ x => .sample (.real x)
  | .firConfig _ w t f1 f2 b cx => .params [.int w, .int t, .real f1, .real f2, .real b, .int cx]
  | .firInit _ r => .rate r
  | .firStep _ x => .sample (.real x)
  | .fircStep _ re im => .sample (.cplx re im)
  | .firSetTaps _ t => .word t
  | .bqConfig _ ty f0 q g cx => .params [.int ty, .real f0, .real q, .real g, .int cx]
  | .bqInit _ r => .rate r
  | .bqStep _ x => .sample (.real x)
  | .bqcStep _ re im => .sample (.cplx re im)
  | .maConfig _ n => .params [.int n]
  | .maInit _ r => .rate r
  | .maStep _ x => .sample (.real x)
  | .bsConfig _ c cand req cap => .params (.int c :: (cand.map .real ++ [.int req, .int cap]))
  | .bsInit _ r => .rate r
  | .bsStep _ b => .sample (.bit b)
  | .bsWaitForSync _ => .none
  | .bchConfig _ g n k t fp => .params [.bits g, .int n, .int k, .int t, .bits fp]
  | .gfExp _ e => .word e
  | .gfLog _ a => .word a
  | .gfMul _ a b => .words a b
  | .gfInv _ a => .word a
  | .gfPow _ a e => .words a e
  | .bchEncode _ m => .word m
  | .bchSyndrome _ r => .word r
  | .bchCheck _ r => .word r
  | .bchCorrect _ r => .word r
  | .bchDecode _ c => .word c
  | .hdReset _ => .none
  | .hdStep _ b => .sample (.bit b)
  | .pgReset _ => .none
  | .pgSync _ b => .word b.toNat
  | .pgStep _ b => .sample (.bit b)
  | .pgSetFilter _ f => .word f
  | .outqDrain _ => .none
  | .coreReset _ => .none

/-- Encode an instruction: its command word and its operand (rules R100, R101). -/
def encode (i : Instr) : Command := ⟨wordOf i.inst i.op, i.operand⟩

/-! ### The table's view: a command word with an operand of zeros -/

/-- The operand of zeros of an operation: what its operand words read where nothing has put a
value there. The shape is the operation's (rule R102). -/
def Op.zeroOperand : Op → Operand
  | .pipeSerial => .nodes [] none
  | .pipeParallel => .nodes [] (some (.sum, .real))
  | .pipeInit | .gzInit | .firInit | .bqInit | .maInit | .bsInit => .rate 0
  | .pipeStep | .gzStep | .firStep | .bqStep | .maStep => .sample (.real 0)
  | .fircStep | .bqcStep => .sample (.cplx 0 0)
  | .bsStep | .hdStep | .pgStep => .sample (.bit false)
  | .gzConfig => .params [.int 0, .real 0]
  | .firConfig => .params [.int 0, .int 0, .real 0, .real 0, .real 0, .int 0]
  | .bqConfig => .params [.int 0, .real 0, .real 0, .real 0, .int 0]
  | .maConfig => .params [.int 0]
  | .bsConfig => .params [.int 0, .int 0, .int 0]
  | .bchConfig => .params [.bits 0, .int 0, .int 0, .int 0, .bits 0]
  | .gfMul | .gfPow => .words 0 0
  | .firSetTaps | .gfExp | .gfLog | .gfInv | .bchEncode | .bchSyndrome | .bchCheck | .bchCorrect
  | .bchDecode | .pgSync | .pgSetFilter => .word 0
  | .bsWaitForSync | .hdReset | .pgReset | .outqDrain | .coreReset => .none

/-- The command of a table row's bits: the word of the low `nbits` bits of `w`, with the operand
of zeros of its operation. -/
def tableCommand (nbits w : Nat) : Command :=
  let word : CmdWord := BitVec.ofNat 16 (w % 2 ^ nbits)
  match Op.ofCode (wordCode word).toNat with
  | some op => ⟨word, op.zeroOperand⟩
  | none => ⟨word, .none⟩

/-- What the decoder reads from a table row's bits. -/
def decodeTableWord (nbits w : Nat) : Option Instr :=
  match decode (tableCommand nbits w) with
  | .ok i => some i
  | .error _ => none

end Sys2Proof
end

