-- ==== Sys2Proof/Config.lean ====
section
/-!
DEFINITION. What an implementation fixes and what the spec leaves open (00_scope.md rule R7,
92_eei_decisions.md).

* The constants fixed by decision (rule R7) are plain definitions.
* The numerics record `NUM` is a structure of functions, an argument of every rule that computes
  with a `Real` (rule R12).
* The free values are opaque constants WITHOUT a body: nothing can evaluate one or prove a value
  of one. They are the open numerics (rule R12), the open single-tone formulas, the open merge
  functions, the behaviour of external nodes, and the values that 93_implementation_defined.md
  entries U2, U3 and U5 leave open.
-/

namespace Sys2Proof

/-- An operation of arithmetic with its operands: the literal `p / q`, a sum, a difference, a product or
a quotient. -/
inductive Arith where
  | lit (p : Int) (q : Nat)
  | add (x y : RealVal)
  | sub (x y : RealVal)
  | mul (x y : RealVal)
  | div (x y : RealVal)
  deriving DecidableEq, Repr

/-- The numerics record `NUM` (rules R7 and R12): the functions on `Real`, the literals and the
circle constant as `NUM` represents them, the conversions from and to the port's binary32 patterns
(rule R103), the test `fin` by which U3 and U5 tell a number from a NaN or an infinity, and what U3
needs of exactness: `exact`, that `NUM` is exact real arithmetic, and `exactly`, that it is so in one
operation of arithmetic. -/
structure Numerics where
  ofB32 : B32 → RealVal
  toB32 : RealVal → B32
  lit : Int → Nat → RealVal
  pi : RealVal
  add : RealVal → RealVal → RealVal
  sub : RealVal → RealVal → RealVal
  mul : RealVal → RealVal → RealVal
  div : RealVal → RealVal → RealVal
  sqrt : RealVal → RealVal
  cos : RealVal → RealVal
  sin : RealVal → RealVal
  pow10 : RealVal → RealVal
  besselI0 : RealVal → RealVal
  le : RealVal → RealVal → Bool
  eq : RealVal → RealVal → Bool
  floor : RealVal → Int
  fin : RealVal → Bool
  exact : Bool
  exactly : Arith → Bool

namespace Numerics

/-- The literal `0` of the rules. -/
def zero (M : Numerics) : RealVal := M.lit 0 1

/-- An integer converted to `Real` (rule R216: "the integer `L` converted to `Real`"). -/
def ofNat (M : Numerics) (n : Nat) : RealVal := M.lit (n : Int) 1

/-- `a < b` and `b > a` of the rules, taken as "`a <= b` and not `a = b`": `NUM` has only `le` and `eq` (rule
R7), and no rule says how a strict comparison comes from them. DESIGN CHOICE, log entry 42. -/
def lt (M : Numerics) (a b : RealVal) : Bool := M.le a b && !M.eq a b

/-- The test `x > 0` (rule R356, BAD_ARGUMENT). A rate that is a NaN fails it (V-GZ-4). -/
def pos (M : Numerics) (x : RealVal) : Bool := M.lt M.zero x

/-- `-x`, written `0 - x`, since `NUM` has no negation. DESIGN CHOICE, log entry 8. -/
def neg (M : Numerics) (x : RealVal) : RealVal := M.sub M.zero x

/-- `|x|` of rule R216. DESIGN CHOICE, log entry 8. -/
def abs (M : Numerics) (x : RealVal) : RealVal := if M.lt x M.zero then M.neg x else x

/-- `round(x) = floor(x + 0.5)` of a non-negative `x`, half up (rule R13). -/
def round (M : Numerics) (x : RealVal) : Nat := (M.floor (M.add x (M.lit 1 2))).toNat

/-- `clampf(f)` for the sample rate `rate`, the one clamping policy (rule R14). Its strict comparisons are
`lt`: DESIGN CHOICE, log entry 42. -/
def clampf (M : Numerics) (rate f : RealVal) : RealVal :=
  let nyq := M.div rate (M.ofNat 2)
  if M.lt f M.zero then M.zero
  else if M.lt nyq f then nyq
  else f

/-- Both parts of a complex value are numbers (U3). -/
def finC (M : Numerics) (z : Cplx) : Bool := M.fin z.re && M.fin z.im

/-- A value in `[-1, 1]`, the range of a sample (rule R103, U3). -/
def inRange (M : Numerics) (x : RealVal) : Bool := M.le (M.lit (-1) 1) x && M.le x (M.lit 1 1)

/-- The operation gives another value than exact real arithmetic does, or may (U3). -/
def rounds (M : Numerics) (a : Arith) : Bool := !(M.exact || M.exactly a)

end Numerics

/-! ### What rule R12 requires of `NUM` -/

/-- A binary32 pattern is a NaN (rule R103, IEEE 754). -/
def b32Nan (b : B32) : Bool := b.extractLsb' 23 8 == 255 && b.extractLsb' 0 23 != 0

/-- A binary32 pattern is a finite number. -/
def b32Fin (b : B32) : Bool := b.extractLsb' 23 8 != 255

/-- A binary32 pattern is 0 or -0. -/
def b32Zero (b : B32) : Bool := b.extractLsb' 0 31 == 0

/-- The sign bit of a binary32 pattern. -/
def b32Neg (b : B32) : Bool := b.getLsbD 31

/-- A literal `p / q` of which the rules use one: both parts fit in 32 bits and the sign. -/
def litInRange (p : Int) (q : Nat) : Prop := p.natAbs ≤ 2 ^ 32 ∧ 1 ≤ q ∧ q ≤ 2 ^ 32

namespace Numerics

/-- The properties (b) and (c) rule R12 requires of `NUM`; (a), totality, holds of every Lean
function. Which values are numbers is pinned where the rules can see it: at the ports, the literals
and `PI`. (b) is required of every number (not of a NaN or an infinity, which IEEE arithmetic, one
of the numerics that rule R12 admits, has and the exact reals have not). (c), that comparison with 0
is exact, says: a pattern from a port and a literal compare with 0 as the numbers they are, a number
compares with 0 in one of the three ways, and what compares equal to 0 acts as 0. Log entry 15. -/
structure Lawful (M : Numerics) : Prop where
  fin_port : ∀ b, M.fin (M.ofB32 b) = b32Fin b
  fin_lit : ∀ p q, litInRange p q → M.fin (M.lit p q) = true
  fin_pi : M.fin M.pi = true
  sub_self : ∀ x, M.fin x = true → M.eq (M.sub x x) M.zero = true
  zero_add : ∀ x, M.fin x = true → M.eq (M.add M.zero x) x = true
  mul_zero : ∀ x, M.fin x = true → M.eq (M.mul x M.zero) M.zero = true
  zero_div : ∀ x, M.fin x = true → M.eq x M.zero = false → M.eq (M.div M.zero x) M.zero = true
  port_le : ∀ b, M.le (M.ofB32 b) M.zero = (!b32Nan b && (b32Neg b || b32Zero b))
  port_ge : ∀ b, M.le M.zero (M.ofB32 b) = (!b32Nan b && (!b32Neg b || b32Zero b))
  port_eq : ∀ b, M.eq (M.ofB32 b) M.zero = b32Zero b
  lit_le : ∀ p q, litInRange p q → M.le (M.lit p q) M.zero = decide (p ≤ 0)
  lit_ge : ∀ p q, litInRange p q → M.le M.zero (M.lit p q) = decide (0 ≤ p)
  zero_total : ∀ x, M.fin x = true → (M.le x M.zero || M.le M.zero x) = true
  zero_eq : ∀ x, M.fin x = true → M.eq x M.zero = (M.le x M.zero && M.le M.zero x)
  zero_acts : ∀ x y, M.fin x = true → M.eq x M.zero = true → M.fin y = true →
    M.eq (M.add y x) y = true ∧ M.eq (M.mul y x) M.zero = true

end Numerics

/-- A numerics record together with the properties rule R12 requires of it. -/
structure LawfulNumerics where
  num : Numerics
  lawful : num.Lawful

namespace Config

/-! #### The numerics of signs

They only show that the type of the opaque constant `openNumericsOf` is inhabited; no rule reads
them. The codes 0, 1 and 2 are zero, the positive and the negative numbers, 4 and 5 the two
infinities, every other code a value that is not a number. -/

def signOf (x : RealVal) : Int :=
  if x.code = 1 ∨ x.code = 4 then 1 else if x.code = 2 ∨ x.code = 5 then -1 else 0

def signNan (x : RealVal) : Bool := x.code == 3 || decide (6 ≤ x.code)

def ofSign (i : Int) : RealVal := if 0 < i then ⟨1⟩ else if i < 0 then ⟨2⟩ else ⟨0⟩

def signPort (b : B32) : RealVal :=
  if b32Nan b then ⟨3⟩
  else if b32Zero b then ⟨0⟩
  else if b32Fin b then (if b32Neg b then ⟨2⟩ else ⟨1⟩)
  else (if b32Neg b then ⟨5⟩ else ⟨4⟩)

def signNumerics : Numerics where
  ofB32 := signPort
  toB32 := fun _ => 0
  lit := fun p _ => ofSign p
  pi := ⟨1⟩
  add := fun x y => ofSign (signOf x + signOf y)
  sub := fun x y => ofSign (signOf x - signOf y)
  mul := fun x y => ofSign (signOf x * signOf y)
  div := fun x y => ofSign (signOf x * signOf y)
  sqrt := fun x => x
  cos := fun _ => ⟨1⟩
  sin := fun x => x
  pow10 := fun _ => ⟨1⟩
  besselI0 := fun _ => ⟨1⟩
  le := fun x y => !signNan x && !signNan y && decide (signOf x ≤ signOf y)
  eq := fun x y => !signNan x && !signNan y && decide (signOf x = signOf y)
  floor := signOf
  fin := fun x => decide (x.code ≤ 2)
  exact := false
  exactly := fun _ => false

theorem signNumerics_fin {x : RealVal} (h : signNumerics.fin x = true) :
    x = ⟨0⟩ ∨ x = ⟨1⟩ ∨ x = ⟨2⟩ := by
  obtain ⟨c⟩ := x
  have h' : c ≤ 2 := of_decide_eq_true h
  interval_cases c <;> simp

theorem b32Zero_fin {b : B32} (h : b32Zero b = true) : b32Fin b = true ∧ b32Nan b = false := by
  have h0 : b.extractLsb' 0 31 = 0 := by simpa [b32Zero] using h
  have he : b.extractLsb' 23 8 = 0 := by
    have : b.extractLsb' 23 8 = (b.extractLsb' 0 31).extractLsb' 23 8 := by ext i hi; simp
    rw [this, h0]; rfl
  simp [b32Fin, b32Nan, he]

/-- A pattern is a NaN, an infinity, a zero or another finite number. -/
theorem b32_kinds (b : B32) :
    (b32Nan b = true ∧ b32Fin b = false ∧ b32Zero b = false) ∨
    (b32Nan b = false ∧ b32Fin b = false ∧ b32Zero b = false) ∨
    (b32Nan b = false ∧ b32Fin b = true ∧ b32Zero b = true) ∨
    (b32Nan b = false ∧ b32Fin b = true ∧ b32Zero b = false) := by
  have h1 : b32Zero b = true → b32Fin b = true ∧ b32Nan b = false := b32Zero_fin
  have h2 : b32Fin b = true → b32Nan b = false := by
    intro h; have h' : b.extractLsb' 23 8 ≠ 255 := by simpa [b32Fin] using h
    simp only [b32Nan, beq_eq_false_iff_ne.mpr h', Bool.false_and]
  cases hz : b32Zero b <;> cases hf : b32Fin b <;> cases hn : b32Nan b <;> simp_all

theorem signNumerics_lawful : signNumerics.Lawful where
  fin_port b := by
    rcases b32_kinds b with ⟨hn, hf, hz⟩ | ⟨hn, hf, hz⟩ | ⟨hn, hf, hz⟩ | ⟨hn, hf, hz⟩ <;>
      cases hs : b32Neg b <;> simp [signNumerics, signPort, hn, hf, hz, hs]
  fin_lit p q _ := by
    simp only [signNumerics, ofSign]; split <;> (try split) <;> rfl
  fin_pi := rfl
  sub_self x h := by rcases signNumerics_fin h with rfl | rfl | rfl <;> decide
  zero_add x h := by rcases signNumerics_fin h with rfl | rfl | rfl <;> decide
  mul_zero x h := by rcases signNumerics_fin h with rfl | rfl | rfl <;> decide
  zero_div x h _ := by rcases signNumerics_fin h with rfl | rfl | rfl <;> decide
  port_le b := by
    rcases b32_kinds b with ⟨hn, hf, hz⟩ | ⟨hn, hf, hz⟩ | ⟨hn, hf, hz⟩ | ⟨hn, hf, hz⟩ <;>
      cases hs : b32Neg b <;> simp [signNumerics, signPort, hn, hf, hz, hs] <;> decide
  port_ge b := by
    rcases b32_kinds b with ⟨hn, hf, hz⟩ | ⟨hn, hf, hz⟩ | ⟨hn, hf, hz⟩ | ⟨hn, hf, hz⟩ <;>
      cases hs : b32Neg b <;> simp [signNumerics, signPort, hn, hf, hz, hs] <;> decide
  port_eq b := by
    rcases b32_kinds b with ⟨hn, hf, hz⟩ | ⟨hn, hf, hz⟩ | ⟨hn, hf, hz⟩ | ⟨hn, hf, hz⟩ <;>
      cases hs : b32Neg b <;> simp [signNumerics, signPort, hn, hf, hz, hs] <;> decide
  lit_le p q _ := by
    rcases lt_trichotomy p 0 with h | h | h
    · simp [signNumerics, Numerics.zero, ofSign, h, not_lt_of_gt h, le_of_lt h]; decide
    · subst h; rfl
    · simp [signNumerics, Numerics.zero, ofSign, h, not_le_of_gt h]; decide
  lit_ge p q _ := by
    rcases lt_trichotomy p 0 with h | h | h
    · simp [signNumerics, Numerics.zero, ofSign, h, not_lt_of_gt h, not_le_of_gt h]; decide
    · subst h; rfl
    · simp [signNumerics, Numerics.zero, ofSign, h, le_of_lt h]; decide
  zero_total x h := by rcases signNumerics_fin h with rfl | rfl | rfl <;> decide
  zero_eq x h := by rcases signNumerics_fin h with rfl | rfl | rfl <;> decide
  zero_acts x y h h0 hy := by
    rcases signNumerics_fin h with rfl | rfl | rfl <;>
      rcases signNumerics_fin hy with rfl | rfl | rfl <;> revert h0 <;> decide

/-- FREE VALUE: the numerics `NUM` that the spec leaves open (rules R7, R12, D5), one for each
`k`. No body: nothing is known of it but the properties of rule R12. -/
opaque openNumericsOf [Inhabited LawfulNumerics] : Nat → LawfulNumerics

/-- The `k`-th open numerics with its properties. -/
def openNumerics : Nat → LawfulNumerics := @openNumericsOf ⟨⟨signNumerics, signNumerics_lawful⟩⟩

/-- FREE VALUE: the single-tone tap formula `FIR_TONE(n, TE, a, win)` that rule R174 leaves open
(D11), one for each `k`. The spec does not say whether `win` is the window function or its value at
`n`; the formula is given the list of the values `win(0) .. win(TE-1)`, from which it can read
either. DESIGN CHOICE, log entry 16. -/
opaque firTone : Nat → Nat → Nat → RealVal → List RealVal → RealVal

/-- What a function the block knows nothing of answers, before it is read at its declared type:
whether it answers `Some`, and a value for each of the four types. -/
structure RawOut where
  valid : Bool
  re : RealVal
  im : RealVal
  bit : Bool
  sym : BitVec 32
  deriving DecidableEq, Repr, Inhabited

/-- The value of a raw answer at the declared type `t` (rule R145: the output of a composite has the
declared type). -/
def RawOut.sample (o : RawOut) : Tag → Sample
  | .real => .real o.re
  | .cplx => .cplx ⟨o.re, o.im⟩
  | .bool => .bool o.bit
  | .sym => .sym o.sym

/-- A raw answer as an `Option` of the declared type `t`. -/
def RawOut.answer (o : RawOut) (t : Tag) : Option Sample := if o.valid then some (o.sample t) else none

/-- FREE VALUE: the open merge functions of parallel composites (rule R145, P9): the `k`-th one
applied to the list of the branches' outputs. -/
opaque merge : Nat → List Sample → RawOut

/-- FREE VALUE: the rate the `k`-th open external node returns from `init`, from its state before and
the rate it is given (rules R140, R141). It can differ on a second INIT with the same rate
(93_implementation_defined.md entry U2). -/
opaque extRate : Nat → Nat → RealVal → RealVal

/-- FREE VALUE: the state the `k`-th open external node is in after `init`, from its state before
and the rate. -/
opaque extInit : Nat → Nat → RealVal → Nat

/-- FREE VALUE: the answer of the `k`-th open external node to `step`, with its next state. It can
have another type than the declared one (93_implementation_defined.md entry U2). -/
opaque extStep : Nat → Nat → Sample → Option Sample × Nat

/-- FREE VALUE: the `i`-th result the spec leaves open because an external node broke the node contract
(93_implementation_defined.md entry U2: "any value"; log entry 18), or because the operands of a composite
broke the source contract (entry U3; log entry 12). -/
opaque freeOut : Nat → RawOut

/-- The two operations the block routes to an external node (rule R107). -/
inductive ExtOp where
  | init | step
  deriving DecidableEq, Repr, Inhabited

/-- FREE VALUE: which operation a code `OP` of a unit number 10 to 14 stands for. Rule R107 routes
"`INIT` and `STEP` of such a node" and gives no operation numbers. -/
opaque extOpCode : BitVec 4 → BitVec 4 → Option ExtOp

/-- FREE VALUE: the `i`-th value the spec leaves open (93_implementation_defined.md entries U3 and
U5: "any value"). -/
opaque freeReal : Nat → RealVal

/-- FREE VALUE: the text `PG_ESCAPE` gives a character code outside `0x20..0x7E` (rule R315, D38);
no rule reads it. -/
opaque pgEscape : BitVec 7 → List Char

/-! ### Constants fixed by decision (00_scope.md rule R7) -/

/-- `HD_FLAG`, the flag pattern `01111110` (rule R110). -/
def hdFlag : BitVec 8 := 0x7E

/-- `HD_MIN_BITS`, the minimum frame size. -/
def hdMinBits : Nat := 120

/-- `HD_MAX_REP`, the most repeater blocks. -/
def hdMaxRep : Nat := 8

/-- `HD_MIN_FLAGS`, the flags that must be counted before data is accepted (D26). -/
def hdMinFlags : Nat := 1

/-- `HD_MAX_BYTES`, the capacity of the frame byte buffer (D29). -/
def hdMaxBytes : Nat := 512

/-- `HD_PID_ESC`, the protocol-ID escape value (D28). -/
def hdPidEsc : BitVec 8 := 0xFF

/-- `BS_MAX_RUN_BITS`, the longest run accepted while locked (D19). -/
def bsMaxRunBits : Nat := 512

/-- `BCH_MAX_M`, the largest field exponent `BCH.CONFIG` accepts (D25). -/
def bchMaxM : Nat := 16

/-- `PG_BATCH`, the codewords of a batch. -/
def pgBatch : Nat := 16

/-- `PG_SEARCH_MAX`, the comparisons made for the first sync word (D34). -/
def pgSearchMax : Nat := 32

/-- `PG_NUM_GROUPS`, the 4-bit groups read per data codeword (D37). -/
def pgNumGroups : Nat := 4

/-- `PG_NUM_REVERSE`, whether each group is bit-reversed (D37). -/
def pgNumReverse : Bool := true

/-- `PG_ALPHABET`, the 16-symbol numeral alphabet (rule R121, D37). -/
def pgAlphabet : List Char :=
  ['0', '1', '2', '3', '4', '5', '6', '7', '8', '9', '*', 'U', ' ', '-', ')', '(']

/-- The maximum of a saturating `u32` (rule R11). -/
def u32Max : Nat := 2 ^ 32 - 1

end Config

/-- One more, on a counter that saturates at the top of a `u32` (rule R11). -/
def satInc32 (n : Nat) : Nat := min (n + 1) Config.u32Max

/-! ### OPEN parameters that are plain data -/

/-- Which numerics the block computes with: the reference instantiation of rule R7 (IEEE
binary64) or the `k`-th open one. -/
inductive NumSel where
  | binary64
  | other (k : Nat)
  deriving DecidableEq, Repr

/-- Which single-tone formula `FIR_TONE` is: the default of rule R174 or the `k`-th open one. -/
inductive ToneSel where
  | reference
  | other (k : Nat)
  deriving DecidableEq, Repr

/-- `PG_PARITY_POS`, 31 or 0 (rule R118). -/
inductive ParityPos where
  | top
  | bottom
  deriving DecidableEq, Repr

/-- Where a `CHAIN` declaration sends the bits of a BS instance (rule R109). -/
inductive ChainTo where
  | hd (inst : Inst)
  | pg (inst : Inst)
  deriving DecidableEq, Repr

/-- A `CHAIN BS@bs -> …` wiring declaration (rules R109, R345). -/
structure Chain where
  bs : Inst
  target : ChainTo
  deriving DecidableEq, Repr

/-- The OPEN parameters of rule R7 that are plain data. Every rule takes them as an argument; no
operation writes them. -/
structure Params where
  num : NumSel
  tone : ToneSel
  pgSync : BitVec 32
  pgIdle : BitVec 21
  pgPreMin : Nat
  pgPreMax : Nat
  pgParityPos : ParityPos
  chains : List Chain
  deriving DecidableEq, Repr

/-- The constraint of rule R7 on the OPEN parameters, `PG_PRE_MIN <= PG_PRE_MAX`. -/
def Params.wf (p : Params) : Bool := decide (p.pgPreMin ≤ p.pgPreMax)

/-- The reference values of rule R7 and 92_eei_decisions.md, with no chain declared. -/
def Params.reference : Params where
  num := .binary64
  tone := .reference
  pgSync := 0x7CD215D8
  pgIdle := 0x0F5138
  pgPreMin := 16
  pgPreMax := 1024
  pgParityPos := .top
  chains := []

end Sys2Proof
end

