-- ==== Sys2Proof/Machine/Binary64.lean ====
section
/-!
DEFINITION. The reference numerics (00_scope.md rules R7, R12): IEEE binary64, round to nearest
even. The code of a `Real` is its 64-bit pattern.

`add`, `sub`, `mul`, `div`, `sqrt`, the comparisons and the conversions are the correctly rounded
ones of IEEE 754. `cos`, `sin`, `10^x` and the Bessel function `I0` are evaluated to 192 fractional
bits and then rounded: the spec names these functions and no rounding of theirs (PRESUMED, log
entry 4). The spec's rules take the numerics as an argument (rule R12), so nothing outside this
file depends on it but `State.reset`, which selects it.
-/

namespace Sys2Proof
namespace Machine
namespace B64

/-- What a pattern stands for: not a number, an infinity, or `(-1)^neg · m · 2^e`. -/
inductive View where
  | nan
  | inf (neg : Bool)
  | fin (neg : Bool) (m : Nat) (e : Int)
  deriving DecidableEq, Repr

/-- The value of a pattern with `ew` exponent bits, `fw` fraction bits and least exponent
`qmin`. -/
def viewOf (ew fw : Nat) (qmin : Int) (c : Nat) : View :=
  let neg := (c >>> (ew + fw)) % 2 == 1
  let ex := (c >>> fw) % 2 ^ ew
  let fr := c % 2 ^ fw
  if ex = 2 ^ ew - 1 then (if fr = 0 then .inf neg else .nan)
  else if ex = 0 then .fin neg fr qmin
  else .fin neg (fr + 2 ^ fw) (qmin + ((ex - 1 : Nat) : Int))

def view (x : RealVal) : View := viewOf 11 52 (-1074) x.code

/-- The magnitude pattern nearest to `m · 2^e` (a little more where `sticky`), ties to even, with
`p` significand bits and least exponent `qmin`. A caller that passes `sticky` passes more than `p`
bits. -/
def roundMag (p : Nat) (qmin : Int) (m : Nat) (e : Int) (sticky : Bool) : Nat :=
  if m = 0 then 0
  else
    let q := max (e + (Nat.log2 m + 1 : Nat) - (p : Int)) qmin
    let sh := q - e
    let r :=
      if sh ≤ 0 then m <<< (-sh).toNat
      else
        let k := sh.toNat
        let r := m >>> k
        let rem := m % 2 ^ k
        let half := 2 ^ (k - 1)
        if rem > half || (rem == half && (sticky || r % 2 == 1)) then r + 1 else r
    (q - qmin).toNat * 2 ^ (p - 1) + r

/-- The sign bit and a magnitude as a pattern; a magnitude at or above the pattern of infinity
overflows to it. -/
def pack (inf sign : Nat) (neg : Bool) (mag : Nat) : Nat :=
  (if neg then sign else 0) + min mag inf

def infCode : Nat := 2047 * 2 ^ 52
def signCode : Nat := 2 ^ 63

def nan : RealVal := ⟨infCode + 2 ^ 51⟩
def inf (neg : Bool) : RealVal := ⟨pack infCode signCode neg infCode⟩
def zeroS (neg : Bool) : RealVal := ⟨pack infCode signCode neg 0⟩

/-- The binary64 number nearest to `(-1)^neg · m · 2^e`. -/
def ofMag (neg : Bool) (m : Nat) (e : Int) (sticky : Bool) : RealVal :=
  ⟨pack infCode signCode neg (roundMag 53 (-1074) m e sticky)⟩

/-- The quotient `p / q` of two naturals rounded once. -/
def quot (neg : Bool) (p q : Nat) (e : Int) : RealVal :=
  let k := 128 + Nat.log2 q
  let n := p <<< k
  ofMag neg (n / q) (e - (k : Int)) (n % q != 0)

def lit (p : Int) (q : Nat) : RealVal := quot (p < 0) p.natAbs q 0

def flip (x : RealVal) : RealVal :=
  ⟨if (x.code >>> 63) % 2 == 1 then x.code - signCode else x.code + signCode⟩

/-- `±m · 2^e` as an integer multiple of `2^base`, for `base ≤ e`. -/
def scaled (neg : Bool) (m : Nat) (e base : Int) : Int :=
  let v : Int := ((m <<< (e - base).toNat : Nat) : Int)
  if neg then -v else v

def add (x y : RealVal) : RealVal :=
  match view x, view y with
  | .nan, _ => nan
  | _, .nan => nan
  | .inf a, .inf b => if a = b then x else nan
  | .inf _, .fin _ _ _ => x
  | .fin _ _ _, .inf _ => y
  | .fin a m e, .fin b n f =>
    if m = 0 then (if n = 0 then zeroS (a && b) else y)
    else if n = 0 then x
    else
      let base := min e f
      let s := scaled a m e base + scaled b n f base
      if s = 0 then zeroS false else ofMag (s < 0) s.natAbs base false

def sub (x y : RealVal) : RealVal := add x (flip y)

def mul (x y : RealVal) : RealVal :=
  match view x, view y with
  | .nan, _ => nan
  | _, .nan => nan
  | .inf a, .inf b => inf (a != b)
  | .inf a, .fin b n _ => if n = 0 then nan else inf (a != b)
  | .fin a m _, .inf b => if m = 0 then nan else inf (a != b)
  | .fin a m e, .fin b n f => ofMag (a != b) (m * n) (e + f) false

def div (x y : RealVal) : RealVal :=
  match view x, view y with
  | .nan, _ => nan
  | _, .nan => nan
  | .inf _, .inf _ => nan
  | .inf a, .fin b _ _ => inf (a != b)
  | .fin a _ _, .inf b => zeroS (a != b)
  | .fin a m e, .fin b n f =>
    if n = 0 then (if m = 0 then nan else inf (a != b)) else quot (a != b) m n (e - f)

/-- The integer square root, bit by bit from bit `k - 1` down. -/
def isqrt (n : Nat) : Nat → Nat → Nat
  | 0, r => r
  | k + 1, r => if (r + 2 ^ k) * (r + 2 ^ k) ≤ n then isqrt n k (r + 2 ^ k) else isqrt n k r

def sqrt (x : RealVal) : RealVal :=
  match view x with
  | .nan => nan
  | .inf neg => if neg then nan else x
  | .fin neg m e =>
    if m = 0 then x
    else if neg then nan
    else
      let k : Nat := if e % 2 = 0 then 120 else 121
      let n := m <<< k
      let r := isqrt n (Nat.log2 n / 2 + 1) 0
      ofMag false r ((e - (k : Int)) / 2) (r * r != n)

def le (x y : RealVal) : Bool :=
  match view x, view y with
  | .nan, _ => false
  | _, .nan => false
  | .inf a, .inf b => a || !b
  | .inf a, .fin _ _ _ => a
  | .fin _ _ _, .inf b => !b
  | .fin a m e, .fin b n f => decide (scaled a m e (min e f) ≤ scaled b n f (min e f))

def eq (x y : RealVal) : Bool := le x y && le y x

/-- The greatest integer not above a number; 0 of a value that is not a number (the rules take no
floor of one). -/
def floor (x : RealVal) : Int :=
  match view x with
  | .nan => 0
  | .inf _ => 0
  | .fin neg m e =>
    let v : Int := if neg then -(m : Int) else (m : Int)
    if 0 ≤ e then v * 2 ^ e.toNat else v / 2 ^ (-e).toNat

def fin (x : RealVal) : Bool :=
  match view x with
  | .fin _ _ _ => true
  | _ => false

/-- A binary32 pattern widened, exactly (rule R103). -/
def ofB32 (b : B32) : RealVal :=
  match viewOf 8 23 (-149) b.toNat with
  | .nan => nan
  | .inf neg => inf neg
  | .fin neg m e => ofMag neg m e false

/-- A number rounded to binary32 for a port (rule R103). -/
def toB32 (x : RealVal) : B32 :=
  let code := pack (255 * 2 ^ 23) (2 ^ 31)
  match view x with
  | .nan => BitVec.ofNat 32 (255 * 2 ^ 23 + 2 ^ 22)
  | .inf neg => BitVec.ofNat 32 (code neg (255 * 2 ^ 23))
  | .fin neg m e => BitVec.ofNat 32 (code neg (roundMag 24 (-149) m e false))

/-! ### The transcendental functions, in fixed point with 192 fractional bits -/

def one : Int := 2 ^ 192
def piFx : Int := 19720096697726538562396133364228268891463450865190089732560
def ln2Fx : Int := 4350955369971217654477563090224794165364344896676135745069
def ln10Fx : Int := 14453560883108425870374435737727394665043423914827363902522

def toFx (neg : Bool) (m : Nat) (e : Int) : Int :=
  let v : Int :=
    if 0 ≤ e + 192 then ((m <<< (e + 192).toNat : Nat) : Int)
    else ((m >>> (-(e + 192)).toNat : Nat) : Int)
  if neg then -v else v

def ofFx (v : Int) : RealVal := ofMag (v < 0) v.natAbs (-192) false

/-- An angle reduced to `[-π, π]`. -/
def reduce (t : Int) : Int :=
  let r := t % (2 * piFx)
  if r > piFx then r - 2 * piFx else r

/-- The alternating series whose `k`-th term is the one before it times
`-t2 / (k (k + 1))`, `k` advancing by two: the cosine from `k = 1`, the sine from `k = 2`. -/
def trig (t2 : Int) : Nat → Int → Int → Int
  | 0, _, _ => 0
  | fuel + 1, k, term => term + trig t2 fuel (k + 2) (-(term * t2) / (one * (k * (k + 1))))

def cos (x : RealVal) : RealVal :=
  match view x with
  | .nan => nan
  | .inf _ => nan
  | .fin neg m e =>
    let t := reduce (toFx neg m e)
    ofFx (trig (t * t / one) 50 1 one)

def sin (x : RealVal) : RealVal :=
  match view x with
  | .nan => nan
  | .inf _ => nan
  | .fin neg m e =>
    if m = 0 ∨ e < -132 then x
    else
      let t := reduce (toFx neg m e)
      ofFx (trig (t * t / one) 50 2 t)

/-- The exponential series of `r` with first term `term`. -/
def expSeries (r : Int) : Nat → Int → Int → Int
  | 0, _, _ => 0
  | fuel + 1, k, term => term + expSeries r fuel (k + 1) (term * r / (one * k))

def pow10 (x : RealVal) : RealVal :=
  match view x with
  | .nan => nan
  | .inf neg => if neg then zeroS false else x
  | .fin neg m e =>
    let v := toFx neg m e
    if v > 400 * one then inf false
    else if v < -400 * one then zeroS false
    else
      let t := v * ln10Fx / one
      let k := t / ln2Fx
      let s := expSeries (t - k * ln2Fx) 60 1 one
      ofMag false s.natAbs (k - 192) false

/-- The series of `I0`, whose `k`-th term is the one before it times `z / k²`, `z = (x/2)²`. -/
def besselSeries (z : Int) : Nat → Int → Int → Int
  | 0, _, _ => 0
  | fuel + 1, k, term => term + besselSeries z fuel (k + 1) (term * z / (one * (k * k)))

def besselI0 (x : RealVal) : RealVal :=
  match view x with
  | .nan => nan
  | .inf _ => inf false
  | .fin neg m e =>
    let v := toFx neg m e
    if v.natAbs > 720 * 2 ^ 192 then inf false
    else ofFx (besselSeries (v * v / (4 * one)) (60 + 2 * (v.natAbs / 2 ^ 192)) 1 one)

/-- The binary64 number nearest to π. -/
def pi : RealVal := ⟨0x400921FB54442D18⟩

/-- A number is `±p · 2^g`, in the form `scaled` compares. -/
def isValue (r : View) (neg : Bool) (m : Nat) (e : Int) : Bool :=
  match r with
  | .fin c p g => scaled c p g (min e g) == scaled neg m e (min e g)
  | _ => false

/-- The sum is not rounded. -/
def exactAdd (x y : RealVal) : Bool :=
  match view x, view y with
  | .fin a m e, .fin b n f =>
    let base := min e f
    let s := scaled a m e base + scaled b n f base
    isValue (view (add x y)) (s < 0) s.natAbs base
  | _, _ => false

/-- The operation is not rounded: the value it gives is that of exact real arithmetic (U3). -/
def exactly : Arith → Bool
  | .lit p q =>
    match view (lit p q) with
    | .fin c k g => isValue (.fin c (q * k) g) (p < 0) p.natAbs 0
    | _ => false
  | .add x y => exactAdd x y
  | .sub x y => exactAdd x (flip y)
  | .mul x y =>
    match view x, view y with
    | .fin a m e, .fin b n f => isValue (view (mul x y)) (a != b) (m * n) (e + f)
    | _, _ => false
  | .div x y =>
    match view x, view y, view (div x y) with
    | .fin a m e, .fin b n f, .fin c p g =>
      n != 0 && isValue (.fin a m e) (b != c) (n * p) (f + g)
    | _, _, _ => false

/-- The reference numerics record (rule R7). -/
def numerics : Numerics where
  ofB32 := ofB32
  toB32 := toB32
  lit := lit
  pi := pi
  add := add
  sub := sub
  mul := mul
  div := div
  sqrt := sqrt
  cos := cos
  sin := sin
  pow10 := pow10
  besselI0 := besselI0
  le := le
  eq := eq
  floor := floor
  fin := fin
  exact := false
  exactly := exactly

end B64

/-- The numerics record the block computes with (rules R7, R12): an argument of the model. -/
def numericsOf : NumSel → Numerics
  | .binary64 => B64.numerics
  | .other k => (Config.openNumerics k).num

end Machine
end Sys2Proof
end

