-- ==== Sys2Proof/Machine/State.lean ====
section
/-!
DEFINITION. The architectural state (10_state.md rules R30 to R49) and the state after reset.

A unit with a life cycle (rule R16) is `unconf`, `conf` or `run`; the phase register `PH` is which
of the three it is, and the unit holds exactly the registers that rule R49 says hold a value in
that phase. The spec's reset value of every other register is "unwritten": it "holds no value" and
"a model must not substitute zero" for it (rule R49).
-/

namespace Sys2Proof
namespace Machine

/-- The life-cycle phases UNCONF, CONF and RUN (rules R16, R32). -/
inductive Phase where
  | unconf | conf | run
  deriving DecidableEq, Repr

/-- The code of a phase (rule R32). -/
def Phase.code : Phase → Nat
  | .unconf => 0
  | .conf => 1
  | .run => 2

/-- A unit with a life cycle: its `PH` register together with the registers that hold a value in
that phase (rules R16, R32, R49): `C` are the `cfg` registers, `R` the `der` and `dyn` ones. -/
inductive Life (C R : Type) where
  | unconf
  | conf (cfg : C)
  | run (cfg : C) (reg : R)
  deriving DecidableEq, Repr

/-- The register `PH` of a unit with a life cycle (rule R32). -/
def Life.ph {C R : Type} : Life C R → Phase
  | .unconf => .unconf
  | .conf _ => .conf
  | .run _ _ => .run

/-- A register that the spec itself leaves unwritten in phase `RUN` (the entries "unwritten" in the
columns after INIT and after WAIT_FOR_SYNC of rule R38). -/
inductive Slot (α : Type) where
  | unwritten
  | holds (v : α)
  deriving DecidableEq, Repr

/-! ### The source contract (rule R103, 93_implementation_defined.md entries U3 and U5) -/

/-- How samples keep the source contract: all of them are in `[-1, 1]`; some are not, but all are
numbers; or some are a NaN or an infinity (rule R103, U3). -/
inductive Contract where
  | kept | outOfRange | notNumber
  deriving DecidableEq, Repr

/-- The model's record of what came to a unit since its last INIT: how its samples kept the source
contract, whether an operation of its arithmetic was rounded, and whether its outputs are any value (U3,
U5; log entries 12 and 13). -/
structure Standing where
  source : Contract
  rounded : Bool
  anyOut : Bool
  deriving DecidableEq, Repr

/-! ### PIPE (rule R33) -/

/-- `KIND`, with `MERGE` where the composite is parallel. -/
inductive PipeKind where
  | serial
  | parallel (merge : MergeFn)
  deriving DecidableEq, Repr

structure PipeCfg where
  kind : PipeKind
  child : List Nid
  inT : Tag
  outT : Tag
  deriving DecidableEq, Repr

/-- `standing` is the model's (U3). -/
structure PipeReg where
  rateIn : RealVal
  rateOut : RealVal
  standing : Standing
  deriving DecidableEq, Repr

abbrev Pipe := Life PipeCfg PipeReg

/-! ### GZ (rule R34) -/

structure GzCfg where
  n : Nat
  f : RealVal
  deriving DecidableEq, Repr

/-- `standing` is the model's (U3). -/
structure GzReg where
  rate : RealVal
  k : Nat
  coeff : RealVal
  ring : List RealVal
  wp : Nat
  standing : Standing
  deriving DecidableEq, Repr

abbrev Gz := Life GzCfg GzReg

/-! ### FIR (rule R35) -/

inductive Window where
  | rect | hamming | hann | blackman | kaiser
  deriving DecidableEq, Repr

structure FirCfg where
  window : Window
  t : Nat
  fstart : RealVal
  fstop : RealVal
  beta : RealVal
  cx : Bool
  deriving DecidableEq, Repr

/-- `RING[0..TE-1]`, of `Real` when `CX = 0` and of `Cplx` when `CX = 1`. -/
inductive FirRing where
  | real (l : List RealVal)
  | cplx (l : List Cplx)
  deriving DecidableEq, Repr

/-- `standing` is the model's (U3, U5). -/
structure FirReg where
  te : Nat
  rate : RealVal
  taps : List RealVal
  ring : FirRing
  wp : Nat
  standing : Standing
  deriving DecidableEq, Repr

abbrev Fir := Life FirCfg FirReg

/-! ### BQ (rule R36) -/

inductive BqType where
  | lowpass | highpass | bandpassSkirt | bandpassPeak | notch | lowshelf | highshelf
  deriving DecidableEq, Repr

structure BqCfg where
  type : BqType
  f0 : RealVal
  q : RealVal
  gainDb : RealVal
  cx : Bool
  deriving DecidableEq, Repr

/-- The four delay registers `X1`, `X2`, `Y1`, `Y2`. -/
structure Delay (α : Type) where
  x1 : α
  x2 : α
  y1 : α
  y2 : α
  deriving DecidableEq, Repr

/-- The delay registers, of `Real` when `CX = 0` and of `Cplx` when `CX = 1`. -/
inductive BqMem where
  | real (d : Delay RealVal)
  | cplx (d : Delay Cplx)
  deriving DecidableEq, Repr

/-- The five coefficients of a biquad. -/
structure BqCoeffs where
  b0 : RealVal
  b1 : RealVal
  b2 : RealVal
  a1 : RealVal
  a2 : RealVal
  deriving DecidableEq, Repr

/-- `standing` is the model's (U3, U5). -/
structure BqReg where
  rate : RealVal
  co : BqCoeffs
  mem : BqMem
  standing : Standing
  deriving DecidableEq, Repr

abbrev Bq := Life BqCfg BqReg

/-! ### MA (rule R37) -/

structure MaCfg where
  n : Nat
  deriving DecidableEq, Repr

/-- `standing` is the model's (U3, U5). -/
structure MaReg where
  ring : List RealVal
  wp : Nat
  sum : RealVal
  zrun : Nat
  standing : Standing
  deriving DecidableEq, Repr

abbrev Ma := Life MaCfg MaReg

/-! ### Messages and events (rules R287, R320, R360) -/

/-- One address block of a frame (rule R287). -/
structure Addr where
  call : List (BitVec 7)
  ssid : BitVec 4
  ch : Bool
  rr : BitVec 2
  ext : Bool
  deriving DecidableEq, Repr

/-- The frame types I, S and U (rule R114). -/
inductive FrameType where
  | i | s | u
  deriving DecidableEq, Repr

/-- The `Frame` message (rule R287). -/
structure Frame where
  dest : Addr
  src : Addr
  reps : List Addr
  ctl : BitVec 8
  type : FrameType
  pid : Option (BitVec 8)
  pid2 : Option (BitVec 8)
  payload : Option (List (BitVec 8))
  deriving DecidableEq, Repr

/-- The `Page` message (rule R320). -/
structure Page where
  hasAddr : Bool
  addr18 : BitVec 18
  func : BitVec 2
  pos : BitVec 4
  alpha : List (BitVec 7)
  num : List (BitVec 4)
  invalid : Bool
  ndata : Nat
  baud : RealVal
  deriving DecidableEq, Repr

/-- A message of the hand-off buffer (rule R43). -/
inductive Message where
  | frame (f : Frame)
  | page (p : Page)
  deriving DecidableEq, Repr

/-- The events (rule R360). -/
inductive Event where
  | sync (baud : RealVal)
  | noise (l : Nat)
  | bsOverflow
  | framing
  | short
  | overflow
  | syncword
  | syncwordInv
  | parity (idx : Nat)
  | unc (idx : Nat)
  | badPreamble
  | syncLost
  | resyncReq
  | msg (p : Page)
  deriving DecidableEq, Repr

/-- An event with the instance that raised it; the unit kind is part of the event (rule R360). -/
structure Raised where
  inst : Inst
  ev : Event
  deriving DecidableEq, Repr

/-! ### BS (rule R38) -/

structure BsCfg where
  c : Nat
  cand : List RealVal
  req : Nat
  cap : Nat
  deriving DecidableEq, Repr

/-- `bitbuf` holds the elements of `BITBUF` written since the buffer was last emptied, which are
its first ones: a write goes to the index after the last or overwrites. `last` is the model's: the
events of the last operation, which the output `IND` reads (rule R346). -/
structure BsReg where
  rate : RealVal
  spbc : List RealVal
  spb : RealVal
  lidx : Slot Nat
  lvalid : Bool
  level : Slot Bool
  run : Nat
  mvalid : Bool
  midx : Slot Nat
  mcnt : Nat
  bitbuf : List Bool
  head : Nat
  count : Nat
  last : List Event
  deriving DecidableEq, Repr

abbrev Bs := Life BsCfg BsReg

/-! ### BCH (rule R39) -/

/-- The `cfg` and `der` registers of a configured BCH instance. `log` holds `LOG[1..Q1]`, the entry
of `v` at position `v - 1`. -/
structure BchCode where
  g : Nat
  n : Nat
  k : Nat
  t : Nat
  fp : Nat
  m : Nat
  q1 : Nat
  exp : List Nat
  log : List Nat
  deriving DecidableEq, Repr

/-- A BCH instance: UNCONF, or RUN with its configuration (rule R32: no phase CONF). -/
inductive Bch where
  | unconf
  | run (code : BchCode)
  deriving DecidableEq, Repr

/-- The register `PH` of a BCH instance (rule R32). -/
def Bch.ph : Bch → Phase
  | .unconf => .unconf
  | .run _ => .run

/-! ### HD (rule R40) -/

inductive HdState where
  | waitFlag | countFlag | waitData | waitEnd
  deriving DecidableEq, Repr

/-- `buf` holds the elements of `BUF` written since reset, which are its first ones; those from
`BLEN` on are dead (rule R277). `last` is the model's: the events of the last operation, which the
output `IND` reads (rule R346). -/
structure Hd where
  state : HdState
  raw : BitVec 8
  cnt8 : Nat
  nflag : Nat
  ones : Nat
  acc : BitVec 8
  accn : Nat
  buf : List (BitVec 8)
  blen : Nat
  ovf : Bool
  last : List Event
  deriving DecidableEq, Repr

/-- The register `PH` of HD, which is RUN from reset and which nothing writes (rule R32). -/
def Hd.ph (_ : Hd) : Phase := .run

/-! ### PG (rules R41, R42) -/

inductive PgState where
  | firstBitSinceSync | waitForInitialSyncWord | waitForImmediateSyncWord | readPocsagBatch
  deriving DecidableEq, Repr

inductive Filter where
  | addressOnly | numeric | alpha | both
  deriving DecidableEq, Repr

/-- The in-progress message `PG.MSG` with the rolling character register (rule R42). -/
structure PgMsg where
  hasAddr : Bool
  addr18 : BitVec 18
  func : BitVec 2
  pos : BitVec 4
  alpha : List (BitVec 7)
  numt : List (BitVec 4)
  invalid : Bool
  ndata : Nat
  sr7 : BitVec 7
  sr7n : Nat
  deriving DecidableEq, Repr

/-- The empty message (rules R42, R313). -/
def PgMsg.empty : PgMsg where
  hasAddr := false
  addr18 := 0
  func := 0
  pos := 0
  alpha := []
  numt := []
  invalid := false
  ndata := 0
  sr7 := 0
  sr7n := 0

/-- `last` is the model's: the events of the last operation, which the output `IND` reads
(rule R346). -/
structure Pg where
  filter : Filter
  state : PgState
  inv : Bool
  prev : Bool
  alt : Nat
  predone : Bool
  search : Nat
  sr : BitVec 32
  nbits : Nat
  cwidx : Nat
  baud : RealVal
  parerr : Nat
  msg : PgMsg
  last : List Event
  deriving DecidableEq, Repr

/-- The register `PH` of PG, which is RUN from reset and which nothing writes (rule R32). -/
def Pg.ph (_ : Pg) : Phase := .run

/-! ### External nodes (rules R140, R141) -/

/-- The behaviour of an external node, a parameter of the model: the decimating nodes `DEC2` and
`DEC2'` of 95_test_vectors.md, or the `k`-th open one. -/
inductive ExtBehav where
  | dec2
  | dec2SameRate
  | other (k : Nat)
  deriving DecidableEq, Repr

/-- An external node bound to the block: its identity, its declared types, its phase, its
behaviour, and its own state as a code. The last two fields are the model's, and say whether the node
has broken the contract on its rate (93_implementation_defined.md entry U2, log entry 18): `inits`
holds each rate it was initialised with and the rate it then returned first, and `rateBroken` says
that its last INIT returned another one. -/
structure Ext where
  nid : Nid
  inT : Tag
  outT : Tag
  ph : Phase
  behav : ExtBehav
  st : Nat
  inits : List (RealVal × RealVal)
  rateBroken : Bool
  deriving DecidableEq, Repr

/-! ### The status, result and event ports (rules R105, R355 to R361) -/

/-- The codes of class ConfigError (rule R356). -/
inductive ConfigError where
  | badWindowSize | badEnum | badTapCount | badBand | badArgument | emptyCandidates
  | badBufferWidth | badCode | rateMismatch | emptyPipeline
  deriving DecidableEq, Repr

/-- The codes of class ContractFault (rule R357). -/
inductive ContractFault where
  | badPhase | duplicateNode | typeMismatch | badCommand | nodeOwned | unknownNode | badOperand
  deriving DecidableEq, Repr

/-- The status an operation answers with (rule R355). -/
inductive Status where
  | ok
  | config (e : ConfigError)
  | contract (e : ContractFault)
  deriving DecidableEq, Repr

/-- The result port (rules R104, R105). -/
inductive Result where
  | none
  | rate (r : RealVal)
  | sample (v : Option Sample)
  | word (w : Nat)
  | words (l : List Nat)
  | flag (b : Bool)
  | corrected (c : Nat) (nerr : Nat)
  | uncorrectable
  | frame (f : Option Frame)
  | page (p : Option Page)
  | messages (l : List Message)
  deriving DecidableEq, Repr

/-- A bit that a BS instance delivered. -/
structure Delivered where
  inst : Inst
  bit : Bool
  deriving DecidableEq, Repr

/-- What the block drives on its status, result and event ports for its last operation. `bits` is
the model's: the bits that BS instances delivered in the operation, on their own or inside a
composite, which the `CHAIN` wiring reads (rules R109, R363; log entry 22). -/
structure Output where
  status : Status
  result : Result
  events : List Raised
  bits : List Delivered
  deriving DecidableEq, Repr

/-! ### The whole block -/

/-- The state of the block (rule R30: the product of the states of its units).

`pipe` to `pg` hold the instances of each unit kind, the instance numbered `i` at position `i`;
the length of a list is `NINST` of the kind (rule R101). `used` is `PIPE.USED` (rule R33), `locks`
the node locks and `OUTQ.LOCK` that are held (rule R47), `outq` is `OUTQ.Q` (rule R43).

The model's own fields: `par`, the OPEN parameters (rule R7), which no operation writes; `ext`, the
external nodes bound to the block (rule R141); `pending`, the commands that the two agents have
issued and the block has not yet taken, in the order of issue (rules R31, R84); `out`, what the
output ports carry (rule R355); `freeIx`, the number of free values used so far. -/
structure State where
  par : Params
  pending : List Command
  out : Output
  freeIx : Nat
  used : List Nid
  locks : List Nid
  pipe : List Pipe
  gz : List Gz
  fir : List Fir
  bq : List Bq
  ma : List Ma
  bs : List Bs
  bch : List Bch
  hd : List Hd
  pg : List Pg
  ext : List Ext
  outq : List Message
  deriving DecidableEq, Repr

/-- The reset column of rule R40. -/
def Hd.reset : Hd where
  state := .waitFlag
  raw := 0
  cnt8 := 0
  nflag := 0
  ones := 0
  acc := 0
  accn := 0
  buf := []
  blen := 0
  ovf := false
  last := []

/-- The reset column of rule R41, with `zero` the `Real` 0. -/
def Pg.reset (zero : RealVal) : Pg where
  filter := .both
  state := .firstBitSinceSync
  inv := false
  prev := false
  alt := 0
  predone := false
  search := 0
  sr := 0
  nbits := 0
  cwidx := 0
  baud := zero
  parerr := 0
  msg := PgMsg.empty
  last := []

/-- `NINST` of every unit kind at reset. DESIGN CHOICE, log entry 2. -/
def resetInstances : Nat := 4

/-- What the output ports carry before the first operation. DESIGN CHOICE, log entry 3. -/
def Output.idle : Output := ⟨.ok, .none, [], []⟩

/-- The machine right after reset (rules R48, R340, R341, R391). The OPEN parameters have their
reference values (rule R7), `RealVal.mk 0` being the 0 of binary64; no command is pending and no
external node is bound. -/
def State.reset : State where
  par := Params.reference
  pending := []
  out := Output.idle
  freeIx := 0
  used := []
  locks := []
  pipe := List.replicate resetInstances .unconf
  gz := List.replicate resetInstances .unconf
  fir := List.replicate resetInstances .unconf
  bq := List.replicate resetInstances .unconf
  ma := List.replicate resetInstances .unconf
  bs := List.replicate resetInstances .unconf
  bch := List.replicate resetInstances .unconf
  hd := List.replicate resetInstances Hd.reset
  pg := List.replicate resetInstances (Pg.reset ⟨0⟩)
  ext := []
  outq := []

/-- The reasons for which a step stops with a fault: none. The block has no trap (rule R366) and
every operation ends with exactly one status (rule R377); an error is a status of the operation,
answered on the status port of a next state. Safe: no rule of the spec stops the machine. -/
inductive Fault where
  deriving DecidableEq, Repr

/-- The reasons for which a step is refused. -/
inductive Refusal where
  /-- Raised by an arm of `exec` for an instruction that has no meaning yet; no arm raises it in
  this model. Safe: the machine stops where the block would go on. -/
  | notModelled (mnemonic : String)
  deriving DecidableEq, Repr

end Machine
end Sys2Proof
end

