-- ==== Sys2Proof/Machine/Operands.lean ====
section
/-!
DEFINITION. Reading operands: the forms of rule R102, the enumerations of rules R35, R36 and R41,
and the bit operations of rule R10; and the encoding of results on the result port (rule R105).
-/

namespace Sys2Proof
namespace Machine

/-- The numerics record of the block (rule R12). -/
def State.num (s : State) : Numerics := numericsOf s.par.num

/-- The type tag of a sample on the operand port (rule R103). -/
def portTag : PortSample → Tag
  | .real _ => .real
  | .cplx _ _ => .cplx
  | .bit _ => .bool
  | .sym _ => .sym

/-- A sample operand as a value of the block (rule R103). -/
def sampleOf (M : Numerics) : PortSample → Sample
  | .real x => .real (M.ofB32 x)
  | .cplx re im => .cplx ⟨M.ofB32 re, M.ofB32 im⟩
  | .bit b => .bool b
  | .sym w => .sym w

/-- The register `WINDOW` of an integer operand: 0 to 4 (rules R35, R170). -/
def windowOf (v : I32) : Option Window :=
  match v.toInt with
  | 0 => some .rect
  | 1 => some .hamming
  | 2 => some .hann
  | 3 => some .blackman
  | 4 => some .kaiser
  | _ => none

/-- The register `TYPE` of an integer operand: 0 to 6 (rules R36, R185). -/
def bqTypeOf (v : I32) : Option BqType :=
  match v.toInt with
  | 0 => some .lowpass
  | 1 => some .highpass
  | 2 => some .bandpassSkirt
  | 3 => some .bandpassPeak
  | 4 => some .notch
  | 5 => some .lowshelf
  | 6 => some .highshelf
  | _ => none

/-- The register `CX` of an integer operand: 0 or 1 (rules R170, R185). -/
def cxOf (v : I32) : Option Bool :=
  match v.toInt with
  | 0 => some false
  | 1 => some true
  | _ => none

/-- The register `FILTER` of an operand word: 0 to 3 (rules R41, R303). -/
def filterOf : Nat → Option Filter
  | 0 => some .addressOnly
  | 1 => some .numeric
  | 2 => some .alpha
  | 3 => some .both
  | _ => none

/-- `popcount(v)` (rule R10). -/
def popcount {w : Nat} (v : BitVec w) : Nat := (List.range w).countP (fun i => v.getLsbD i)

/-- `rev_N(v)`: bit `i` is bit `N-1-i` of `v` (rule R10). -/
def rev {w : Nat} (v : BitVec w) : BitVec w := v.reverse

/-- A shift register with its newest bit in bit 0 (rules R74, R75): shifted left by one, the bit
entering at bit 0. -/
def shiftIn {w : Nat} (v : BitVec w) (b : Bool) : BitVec w :=
  v <<< 1 ||| BitVec.ofNat w b.toNat

/-! ### The result port (rules R103, R105) -/

/-- A value on the result port: a field of so many bits, or a list or a message, which the spec
gives no bits. -/
inductive PortField where
  | bits (width value : Nat)
  | word (value : Nat)
  | frame (f : Frame)
  | page (p : Page)
  deriving DecidableEq, Repr

/-- A sample on the result port (rule R103): a `Real` as its binary32 pattern, a `Cplx` as two of
them, a `Bool` as one bit, a `Sym` as 32. -/
def samplePort (M : Numerics) : Sample → List PortField
  | .real x => [.bits 32 (M.toB32 x).toNat]
  | .cplx z => [.bits 32 (M.toB32 z.re).toNat, .bits 32 (M.toB32 z.im).toNat]
  | .bool b => [.bits 1 b.toNat]
  | .sym w => [.bits 32 w.toNat]

/-- An `Option` on the result port: a valid bit, followed by the value where it is 1 (rule R105). -/
def optionPort : Option (List PortField) → List PortField
  | none => [.bits 1 0]
  | some v => .bits 1 1 :: v

/-- The fields of a result on the result port (rule R105). `Corrected` has tag 0, the word and the
count of bits it changed; `Uncorrectable` has tag 1 and no word. -/
def resultPort (M : Numerics) : Result → List PortField
  | .none => []
  | .rate r => [.bits 32 (M.toB32 r).toNat]
  | .sample v => optionPort (v.map (samplePort M))
  | .word w => [.word w]
  | .words l => l.map .word
  | .flag b => [.bits 1 b.toNat]
  | .corrected c nerr => [.bits 1 0, .word c, .word nerr]
  | .uncorrectable => [.bits 1 1]
  | .frame f => optionPort (f.map fun x => [.frame x])
  | .page p => optionPort (p.map fun x => [.page x])
  | .messages l => l.map fun m => match m with
    | .frame f => .frame f
    | .page p => .page p

end Machine
end Sys2Proof
end

