-- ==== Sys2Proof/Machine/Flags.lean ====
section
/-!
DEFINITION. The conditions, codes and indicator of the block: status codes (rules R355 to R357),
event codes (rule R360), state codes (rule R124), the one-bit conditions that are computed (rule
R44) and the status indicator (rule R346). The block has no condition-code register (rule R44).
-/

namespace Sys2Proof
namespace Machine

/-! ### Status codes -/

/-- `CODE` of a ConfigError (rule R356). -/
def ConfigError.code : ConfigError → BitVec 4
  | .badWindowSize => 1
  | .badEnum => 2
  | .badTapCount => 3
  | .badBand => 4
  | .badArgument => 5
  | .emptyCandidates => 6
  | .badBufferWidth => 7
  | .badCode => 8
  | .rateMismatch => 9
  | .emptyPipeline => 10

/-- `CODE` of a ContractFault (rule R357). -/
def ContractFault.code : ContractFault → BitVec 4
  | .badPhase => 1
  | .duplicateNode => 2
  | .typeMismatch => 3
  | .badCommand => 4
  | .nodeOwned => 5
  | .unknownNode => 6
  | .badOperand => 7

/-- The status byte `CLASS[7:4] ‖ CODE[3:0]` (rule R355). -/
def Status.code : Status → BitVec 8
  | .ok => 0
  | .config e => (1 : BitVec 4) ++ e.code
  | .contract e => (2 : BitVec 4) ++ e.code

/-- The status codes written out, as the rules raise them. -/
abbrev badPhase : Status := .contract .badPhase
abbrev badCommand : Status := .contract .badCommand
abbrev badOperand : Status := .contract .badOperand
abbrev badArgument : Status := .config .badArgument
abbrev badEnum : Status := .config .badEnum

/-! ### Event codes -/

/-- `EVT = UNIT[7:4] ‖ n[3:0]` (rule R360). -/
def Event.code : Event → BitVec 8
  | .sync _ => 0x51
  | .noise _ => 0x52
  | .bsOverflow => 0x53
  | .framing => 0x71
  | .short => 0x72
  | .overflow => 0x73
  | .syncword => 0x81
  | .syncwordInv => 0x82
  | .parity _ => 0x83
  | .unc _ => 0x84
  | .badPreamble => 0x85
  | .syncLost => 0x86
  | .resyncReq => 0x87
  | .msg _ => 0x88

/-! ### State codes (rule R124) -/

def HdState.code : HdState → Nat
  | .waitFlag => 0
  | .countFlag => 1
  | .waitData => 2
  | .waitEnd => 3

def PgState.code : PgState → Nat
  | .firstBitSinceSync => 0
  | .waitForInitialSyncWord => 1
  | .waitForImmediateSyncWord => 2
  | .readPocsagBatch => 3

def Filter.code : Filter → Nat
  | .addressOnly => 0
  | .numeric => 1
  | .alpha => 2
  | .both => 3

def FrameType.code : FrameType → Nat
  | .i => 0
  | .s => 1
  | .u => 2

/-- The phase register of OUTQ, RUN from reset (rules R32, R43). -/
def State.outqPh (_ : State) : Phase := .run

/-! ### Computed conditions (rule R44) -/

/-- The lock condition `BS.SPB != 0` (rules R31, R44). -/
def BsReg.locked (M : Numerics) (r : BsReg) : Bool := !M.eq r.spb M.zero

/-- The parity condition of a codeword: `popcount(cw)` is odd (rule R310). -/
def parityOdd (cw : BitVec 32) : Bool := popcount cw % 2 == 1

/-! ### The status indicator (rule R346) -/

/-- `IND`: SYNCING, RECEIVING or ERROR (rule R346). -/
inductive Indicator where
  | syncing | receiving | error
  deriving DecidableEq, Repr

/-- The code of an indicator value (rule R346). -/
def Indicator.code : Indicator → Nat
  | .syncing => 0
  | .receiving => 1
  | .error => 2

/-- The events that make the indicator of their unit `ERROR` (rule R346). -/
def Event.isError : Event → Bool
  | .noise _ => true
  | .bsOverflow => true
  | .framing => true
  | .short => true
  | .overflow => true
  | .unc _ => true
  | .badPreamble => true
  | .syncLost => true
  | _ => false

/-- `IND` from the events of the unit's last operation and its receiving condition. -/
def indicate (last : List Event) (receiving : Bool) : Indicator :=
  if last.any Event.isError then .error else if receiving then .receiving else .syncing

/-- `IND` of a BS instance (rule R346); before INIT it has no lock, so SYNCING. -/
def indBs (M : Numerics) : Bs → Indicator
  | .run _ r => indicate r.last (r.locked M)
  | _ => .syncing

/-- `IND` of an HD instance (rule R346). -/
def indHd (h : Hd) : Indicator := indicate h.last (h.state == .waitEnd)

/-- `IND` of a PG instance (rule R346). -/
def indPg (p : Pg) : Indicator :=
  indicate p.last (p.state == .readPocsagBatch || p.state == .waitForImmediateSyncWord)

end Machine
end Sys2Proof
end

