-- ==== Sys2Proof/Machine/Ops.lean ====
section
/-!
DEFINITION. The operations the meanings share: how an operation answers (rules R342, R355, R358),
the access primitives of the private memories (rules R70, R71), the locks and the hand-off buffer
(rules R47, R343), the look-up of instances and nodes, and the free values.

The block has no trap entry and no return from one (rules R366, R367): what stands in their place
is `reject`, the one way in which an operation that raised is answered.
-/

namespace Sys2Proof
namespace Machine

/-! ### Answers -/

/-- What the rule of an operation comes to: the status it raised, or a value. -/
abbrev Ans (α : Type) := Except Status α

/-- What an operation that is executed leaves: the state, the result and the events in the order
they were raised (rules R355, R361). -/
structure Done where
  st : State
  res : Result
  evs : List Raised

/-- The output ports after an operation that raised `e`: the status, no result and no event; every
other part of the state is as it was (rules R355, R358). -/
def reject (e : Status) (s : State) : State := { s with out := ⟨e, .none, [], []⟩ }

/-- The output ports after an operation that was executed and in which BS instances delivered
`bits` (rules R355, R361). -/
def accept (d : Done) (bits : List Delivered) : State :=
  { d.st with out := ⟨.ok, d.res, d.evs, bits⟩ }

/-- The outcome of an operation issued in state `s` (rule R377: exactly one status, and if OK
exactly one result). -/
def conclude (s : State) : Ans Done → Host.Outcome State Fault Refusal
  | .error e => .next (reject e s)
  | .ok d => .next (accept d [])

/-- `conclude` for the operations in which a BS instance can deliver bits (rules R151, R213). -/
def concludeBits (s : State) : Ans (Done × List Delivered) → Host.Outcome State Fault Refusal
  | .error e => .next (reject e s)
  | .ok (d, bits) => .next (accept d bits)

/-- The events of one unit instance. -/
def raisedBy (inst : Inst) (evs : List Event) : List Raised := evs.map fun e => ⟨inst, e⟩

/-! ### Private memories (rules R70, R71) -/

/-- `MemRead(M, i)`. The rules bound every index by the length; `d` stands where they do not
reach (rule R70). -/
def memRead {α : Type} (m : List α) (i : Nat) (d : α) : α := m.getD i d

/-- `MemWrite(M, i, v)`: element `i` replaced. A memory that is still unwritten from some index on
is the list of its written elements, and the write to that index lengthens it. -/
def memWrite {α : Type} (m : List α) (i : Nat) (v : α) : List α :=
  if i < m.length then m.set i v else m ++ [v]

/-- The next write pointer of a ring of length `len` (rule R71). -/
def ringNext (wp len : Nat) : Nat := (wp + 1) % len

/-- The element of age `a` (0 = newest) of a ring of length `len`: at `(WP - 1 - a) mod len`
(rule R71). -/
def ringAge {α : Type} (m : List α) (wp len a : Nat) (d : α) : α :=
  memRead m ((wp + len - 1 - a) % len) d

/-! ### Writing a unit instance (rule R30: all state is private to one unit) -/

/-- PIPE instance `inst` replaced. -/
def putPipe (inst : Inst) (u : Pipe) (s : State) : State :=
  { s with pipe := s.pipe.set inst.toNat u }

/-- GZ instance `inst` replaced. -/
def putGz (inst : Inst) (u : Gz) (s : State) : State :=
  { s with gz := s.gz.set inst.toNat u }

/-- FIR instance `inst` replaced. -/
def putFir (inst : Inst) (u : Fir) (s : State) : State :=
  { s with fir := s.fir.set inst.toNat u }

/-- BQ instance `inst` replaced. -/
def putBq (inst : Inst) (u : Bq) (s : State) : State :=
  { s with bq := s.bq.set inst.toNat u }

/-- MA instance `inst` replaced. -/
def putMa (inst : Inst) (u : Ma) (s : State) : State :=
  { s with ma := s.ma.set inst.toNat u }

/-- BS instance `inst` replaced. -/
def putBs (inst : Inst) (u : Bs) (s : State) : State :=
  { s with bs := s.bs.set inst.toNat u }

/-- BCH instance `inst` replaced. -/
def putBch (inst : Inst) (u : Bch) (s : State) : State :=
  { s with bch := s.bch.set inst.toNat u }

/-- HD instance `inst` replaced. -/
def putHd (inst : Inst) (u : Hd) (s : State) : State :=
  { s with hd := s.hd.set inst.toNat u }

/-- PG instance `inst` replaced. -/
def putPg (inst : Inst) (u : Pg) (s : State) : State :=
  { s with pg := s.pg.set inst.toNat u }

/-! ### Locks and the hand-off buffer (rules R47, R80, R81, R343) -/

/-- The lock of OUTQ, named by the identity OUTQ would have as a node (unit 9, instance 0). -/
def outqLock : Nid := nidOf 9 0

def acquire (n : Nid) (s : State) : State := { s with locks := n :: s.locks }

def release (n : Nid) (s : State) : State := { s with locks := s.locks.erase n }

/-- An action made while lock `n` is held (rules R79 to R81). -/
def underLock (n : Nid) (act : State → State) (s : State) : State :=
  release n (act (acquire n s))

/-- `emit(m)` (rule R343): append under `OUTQ.LOCK`. -/
def emit (m : Message) (s : State) : State :=
  underLock outqLock (fun t => { t with outq := t.outq ++ [m] }) s

/-- `emit` of the message an operation completed, if any. -/
def emitOpt (m : Option Message) (s : State) : State :=
  match m with
  | none => s
  | some m => emit m s

/-! ### Free values (93_implementation_defined.md entries U3, U5) -/

/-- A `Real` output: the computed value, or any value where the unit's outputs are open. -/
def openReal (anyOut : Bool) (y : RealVal) (s : State) : RealVal × State :=
  if anyOut then (Config.freeReal s.freeIx, { s with freeIx := s.freeIx + 1 }) else (y, s)

/-- A `Cplx` output: the computed value, or any value where the unit's outputs are open. -/
def openCplx (anyOut : Bool) (y : Cplx) (s : State) : Cplx × State :=
  if anyOut then
    (⟨Config.freeReal s.freeIx, Config.freeReal (s.freeIx + 1)⟩, { s with freeIx := s.freeIx + 2 })
  else (y, s)

/-- The answer of a composite: as evaluated, or any value of its type where the outputs of the composite
are open; `None` stays `None`. -/
def openSample (anyOut : Bool) (o : Option Sample) (s : State) : Option Sample × State :=
  match anyOut, o with
  | true, some v => (some ((Config.freeOut s.freeIx).sample v.tag), { s with freeIx := s.freeIx + 1 })
  | _, _ => (o, s)

/-! ### The source contract (rule R103, 93_implementation_defined.md entries U3, U5) -/

/-- How two samples, or two runs of samples, keep the source contract together. -/
def Contract.and : Contract → Contract → Contract
  | .notNumber, _ => .notNumber
  | _, .notNumber => .notNumber
  | .outOfRange, _ => .outOfRange
  | _, .outOfRange => .outOfRange
  | .kept, .kept => .kept

/-- U3 leaves the outputs open after such samples: a value that is not a number opens them, and a number
outside `[-1, 1]` does where an operation was rounded, since "finite out-of-range samples are processed by
the rules as written under exact `NUM`". DEDUCED, log entry 13. -/
def Contract.opens (rounded : Bool) : Contract → Bool
  | .kept => false
  | .outOfRange => rounded
  | .notNumber => true

/-- How a `Real` sample keeps the source contract. -/
def realContract (M : Numerics) (x : RealVal) : Contract :=
  if !M.fin x then .notNumber else if M.inRange x then .kept else .outOfRange

/-- How a `Cplx` sample keeps it: each part is a number of the range. DEDUCED, log entry 13. -/
def cplxContract (M : Numerics) (z : Cplx) : Contract :=
  (realContract M z.re).and (realContract M z.im)

/-- How a sample operand keeps it; U3 speaks of `Real` and `Cplx` samples. -/
def sampleContract (M : Numerics) : Sample → Contract
  | .real x => realContract M x
  | .cplx z => cplxContract M z
  | .bool _ | .sym _ => .kept

/-- The standing of a unit after an INIT whose arithmetic was rounded or not. -/
def Standing.start (rounded : Bool) : Standing := ⟨.kept, rounded, false⟩

/-- The standing after a tick for an operand that keeps the source contract as `q` says: `rounds` says
that the tick's arithmetic was rounded, and `numbers` that the operand and the result are numbers (U3,
U5). Outputs that are open stay open until the next INIT. The operand of a leaf in a tree is what another
node passed to it; that a NaN or an infinity passed so opens the outputs is a DESIGN CHOICE, log entry 43. -/
def Standing.after (w : Standing) (q : Contract) (rounds numbers : Bool) : Standing where
  source := w.source.and q
  rounded := w.rounded || rounds
  anyOut := w.anyOut || !numbers || (w.source.and q).opens (w.rounded || rounds)

/-! ### Instances (rules R101, R342) -/

/-- The instance a command names; `BAD_COMMAND` where `INST` is not below `NINST` of the kind
(rules R107, R342). -/
def pick {α : Type} (l : List α) (inst : Inst) : Ans α :=
  match l[inst.toNat]? with
  | some u => .ok u
  | none => .error badCommand

/-- The ownership check of a direct INIT or STEP (rules R152, R342). -/
def notOwned (s : State) (n : Nid) : Ans Unit :=
  if n ∈ s.used then .error (.contract .nodeOwned) else .ok ()

/-- The check of an INIT operand, `rate > 0` (rule R356, BAD_ARGUMENT). -/
def positiveRate (M : Numerics) (rate : RealVal) : Ans Unit :=
  if M.pos rate then .ok () else .error badArgument

/-! ### Nodes (rules R140, R144) -/

/-- The phase and the types of a node; the types are known once the node is configured or
constructed (rule R144). -/
structure NodeInfo where
  ph : Phase
  types : Option (Tag × Tag)
  deriving DecidableEq, Repr

/-- The type tag of a filter: CPLX when `CX = 1`, REAL when `CX = 0` (rule R140). -/
def cxTag (cx : Bool) : Tag := if cx then .cplx else .real

/-- A leaf with a life cycle as a node; `t` gives the type its configuration fixes (rule R140). -/
def lifeInfo {C R : Type} (t : C → Tag) (u : Life C R) : NodeInfo :=
  match u with
  | .unconf => ⟨.unconf, none⟩
  | .conf c => ⟨.conf, some (t c, t c)⟩
  | .run c _ => ⟨.run, some (t c, t c)⟩

/-- A composite as a node (rule R33). -/
def pipeInfo (p : Pipe) : NodeInfo :=
  match p with
  | .unconf => ⟨.unconf, none⟩
  | .conf c => ⟨.conf, some (c.inT, c.outT)⟩
  | .run c _ => ⟨.run, some (c.inT, c.outT)⟩

/-- The external node bound under an identity. -/
def findExt (s : State) (n : Nid) : Option Ext := s.ext.find? fun e => e.nid == n

/-- The node an identity names: an instance of PIPE, GZ, FIR, BQ, MA or BS, or a bound external
node (units 10 to 14); `none` where it names no node (rules R107, R140, R144). HD, PG, BCH and OUTQ are not nodes. -/
def nodeInfo (s : State) (n : Nid) : Option NodeInfo :=
  let i := (nidInst n).toNat
  match (nidUnit n).toNat with
  | 0 => s.pipe[i]?.map pipeInfo
  | 1 => s.gz[i]?.map (lifeInfo fun _ => .real)
  | 2 => s.fir[i]?.map (lifeInfo fun c => cxTag c.cx)
  | 3 => s.bq[i]?.map (lifeInfo fun c => cxTag c.cx)
  | 4 => s.ma[i]?.map (lifeInfo fun _ => .real)
  | 5 => s.bs[i]?.map (lifeInfo fun _ => .bool)
  | u =>
    if 10 ≤ u ∧ u ≤ 14 then (findExt s n).map fun e => ⟨e.ph, some (e.inT, e.outT)⟩ else none

/-- `CHILD` of a composite; none of one that is not constructed (rule R33). -/
def Pipe.children : Pipe → List Nid
  | .unconf => []
  | .conf c => c.child
  | .run c _ => c.child

/-- The children of a composite: none of a leaf. -/
def childrenOf (s : State) (n : Nid) : List Nid :=
  if nidUnit n = 0 then
    match s.pipe[(nidInst n).toNat]? with
    | some p => Pipe.children p
    | none => []
  else []

/-- Whether the node has a phase that `p` allows. -/
def phaseIs (p : Phase → Bool) (s : State) (n : Nid) : Bool :=
  match nodeInfo s n with
  | some i => p i.ph
  | none => false

/-- Every descendant of a node has a phase that `p` allows (rules R150, R151). The first argument
bounds the depth; the composites form a forest (rule R143), so that `treeDepth` is enough. -/
def descendantsAre (p : Phase → Bool) (s : State) : Nat → Nid → Bool
  | 0, _ => false
  | k + 1, n => (childrenOf s n).all fun c => phaseIs p s c && descendantsAre p s k c

/-- A bound on the depth of a tree of nodes: every composite on a path is another PIPE instance,
and below the last is a leaf. -/
def treeDepth (s : State) : Nat := s.pipe.length + 1

end Machine
end Sys2Proof
end

