-- ==== Sys2Proof/Machine/Chain.lean ====
section
/-!
DEFINITION. The `CHAIN` wiring between a bit synchronizer and a decoder, and the other
pseudo-operations (30_encoding.md rule R109, 49_system.md rule R345, 60_exceptions.md rule R363).
They are no operations: they say which operations the producer issues.
-/

namespace Sys2Proof
namespace Machine

/-- The operations that the events and bits of `BS@bs` cause at `PG@pg`: every `SYNC(baud)` as
`PG.SYNC baud`, before the bits of the operation as `PG.STEP` (rule R363). The rate travels on a
port, as a binary32 pattern (rule R103). -/
def toPg (M : Numerics) (bs pg : Inst) (o : Output) : List Instr :=
  o.events.filterMap (fun e =>
    match e.ev with
    | .sync baud => if e.inst = bs then some (.pgSync pg (M.toB32 baud)) else none
    | _ => none)
  ++ o.bits.filterMap fun b => if b.inst = bs then some (.pgStep pg b.bit) else none

/-- The operations that the bits of `BS@bs` cause at `HD@hd`; HD has no use for the baud rate
(rule R363). -/
def toHd (bs hd : Inst) (o : Output) : List Instr :=
  o.bits.filterMap fun b => if b.inst = bs then some (.hdStep hd b.bit) else none

/-- The operations that the events of `PG@pg` cause at `BS@bs`: every `RESYNC_REQ` as
`BS.WAIT_FOR_SYNC` (rule R363). -/
def toBs (pg bs : Inst) (o : Output) : List Instr :=
  o.events.filterMap fun e =>
    if e.ev = .resyncReq ∧ e.inst = pg then some (.bsWaitForSync bs) else none

/-- The operations one chain causes after an operation with the outputs `o` (rules R109, R363). -/
def chainOps (M : Numerics) (o : Output) (c : Chain) : List Instr :=
  match c.target with
  | .hd hd => toHd c.bs hd o
  | .pg pg => toPg M c.bs pg o ++ toBs pg c.bs o

/-- The operations that the declared chains cause, in the order of the declarations. An operation
that was rejected raised no event and delivered no bit (rule R355), so it causes none. -/
def followUps (M : Numerics) (par : Params) (o : Output) : List Instr :=
  par.chains.flatMap (chainOps M o)

/-- The operations that are "at once issued" stand before every command not yet taken
(rule R109). -/
def routed (s : State) : State :=
  { s with pending := (followUps s.num s.par s.out).map encode ++ s.pending }

/-! ### FEED and FEEDBITS (rule R109) -/

/-- `FEED U@i, v1 ... vn` for a unit whose STEP is `step`. -/
def feed {α : Type} (step : α → Instr) (vs : List α) : List Command :=
  vs.map fun v => encode (step v)

/-- `FEEDBITS U@i, "b1 ... bn"`: each character 0 or 1 one bit operand. -/
def feedBits (step : Bool → Instr) (bits : String) : List Command :=
  feed step (bits.toList.map (· == '1'))

end Machine
end Sys2Proof
end

