-- ==== Sys2Proof/Machine/Bch.lean ====
section
/-!
DEFINITION. BCH: the Galois field `GF(2^M)` and the binary BCH encoder and decoder (46_bch.md rules
R230 to R250). Words and polynomials over Z2 are natural numbers used as bit patterns (rule R11):
bit `e` is the coefficient of `x^e` (rule R76).
-/

namespace Sys2Proof
namespace Machine

/-! ### Construction (rules R230 to R233) -/

/-- `M = ceil(log2(N + 1))`, the least `M` with `2^M >= N + 1` (rule R230). -/
def fieldExponent (n : Nat) : Nat := if n = 0 then 0 else Nat.log2 n + 1

/-- `DEFAULT_FP[M]`; there is none above `M = 8` (rules R231, R232). -/
def defaultFp : Nat → Option Nat
  | 2 => some 0x7
  | 3 => some 0xB
  | 4 => some 0x13
  | 5 => some 0x25
  | 6 => some 0x43
  | 7 => some 0x89
  | 8 => some 0x11D
  | _ => none

/-- The next power of `alpha = x` (rule R233). -/
def timesAlpha (m fp v : Nat) : Nat :=
  if (v <<< 1).testBit m then (v <<< 1) ^^^ fp else v <<< 1

/-- `EXP` from an element on: the element and the powers after it (rule R233). -/
def expFrom (m fp : Nat) : Nat → Nat → List Nat
  | 0, _ => []
  | k + 1, v => v :: expFrom m fp k (timesAlpha m fp v)

/-- `EXP[0..Q1-1]` (rule R233). -/
def expTable (m fp q1 : Nat) : List Nat := expFrom m fp q1 1

/-- `LOG[1..Q1]`: `LOG[EXP[i]] = i` (rule R233). -/
def logTable (exp : List Nat) : List Nat :=
  (List.range exp.length).map fun k => exp.idxOf (k + 1)

/-- The build of rule R233 does not fail: no element is visited twice, and 0, which has no entry,
is not visited. -/
def primitive (exp : List Nat) : Bool := decide exp.Nodup && !exp.contains 0

/-- The code with its tables, for given parameters (rules R230, R233). -/
def buildCode (g n k t fp : Nat) : BchCode :=
  let m := fieldExponent n
  let q1 := 2 ^ m - 1
  let exp := expTable m fp q1
  { g := g, n := n, k := k, t := t, fp := fp, m := m, q1 := q1, exp := exp, log := logTable exp }

/-! ### Field operations (rules R234 to R238) -/

/-- `gf_exp(e)` (rule R234). -/
def gfExp (c : BchCode) (e : Nat) : Nat := memRead c.exp (e % c.q1) 0

/-- `gf_log(a)` of a non-zero element (rule R235). -/
def gfLog (c : BchCode) (a : Nat) : Nat := memRead c.log (a - 1) 0

/-- `gf_mul(a, b)` (rule R236). -/
def gfMul (c : BchCode) (a b : Nat) : Nat :=
  if a = 0 ∨ b = 0 then 0 else gfExp c (gfLog c a + gfLog c b)

/-- `gf_inv(a)` of a non-zero element (rule R237). -/
def gfInv (c : BchCode) (a : Nat) : Nat := gfExp c (c.q1 - gfLog c a)

/-- `gf_pow(a, e)` (rule R238). -/
def gfPow (c : BchCode) (a e : Nat) : Nat :=
  if e = 0 then 1 else if a = 0 then 0 else gfExp c (gfLog c a * e)

/-! ### Code operations (rules R240 to R248) -/

/-- `polymod(a, g)`, with a bound on the number of subtractions: each lowers the degree of `a`
(rule R240). -/
def polymodAux (g : Nat) : Nat → Nat → Nat
  | 0, a => a
  | fuel + 1, a =>
    if a = 0 ∨ Nat.log2 a < Nat.log2 g then a
    else polymodAux g fuel (a ^^^ (g <<< (Nat.log2 a - Nat.log2 g)))

/-- The remainder of `a` divided by `g` over Z2 (rule R240). -/
def polymod (a g : Nat) : Nat := polymodAux g (Nat.log2 a + 1) a

/-- `BCH.ENCODE` (rule R240). -/
def bchEncode (c : BchCode) (msg : Nat) : Nat :=
  (msg <<< (c.n - c.k)) ^^^ polymod (msg <<< (c.n - c.k)) c.g

/-- A polynomial with coefficients in bits `0 .. len-1` of `w` evaluated at `alpha^i`: the sum of
`alpha^(i e)` over the set bits `e` (rules R231, R241). -/
def evalAt (c : BchCode) (len w i : Nat) : Nat :=
  (List.range len).foldl (fun acc e => if w.testBit e then acc ^^^ gfExp c (i * e) else acc) 0

/-- `S[1 .. 2T]` of a word, `S[i]` at position `i - 1` (rule R241). -/
def syndromes (c : BchCode) (r : Nat) : List Nat :=
  (List.range (2 * c.t)).map fun j => evalAt c c.n r (j + 1)

/-- `BCH.CHECK` (rule R242). -/
def bchCheck (c : BchCode) (r : Nat) : Bool := (syndromes c r).all fun x => x == 0

/-- `G(alpha^i) = 0` for `i` from the given index on, so many of them (rule R231). -/
def rootsFrom (c : BchCode) : Nat → Nat → Bool
  | 0, _ => true
  | k + 1, i => evalAt c (Nat.log2 c.g + 1) c.g i == 0 && rootsFrom c k (i + 1)

/-- `BCH.CONFIG G, N, K, T, FP`: every check of rule R231, all with the status `BAD_CODE`; the
tables are built before anything is written (rules R230, R358). -/
def bchConfig (g : Nat) (n k t : I32) (fp : Nat) : Ans BchCode :=
  let bad : Ans BchCode := .error (.config .badCode)
  if 1 ≤ k.toInt ∧ k.toInt < n.toInt ∧ 1 ≤ t.toInt then
    let N := n.toInt.toNat
    let K := k.toInt.toNat
    let m := fieldExponent N
    if 2 ≤ m ∧ m ≤ Config.bchMaxM ∧ g ≠ 0 ∧ Nat.log2 g = N - K ∧ g % 2 = 1 then
      match (if fp = 0 then defaultFp m else some fp) with
      | none => bad
      | some fp' =>
        if Nat.log2 fp' = m then
          let c := buildCode g N K t.toInt.toNat fp'
          if primitive c.exp && rootsFrom c (2 * c.t) 1 then .ok c else bad
        else bad
    else bad
  else bad

/-- A permutation list: `x` inserted at every place of a list. -/
def insertions (x : Nat) : List Nat → List (List Nat)
  | [] => [[x]]
  | y :: ys => (x :: y :: ys) :: (insertions x ys).map (y :: ·)

/-- All permutations of a list (rule R244). -/
def permutations : List Nat → List (List Nat)
  | [] => [[]]
  | x :: xs => (permutations xs).flatMap (insertions x)

/-- `gf_mul` of several factors (rule R244). -/
def gfProduct (c : BchCode) (l : List Nat) : Nat := l.foldl (gfMul c) 1

/-- XOR of several elements (rule R244). -/
def xorAll (l : List Nat) : Nat := l.foldl (· ^^^ ·) 0

/-- `det(A)` of a `q x q` matrix, by permutation expansion (rule R244). -/
def det (c : BchCode) (q : Nat) (A : Nat → Nat → Nat) : Nat :=
  xorAll ((permutations (List.range q)).map fun p =>
    gfProduct c ((List.range q).map fun i => A i (p.getD i 0)))

/-- A matrix with row `j` and column `i` deleted (rule R244). -/
def minor (A : Nat → Nat → Nat) (j i : Nat) : Nat → Nat → Nat := fun r col =>
  A (if r < j then r else r + 1) (if col < i then col else col + 1)

/-- `S[i]` of a list of syndromes (rule R241). -/
def synd (S : List Nat) (i : Nat) : Nat := memRead S (i - 1) 0

/-- `Mx[r][c] = S[r + c + 1]` (rule R243). -/
def hankel (S : List Nat) : Nat → Nat → Nat := fun r col => synd S (r + col + 1)

/-- The shrinking search for a non-singular syndrome matrix: the first of the sizes `nu, nu-1, ..`
whose determinant is not 0, with that determinant (rule R243). -/
def findNu (c : BchCode) (S : List Nat) : Nat → Option (Nat × Nat)
  | 0 => none
  | nu + 1 =>
    let d := det c (nu + 1) (hankel S)
    if d = 0 then findNu c S nu else some (nu + 1, d)

/-- The unknown `x[i]` of the linear system (rule R244). -/
def solution (c : BchCode) (S : List Nat) (nu d i : Nat) : Nat :=
  gfMul c (gfInv c d)
    (xorAll ((List.range nu).map fun j =>
      gfMul c (det c (nu - 1) (minor (hankel S) j i)) (synd S (nu + j + 1))))

/-- `LAM[0..nu]`: `LAM[0] = 1`, `LAM[nu - c] = x[c]` (rule R244). -/
def locator (c : BchCode) (S : List Nat) (nu d : Nat) : List Nat :=
  1 :: (List.range nu).map fun i => solution c S nu d (nu - (i + 1))

/-- The locator polynomial at the element `beta` (rules R245, R247). -/
def locatorAt (c : BchCode) (lam : List Nat) (beta : Nat) : Nat :=
  xorAll ((List.range lam.length).map fun i => gfMul c (lam.getD i 0) (gfPow c beta i))

/-- The bit positions the roots of the locator mark, in the order of the search (rules R245,
R247). -/
def errorBits (c : BchCode) (lam : List Nat) : List Nat :=
  ((List.range c.q1).filter fun j => locatorAt c lam (gfExp c j) == 0).map fun j =>
    (c.q1 - j) % c.q1

/-- The result of a correction (rule R105). -/
inductive Correction where
  | corrected (c : Nat) (nerr : Nat)
  | uncorrectable
  deriving DecidableEq, Repr

/-- A word with the bits of a list flipped. -/
def flipBits (r : Nat) (es : List Nat) : Nat := es.foldl (fun c e => c ^^^ (1 <<< e)) r

/-- `BCH.CORRECT` (rules R243 to R248). -/
def bchCorrect (c : BchCode) (r : Nat) : Correction :=
  let S := syndromes c r
  if S.all fun x => x == 0 then .corrected r 0
  else
    match findNu c S c.t with
    | none => .uncorrectable
    | some (nu, d) =>
      let es := errorBits c (locator c S nu d)
      if es.any fun e => decide (c.n ≤ e) then .uncorrectable
      else if es = [] then .uncorrectable
      else if bchCheck c (flipBits r es) then .corrected (flipBits r es) es.length
      else .uncorrectable

/-- `BCH.DECODE`: the message bits (rule R246). -/
def bchDecode (c : BchCode) (w : Nat) : Nat := w >>> (c.n - c.k)

/-- The constant paging instance (rule R250): `G = 0x769, N = 31, K = 21, T = 2, FP = 0x25`. -/
def pagingCode : BchCode := buildCode 0x769 31 21 2 0x25

/-! ### The operations -/

/-- The configured code of an instance, for a data operation: `BAD_PHASE` when not RUN. -/
def codeOf (s : State) (inst : Inst) : Ans BchCode := do
  match (← pick s.bch inst) with
  | .run c => .ok c
  | .unconf => .error badPhase

/-- An operand of the stated width: `BAD_OPERAND` when it is `>= 2^width`. -/
def fits (width v : Nat) : Ans Unit := if v < 2 ^ width then .ok () else .error badOperand

/-- BCH.CONFIG (rule R230). -/
def execBchConfig (inst : Inst) (g : Nat) (n k t : I32) (fp : Nat) (s : State) :
    Host.Outcome State Fault Refusal :=
  conclude s do
    let _ ← pick s.bch inst
    let c ← bchConfig g n k t fp
    .ok ⟨putBch inst (.run c) s, .none, []⟩

/-- GF.EXP (rule R234). -/
def execGfExp (inst : Inst) (e : Nat) (s : State) : Host.Outcome State Fault Refusal :=
  conclude s do
    let c ← codeOf s inst
    .ok ⟨s, .word (gfExp c e), []⟩

/-- GF.LOG (rule R235). -/
def execGfLog (inst : Inst) (a : Nat) (s : State) : Host.Outcome State Fault Refusal :=
  conclude s do
    let c ← codeOf s inst
    fits c.m a
    if a = 0 then .error badOperand else .ok ⟨s, .word (gfLog c a), []⟩

/-- GF.MUL (rule R236). -/
def execGfMul (inst : Inst) (a b : Nat) (s : State) : Host.Outcome State Fault Refusal :=
  conclude s do
    let c ← codeOf s inst
    fits c.m a
    fits c.m b
    .ok ⟨s, .word (gfMul c a b), []⟩

/-- GF.INV (rule R237). -/
def execGfInv (inst : Inst) (a : Nat) (s : State) : Host.Outcome State Fault Refusal :=
  conclude s do
    let c ← codeOf s inst
    fits c.m a
    if a = 0 then .error badOperand else .ok ⟨s, .word (gfInv c a), []⟩

/-- GF.POW (rule R238). -/
def execGfPow (inst : Inst) (a e : Nat) (s : State) : Host.Outcome State Fault Refusal :=
  conclude s do
    let c ← codeOf s inst
    fits c.m a
    .ok ⟨s, .word (gfPow c a e), []⟩

/-- BCH.ENCODE (rule R240). -/
def execBchEncode (inst : Inst) (msg : Nat) (s : State) : Host.Outcome State Fault Refusal :=
  conclude s do
    let c ← codeOf s inst
    fits c.k msg
    .ok ⟨s, .word (bchEncode c msg), []⟩

/-- BCH.SYNDROME (rule R241). -/
def execBchSyndrome (inst : Inst) (r : Nat) (s : State) : Host.Outcome State Fault Refusal :=
  conclude s do
    let c ← codeOf s inst
    fits c.n r
    .ok ⟨s, .words (syndromes c r), []⟩

/-- BCH.CHECK (rule R242). -/
def execBchCheck (inst : Inst) (r : Nat) (s : State) : Host.Outcome State Fault Refusal :=
  conclude s do
    let c ← codeOf s inst
    fits c.n r
    .ok ⟨s, .flag (bchCheck c r), []⟩

/-- The result port of a correction (rule R105). -/
def correctionResult : Correction → Result
  | .corrected c nerr => .corrected c nerr
  | .uncorrectable => .uncorrectable

/-- BCH.CORRECT (rule R245). -/
def execBchCorrect (inst : Inst) (r : Nat) (s : State) : Host.Outcome State Fault Refusal :=
  conclude s do
    let c ← codeOf s inst
    fits c.n r
    .ok ⟨s, correctionResult (bchCorrect c r), []⟩

/-- BCH.DECODE (rule R246). -/
def execBchDecode (inst : Inst) (w : Nat) (s : State) : Host.Outcome State Fault Refusal :=
  conclude s do
    let c ← codeOf s inst
    fits c.n w
    .ok ⟨s, .word (bchDecode c w), []⟩

end Machine
end Sys2Proof
end

