-- ==== Sys2Proof/Machine/Biquad.lean ====
section
/-!
DEFINITION. BQ, the biquad IIR filter, real and complex (43_biquad.md rules R185 to R191).
-/

namespace Sys2Proof
namespace Machine

/-- `BQ.CONFIG TYPE, F0, Q, GAIN_DB, CX`, the checks in the order written (rule R185). -/
def bqConfig (M : Numerics) (type : I32) (f0 q gainDb : B32) (cx : I32) : Ans Bq :=
  match bqTypeOf type with
  | none => .error badEnum
  | some ty =>
    if M.pos (M.ofB32 q) then
      match cxOf cx with
      | none => .error badEnum
      | some z => .ok (.conf ⟨ty, M.ofB32 f0, M.ofB32 q, M.ofB32 gainDb, z⟩)
    else .error badArgument

/-- The six values of the cookbook, before normalisation (rule R188). -/
structure Cookbook where
  b0 : RealVal
  b1 : RealVal
  b2 : RealVal
  a0 : RealVal
  a1 : RealVal
  a2 : RealVal
  deriving DecidableEq, Repr

/-- The row of the cookbook table, from `cs`, `sn`, `alpha`, `A` and `sq` (rule R188). -/
def cookbookRow (M : Numerics) (type : BqType) (cs sn alpha A sq : RealVal) : Cookbook :=
  let one := M.ofNat 1
  let two := M.ofNat 2
  let mcs2 := M.mul (M.lit (-2) 1) cs
  let pa := M.add one alpha
  let ma := M.sub one alpha
  let ap := M.add A one
  let am := M.sub A one
  match type with
  | .lowpass =>
    let h := M.sub one cs
    ⟨M.div h two, h, M.div h two, pa, mcs2, ma⟩
  | .highpass =>
    let h := M.add one cs
    ⟨M.div h two, M.neg h, M.div h two, pa, mcs2, ma⟩
  | .bandpassSkirt => ⟨M.div sn two, M.zero, M.div (M.neg sn) two, pa, mcs2, ma⟩
  | .bandpassPeak => ⟨alpha, M.zero, M.neg alpha, pa, mcs2, ma⟩
  | .notch => ⟨one, mcs2, one, pa, mcs2, ma⟩
  | .lowshelf =>
    let u := M.sub ap (M.mul am cs)
    let v := M.add ap (M.mul am cs)
    ⟨M.mul A (M.add u sq),
      M.mul (M.mul two A) (M.sub am (M.mul ap cs)),
      M.mul A (M.sub u sq),
      M.add v sq,
      M.mul (M.lit (-2) 1) (M.add am (M.mul ap cs)),
      M.sub v sq⟩
  | .highshelf =>
    let u := M.add ap (M.mul am cs)
    let v := M.sub ap (M.mul am cs)
    ⟨M.mul A (M.add u sq),
      M.mul (M.mul (M.lit (-2) 1) A) (M.add am (M.mul ap cs)),
      M.mul A (M.sub u sq),
      M.add v sq,
      M.mul two (M.sub am (M.mul ap cs)),
      M.sub v sq⟩

/-- `cookbook(type, f0, Q, gain_db, rate)` (rule R188). -/
def cookbook (M : Numerics) (type : BqType) (f0 q gainDb rate : RealVal) : Cookbook :=
  let w0 := M.div (M.mul (M.mul (M.ofNat 2) M.pi) f0) rate
  let sn := M.sin w0
  let alpha := M.div sn (M.mul (M.ofNat 2) q)
  let A := M.pow10 (M.div gainDb (M.ofNat 40))
  let sq := M.mul (M.mul (M.ofNat 2) (M.sqrt A)) alpha
  cookbookRow M type (M.cos w0) sn alpha A sq

/-- The five coefficients, divided by `a0` (rules R186, R187). -/
def bqCoeffs (M : Numerics) (c : BqCfg) (rate : RealVal) : BqCoeffs :=
  let k := cookbook M c.type (M.clampf rate c.f0) c.q c.gainDb rate
  ⟨M.div k.b0 k.a0, M.div k.b1 k.a0, M.div k.b2 k.a0, M.div k.a1 k.a0, M.div k.a2 k.a0⟩

/-- Delay registers that all hold one value. -/
def Delay.all {α : Type} (z : α) : Delay α := ⟨z, z, z, z⟩

/-- The registers after `BQ.INIT rate` (rule R186). The coefficients count as rounded unless `NUM` is
exact: DESIGN CHOICE, log entry 41. -/
def bqReg (M : Numerics) (c : BqCfg) (rate : RealVal) : BqReg where
  rate := rate
  co := bqCoeffs M c rate
  mem := if c.cx then .cplx (Delay.all ⟨M.zero, M.zero⟩) else .real (Delay.all M.zero)
  standing := .start (!M.exact)

/-- `BQ.INIT rate`, the body (rules R142, R186). -/
def bqInit (M : Numerics) (u : Bq) (rate : RealVal) : Ans Bq :=
  match u with
  | .unconf => .error badPhase
  | .conf c | .run c _ => do
    positiveRate M rate
    .ok (.run c (bqReg M c rate))

/-- `B0*x + B1*X1 + B2*X2 - A1*Y1 - A2*Y2`, left to right (rule R189). -/
def bqOutput (M : Numerics) (k : BqCoeffs) (x x1 x2 y1 y2 : RealVal) : RealVal :=
  M.sub
    (M.sub (M.add (M.add (M.mul k.b0 x) (M.mul k.b1 x1)) (M.mul k.b2 x2)) (M.mul k.a1 y1))
    (M.mul k.a2 y2)

/-- The delay registers after a tick (rule R189). -/
def Delay.shift {α : Type} (d : Delay α) (x y : α) : Delay α := ⟨x, d.x1, y, d.y1⟩

/-- The tick of a real biquad (rule R189). A sample or an output that is not a number opens the outputs
until the next INIT (U3, U5), and so does a sample outside `[-1, 1]` where `NUM` is not exact (U3). A
sample that a node of a tree passed counts where it is no number: DESIGN CHOICE, log entry 43. -/
def bqTick (M : Numerics) (r : BqReg) (d : Delay RealVal) (x : RealVal) (q : Contract) :
    BqReg × RealVal :=
  let y := bqOutput M r.co x d.x1 d.x2 d.y1 d.y2
  ({ r with
      mem := .real (d.shift x y)
      standing := r.standing.after q (!M.exact) (M.fin x && M.fin y) }, y)

/-- The tick of a complex biquad: the same coefficients on the real and on the imaginary parts
(rule R190); the outputs open as in `bqTick` (log entry 43). -/
def bqcTick (M : Numerics) (r : BqReg) (d : Delay Cplx) (z : Cplx) (q : Contract) :
    BqReg × Cplx :=
  let y : Cplx :=
    ⟨bqOutput M r.co z.re d.x1.re d.x2.re d.y1.re d.y2.re,
      bqOutput M r.co z.im d.x1.im d.x2.im d.y1.im d.y2.im⟩
  ({ r with
      mem := .cplx (d.shift z y)
      standing := r.standing.after q (!M.exact) (M.finC z && M.finC y) }, y)

/-- BQ's INIT on an instance of the block (rule R142). -/
def bqInitAt (inst : Inst) (rate : RealVal) (s : State) : Ans (RealVal × State) := do
  let u ← pick s.bq inst
  let u' ← bqInit s.num u rate
  .ok (rate, putBq inst u' s)

/-- The real STEP on an instance of the block (rules R142, R189). `q` says how the operand of the
operation keeps the source contract. -/
def bqStepAt (inst : Inst) (x : RealVal) (q : Contract) (s : State) : Ans (RealVal × State) := do
  match (← pick s.bq inst) with
  | .run c r =>
    match c.cx, r.mem with
    | false, .real d =>
      let (r', y) := bqTick s.num r d x q
      let (v, t) := openReal r'.standing.anyOut y s
      .ok (v, putBq inst (.run c r') t)
    | _, _ => .error (.contract .typeMismatch)
  | _ => .error badPhase

/-- The complex STEP on an instance of the block (rules R142, R190). -/
def bqcStepAt (inst : Inst) (z : Cplx) (q : Contract) (s : State) : Ans (Cplx × State) := do
  match (← pick s.bq inst) with
  | .run c r =>
    match c.cx, r.mem with
    | true, .cplx d =>
      let (r', y) := bqcTick s.num r d z q
      let (v, t) := openCplx r'.standing.anyOut y s
      .ok (v, putBq inst (.run c r') t)
    | _, _ => .error (.contract .typeMismatch)
  | _ => .error badPhase

/-- BQ.CONFIG (rule R185), the registers replaced under the node's lock (rule R80). -/
def execBqConfig (inst : Inst) (type : I32) (f0 q gainDb : B32) (cx : I32) (s : State) :
    Host.Outcome State Fault Refusal :=
  conclude s do
    let _ ← pick s.bq inst
    let u ← bqConfig s.num type f0 q gainDb cx
    .ok ⟨underLock (nidOf 3 inst) (putBq inst u) s, .none, []⟩

/-- BQ.INIT (rule R186). -/
def execBqInit (inst : Inst) (rate : B32) (s : State) : Host.Outcome State Fault Refusal :=
  conclude s do
    let _ ← pick s.bq inst
    notOwned s (nidOf 3 inst)
    let (r, t) ← bqInitAt inst (s.num.ofB32 rate) s
    .ok ⟨t, .rate r, []⟩

/-- BQ.STEP (rule R189). -/
def execBqStep (inst : Inst) (x : B32) (s : State) : Host.Outcome State Fault Refusal :=
  conclude s do
    let _ ← pick s.bq inst
    notOwned s (nidOf 3 inst)
    let v := s.num.ofB32 x
    let (y, t) ← bqStepAt inst v (realContract s.num v) s
    .ok ⟨t, .sample (some (.real y)), []⟩

/-- BQC.STEP (rule R190). -/
def execBqcStep (inst : Inst) (re im : B32) (s : State) : Host.Outcome State Fault Refusal :=
  conclude s do
    let _ ← pick s.bq inst
    notOwned s (nidOf 3 inst)
    let z : Cplx := ⟨s.num.ofB32 re, s.num.ofB32 im⟩
    let (y, t) ← bqcStepAt inst z (cplxContract s.num z) s
    .ok ⟨t, .sample (some (.cplx y)), []⟩

end Machine
end Sys2Proof
end

