-- ==== Sys2Proof/Machine/BitSync.lean ====
section
/-!
DEFINITION. BS, the bit synchronizer, baud-rate detector and lock FSM (45_bitsync.md rules R210 to
R222).
-/

namespace Sys2Proof
namespace Machine

/-- `BS.CONFIG C, CAND, REQ, CAP`, the checks in the order written (rule R210). -/
def bsConfig (M : Numerics) (c : I32) (cand : List B32) (req cap : I32) : Ans Bs :=
  let rates := cand.map M.ofB32
  if c.toInt < 1 then .error (.config .emptyCandidates)
  else if rates.any fun r => M.le r M.zero then .error badArgument
  else if req.toInt < 1 then .error badArgument
  else if cap.toInt < 1 then .error (.config .badBufferWidth)
  else .ok (.conf ⟨c.toInt.toNat, rates, req.toInt.toNat, cap.toInt.toNat⟩)

/-- `clear_sync()`: the run-length state and the bit buffer are cleared; with one candidate BS is
locked to it, otherwise it searches (rule R212). -/
def clearSync (M : Numerics) (c : BsCfg) (r : BsReg) : BsReg :=
  { r with
    lvalid := false
    level := .unwritten
    run := 0
    mvalid := false
    midx := .unwritten
    mcnt := 0
    bitbuf := []
    head := 0
    count := 0
    spb := if c.c = 1 then memRead r.spbc 0 M.zero else M.zero
    lidx := if c.c = 1 then .holds 0 else .unwritten
    last := [] }

/-- The registers after `BS.INIT rate` (rule R211). -/
def bsReg (M : Numerics) (c : BsCfg) (rate : RealVal) : BsReg :=
  clearSync M c
    { rate := rate
      spbc := c.cand.map fun b => M.div rate b
      spb := M.zero
      lidx := .unwritten
      lvalid := false
      level := .unwritten
      run := 0
      mvalid := false
      midx := .unwritten
      mcnt := 0
      bitbuf := []
      head := 0
      count := 0
      last := [] }

/-- `BS.INIT rate`, the body (rules R142, R211). -/
def bsInit (M : Numerics) (u : Bs) (rate : RealVal) : Ans Bs :=
  match u with
  | .unconf => .error badPhase
  | .conf c | .run c _ => do
    positiveRate M rate
    .ok (.run c (bsReg M c rate))

/-- `|L - spb| <= BS_TOL * spb`, inclusive, with `BS_TOL = 0.2` (rule R216). `NUM` has no absolute
value; DESIGN CHOICE, log entry 8. -/
def bsMatches (M : Numerics) (len : Nat) (spb : RealVal) : Bool :=
  M.le (M.abs (M.sub (M.ofNat len) spb)) (M.mul (M.lit 2 10) spb)

/-- The unlocked rule: the run matches the least candidate index in tolerance, and `REQ`
consecutive matches of one candidate lock BS to it (rule R216). -/
def bsSearch (M : Numerics) (c : BsCfg) (r : BsReg) (len : Nat) : BsReg × List Event :=
  match r.spbc.findIdx? (bsMatches M len) with
  | none => ({ r with mvalid := false, mcnt := 0 }, [])
  | some i =>
    let mcnt := if r.mvalid = true ∧ r.midx = .holds i then satInc32 r.mcnt else 1
    if c.req ≤ mcnt then
      ({ r with
          spb := memRead r.spbc i M.zero
          lidx := .holds i
          mvalid := false
          midx := .holds i
          mcnt := 0 },
        [.sync (memRead c.cand i M.zero)])
    else ({ r with mvalid := true, midx := .holds i, mcnt := mcnt }, [])

/-- `push_bit(b)` (rule R217). -/
def pushBit (cap : Nat) (r : BsReg) (b : Bool) : BsReg × List Event :=
  if r.count < cap then
    ({ r with
        bitbuf := memWrite r.bitbuf ((r.head + r.count) % cap) b
        count := r.count + 1 }, [])
  else (r, [.bsOverflow])

/-- `repeat nb times: push_bit(old)` (rule R217). -/
def pushBits (cap : Nat) (b : Bool) : Nat → BsReg → BsReg × List Event
  | 0, r => (r, [])
  | k + 1, r =>
    let (r1, e1) := pushBit cap r b
    let (r2, e2) := pushBits cap b k r1
    (r2, e1 ++ e2)

/-- The locked rule: a run becomes `round(L / SPB)` bits of its level, or is rejected as noise
(rule R217). -/
def bsConvert (M : Numerics) (c : BsCfg) (r : BsReg) (len : Nat) (old : Bool) :
    BsReg × List Event :=
  let nb := M.round (M.div (M.ofNat len) r.spb)
  if Config.bsMaxRunBits < nb then (r, [.noise len]) else pushBits c.cap old nb r

/-- `process_run(L, old)` (rule R215). -/
def processRun (M : Numerics) (c : BsCfg) (r : BsReg) (len : Nat) (old : Bool) :
    BsReg × List Event :=
  if r.locked M then bsConvert M c r len old else bsSearch M c r len

/-- `measure(lv)` (rule R214). -/
def bsMeasure (M : Numerics) (c : BsCfg) (r : BsReg) (lv : Bool) : BsReg × List Event :=
  match r.lvalid, r.level with
  | true, .holds old =>
    if lv = old then ({ r with run := satInc32 r.run }, [])
    else processRun M c { r with level := .holds lv, run := 1 } r.run old
  | _, _ => ({ r with level := .holds lv, run := 1, lvalid := true }, [])

/-- `take_bit()`, the destructive read of the bit buffer (rules R72, R218). -/
def takeBit (c : BsCfg) (r : BsReg) : BsReg × Option Bool :=
  if r.count = 0 then (r, none)
  else
    ({ r with head := (r.head + 1) % c.cap, count := r.count - 1 },
      some (memRead r.bitbuf r.head false))

/-- The tick of BS: bits are pushed before one is taken (rule R213). -/
def bsTick (M : Numerics) (c : BsCfg) (r : BsReg) (lv : Bool) : BsReg × List Event × Option Bool :=
  let (r1, evs) := bsMeasure M c r lv
  let (r2, b) := takeBit c r1
  ({ r2 with last := evs }, evs, b)

/-- BS's INIT on an instance of the block (rule R142). -/
def bsInitAt (inst : Inst) (rate : RealVal) (s : State) : Ans (RealVal × State) := do
  let u ← pick s.bs inst
  let u' ← bsInit s.num u rate
  .ok (rate, putBs inst u' s)

/-- The bit that a tick of BS delivered, if any. -/
def deliveredBy (inst : Inst) : Option Bool → List Delivered
  | none => []
  | some b => [⟨inst, b⟩]

/-- BS's STEP on an instance of the block (rules R142, R213). -/
def bsStepAt (inst : Inst) (lv : Bool) (s : State) : Ans (Option Bool × List Raised × State) := do
  match (← pick s.bs inst) with
  | .run c r =>
    let (r', evs, b) := bsTick s.num c r lv
    .ok (b, raisedBy inst evs, putBs inst (.run c r') s)
  | _ => .error badPhase

/-- BS.CONFIG (rule R210), the registers replaced under the node's lock (rule R80). -/
def execBsConfig (inst : Inst) (c : I32) (cand : List B32) (req cap : I32) (s : State) :
    Host.Outcome State Fault Refusal :=
  conclude s do
    let _ ← pick s.bs inst
    let u ← bsConfig s.num c cand req cap
    .ok ⟨underLock (nidOf 5 inst) (putBs inst u) s, .none, []⟩

/-- BS.INIT (rule R211). -/
def execBsInit (inst : Inst) (rate : B32) (s : State) : Host.Outcome State Fault Refusal :=
  conclude s do
    let _ ← pick s.bs inst
    notOwned s (nidOf 5 inst)
    let (r, t) ← bsInitAt inst (s.num.ofB32 rate) s
    .ok ⟨t, .rate r, []⟩

/-- BS.STEP (rule R213). -/
def execBsStep (inst : Inst) (lv : Bool) (s : State) : Host.Outcome State Fault Refusal :=
  concludeBits s do
    let _ ← pick s.bs inst
    notOwned s (nidOf 5 inst)
    let (b, evs, t) ← bsStepAt inst lv s
    .ok (⟨t, .sample (b.map .bool), evs⟩, deliveredBy inst b)

/-- BS.WAIT_FOR_SYNC (rule R219); neither an INIT nor a STEP, so legal on an owned node (rule
R152). -/
def execBsWaitForSync (inst : Inst) (s : State) : Host.Outcome State Fault Refusal :=
  conclude s do
    match (← pick s.bs inst) with
    | .run c r =>
      .ok ⟨putBs inst (.run c (clearSync s.num c r)) s, .none, []⟩
    | _ => .error badPhase

end Machine
end Sys2Proof
end

