-- ==== Sys2Proof/Machine/Fir.lean ====
section
/-!
DEFINITION. FIR, the windowed-sinc FIR filter engine, real and complex (42_fir.md rules R170 to
R179).
-/

namespace Sys2Proof
namespace Machine

/-- `FIR.CONFIG WINDOW, T, FSTART, FSTOP, BETA, CX`, the checks in the order written (rule
R170). -/
def firConfig (M : Numerics) (window t : I32) (fstart fstop beta : B32) (cx : I32) : Ans Fir :=
  match windowOf window with
  | none => .error badEnum
  | some w =>
    if t.toInt ≤ 0 then .error (.config .badTapCount)
    else if M.lt (M.ofB32 beta) M.zero then .error badArgument
    else
      match cxOf cx with
      | none => .error badEnum
      | some z =>
        .ok (.conf ⟨w, t.toInt.toNat, M.ofB32 fstart, M.ofB32 fstop, M.ofB32 beta, z⟩)

/-- `TE`: an even tap count is reduced by one (rule R172). -/
def effectiveTaps (t : Nat) : Nat := if t % 2 = 1 then t else t - 1

/-- `2 * PI * n / M` of the window formulas (rule R178), with `n` and `M = TE - 1` converted to `Real` each by
itself; DESIGN CHOICE, log entry 44. -/
def windowAngle (M : Numerics) (n m : Nat) : RealVal :=
  M.div (M.mul (M.mul (M.ofNat 2) M.pi) (M.ofNat n)) (M.ofNat m)

/-- `win(n)` for `n = 0 .. TE-1` (rule R178). `NUM` has no power function but `10^x` (rule R7), so
the square of the KAISER row is a product; DESIGN CHOICE, log entry 8. `M` is computed as an integer and then
converted to `Real`, and `2*n` of the KAISER row is a product in `NUM` of the converted 2 and `n`; DESIGN
CHOICE, log entry 44. -/
def win (M : Numerics) (w : Window) (beta : RealVal) (te n : Nat) : RealVal :=
  if te = 1 then M.ofNat 1
  else
    let m := te - 1
    let c1 := M.cos (windowAngle M n m)
    match w with
    | .rect => M.ofNat 1
    | .hamming => M.sub (M.lit 54 100) (M.mul (M.lit 46 100) c1)
    | .hann => M.sub (M.lit 1 2) (M.mul (M.lit 1 2) c1)
    | .blackman =>
      let c2 := M.cos (M.div (M.mul (M.mul (M.ofNat 4) M.pi) (M.ofNat n)) (M.ofNat m))
      M.add (M.sub (M.lit 42 100) (M.mul (M.lit 1 2) c1)) (M.mul (M.lit 8 100) c2)
    | .kaiser =>
      let u := M.sub (M.div (M.mul (M.ofNat 2) (M.ofNat n)) (M.ofNat m)) (M.ofNat 1)
      M.div (M.besselI0 (M.mul beta (M.sqrt (M.sub (M.ofNat 1) (M.mul u u))))) (M.besselI0 beta)

/-- `sinc(x)` (rule R173). -/
def sinc (M : Numerics) (x : RealVal) : RealVal :=
  if M.eq x M.zero then M.ofNat 1 else M.div (M.sin (M.mul M.pi x)) (M.mul M.pi x)

/-- `FIR_TONE(n, TE, a, win)`, the single-tone formula: the default
`(2 / TE) * win(n) * cos(2 * PI * a * d)` or an open function (rule R174). `wins` are the values
`win(0) .. win(TE-1)`; DESIGN CHOICE, log entry 16. `d = n - c` is computed in the integers and its value, which
may be negative, converted to `Real`, while `2 / TE` is a division in `NUM`; DESIGN CHOICE, log entry 44. -/
def firToneTap (M : Numerics) (tone : ToneSel) (n te : Nat) (a : RealVal) (wins : List RealVal) :
    RealVal :=
  match tone with
  | .reference =>
    let d := M.lit ((n : Int) - ((te - 1) / 2 : Nat)) 1
    M.mul (M.mul (M.div (M.ofNat 2) (M.ofNat te)) (memRead wins n M.zero))
      (M.cos (M.mul (M.mul (M.mul (M.ofNat 2) M.pi) a) d))
  | .other k => Config.firTone k n te a wins

/-- The window `win(0) .. win(TE-1)` (rule R178). -/
def winList (M : Numerics) (w : Window) (beta : RealVal) (te : Nat) : List RealVal :=
  (List.range te).map (win M w beta te)

/-- `tap(n)` for the clamped band edges `f1` and `f2` (rule R173). `d = n - c` is computed in the integers and
its value, which may be negative, converted to `Real`; DESIGN CHOICE, log entry 44. -/
def firTap (M : Numerics) (tone : ToneSel) (c : FirCfg) (rate f1 f2 : RealVal) (te n : Nat) :
    RealVal :=
  let a := M.div f1 rate
  let b := M.div f2 rate
  let w := win M c.window c.beta te n
  if M.eq f1 f2 then firToneTap M tone n te a (winList M c.window c.beta te)
  else
    let d := M.lit ((n : Int) - ((te - 1) / 2 : Nat)) 1
    let b2 := M.mul (M.ofNat 2) b
    let a2 := M.mul (M.ofNat 2) a
    M.mul w (M.sub (M.mul b2 (sinc M (M.mul b2 d))) (M.mul a2 (sinc M (M.mul a2 d))))

/-- `TAPS[0..TE-1]` (rules R171, R173). -/
def firTaps (M : Numerics) (tone : ToneSel) (c : FirCfg) (rate : RealVal) (te : Nat) :
    List RealVal :=
  (List.range te).map (firTap M tone c rate (M.clampf rate c.fstart) (M.clampf rate c.fstop) te)

/-- The ring filled with `TE` zeros, of the type `CX` selects (rules R35, R171). -/
def firZeros (M : Numerics) (cx : Bool) (te : Nat) : FirRing :=
  if cx then .cplx (List.replicate te ⟨M.zero, M.zero⟩) else .real (List.replicate te M.zero)

/-- The registers after `FIR.INIT rate` (rule R171). The taps count as rounded unless `NUM` is exact:
DESIGN CHOICE, log entry 41. -/
def firReg (M : Numerics) (tone : ToneSel) (c : FirCfg) (rate : RealVal) : FirReg where
  te := effectiveTaps c.t
  rate := rate
  taps := firTaps M tone c rate (effectiveTaps c.t)
  ring := firZeros M c.cx (effectiveTaps c.t)
  wp := 0
  standing := .start (!M.exact)

/-- `FIR.INIT rate`, the body (rules R142, R171). -/
def firInit (M : Numerics) (tone : ToneSel) (u : Fir) (rate : RealVal) : Ans Fir :=
  match u with
  | .unconf => .error badPhase
  | .conf c | .run c _ => do
    positiveRate M rate
    if M.lt (M.clampf rate c.fstop) (M.clampf rate c.fstart) then .error (.config .badBand)
    else .ok (.run c (firReg M tone c rate))

/-- The convolution of the taps with the real ring after the insertion: tap `i` times the sample of
age `i`, from `i = 0` upward (rule R175). -/
def firSum (M : Numerics) (taps ring : List RealVal) (wp te : Nat) : RealVal :=
  (List.range te).foldl
    (fun y i => M.add y (M.mul (memRead taps i M.zero) (ringAge ring wp te i M.zero))) M.zero

/-- The convolution of the real taps with the complex ring (rule R176). -/
def fircSum (M : Numerics) (taps : List RealVal) (ring : List Cplx) (wp te : Nat) : Cplx :=
  (List.range te).foldl
    (fun y i =>
      let t := memRead taps i M.zero
      let z := ringAge ring wp te i ⟨M.zero, M.zero⟩
      ⟨M.add y.re (M.mul t z.re), M.add y.im (M.mul t z.im)⟩)
    ⟨M.zero, M.zero⟩

/-- An operation of `firSum` is rounded. -/
def firRounds (M : Numerics) (taps ring : List RealVal) (wp te : Nat) : Bool :=
  ((List.range te).foldl
    (fun (a : Bool × RealVal) i =>
      let t := memRead taps i M.zero
      let z := ringAge ring wp te i M.zero
      let p := M.mul t z
      (a.1 || M.rounds (.mul t z) || M.rounds (.add a.2 p), M.add a.2 p))
    (false, M.zero)).1

/-- An operation of `fircSum` is rounded: one on the real or on the imaginary parts. -/
def fircRounds (M : Numerics) (taps : List RealVal) (ring : List Cplx) (wp te : Nat) : Bool :=
  firRounds M taps (ring.map (·.re)) wp te || firRounds M taps (ring.map (·.im)) wp te

/-- The tick of a real filter: the registers after it and the computed output (rule R175). A sample or an
output that is not a number opens the outputs until the next INIT (U3, U5), and so does a sample outside
`[-1, 1]` where an operation since the last INIT was rounded (U3). A sample that a node of a tree passed
counts where it is no number: DESIGN CHOICE, log entry 43. -/
def firTick (M : Numerics) (r : FirReg) (ring : List RealVal) (x : RealVal) (q : Contract) :
    FirReg × RealVal :=
  let ring' := memWrite ring r.wp x
  let wp' := ringNext r.wp r.te
  let y := firSum M r.taps ring' wp' r.te
  ({ r with
      ring := .real ring'
      wp := wp'
      standing := r.standing.after q (firRounds M r.taps ring' wp' r.te) (M.fin x && M.fin y) }, y)

/-- The tick of a complex filter (rule R176); the outputs open as in `firTick` (log entry 43). -/
def fircTick (M : Numerics) (r : FirReg) (ring : List Cplx) (z : Cplx) (q : Contract) :
    FirReg × Cplx :=
  let ring' := memWrite ring r.wp z
  let wp' := ringNext r.wp r.te
  let y := fircSum M r.taps ring' wp' r.te
  ({ r with
      ring := .cplx ring'
      wp := wp'
      standing := r.standing.after q (fircRounds M r.taps ring' wp' r.te) (M.finC z && M.finC y) }, y)

/-- FIR's INIT on an instance of the block (rule R142). -/
def firInitAt (inst : Inst) (rate : RealVal) (s : State) : Ans (RealVal × State) := do
  let u ← pick s.fir inst
  let u' ← firInit s.num s.par.tone u rate
  .ok (rate, putFir inst u' s)

/-- The real STEP on an instance of the block (rules R142, R175). `q` says how the operand of the
operation keeps the source contract. -/
def firStepAt (inst : Inst) (x : RealVal) (q : Contract) (s : State) : Ans (RealVal × State) := do
  match (← pick s.fir inst) with
  | .run c r =>
    match c.cx, r.ring with
    | false, .real ring =>
      let (r', y) := firTick s.num r ring x q
      let (v, t) := openReal r'.standing.anyOut y s
      .ok (v, putFir inst (.run c r') t)
    | _, _ => .error (.contract .typeMismatch)
  | _ => .error badPhase

/-- The complex STEP on an instance of the block (rules R142, R176). -/
def fircStepAt (inst : Inst) (z : Cplx) (q : Contract) (s : State) : Ans (Cplx × State) := do
  match (← pick s.fir inst) with
  | .run c r =>
    match c.cx, r.ring with
    | true, .cplx ring =>
      let (r', y) := fircTick s.num r ring z q
      let (v, t) := openCplx r'.standing.anyOut y s
      .ok (v, putFir inst (.run c r') t)
    | _, _ => .error (.contract .typeMismatch)
  | _ => .error badPhase

/-- `FIR.SET_TAPS T'`, the body: in CONF only `T` changes; in RUN the taps are recomputed with the
rate of the last INIT and the history is discarded (rule R177). It is no INIT, so that the standing stays,
with the new taps as rounded as an INIT's (log entry 41). -/
def firSetTaps (M : Numerics) (tone : ToneSel) (u : Fir) (t : Nat) : Ans Fir :=
  match u with
  | .unconf => .error badPhase
  | .conf c => if t = 0 then .error (.config .badTapCount) else .ok (.conf { c with t := t })
  | .run c r =>
    if t = 0 then .error (.config .badTapCount)
    else
      .ok (.run { c with t := t }
        { r with
          te := effectiveTaps t
          taps := firTaps M tone { c with t := t } r.rate (effectiveTaps t)
          ring := firZeros M c.cx (effectiveTaps t)
          wp := 0
          standing := { r.standing with rounded := r.standing.rounded || !M.exact } })

/-- FIR.CONFIG (rule R170), the registers replaced under the node's lock (rule R80). -/
def execFirConfig (inst : Inst) (window t : I32) (fstart fstop beta : B32) (cx : I32) (s : State) :
    Host.Outcome State Fault Refusal :=
  conclude s do
    let _ ← pick s.fir inst
    let u ← firConfig s.num window t fstart fstop beta cx
    .ok ⟨underLock (nidOf 2 inst) (putFir inst u) s, .none, []⟩

/-- FIR.INIT (rule R171). -/
def execFirInit (inst : Inst) (rate : B32) (s : State) : Host.Outcome State Fault Refusal :=
  conclude s do
    let _ ← pick s.fir inst
    notOwned s (nidOf 2 inst)
    let (r, t) ← firInitAt inst (s.num.ofB32 rate) s
    .ok ⟨t, .rate r, []⟩

/-- FIR.STEP (rule R175). -/
def execFirStep (inst : Inst) (x : B32) (s : State) : Host.Outcome State Fault Refusal :=
  conclude s do
    let _ ← pick s.fir inst
    notOwned s (nidOf 2 inst)
    let v := s.num.ofB32 x
    let (y, t) ← firStepAt inst v (realContract s.num v) s
    .ok ⟨t, .sample (some (.real y)), []⟩

/-- FIRC.STEP (rule R176). -/
def execFircStep (inst : Inst) (re im : B32) (s : State) : Host.Outcome State Fault Refusal :=
  conclude s do
    let _ ← pick s.fir inst
    notOwned s (nidOf 2 inst)
    let z : Cplx := ⟨s.num.ofB32 re, s.num.ofB32 im⟩
    let (y, t) ← fircStepAt inst z (cplxContract s.num z) s
    .ok ⟨t, .sample (some (.cplx y)), []⟩

/-- FIR.SET_TAPS (rule R177), legal on an owned node (rule R152), under the node's lock. -/
def execFirSetTaps (inst : Inst) (taps : Nat) (s : State) : Host.Outcome State Fault Refusal :=
  conclude s do
    let u ← pick s.fir inst
    let u' ← firSetTaps s.num s.par.tone u taps
    .ok ⟨underLock (nidOf 2 inst) (putFir inst u') s, .none, []⟩

end Machine
end Sys2Proof
end

