-- ==== Sys2Proof/Machine/Framer.lean ====
section
/-!
DEFINITION. HD, the HDLC-style framer with bit destuffing (47_hdlc.md rules R270 to R289, data
formats 30_encoding.md rules R110 to R116).
-/

namespace Sys2Proof
namespace Machine

/-! ### The parse of a completed frame (rules R282 to R287) -/

/-- `addr(a[0..6])`, one address block (rules R113, R283). -/
def addrOf (a : List (BitVec 8)) : Addr :=
  let ctl := memRead a 6 0
  { call := (a.take 6).map fun b => b.extractLsb' 1 7
    ssid := ctl.extractLsb' 1 4
    ch := ctl.getLsbD 7
    rr := ctl.extractLsb' 5 2
    ext := ctl.getLsbD 0 }

/-- The repeater blocks, while the preceding block's end-of-address bit is 0: the blocks and the
bytes after them; `none` where a ninth block would follow or the field runs past the end of the
frame. `room` is how many more blocks are allowed (rule R284). -/
def repeaters : Nat → Bool → List (BitVec 8) → Option (List Addr × List (BitVec 8))
  | _, true, rest => some ([], rest)
  | 0, false, _ => none
  | room + 1, false, rest =>
    if rest.length < 7 then none
    else
      match repeaters room (addrOf (rest.take 7)).ext (rest.drop 7) with
      | some (rs, tail) => some (addrOf (rest.take 7) :: rs, tail)
      | none => none

/-- The frame type of a control byte (rules R114, R285). -/
def frameType (ctl : BitVec 8) : FrameType :=
  if ctl.getLsbD 0 = false then .i else if ctl.getLsbD 1 = false then .s else .u

/-- A protocol-ID and a payload follow the control byte (rules R115, R286). -/
def hasPid (ctl : BitVec 8) : Bool :=
  frameType ctl == .i || (frameType ctl == .u && (ctl &&& 0xEF) == 0x03)

/-- The protocol-ID bytes and the payload; `none` where the frame ends before them (rule R286). -/
def pidFields (rest : List (BitVec 8)) :
    Option (BitVec 8 × Option (BitVec 8) × List (BitVec 8)) :=
  match rest with
  | [] => none
  | p :: rest =>
    if p = Config.hdPidEsc then
      match rest with
      | [] => none
      | p2 :: rest => some (p, some p2, rest)
    else some (p, none, rest)

/-- The frame from its address blocks, its control byte and the bytes after it (rules R282,
R287). -/
def frameOf (dest src : Addr) (reps : List Addr) (ctl : BitVec 8) (rest : List (BitVec 8)) :
    Option Frame :=
  if hasPid ctl then
    match pidFields rest with
    | none => none
    | some (p, p2, payload) =>
      some
        { dest := dest, src := src, reps := reps, ctl := ctl, type := frameType ctl,
          pid := some p, pid2 := p2, payload := some payload }
  else
    some
      { dest := dest, src := src, reps := reps, ctl := ctl, type := frameType ctl,
        pid := none, pid2 := none, payload := none }

/-- `parse(B)`: a frame, or `none` where the bytes are a violation (rule R282). -/
def parseFrame (B : List (BitVec 8)) : Option Frame :=
  let dest := addrOf (B.take 7)
  let src := addrOf ((B.drop 7).take 7)
  match repeaters Config.hdMaxRep src.ext (B.drop 14) with
  | none => none
  | some (_, []) => none
  | some (reps, ctl :: rest) => frameOf dest src reps ctl rest

/-! ### The destuffer (rules R277, R278) -/

/-- `clear_datapath()` (rule R277). -/
def clearDatapath (h : Hd) : Hd :=
  { h with ones := 0, acc := 0, accn := 0, blen := 0, ovf := false }

/-- The outcome of `destuff_store` (rule R278). -/
inductive Stuff where
  | store | drop | fin
  deriving DecidableEq, Repr

/-- A destuffed bit enters the byte being assembled, the first bit at bit 0; a complete byte goes
to `BUF`, or is lost (rules R74, R278). -/
def storeBit (h : Hd) (b : Bool) : Hd :=
  let acc := h.acc ||| (BitVec.ofNat 8 b.toNat <<< h.accn)
  if h.accn + 1 = 8 then
    if h.blen < Config.hdMaxBytes then
      { h with buf := memWrite h.buf h.blen acc, blen := h.blen + 1, acc := 0, accn := 0 }
    else { h with ovf := true, acc := 0, accn := 0 }
  else { h with acc := acc, accn := h.accn + 1 }

/-- `destuff_store(b)` (rule R278). -/
def destuffStore (h : Hd) (b : Bool) : Hd × Stuff :=
  if h.ones = 5 then (if b then (h, .fin) else ({ h with ones := 0 }, .drop))
  else ({ storeBit h b with ones := if b then h.ones + 1 else 0 }, .store)

/-! ### The end of a frame (rules R279, R281) -/

/-- What the bytes of a finished frame come to: an event, or a frame (rule R281). -/
def verdict (h : Hd) : List Event × Option Frame :=
  if h.ovf then ([.overflow], none)
  else if h.blen * 8 < Config.hdMinBits then ([.short], none)
  else
    match parseFrame (h.buf.take h.blen) with
    | none => ([.framing], none)
    | some f => ([], some f)

/-- `finalize()`: `RAW` is kept (rule R281). -/
def hdFinalize (h : Hd) : Hd × List Event × Option Frame :=
  (clearDatapath { h with state := .waitFlag, nflag := 0, cnt8 := 0 },
    (verdict h).1, (verdict h).2)

/-! ### The four states (rules R271 to R276) -/

/-- One more on `NFLAG`, saturating at 255 (rule R40). -/
def moreFlags (n : Nat) : Nat := min (n + 1) 255

/-- The bits of an octet replayed through the destuffer, oldest first, until one ends the frame
(rule R275). -/
def replay : List Bool → Hd → Hd × List Event × Option Frame
  | [], h => (h, [], none)
  | b :: bs, h =>
    match destuffStore h b with
    | (h', .fin) => hdFinalize h'
    | (h', _) => replay bs h'

/-- The eight raw bits, oldest first (rule R275). -/
def rawBits (raw : BitVec 8) : List Bool := (List.range 8).map fun i => raw.getLsbD (7 - i)

/-- `WAIT_FLAG` (rule R273). -/
def hdWaitFlag (h : Hd) : Hd × List Event × Option Frame :=
  if h.raw = Config.hdFlag then ({ h with state := .countFlag, nflag := 1, cnt8 := 0 }, [], none)
  else (h, [], none)

/-- `WAIT_DATA` (rule R275). -/
def hdWaitData (h : Hd) : Hd × List Event × Option Frame :=
  if h.cnt8 + 1 = 8 then
    if h.raw = Config.hdFlag then ({ h with cnt8 := 0, nflag := moreFlags h.nflag }, [], none)
    else replay (rawBits h.raw) (clearDatapath { h with cnt8 := 0, state := .waitEnd })
  else ({ h with cnt8 := h.cnt8 + 1 }, [], none)

/-- `COUNT_FLAG`, which hands the bit to `WAIT_DATA` once `HD_MIN_FLAGS` flags are counted (rule
R274). -/
def hdCountFlag (h : Hd) : Hd × List Event × Option Frame :=
  if Config.hdMinFlags ≤ h.nflag then hdWaitData { h with state := .waitData }
  else if h.cnt8 + 1 = 8 then
    if h.raw = Config.hdFlag then ({ h with cnt8 := 0, nflag := moreFlags h.nflag }, [], none)
    else ({ h with cnt8 := 0, state := .waitFlag, nflag := 0 }, [.framing], none)
  else ({ h with cnt8 := h.cnt8 + 1 }, [], none)

/-- `WAIT_END` (rule R276). -/
def hdWaitEnd (h : Hd) (b : Bool) : Hd × List Event × Option Frame :=
  match destuffStore h b with
  | (h', .fin) => hdFinalize h'
  | (h', _) => if h'.raw = Config.hdFlag then hdFinalize h' else (h', [], none)

/-- The state's rule, on the updated `RAW` (rule R271). -/
def hdDispatch (h : Hd) (b : Bool) : Hd × List Event × Option Frame :=
  match h.state with
  | .waitFlag => hdWaitFlag h
  | .countFlag => hdCountFlag h
  | .waitData => hdWaitData h
  | .waitEnd => hdWaitEnd h b

/-- The tick of HD (rule R271). -/
def hdTick (h : Hd) (b : Bool) : Hd × List Event × Option Frame :=
  let (h', evs, f) := hdDispatch { h with raw := shiftIn h.raw b } b
  ({ h' with last := evs }, evs, f)

/-! ### The operations -/

/-- The registers after `HD.RESET`: the reset column of rule R40, in which `BUF` is "unwritten
(empty)". -/
def hdResetReg (_ : Hd) : Hd := Hd.reset

/-- HD.RESET (rule R270). -/
def execHdReset (inst : Inst) (s : State) : Host.Outcome State Fault Refusal :=
  conclude s do
    let h ← pick s.hd inst
    .ok ⟨putHd inst (hdResetReg h) s, .none, []⟩

/-- HD.STEP (rule R271). -/
def execHdStep (inst : Inst) (b : Bool) (s : State) : Host.Outcome State Fault Refusal :=
  conclude s do
    let h ← pick s.hd inst
    let (h', evs, f) := hdTick h b
    .ok ⟨emitOpt (f.map .frame) (putHd inst h' s), .frame f,
      raisedBy inst evs⟩

end Machine
end Sys2Proof
end

