-- ==== Sys2Proof/Machine/Goertzel.lean ====
section
/-!
DEFINITION. GZ, the single-bin Goertzel detector (41_goertzel.md rules R160 to R165).
-/

namespace Sys2Proof
namespace Machine

/-- `GZ.CONFIG N, F` (rule R160). -/
def gzConfig (M : Numerics) (n : I32) (f : B32) : Ans Gz :=
  if n.toInt < 1 then .error (.config .badWindowSize)
  else .ok (.conf ⟨n.toInt.toNat, M.ofB32 f⟩)

/-- `K`, the bin nearest to the clamped frequency (rule R161). -/
def gzBin (M : Numerics) (c : GzCfg) (rate : RealVal) : Nat :=
  M.round (M.div (M.mul (M.clampf rate c.f) (M.ofNat c.n)) rate)

/-- `COEFF = 2 * cos(2 * PI / N * K)` (rule R161, conflict C1). -/
def gzCoeff (M : Numerics) (n k : Nat) : RealVal :=
  M.mul (M.ofNat 2)
    (M.cos (M.mul (M.div (M.mul (M.ofNat 2) M.pi) (M.ofNat n)) (M.ofNat k)))

/-- The registers after `GZ.INIT rate` (rule R161). `COEFF` counts as rounded unless `NUM` is exact: DESIGN
CHOICE, log entry 41. -/
def gzReg (M : Numerics) (c : GzCfg) (rate : RealVal) : GzReg where
  rate := rate
  k := gzBin M c rate
  coeff := gzCoeff M c.n (gzBin M c rate)
  ring := List.replicate c.n M.zero
  wp := 0
  standing := .start (!M.exact)

/-- `GZ.INIT rate`, the body (rules R142, R161). -/
def gzInit (M : Numerics) (g : Gz) (rate : RealVal) : Ans Gz :=
  match g with
  | .unconf => .error badPhase
  | .conf c | .run c _ => do
    positiveRate M rate
    .ok (.run c (gzReg M c rate))

/-- The window of the last `n` samples, oldest first (rules R71, R162). -/
def ringWindow (ring : List RealVal) (wp n : Nat) (d : RealVal) : List RealVal :=
  (List.range n).map fun j => ringAge ring wp n (n - 1 - j) d

/-- The recurrence over one window, from `V1 = V2 = 0`: the pair `(V1, V2)` after the last sample
(rule R162). -/
def gzScan (M : Numerics) (coeff : RealVal) (window : List RealVal) : RealVal × RealVal :=
  window.foldl (fun v s => (M.add (M.sub (M.mul coeff v.1) v.2) s, v.1)) (M.zero, M.zero)

/-- `sqrt(V2*V2 + V1*V1 - COEFF*V1*V2)` (rule R162). -/
def gzMagnitude (M : Numerics) (coeff : RealVal) (v : RealVal × RealVal) : RealVal :=
  M.sqrt (M.sub (M.add (M.mul v.2 v.2) (M.mul v.1 v.1)) (M.mul (M.mul coeff v.1) v.2))

/-- The registers after `x` is inserted in the ring (rule R162). A sample that breaks the source contract
opens the outputs until the next INIT, one that is a number outside `[-1, 1]` only where `NUM` is not
exact (U3). A NaN or an infinity opens them as well where a node of a tree passed it: DESIGN CHOICE, log
entry 43. -/
def gzInsert (M : Numerics) (c : GzCfg) (r : GzReg) (x : RealVal) (q : Contract) : GzReg :=
  { r with
    ring := memWrite r.ring r.wp x
    wp := ringNext r.wp c.n
    standing := r.standing.after q (!M.exact) (M.fin x) }

/-- The output of a tick, from the registers after the insertion (rule R162). -/
def gzOutput (M : Numerics) (c : GzCfg) (r : GzReg) : RealVal :=
  gzMagnitude M r.coeff (gzScan M r.coeff (ringWindow r.ring r.wp c.n M.zero))

/-- GZ's INIT on an instance of the block, as an operation or for a composite (rule R142). -/
def gzInitAt (inst : Inst) (rate : RealVal) (s : State) : Ans (RealVal × State) := do
  let g ← pick s.gz inst
  let g' ← gzInit s.num g rate
  .ok (rate, putGz inst g' s)

/-- GZ's STEP on an instance of the block, as an operation or for a composite (rules R142,
R162). `q` says how the operand of the operation keeps the source contract. -/
def gzStepAt (inst : Inst) (x : RealVal) (q : Contract) (s : State) : Ans (RealVal × State) := do
  match (← pick s.gz inst) with
  | .run c r =>
    let r' := gzInsert s.num c r x q
    let (y, t) := openReal r'.standing.anyOut (gzOutput s.num c r') s
    .ok (y, putGz inst (.run c r') t)
  | _ => .error badPhase

/-- GZ.CONFIG (rule R160), the registers replaced under the node's lock (rule R80). -/
def execGzConfig (inst : Inst) (n : I32) (f : B32) (s : State) :
    Host.Outcome State Fault Refusal :=
  conclude s do
    let _ ← pick s.gz inst
    let g ← gzConfig s.num n f
    .ok ⟨underLock (nidOf 1 inst) (putGz inst g) s, .none, []⟩

/-- GZ.INIT (rule R161). -/
def execGzInit (inst : Inst) (rate : B32) (s : State) : Host.Outcome State Fault Refusal :=
  conclude s do
    let _ ← pick s.gz inst
    notOwned s (nidOf 1 inst)
    let (r, t) ← gzInitAt inst (s.num.ofB32 rate) s
    .ok ⟨t, .rate r, []⟩

/-- GZ.STEP (rule R162). -/
def execGzStep (inst : Inst) (x : B32) (s : State) : Host.Outcome State Fault Refusal :=
  conclude s do
    let _ ← pick s.gz inst
    notOwned s (nidOf 1 inst)
    let v := s.num.ofB32 x
    let (y, t) ← gzStepAt inst v (realContract s.num v) s
    .ok ⟨t, .sample (some (.real y)), []⟩

end Machine
end Sys2Proof
end

