-- ==== Sys2Proof/Machine/MovingAverage.lean ====
section
/-!
DEFINITION. MA, the moving-average filter (44_movavg.md rules R200 to R204).
-/

namespace Sys2Proof
namespace Machine

/-- `MA.CONFIG N` (rule R200). -/
def maConfig (n : I32) : Ans Ma :=
  if n.toInt < 1 then .error (.config .badWindowSize) else .ok (.conf ⟨n.toInt.toNat⟩)

/-- The registers after `MA.INIT rate` (rule R201). -/
def maReg (M : Numerics) (c : MaCfg) : MaReg where
  ring := List.replicate c.n M.zero
  wp := 0
  sum := M.zero
  zrun := 0
  standing := .start false

/-- `MA.INIT rate`, the body (rules R142, R201). -/
def maInit (M : Numerics) (u : Ma) (rate : RealVal) : Ans Ma :=
  match u with
  | .unconf => .error badPhase
  | .conf c | .run c _ => do
    positiveRate M rate
    .ok (.run c (maReg M c))

/-- `ZRUN` after the input `x` (rule R203). -/
def maZrun (M : Numerics) (n zrun : Nat) (x : RealVal) : Nat :=
  if M.eq x M.zero then min (zrun + 1) n else 0

/-- `SUM` after the input `x`: `sum += new - evicted`, and 0 after `N` exact zeros (rules R202,
R203). -/
def maSum (M : Numerics) (n : Nat) (r : MaReg) (x : RealVal) : RealVal :=
  if M.eq x M.zero && decide (n ≤ maZrun M n r.zrun x) then M.zero
  else M.add r.sum (M.sub x (memRead r.ring r.wp M.zero))

/-- An operation of a tick is rounded: of the sum, where it is not set to 0, of the literal `N`, or of the
output. -/
def maRounds (M : Numerics) (n : Nat) (r : MaReg) (x : RealVal) : Bool :=
  let evicted := memRead r.ring r.wp M.zero
  !(M.eq x M.zero && decide (n ≤ maZrun M n r.zrun x)) &&
      (M.rounds (.sub x evicted) || M.rounds (.add r.sum (M.sub x evicted))) ||
    M.rounds (.lit n 1) || M.rounds (.div (maSum M n r x) (M.ofNat n))

/-- The registers after a tick (rules R202, R203). A sample or a sum that is not a number opens the outputs
until the next INIT (U3, U5), and so does a sample outside `[-1, 1]` where an operation since the last INIT
was rounded (U3). A sample that a node of a tree passed counts where it is no number: DESIGN CHOICE, log
entry 43. -/
def maTick (M : Numerics) (c : MaCfg) (r : MaReg) (x : RealVal) (q : Contract) : MaReg where
  ring := memWrite r.ring r.wp x
  wp := ringNext r.wp c.n
  sum := maSum M c.n r x
  zrun := maZrun M c.n r.zrun x
  standing := r.standing.after q (maRounds M c.n r x) (M.fin x && M.fin (maSum M c.n r x))

/-- The output of a tick, `SUM / N` (rule R202). -/
def maOutput (M : Numerics) (c : MaCfg) (r : MaReg) : RealVal := M.div r.sum (M.ofNat c.n)

/-- MA's INIT on an instance of the block (rule R142). -/
def maInitAt (inst : Inst) (rate : RealVal) (s : State) : Ans (RealVal × State) := do
  let u ← pick s.ma inst
  let u' ← maInit s.num u rate
  .ok (rate, putMa inst u' s)

/-- MA's STEP on an instance of the block (rules R142, R202). `q` says how the operand of the
operation keeps the source contract. -/
def maStepAt (inst : Inst) (x : RealVal) (q : Contract) (s : State) : Ans (RealVal × State) := do
  match (← pick s.ma inst) with
  | .run c r =>
    let r' := maTick s.num c r x q
    let (y, t) := openReal r'.standing.anyOut (maOutput s.num c r') s
    .ok (y, putMa inst (.run c r') t)
  | _ => .error badPhase

/-- MA.CONFIG (rule R200), the registers replaced under the node's lock (rule R80). -/
def execMaConfig (inst : Inst) (n : I32) (s : State) : Host.Outcome State Fault Refusal :=
  conclude s do
    let _ ← pick s.ma inst
    let u ← maConfig n
    .ok ⟨underLock (nidOf 4 inst) (putMa inst u) s, .none, []⟩

/-- MA.INIT (rule R201). -/
def execMaInit (inst : Inst) (rate : B32) (s : State) : Host.Outcome State Fault Refusal :=
  conclude s do
    let _ ← pick s.ma inst
    notOwned s (nidOf 4 inst)
    let (r, t) ← maInitAt inst (s.num.ofB32 rate) s
    .ok ⟨t, .rate r, []⟩

/-- MA.STEP (rule R202). -/
def execMaStep (inst : Inst) (x : B32) (s : State) : Host.Outcome State Fault Refusal :=
  conclude s do
    let _ ← pick s.ma inst
    notOwned s (nidOf 4 inst)
    let v := s.num.ofB32 x
    let (y, t) ← maStepAt inst v (realContract s.num v) s
    .ok ⟨t, .sample (some (.real y)), []⟩

end Machine
end Sys2Proof
end

