-- ==== Sys2Proof/Machine/Paging.lean ====
section
/-!
DEFINITION. PG, the paging-protocol codeword assembler (48_paging.md rules R300 to R323, data
formats 30_encoding.md rules R117 to R121).
-/

namespace Sys2Proof
namespace Machine

/-- What a rule of PG leaves: the registers, the events in order, and the page it emitted. At most
one page is emitted per tick (rule R302). -/
structure PgOut where
  pg : Pg
  evs : List Event
  page : Option Page
  deriving DecidableEq, Repr

/-- A rule that raises nothing and emits nothing. -/
def PgOut.quiet (p : Pg) : PgOut := ⟨p, [], none⟩

/-! ### The message (rules R312 to R316) -/

/-- A message with neither address nor data is not emitted (rule R314). -/
def PgMsg.hasContent (m : PgMsg) : Bool := m.hasAddr || decide (0 < m.ndata)

/-- The filter lets the alphanumeric text through (rule R314). -/
def Filter.showsAlpha : Filter → Bool
  | .alpha => true
  | .both => true
  | _ => false

/-- The filter lets the numeric text through (rule R314). -/
def Filter.showsNum : Filter → Bool
  | .numeric => true
  | .both => true
  | _ => false

/-- The page of the message in progress: the filter acts here and nowhere else (rules R303,
R314). -/
def pageOf (p : Pg) : Page where
  hasAddr := p.msg.hasAddr
  addr18 := p.msg.addr18
  func := p.msg.func
  pos := p.msg.pos
  alpha := if p.filter.showsAlpha then p.msg.alpha else []
  num := if p.filter.showsNum then p.msg.numt else []
  invalid := p.msg.invalid
  ndata := p.msg.ndata
  baud := p.baud

/-- `newmsg()` (rule R313). -/
def newMsg (p : Pg) : Pg := { p with msg := PgMsg.empty }

/-- `finalize()` (rule R314). -/
def pgFinalize (p : Pg) : PgOut :=
  if p.msg.hasContent then ⟨newMsg p, [.msg (pageOf p)], some (pageOf p)⟩
  else ⟨newMsg p, [], none⟩

/-- `address(D, idx)` (rule R312). -/
def openMessage (m : PgMsg) (d : BitVec 21) (idx : Nat) : PgMsg :=
  { m with
    hasAddr := true
    addr18 := d.extractLsb' 2 18
    func := d.extractLsb' 0 2
    pos := BitVec.ofNat 4 idx }

/-- One payload bit enters the rolling character register; every seventh completes a character
(rules R75, R315). -/
def pushTextBit (m : PgMsg) (b : Bool) : PgMsg :=
  let sr7 := shiftIn m.sr7 b
  if m.sr7n + 1 = 7 then { m with alpha := m.alpha ++ [rev sr7], sr7 := 0, sr7n := 0 }
  else { m with sr7 := sr7, sr7n := m.sr7n + 1 }

/-- The 20 payload bits, most significant first (rule R315). -/
def payloadBits (d : BitVec 20) : List Bool := (List.range 20).map fun i => d.getLsbD (19 - i)

/-- Group `g` of a payload as an index into the numeral alphabet (rules R121, R316). -/
def numeral (d : BitVec 20) (g : Nat) : BitVec 4 :=
  let nib := d.extractLsb' (16 - 4 * g) 4
  if Config.pgNumReverse then rev nib else nib

/-- `data(p)`: both texts are accumulated, whatever the filter is (rules R315, R316). -/
def appendData (m : PgMsg) (d : BitVec 20) : PgMsg :=
  let m' := (payloadBits d).foldl pushTextBit { m with ndata := satInc32 m.ndata }
  { m' with numt := m'.numt ++ (List.range Config.pgNumGroups).map (numeral d) }

/-! ### Reset and loss of sync (rules R317, R318) -/

/-- `pg_reset()`: `FILTER`, `BAUD` and `PARERR` are kept (rule R317). -/
def pgReset (p : Pg) : Pg :=
  { p with
    state := .firstBitSinceSync
    inv := false
    prev := false
    alt := 0
    predone := false
    search := 0
    sr := 0
    nbits := 0
    cwidx := 0
    msg := PgMsg.empty }

/-- `lose_sync(why)` (rule R318). -/
def loseSync (why : Event) (p : Pg) : PgOut :=
  let f := pgFinalize p
  ⟨pgReset f.pg, why :: (f.evs ++ [.resyncReq]), f.page⟩

/-! ### Acquisition (rules R304 to R306) -/

/-- `FIRST_BIT_SINCE_SYNC` (rule R304). -/
def pgFirstBit (p : Pg) (b : Bool) : PgOut :=
  .quiet
    { p with
      prev := b
      alt := 0
      predone := false
      sr := BitVec.ofNat 32 b.toNat
      state := .waitForInitialSyncWord }

/-- The search for the first sync word, true or inverted (rule R306). -/
def pgSearch (par : Params) (p : Pg) (b : Bool) : PgOut :=
  if p.predone then
    if p.sr = par.pgSync then
      ⟨{ p with inv := false, nbits := 0, cwidx := 0, state := .readPocsagBatch, prev := b },
        [.syncword], none⟩
    else if p.sr = ~~~par.pgSync then
      ⟨{ p with inv := true, nbits := 0, cwidx := 0, state := .readPocsagBatch, prev := b },
        [.syncwordInv], none⟩
    else if Config.pgSearchMax < p.search + 1 then loseSync .syncLost { p with search := p.search + 1 }
    else .quiet { p with search := p.search + 1, prev := b }
  else .quiet { p with prev := b }

/-- The preamble, after the raw bit has entered `SR` (rule R305). -/
def pgPreamble (par : Params) (p : Pg) (b : Bool) : PgOut :=
  if p.predone then pgSearch par p b
  else if b != p.prev then
    if par.pgPreMax < p.alt + 1 then loseSync .badPreamble { p with alt := p.alt + 1 }
    else pgSearch par { p with alt := p.alt + 1 } b
  else if par.pgPreMin ≤ p.alt then pgSearch par { p with predone := true, search := 0 } b
  else loseSync .badPreamble p

/-- `WAIT_FOR_INITIAL_SYNC_WORD` (rules R305, R306). -/
def pgInitial (par : Params) (p : Pg) (b : Bool) : PgOut :=
  pgPreamble par { p with sr := shiftIn p.sr b } b

/-! ### Codewords (rules R310, R311) -/

/-- The 31-bit BCH word of a codeword (rules R118, R310). -/
def bchWord (pos : ParityPos) (cw : BitVec 32) : BitVec 31 :=
  match pos with
  | .top => cw.extractLsb' 0 31
  | .bottom => cw.extractLsb' 1 31

/-- The parity check, which is logged and nothing else (rule R310). -/
def pgParity (p : Pg) (cw : BitVec 32) (idx : Nat) : Pg × List Event :=
  if parityOdd cw then ({ p with parerr := satInc32 p.parerr }, [.parity idx]) else (p, [])

/-- The classification of a corrected data word; the Idle test comes first (rules R119, R311). -/
def pgClassify (par : Params) (p : Pg) (d : BitVec 21) (idx : Nat) : PgOut :=
  if d = par.pgIdle then pgFinalize p
  else if d.getLsbD 20 = false then
    let f := pgFinalize p
    { f with pg := { f.pg with msg := openMessage f.pg.msg d idx } }
  else .quiet { p with msg := appendData p.msg (d.extractLsb' 0 20) }

/-- Correction and classification of the 31-bit word (rule R311). -/
def pgDecodeWord (par : Params) (p : Pg) (w : BitVec 31) (idx : Nat) : PgOut :=
  match bchCorrect pagingCode w.toNat with
  | .uncorrectable => ⟨{ p with msg := { p.msg with invalid := true } }, [.unc idx], none⟩
  | .corrected c _ => pgClassify par p (BitVec.ofNat 21 (c >>> 10)) idx

/-- `codeword(cw, idx)` (rules R310, R311). -/
def pgCodeword (par : Params) (p : Pg) (cw : BitVec 32) (idx : Nat) : PgOut :=
  let (p', evs) := pgParity p cw idx
  let o := pgDecodeWord par p' (bchWord par.pgParityPos cw) idx
  { o with evs := evs ++ o.evs }

/-! ### Batches (rules R307 to R309) -/

/-- The registers after the shift-in, with whether a 32-bit word is complete (rule R307). -/
def pgShift (p : Pg) (b : Bool) : Pg × Bool :=
  let sr := shiftIn p.sr (b ^^ p.inv)
  if p.nbits + 1 < 32 then ({ p with sr := sr, nbits := p.nbits + 1 }, false)
  else ({ p with sr := sr, nbits := 0 }, true)

/-- The position in the batch after a codeword (rule R308). -/
def pgNextWord (p : Pg) : Pg :=
  if p.cwidx + 1 = Config.pgBatch then { p with cwidx := 0, state := .waitForImmediateSyncWord }
  else { p with cwidx := p.cwidx + 1 }

/-- `READ_POCSAG_BATCH` (rules R307, R308). -/
def pgBatch (par : Params) (p : Pg) (b : Bool) : PgOut :=
  let (p', complete) := pgShift p b
  if complete then
    let o := pgCodeword par p' p'.sr p'.cwidx
    { o with pg := pgNextWord o.pg }
  else .quiet p'

/-- `WAIT_FOR_IMMEDIATE_SYNC_WORD` (rules R307, R309). -/
def pgImmediate (par : Params) (p : Pg) (b : Bool) : PgOut :=
  let (p', complete) := pgShift p b
  if complete then
    if p'.sr = par.pgSync then .quiet { p' with state := .readPocsagBatch }
    else loseSync .syncLost p'
  else .quiet p'

/-- The rule of the state (rule R302). -/
def pgDispatch (par : Params) (p : Pg) (b : Bool) : PgOut :=
  match p.state with
  | .firstBitSinceSync => pgFirstBit p b
  | .waitForInitialSyncWord => pgInitial par p b
  | .readPocsagBatch => pgBatch par p b
  | .waitForImmediateSyncWord => pgImmediate par p b

/-- The events of an operation are kept for the indicator (rule R346). -/
def PgOut.logged (o : PgOut) : PgOut := { o with pg := { o.pg with last := o.evs } }

/-- The tick of PG (rule R302). -/
def pgTick (par : Params) (p : Pg) (b : Bool) : PgOut := (pgDispatch par p b).logged

/-- `finalize(); pg_reset()` (rule R300). -/
def pgRestart (p : Pg) : PgOut :=
  let f := pgFinalize p
  { f with pg := pgReset f.pg }.logged

/-- `finalize(); pg_reset(); PG.BAUD <- baud` (rule R301): the page carries the old rate. -/
def pgSync (p : Pg) (baud : RealVal) : PgOut :=
  let o := pgRestart p
  { o with pg := { o.pg with baud := baud } }

/-! ### What a page says (rules R315, R320, R321); no rule of PG reads these -/

/-- `PG_ADDR(ADDR18, POS)` of the reference (rule R321). -/
def pgAddrDefault (addr18 : BitVec 18) (pos : BitVec 4) : Nat :=
  (addr18.toNat <<< 3) ||| (pos.toNat >>> 1)

/-- The full address of a page, by a composition `PG_ADDR`, an OPEN parameter (rule R321). -/
def Page.address (pgAddr : BitVec 18 → BitVec 4 → Nat) (p : Page) : Nat := pgAddr p.addr18 p.pos

/-- The numeric text as characters (rule R320). -/
def Page.numericText (p : Page) : List Char :=
  p.num.map fun i => Config.pgAlphabet.getD i.toNat ' '

/-- The alphanumeric text: a printable code as its character, the rest by `PG_ESCAPE`, an OPEN
parameter (rule R315). -/
def Page.text (p : Page) : List Char :=
  p.alpha.flatMap fun c =>
    if 0x20 ≤ c.toNat ∧ c.toNat ≤ 0x7E then [Char.ofNat c.toNat] else Config.pgEscape c

/-! ### The operations -/

/-- The state after an operation of a PG instance (rules R314, R343). -/
def pgDone (inst : Inst) (o : PgOut) (res : Result) (s : State) : Done :=
  ⟨emitOpt (o.page.map .page) (putPg inst o.pg s), res, raisedBy inst o.evs⟩

/-- PG.RESET (rule R300). -/
def execPgReset (inst : Inst) (s : State) : Host.Outcome State Fault Refusal :=
  conclude s do
    let p ← pick s.pg inst
    .ok (pgDone inst (pgRestart p) .none s)

/-- PG.SYNC (rule R301). -/
def execPgSync (inst : Inst) (baud : B32) (s : State) : Host.Outcome State Fault Refusal :=
  conclude s do
    let p ← pick s.pg inst
    .ok (pgDone inst (pgSync p (s.num.ofB32 baud)) .none s)

/-- PG.STEP (rule R302). -/
def execPgStep (inst : Inst) (b : Bool) (s : State) : Host.Outcome State Fault Refusal :=
  conclude s do
    let p ← pick s.pg inst
    let o := pgTick s.par p b
    .ok (pgDone inst o (.page o.page) s)

/-- PG.SET_FILTER (rule R303). -/
def execPgSetFilter (inst : Inst) (f : Nat) (s : State) : Host.Outcome State Fault Refusal :=
  conclude s do
    let p ← pick s.pg inst
    match filterOf f with
    | none => .error badEnum
    | some f' =>
      .ok ⟨putPg inst { p with filter := f', last := [] } s, .none, []⟩

end Machine
end Sys2Proof
end

