-- ==== Sys2Proof/Machine/Pipeline.lean ====
section
/-!
DEFINITION. PIPE, the processing-node composition framework (40_pipeline.md rules R140 to R154),
with the external nodes (rules R107, R141).
-/

namespace Sys2Proof
namespace Machine

/-! ### Construction (rules R143 to R145) -/

/-- Every child is a node (rule R144: UNKNOWN_NODE). -/
def childrenKnown (s : State) (l : List Nid) : Bool := l.all fun c => (nodeInfo s c).isSome

/-- Every child is configured or constructed (rule R144: BAD_PHASE). -/
def childrenConfigured (s : State) (l : List Nid) : Bool := l.all (phaseIs (· != .unconf) s)

/-- The duplicate check of rule R143: a child that is already placed, the same child twice, or the
composite itself. -/
def duplicated (s : State) (self : Nid) (l : List Nid) : Bool :=
  l.any (fun c => s.used.contains c) || !decide l.Nodup || l.contains self

/-- The input and output types of a node (rule R140); the first child's stand for a node whose types
are not known, which the checks before exclude. -/
def nodeTypes (s : State) (n : Nid) : Tag × Tag :=
  match nodeInfo s n with
  | some ⟨_, some t⟩ => t
  | _ => (.real, .real)

/-- Each child's output type is the next one's input type (rule R144). -/
def chained : List (Tag × Tag) → Bool
  | a :: b :: rest => a.2 == b.1 && chained (b :: rest)
  | _ => true

/-- Every child has the same input type (rule R145). -/
def sameInput : List (Tag × Tag) → Bool
  | [] => true
  | a :: rest => rest.all fun b => b.1 == a.1

/-- The registers of a new composite, after the checks in the order of rule R144; `typed` is the
check of the types, and `cfg` the registers to write. -/
def construct (inst : Inst) (l : List Nid) (typed : List (Tag × Tag) → Bool)
    (cfg : List (Tag × Tag) → PipeCfg) (s : State) : Ans Done := do
  match (← pick s.pipe inst) with
  | .unconf =>
    if l.isEmpty then .error (.config .emptyPipeline)
    else if !childrenKnown s l then .error (.contract .unknownNode)
    else if !childrenConfigured s l then .error badPhase
    else if duplicated s (nidOf 0 inst) l then .error (.contract .duplicateNode)
    else if !typed (l.map (nodeTypes s)) then .error (.contract .typeMismatch)
    else
      .ok ⟨putPipe inst (.conf (cfg (l.map (nodeTypes s)))) { s with used := s.used ++ l },
        .none, []⟩
  | _ => .error badPhase

/-- The registers of a serial composite (rule R144). -/
def serialCfg (l : List Nid) (ts : List (Tag × Tag)) : PipeCfg where
  kind := .serial
  child := l
  inT := (ts.headD (.real, .real)).1
  outT := (ts.getLastD (.real, .real)).2

/-- The registers of a parallel composite (rule R145). -/
def parallelCfg (l : List Nid) (merge : MergeFn) (outT : Tag) (ts : List (Tag × Tag)) : PipeCfg where
  kind := .parallel merge
  child := l
  inT := (ts.headD (.real, .real)).1
  outT := outT

/-! ### External nodes (rules R107, R140, R141) -/

/-- The record of a bound external node replaced. -/
def putExt (n : Nid) (e : Ext) (s : State) : State :=
  { s with ext := s.ext.map fun x => if x.nid == n then e else x }

/-- `init` of an external node: the rate it returns and its next state. -/
def extInitOf (M : Numerics) (e : Ext) (rate : RealVal) : RealVal × Nat :=
  match e.behav with
  | .dec2 => (M.div rate (M.ofNat 2), 0)
  | .dec2SameRate => (rate, 0)
  | .other k => (Config.extRate k e.st rate, Config.extInit k e.st rate)

/-- The record of an external node after an `init` that was given `rate` and returned `r`: in RUN, with
the state `st`. It has broken the contract where it returned another rate the first time it was given
this one (93_implementation_defined.md entry U2; DEDUCED, log entry 18). -/
def extInited (M : Numerics) (e : Ext) (rate r : RealVal) (st : Nat) : Ext :=
  match e.inits.find? fun p => p.1 == rate with
  | none => { e with ph := .run, st := st, inits := e.inits ++ [(rate, r)], rateBroken := false }
  | some p => { e with ph := .run, st := st, rateBroken := p.2 != r && !M.eq p.2 r }

/-- A decimator by two: `None` on its 1st, 3rd, ... call since `init`. -/
def decimate (calls : Nat) (v : Sample) : Option Sample × Nat :=
  if calls % 2 = 0 then (none, calls + 1) else (some v, calls + 1)

/-- `step` of an external node: its answer and its next state. Nothing says here that the answer has the
declared output type: an open node can answer with any, and a decimator of the vectors passes its
input on, which has that type where its two declared types agree. -/
def extStepOf (e : Ext) (v : Sample) : Option Sample × Nat :=
  match e.behav with
  | .dec2 => decimate e.st v
  | .dec2SameRate => decimate e.st v
  | .other k => Config.extStep k e.st v

/-- INIT of an external node of the block (rules R16, R140). -/
def extInitAt (n : Nid) (rate : RealVal) (s : State) : Ans (RealVal × State) :=
  match findExt s n with
  | none => .error badCommand
  | some e => do
    positiveRate s.num rate
    let (r, st) := extInitOf s.num e rate
    .ok (r, putExt n (extInited s.num e rate r st) s)

/-- What the step of a node leaves: its answer, the events and the bits that BS leaves raised and
delivered, and the state; and whether an external node broke the node contract, which ends the
evaluation of the whole tick: the nodes stepped before have advanced, the nodes after are not stepped,
and the answer says nothing (93_implementation_defined.md entry U2, rule R406). -/
structure Stepped where
  out : Option Sample
  evs : List Raised
  bits : List Delivered
  st : State
  broke : Bool

/-- A step that raises and delivers nothing. -/
def Stepped.quiet (out : Option Sample) (s : State) : Stepped := ⟨out, [], [], s, false⟩

/-- An answer has the declared output type; `None` has every type (rule R140). -/
def hasType (outT : Tag) (o : Option Sample) : Bool := o.all fun v => v.tag == outT

/-- The result of a STEP whose output type is `outT`: what the evaluation answered, or any value where
an external node broke the node contract in it (93_implementation_defined.md entry U2; DESIGN CHOICE,
log entry 18). -/
def settled (outT : Tag) (o : Stepped) : Option Sample × State :=
  if o.broke then
    ((Config.freeOut o.st.freeIx).answer outT, { o.st with freeIx := o.st.freeIx + 1 })
  else (o.out, o.st)

/-- STEP of an external node of the block (rules R16, R140). The node's own state has advanced where it
broke the contract as well. -/
def extStepAt (n : Nid) (v : Sample) (s : State) : Ans Stepped :=
  match findExt s n with
  | none => .error badCommand
  | some e =>
    if e.ph != .run then .error badPhase
    else if v.tag != e.inT then .error (.contract .typeMismatch)
    else
      let (o, st) := extStepOf e v
      .ok { Stepped.quiet o (putExt n { e with st := st } s) with
        broke := e.rateBroken || !hasType e.outT o }

/-! ### INIT: rate propagation (rules R142, R146, R148, R150) -/

/-- `init_node` of a leaf: the body of its INIT (rule R142). -/
def initLeaf (n : Nid) (rate : RealVal) (s : State) : Ans (RealVal × State) :=
  match (nidUnit n).toNat with
  | 1 => gzInitAt (nidInst n) rate s
  | 2 => firInitAt (nidInst n) rate s
  | 3 => bqInitAt (nidInst n) rate s
  | 4 => maInitAt (nidInst n) rate s
  | 5 => bsInitAt (nidInst n) rate s
  | _ => extInitAt n rate s

/-- The rate threaded through the children in order (rule R146). -/
def initSerial (f : Nid → RealVal → State → Ans (RealVal × State)) :
    List Nid → RealVal → State → Ans (RealVal × State)
  | [], r, s => .ok (r, s)
  | c :: cs, r, s => do
    let (r', t) ← f c r s
    initSerial f cs r' t

/-- Every child initialised with the same rate, in order; the rates they return (rule R148). -/
def initParallel (f : Nid → RealVal → State → Ans (RealVal × State)) :
    List Nid → RealVal → State → Ans (List RealVal × State)
  | [], _, s => .ok ([], s)
  | c :: cs, r, s => do
    let (r', t) ← f c r s
    let (rs, u) ← initParallel f cs r t
    .ok (r' :: rs, u)

/-- The common rate of the branches: `RATE_MISMATCH` where they disagree (rule R148). Rule R148 does not
say which pairs of rates are compared, and `NUM.eq` need not be an equivalence (rule R12): the rate of
the first branch is compared with each later one, as the left operand, and the rate of a single branch
with nothing; DESIGN CHOICE, log entry 40. -/
def agreedRate (M : Numerics) : List RealVal → Ans RealVal
  | [] => .error (.config .emptyPipeline)
  | r :: rs => if rs.all fun x => M.eq r x then .ok r else .error (.config .rateMismatch)

/-- The children's INITs of a composite, and its output rate (rules R146, R148). -/
def initChildren (f : Nid → RealVal → State → Ans (RealVal × State)) (c : PipeCfg) (rate : RealVal)
    (s : State) : Ans (RealVal × State) :=
  match c.kind with
  | .serial => initSerial f c.child rate s
  | .parallel _ => do
    let (rs, t) ← initParallel f c.child rate s
    let r ← agreedRate s.num rs
    .ok (r, t)

/-- INIT of a composite; `f` initialises a child (rule R150). -/
def pipeInitAt (f : Nid → RealVal → State → Ans (RealVal × State)) (inst : Inst) (rate : RealVal)
    (s : State) : Ans (RealVal × State) := do
  match (← pick s.pipe inst) with
  | .unconf => .error badPhase
  | .conf c | .run c _ =>
    if descendantsAre (· != .unconf) s (treeDepth s) (nidOf 0 inst) then do
      positiveRate s.num rate
      let (r, t) ← initChildren f c rate s
      .ok (r, putPipe inst (.run c ⟨rate, r, .start false⟩) t)
    else .error badPhase

/-- `init_node(nid, rate)` (rule R142). The first argument bounds the depth of the tree; the
composites form a forest (rule R143), so `treeDepth` is enough and the bound is never met. -/
def initNode : Nat → Nid → RealVal → State → Ans (RealVal × State)
  | 0, _, _, _ => .error badPhase
  | k + 1, n, rate, s =>
    if nidUnit n = 0 then pipeInitAt (initNode k) (nidInst n) rate s else initLeaf n rate s

/-! ### STEP: evaluation (rules R142, R147, R149, R151) -/

/-- A step that answered with a `Real`. -/
def steppedReal (r : RealVal × State) : Stepped := .quiet (some (.real r.1)) r.2

/-- A step that answered with a `Cplx`. -/
def steppedCplx (r : Cplx × State) : Stepped := .quiet (some (.cplx r.1)) r.2

/-- `step_node` of a leaf: the body of its STEP (rule R142). A FIR or BQ makes the real or the
complex step by the type of the value it is given. `q` says how the operand of the operation keeps the
source contract; the contract asks nothing of BS or an external node. -/
def stepLeaf (q : Contract) (n : Nid) (v : Sample) (s : State) : Ans Stepped :=
  match (nidUnit n).toNat, v with
  | 1, .real x => (gzStepAt (nidInst n) x q s).map steppedReal
  | 2, .real x => (firStepAt (nidInst n) x q s).map steppedReal
  | 2, .cplx z => (fircStepAt (nidInst n) z q s).map steppedCplx
  | 3, .real x => (bqStepAt (nidInst n) x q s).map steppedReal
  | 3, .cplx z => (bqcStepAt (nidInst n) z q s).map steppedCplx
  | 4, .real x => (maStepAt (nidInst n) x q s).map steppedReal
  | 5, .bool b =>
    (bsStepAt (nidInst n) b s).map fun r =>
      ⟨r.1.map .bool, r.2.1, deliveredBy (nidInst n) r.1, r.2.2, false⟩
  | u, v =>
    if 1 ≤ u ∧ u ≤ 5 then .error (.contract .typeMismatch) else extStepAt n v s

/-- The children called in order, each with the value of the one before; a `None` ends the
evaluation (rule R147), and so does a broken contract (U2). -/
def stepSerial (f : Nid → Sample → State → Ans Stepped) :
    List Nid → Sample → State → Ans Stepped
  | [], w, s => .ok (.quiet (some w) s)
  | c :: cs, w, s => do
    let o ← f c w s
    if o.broke then .ok o
    else
      match o.out with
      | none => .ok o
      | some w' =>
        let o' ← stepSerial f cs w' o.st
        .ok { o' with evs := o.evs ++ o'.evs, bits := o.bits ++ o'.bits }

/-- What the branches of a split leave: their answers in child order. -/
structure Branches where
  outs : List (Option Sample)
  evs : List Raised
  bits : List Delivered
  st : State
  broke : Bool

/-- Every child called with the same value, in order (rule R149); a broken contract ends the
evaluation (U2). -/
def stepParallel (f : Nid → Sample → State → Ans Stepped) :
    List Nid → Sample → State → Ans Branches
  | [], _, s => .ok ⟨[], [], [], s, false⟩
  | c :: cs, v, s => do
    let o ← f c v s
    if o.broke then .ok ⟨[o.out], o.evs, o.bits, o.st, true⟩
    else
      let o' ← stepParallel f cs v o.st
      .ok ⟨o.out :: o'.outs, o.evs ++ o'.evs, o.bits ++ o'.bits, o'.st, o'.broke⟩

/-- All the values, where every branch returned one (rule R149). -/
def allSome {α : Type} : List (Option α) → Option (List α)
  | [] => some []
  | none :: _ => none
  | some a :: rest => (allSome rest).map (a :: ·)

/-- `MERGE` applied to the branches' outputs (rules R145, R149): the sum or the difference of two
real branches, or an open function at the declared output type. -/
def mergeApply (M : Numerics) (f : MergeFn) (outT : Tag) (l : List Sample) : Sample :=
  match f, l, outT with
  | .sum, [.real a, .real b], .real => .real (M.add a b)
  | .difference, [.real a, .real b], .real => .real (M.sub a b)
  | .other k, l, t => (Config.merge (k + 1) l).sample t
  | _, l, t => (Config.merge 0 l).sample t

/-- The sum or the difference that `MERGE` makes is rounded. -/
def mergeRounds (M : Numerics) (f : MergeFn) (outT : Tag) (l : List Sample) : Bool :=
  match f, l, outT with
  | .sum, [.real a, .real b], .real => M.rounds (.add a b)
  | .difference, [.real a, .real b], .real => M.rounds (.sub a b)
  | _, _, _ => false

/-- The children's STEPs of a composite, with its answer, and whether `MERGE` was rounded (rules R147,
R149); a broken contract ends the tick before `MERGE` (U2). -/
def stepChildren (f : Nid → Sample → State → Ans Stepped) (c : PipeCfg) (v : Sample) (s : State) :
    Ans (Stepped × Bool) :=
  match c.kind with
  | .serial => (stepSerial f c.child v s).map fun o => (o, false)
  | .parallel merge => do
    let b ← stepParallel f c.child v s
    .ok (⟨(allSome b.outs).map (mergeApply s.num merge c.outT), b.evs, b.bits, b.st, b.broke⟩,
      !b.broke && (allSome b.outs).any (mergeRounds s.num merge c.outT))

/-- What the step of a composite leaves, once its children have left `o`: its standing, and its answer,
any value where its outputs are open (U3). -/
def Stepped.close (inst : Inst) (c : PipeCfg) (r : PipeReg) (o : Stepped) : Stepped :=
  let (w, t) := openSample r.standing.anyOut o.out (putPipe inst (.run c r) o.st)
  { o with out := w, st := t }

/-- STEP of a composite; `f` steps a child (rule R151). `q` says how the operand of the operation keeps the
source contract; a child is stepped in a tree that has kept it as the composite has since its last INIT
(U3; DEDUCED, log entry 13). -/
def pipeStepAt (f : Contract → Nid → Sample → State → Ans Stepped) (inst : Inst) (v : Sample)
    (q : Contract) (s : State) : Ans Stepped := do
  match (← pick s.pipe inst) with
  | .run c r =>
    if descendantsAre (· == .run) s (treeDepth s) (nidOf 0 inst) then do
      let (o, rounds) ← stepChildren (f (r.standing.source.and q)) c v s
      .ok (o.close inst c { r with standing := r.standing.after q rounds true })
    else .error badPhase
  | _ => .error badPhase

/-- `step_node(nid, v)` (rule R142), with a bound on the depth as in `initNode`. `q` says how the operand
of the operation keeps the source contract. -/
def stepNode : Nat → Contract → Nid → Sample → State → Ans Stepped
  | 0, _, _, _, _ => .error badPhase
  | k + 1, q, n, v, s =>
    if nidUnit n = 0 then pipeStepAt (stepNode k) (nidInst n) v q s else stepLeaf q n v s

/-- The shape of a PIPE.STEP operand: one sample of the composite's input type (rules R102, R104,
R107). A composite that is not constructed has no input type. -/
def pipeOperandFits (p : Pipe) (v : PortSample) : Ans Unit :=
  match (pipeInfo p).types with
  | some (t, _) => if portTag v = t then .ok () else .error badCommand
  | none => .ok ()

/-! ### The operations -/

/-- PIPE.SERIAL (rule R144). -/
def execPipeSerial (inst : Inst) (l : List Nid) (s : State) : Host.Outcome State Fault Refusal :=
  conclude s (construct inst l chained (serialCfg l) s)

/-- PIPE.PARALLEL (rule R145). -/
def execPipeParallel (inst : Inst) (l : List Nid) (merge : MergeFn) (outT : Tag) (s : State) :
    Host.Outcome State Fault Refusal :=
  conclude s (construct inst l sameInput (parallelCfg l merge outT) s)

/-- PIPE.INIT (rule R150). -/
def execPipeInit (inst : Inst) (rate : B32) (s : State) : Host.Outcome State Fault Refusal :=
  conclude s do
    let _ ← pick s.pipe inst
    notOwned s (nidOf 0 inst)
    let (r, t) ← initNode (treeDepth s) (nidOf 0 inst) (s.num.ofB32 rate) s
    .ok ⟨t, .rate r, []⟩

/-- PIPE.STEP (rule R151); the result is any value where an external node broke the node contract
(93_implementation_defined.md entry U2), and where the operands broke the source contract (U3). -/
def execPipeStep (inst : Inst) (v : PortSample) (s : State) : Host.Outcome State Fault Refusal :=
  concludeBits s do
    let p ← pick s.pipe inst
    pipeOperandFits p v
    notOwned s (nidOf 0 inst)
    let x := sampleOf s.num v
    let o ← stepNode (treeDepth s) (sampleContract s.num x) (nidOf 0 inst) x s
    let (w, t) := settled (nodeTypes s (nidOf 0 inst)).2 o
    .ok (⟨t, .sample w, o.evs⟩, o.bits)

/-- INIT or STEP of an external node at the command port: the block routes it to the node and
assumes of it only the node contract (rules R107, R140, R152). A code that stands for neither, an
operand of another shape, and an identity under which no node is bound are rejected with
`BAD_COMMAND`. -/
def execExternal (n : Nid) (op : BitVec 4) (o : Operand) (s : State) :
    Host.Outcome State Fault Refusal :=
  conclude s do
    match findExt s n, Config.extOpCode (nidUnit n) op, o with
    | some _, some .init, .rate r =>
      notOwned s n
      let (r', t) ← extInitAt n (s.num.ofB32 r) s
      .ok ⟨t, .rate r', []⟩
    | some e, some .step, .sample v =>
      if portTag v = e.inT then do
        notOwned s n
        let o ← extStepAt n (sampleOf s.num v) s
        let (w, t) := settled e.outT o
        .ok ⟨t, .sample w, o.evs⟩
      else .error badCommand
    | _, _, _ => .error badCommand

end Machine
end Sys2Proof
end

