-- ==== Sys2Proof/Machine/System.lean ====
section
/-!
DEFINITION. The message hand-off buffer OUTQ and the block reset (49_system.md rules R340, R341,
R343, R344).
-/

namespace Sys2Proof
namespace Machine

/-- Every instance of a unit kind put into one state; the number of instances, a parameter of the
block (rule R101), is kept. -/
def resetAll {α : Type} (u : α) (l : List α) : List α := l.map fun _ => u

/-- The phase of an external node after the block reset: as when it was bound (rule R141). The rates it
has returned are kept (log entry 11). -/
def resetExt (e : Ext) : Ext := { e with ph := .conf }

/-- The state `CORE.RESET` produces (rules R48, R340). What is no state of the block is kept: the
OPEN parameters (rule R20), the commands not yet taken, the count of free values, the external
nodes' own states (log entry 11). -/
def coreReset (s : State) : State :=
  { s with
    used := []
    locks := []
    pipe := resetAll .unconf s.pipe
    gz := resetAll .unconf s.gz
    fir := resetAll .unconf s.fir
    bq := resetAll .unconf s.bq
    ma := resetAll .unconf s.ma
    bs := resetAll .unconf s.bs
    bch := resetAll .unconf s.bch
    hd := resetAll Hd.reset s.hd
    pg := resetAll (Pg.reset s.num.zero) s.pg
    ext := s.ext.map resetExt
    outq := [] }

/-- The buffer emptied under its lock (rule R344). -/
def drain (s : State) : State := underLock outqLock (fun t => { t with outq := [] }) s

/-- `INST` must be 0 for OUTQ and for the whole block (rule R101). -/
def onlyInstance (inst : Inst) : Ans Unit := if inst = 0 then .ok () else .error badCommand

/-- OUTQ.DRAIN (rule R344). -/
def execOutqDrain (inst : Inst) (s : State) : Host.Outcome State Fault Refusal :=
  conclude s do
    onlyInstance inst
    .ok ⟨drain s, .messages s.outq, []⟩

/-- CORE.RESET (rule R340). -/
def execCoreReset (inst : Inst) (s : State) : Host.Outcome State Fault Refusal :=
  conclude s do
    onlyInstance inst
    .ok ⟨coreReset s, .none, []⟩

end Machine
end Sys2Proof
end

