-- ==== Sys2Proof/Machine/Dispatch.lean ====
section
/-!
DEFINITION. The operation of a decoded command (49_system.md rule R342, point 3): one arm per
constructor of `Instr`.
-/

namespace Sys2Proof
namespace Machine

def exec (i : Instr) (s : State) : Host.Outcome State Fault Refusal :=
  match i with
  | .pipeSerial inst children => Sys2Proof.Machine.execPipeSerial inst children s
  | .pipeParallel inst children merge outT => Sys2Proof.Machine.execPipeParallel inst children merge outT s
  | .pipeInit inst rate => Sys2Proof.Machine.execPipeInit inst rate s
  | .pipeStep inst v => Sys2Proof.Machine.execPipeStep inst v s
  | .gzConfig inst n f => Sys2Proof.Machine.execGzConfig inst n f s
  | .gzInit inst rate => Sys2Proof.Machine.execGzInit inst rate s
  | .gzStep inst x => Sys2Proof.Machine.execGzStep inst x s
  | .firConfig inst window t fstart fstop beta cx => Sys2Proof.Machine.execFirConfig inst window t fstart fstop beta cx s
  | .firInit inst rate => Sys2Proof.Machine.execFirInit inst rate s
  | .firStep inst x => Sys2Proof.Machine.execFirStep inst x s
  | .fircStep inst re im => Sys2Proof.Machine.execFircStep inst re im s
  | .firSetTaps inst t => Sys2Proof.Machine.execFirSetTaps inst t s
  | .bqConfig inst type f0 q gainDb cx => Sys2Proof.Machine.execBqConfig inst type f0 q gainDb cx s
  | .bqInit inst rate => Sys2Proof.Machine.execBqInit inst rate s
  | .bqStep inst x => Sys2Proof.Machine.execBqStep inst x s
  | .bqcStep inst re im => Sys2Proof.Machine.execBqcStep inst re im s
  | .maConfig inst n => Sys2Proof.Machine.execMaConfig inst n s
  | .maInit inst rate => Sys2Proof.Machine.execMaInit inst rate s
  | .maStep inst x => Sys2Proof.Machine.execMaStep inst x s
  | .bsConfig inst c cand req cap => Sys2Proof.Machine.execBsConfig inst c cand req cap s
  | .bsInit inst rate => Sys2Proof.Machine.execBsInit inst rate s
  | .bsStep inst lv => Sys2Proof.Machine.execBsStep inst lv s
  | .bsWaitForSync inst => Sys2Proof.Machine.execBsWaitForSync inst s
  | .bchConfig inst g n k t fp => Sys2Proof.Machine.execBchConfig inst g n k t fp s
  | .gfExp inst e => Sys2Proof.Machine.execGfExp inst e s
  | .gfLog inst a => Sys2Proof.Machine.execGfLog inst a s
  | .gfMul inst a b => Sys2Proof.Machine.execGfMul inst a b s
  | .gfInv inst a => Sys2Proof.Machine.execGfInv inst a s
  | .gfPow inst a e => Sys2Proof.Machine.execGfPow inst a e s
  | .bchEncode inst msg => Sys2Proof.Machine.execBchEncode inst msg s
  | .bchSyndrome inst r => Sys2Proof.Machine.execBchSyndrome inst r s
  | .bchCheck inst r => Sys2Proof.Machine.execBchCheck inst r s
  | .bchCorrect inst r => Sys2Proof.Machine.execBchCorrect inst r s
  | .bchDecode inst c => Sys2Proof.Machine.execBchDecode inst c s
  | .hdReset inst => Sys2Proof.Machine.execHdReset inst s
  | .hdStep inst b => Sys2Proof.Machine.execHdStep inst b s
  | .pgReset inst => Sys2Proof.Machine.execPgReset inst s
  | .pgSync inst baud => Sys2Proof.Machine.execPgSync inst baud s
  | .pgStep inst b => Sys2Proof.Machine.execPgStep inst b s
  | .pgSetFilter inst f => Sys2Proof.Machine.execPgSetFilter inst f s
  | .outqDrain inst => Sys2Proof.Machine.execOutqDrain inst s
  | .coreReset inst => Sys2Proof.Machine.execCoreReset inst s

end Machine
end Sys2Proof
end

