-- ==== Sys2Proof/Machine/Command.lean ====
section
/-!
DEFINITION. Command dispatch (49_system.md rule R342): the next command is taken from the command
port, decoded and executed, and the declared chains issue what follows from it (60_exceptions.md
rule R363).
-/

namespace Sys2Proof
namespace Machine

/-- What the block does with a command: a decoded operation is executed; a command of the custom
space is routed to its external node; every other command is rejected with `BAD_COMMAND` (rules
R107, R342). -/
def runCommand (c : Command) (s : State) : Host.Outcome State Fault Refusal :=
  match decode c with
  | .ok i => exec i s
  | .error .customUnit =>
    execExternal (nidOf (wordUnit c.word) (wordInst c.word)) (wordOp c.word) c.operand s
  | .error _ => .next (reject badCommand s)

/-- An outcome with the chained operations put in front (rule R363). -/
def routedOutcome : Host.Outcome State Fault Refusal → Host.Outcome State Fault Refusal
  | .next s => .next (routed s)
  | .fault r => .fault r
  | .refused r => .refused r

/-- The next command is taken and run. The commands take effect in the order issued, one at a time
(rule R84). With no command the block waits and holds its state (rules R19, R376). -/
def takeCommand (s : State) : Host.Outcome State Fault Refusal :=
  match s.pending with
  | [] => .next s
  | c :: rest => routedOutcome (runCommand c { s with pending := rest })

/-- A command issued as the next one at the command port. -/
def issue (c : Command) (s : State) : State := { s with pending := c :: s.pending }

end Machine
end Sys2Proof
end

