-- ==== Sys2Proof/Machine/Step.lean ====
section
/-!
DEFINITION. One step of the block (49_system.md rule R342), and the placing of a command word where
the step takes its next command.
-/

namespace Sys2Proof
namespace Machine

/-- One step: the next command at the command port is taken and run. -/
def step (s : State) : Host.Outcome State Fault Refusal := takeCommand s

/-- `s` with the command of a table row's bits, and an operand of zeros, as the next command at the
command port: what the producer does when it issues it (log entry 1). -/
def State.withFetchWord (s : State) (nbits w : Nat) : State := issue (tableCommand nbits w) s

end Machine
end Sys2Proof
end

