-- ==== Sys2Proof/Safety.lean ====
section
/-!
DEFINITION. What counts as a well-formed state of the block: the ranges and relations of its
registers that the register tables of 10_state.md (rules R33 to R43) give and that every operation
keeps (60_exceptions.md rule R377: none "leaves a register in a state the rules do not describe").
Every predicate is a `Bool`, so that a test can evaluate it.
-/

namespace Sys2Proof
namespace Machine

/-- A ring of length `len` with its write pointer (rules R34, R35, R37, R71). -/
def ringOk {α : Type} (ring : List α) (wp len : Nat) : Bool :=
  decide (1 ≤ len) && decide (ring.length = len) && decide (wp < len)

/-- A composite's child list is not empty, and its children are in `PIPE.USED` (rules R33,
R143). -/
def PipeCfg.wf (used : List Nid) (c : PipeCfg) : Bool :=
  !c.child.isEmpty && c.child.all fun n => used.contains n

def Pipe.wf (used : List Nid) : Pipe → Bool
  | .unconf => true
  | .conf c => c.wf used
  | .run c _ => c.wf used

/-- `N >= 1`; `RING[0..N-1]`, `WP` in `0..N-1` (rule R34). -/
def Gz.wf : Gz → Bool
  | .unconf => true
  | .conf c => decide (1 ≤ c.n)
  | .run c r => ringOk r.ring r.wp c.n

/-- The ring of the type `CX` selects (rule R35). -/
def FirRing.wf (cx : Bool) (wp te : Nat) : FirRing → Bool
  | .real l => !cx && ringOk l wp te
  | .cplx l => cx && ringOk l wp te

/-- `T >= 1`, `TE` as rule R172 has it, `TAPS[0..TE-1]`, and the ring (rule R35). -/
def Fir.wf : Fir → Bool
  | .unconf => true
  | .conf c => decide (1 ≤ c.t)
  | .run c r =>
    decide (1 ≤ c.t) && decide (r.te = effectiveTaps c.t) && decide (r.taps.length = r.te) &&
      r.ring.wf c.cx r.wp r.te

/-- The delay registers are of the type `CX` selects (rule R36). -/
def BqMem.wf (cx : Bool) : BqMem → Bool
  | .real _ => !cx
  | .cplx _ => cx

def Bq.wf : Bq → Bool
  | .unconf => true
  | .conf _ => true
  | .run c r => r.mem.wf c.cx

/-- `N >= 1`, the ring, `ZRUN` in `0..N` (rule R37). -/
def Ma.wf : Ma → Bool
  | .unconf => true
  | .conf c => decide (1 ≤ c.n)
  | .run c r => ringOk r.ring r.wp c.n && decide (r.zrun ≤ c.n)

/-- A register that is unwritten or an index below a bound (rule R38). -/
def Slot.below (n : Nat) : Slot Nat → Bool
  | .unwritten => true
  | .holds i => decide (i < n)

/-- A register holds a value. -/
def Slot.isHeld {α : Type} : Slot α → Bool
  | .unwritten => false
  | .holds _ => true

def BsCfg.wf (c : BsCfg) : Bool :=
  decide (1 ≤ c.c) && decide (c.cand.length = c.c) && decide (1 ≤ c.req) && decide (1 ≤ c.cap)

/-- The ranges of the registers of BS (rule R38): a level that has been seen and a candidate that is
being matched are held, `HEAD` is in `0..CAP-1` and `COUNT` in `0..CAP`. `BITBUF` is written from
its first element on, so that a bit in it has been written. -/
def BsReg.wf (c : BsCfg) (r : BsReg) : Bool :=
  decide (r.spbc.length = c.c) && r.lidx.below c.c && r.midx.below c.c &&
    (!r.lvalid || r.level.isHeld) && (!r.mvalid || r.midx.isHeld) &&
    decide (r.run ≤ Config.u32Max) && decide (r.mcnt ≤ Config.u32Max) &&
    decide (r.head < c.cap) && decide (r.count ≤ c.cap) && decide (r.bitbuf.length ≤ c.cap) &&
    (decide (r.bitbuf.length = c.cap) || decide (r.head + r.count = r.bitbuf.length))

def Bs.wf : Bs → Bool
  | .unconf => true
  | .conf c => c.wf
  | .run c r => c.wf && r.wf c

/-- A configured code satisfies the checks of rule R231, and its derived registers are those of
rules R230 and R233. -/
def BchCode.wf (c : BchCode) : Bool :=
  decide (c = buildCode c.g c.n c.k c.t c.fp) && decide (1 ≤ c.k) && decide (c.k < c.n) &&
    decide (1 ≤ c.t) && decide (2 ≤ c.m) && decide (c.m ≤ Config.bchMaxM) &&
    decide (Nat.log2 c.g = c.n - c.k) && decide (Nat.log2 c.fp = c.m) && primitive c.exp &&
    rootsFrom c (2 * c.t) 1

def Bch.wf : Bch → Bool
  | .unconf => true
  | .run c => c.wf

/-- The ranges of the registers of HD (rule R40); every byte below `BLEN` is written. -/
def Hd.wf (h : Hd) : Bool :=
  decide (h.cnt8 ≤ 7) && decide (h.nflag ≤ 255) && decide (h.ones ≤ 5) && decide (h.accn ≤ 7) &&
    decide (h.blen ≤ h.buf.length) && decide (h.buf.length ≤ Config.hdMaxBytes)

/-- The ranges of the registers of PG (rules R41, R42). -/
def Pg.wf (par : Params) (p : Pg) : Bool :=
  decide (p.alt ≤ par.pgPreMax + 1) && decide (p.search ≤ Config.pgSearchMax + 1) &&
    decide (p.nbits ≤ 31) && decide (p.cwidx ≤ 15) && decide (p.parerr ≤ Config.u32Max) &&
    decide (p.msg.ndata ≤ Config.u32Max) && decide (p.msg.sr7n ≤ 6)

/-- `NINST` is in `1..256` (rule R101). -/
def countOk {α : Type} (l : List α) : Bool := decide (1 ≤ l.length) && decide (l.length ≤ 256)

/-- Every unit kind has a number of instances that the command word can name (rule R101). -/
def State.counts (s : State) : Bool :=
  countOk s.pipe && countOk s.gz && countOk s.fir && countOk s.bq && countOk s.ma && countOk s.bs &&
    countOk s.bch && countOk s.hd && countOk s.pg

/-- The units' registers are in their ranges. -/
def State.units (s : State) : Bool :=
  s.pipe.all (Pipe.wf s.used) && s.gz.all Gz.wf && s.fir.all Fir.wf && s.bq.all Bq.wf &&
    s.ma.all Ma.wf && s.bs.all Bs.wf && s.bch.all Bch.wf && s.hd.all Hd.wf &&
    s.pg.all (Pg.wf s.par)

/-- The number of constructed composites. -/
def State.constructed (s : State) : Nat := s.pipe.countP fun p => p.ph != .unconf

/-- The composites form a forest (rule R143): `PIPE.USED` holds each child of a composite, once, and
nothing else, so that no node has two parents; and from a composite one reaches a leaf going down
through no more composites than are constructed, so that no node is its own ancestor. Every node
below a composite has left `UNCONF` (rule R144). -/
def State.forest (s : State) : Bool :=
  decide s.used.Nodup && s.used.isPerm (s.pipe.flatMap Pipe.children) &&
    (List.range s.pipe.length).all fun i =>
      descendantsAre (· != .unconf) s (s.constructed + 1) (nidOf 0 (BitVec.ofNat 8 i))

/-- A well-formed state of the block between two operations: the locks are free (rule R47), the
composites form a forest (rule R143), an external node has left `UNCONF` (rule R141), the OPEN
parameters meet their constraint (rule R7), and the units are as their register tables say. -/
def State.wf (s : State) : Bool :=
  s.par.wf && s.counts && s.units && s.locks.isEmpty && s.forest &&
    s.ext.all fun e => e.ph != .unconf

/-- A step that is not a stop: the block goes on. -/
def goesOn (s : State) : Prop := ∃ t, step s = .next t

end Machine
end Sys2Proof
end

