-- ==== Sys2Proof/Certificates/Slice0/Obligations.lean ====
section
/-!
DEFINITION. The statements for the provers, and the few functions they are written with (namespace
`Sys2Proof.Claims`). Each docstring names the rule of the spec that the statement formalises, or
says that it is the model's.

A statement about an operation says the whole next state: a field that does not stand in it is as it
was before. `done` and `rejected` are the state after an operation that was executed and after one
that was rejected.

The model's own fields stand in these states as the model writes them, and no rule is cited for
them: `pending` (log entry 1), the bits in `out` (log entry 22), the record `standing` (log entries 12,
13 and 41) and the counter `freeIx` of the free values (log entry 12), and the events `last` that a unit keeps for its
indicator (log entry 29). No statement rests on the value of a free value.
-/

namespace Sys2Proof
namespace Claims

open Sys2Proof.Machine

/-! ### Answers -/

/-- `s` after an operation that answered OK with result `r`, no event and no delivered bit. -/
def done (s : State) (r : Result) : State := { s with out := ⟨.ok, r, [], []⟩ }

/-- `s` after an operation that was rejected: the status, no result and no event (rule R355). -/
def rejected (s : State) (e : Status) : State := { s with out := ⟨e, .none, [], []⟩ }

/-- The operation ends in the next state `t`. -/
def leads (i : Instr) (s t : State) : Prop := exec i s = .next t

/-! ### Units and instances -/

/-- The unit number of an operation: bits 7:4 of its command word (rule R101). -/
def unitOf (i : Instr) : Nat := i.op.code.toNat / 16

/-- The node identity of the instance an operation names (rule R101). -/
def nidOfOp (i : Instr) : Nid := nidOf (BitVec.ofNat 4 (unitOf i)) i.inst

/-- The number of instances of a unit kind; OUTQ and the whole block have one (rules R2, R101). -/
def instances (s : State) : Nat → Nat
  | 0 => s.pipe.length
  | 1 => s.gz.length
  | 2 => s.fir.length
  | 3 => s.bq.length
  | 4 => s.ma.length
  | 5 => s.bs.length
  | 6 => s.bch.length
  | 7 => s.hd.length
  | 8 => s.pg.length
  | _ => 1

/-- The phase of the instance an operation names, for the kinds with a life cycle (rule R16). -/
def phaseOf (s : State) (i : Instr) : Option Phase :=
  match unitOf i with
  | 0 => s.pipe[i.inst.toNat]?.map Life.ph
  | 1 => s.gz[i.inst.toNat]?.map Life.ph
  | 2 => s.fir[i.inst.toNat]?.map Life.ph
  | 3 => s.bq[i.inst.toNat]?.map Life.ph
  | 4 => s.ma[i.inst.toNat]?.map Life.ph
  | 5 => s.bs[i.inst.toNat]?.map Life.ph
  | 6 => s.bch[i.inst.toNat]?.map Bch.ph
  | _ => none

/-- The INIT operations (rule R104). -/
def isInit : Instr → Bool
  | .pipeInit _ _ | .gzInit _ _ | .firInit _ _ | .bqInit _ _ | .maInit _ _ | .bsInit _ _ => true
  | _ => false

/-- The STEP operations of the units with a life cycle (rule R104). -/
def isStep : Instr → Bool
  | .pipeStep _ _ | .gzStep _ _ | .firStep _ _ | .fircStep _ _ _ | .bqStep _ _ | .bqcStep _ _ _
  | .maStep _ _ | .bsStep _ _ => true
  | _ => false

/-- The GF and BCH data operations (rules R234 to R246). -/
def isBchData : Instr → Bool
  | .gfExp _ _ | .gfLog _ _ | .gfMul _ _ _ | .gfInv _ _ | .gfPow _ _ _ | .bchEncode _ _
  | .bchSyndrome _ _ | .bchCheck _ _ | .bchCorrect _ _ | .bchDecode _ _ => true
  | _ => false

/-- A PIPE.STEP carries a sample of the type of the composite it names, as far as that has one; any
other operation carries what its form says (rules R102, R107). -/
def operandTyped (s : State) : Instr → Bool
  | .pipeStep inst v =>
    match s.pipe[inst.toNat]? with
    | some (.conf c) => portTag v == c.inT
    | some (.run c _) => portTag v == c.inT
    | _ => true
  | _ => true

/-- `d` is below `n` in the tree of composites: a child of it or a child of one below (rule R33). -/
inductive Below (s : State) (n : Nid) : Nid → Prop
  | child {c : Nid} : c ∈ childrenOf s n → Below s n c
  | deeper {d c : Nid} : Below s n d → c ∈ childrenOf s d → Below s n c

/-! ### What a chain issues (rules R109, R363) -/

/-- The bits `BS@bs` delivered, in order. -/
def bitsOf (bs : Inst) (o : Output) : List Bool :=
  o.bits.flatMap fun b => if b.inst = bs then [b.bit] else []

/-- The rates of the SYNC events of `BS@bs`, in order. -/
def baudsOf (bs : Inst) (o : Output) : List RealVal :=
  o.events.flatMap fun e =>
    match e.ev with
    | .sync baud => if e.inst = bs then [baud] else []
    | _ => []

/-- What a chain issues after an operation with the outputs `o`: into HD every bit; into PG every
SYNC, then every bit; and back to BS every RESYNC_REQ. -/
def chainIssues (M : Numerics) (o : Output) (c : Chain) : List Instr :=
  match c.target with
  | .hd hd => (bitsOf c.bs o).map (.hdStep hd)
  | .pg pg =>
    (baudsOf c.bs o).map (fun baud => .pgSync pg (M.toB32 baud)) ++
      (bitsOf c.bs o).map (.pgStep pg) ++
      List.replicate (o.events.count ⟨pg, .resyncReq⟩) (.bsWaitForSync c.bs)

/-! ### The indicator (rule R346) -/

/-- The events of BS that make its indicator ERROR. -/
def bsError : Event → Bool
  | .noise _ | .bsOverflow => true
  | _ => false

/-- The events of HD that make its indicator ERROR. -/
def hdError : Event → Bool
  | .framing | .short | .overflow => true
  | _ => false

/-- The events of PG that make its indicator ERROR. -/
def pgError : Event → Bool
  | .unc _ | .badPreamble | .syncLost => true
  | _ => false

/-! ### Rings (rule R71) -/

/-- Element `j mod L` of a ring of length `L`, for any integer `j`. -/
def ringAt {α : Type} (m : List α) (j : Int) (d : α) : α := m.getD (j % (m.length : Int)).toNat d

/-- The messages an operation passed to OUTQ: the frame in its result, the pages in its `MSG`
events. -/
def emitted (o : Output) : List Message :=
  (match o.result with
    | .frame (some f) => [.frame f]
    | _ => [])
  ++ o.events.filterMap fun e =>
    match e.ev with
    | .msg p => some (.page p)
    | _ => none

/-- The list without the entry of one instance. -/
def except {α : Type} (l : List α) (i : Nat) : List α := l.eraseIdx i

/-! ### The bit queue of BS -/

/-- The bits `BS.BITBUF` holds, oldest first (rule R38). -/
def queue (c : BsCfg) (r : BsReg) : List Bool :=
  (List.range r.count).map fun k => r.bitbuf.getD ((r.head + k) % c.cap) false

/-! ### Serial streams -/

/-- The bits of bytes, least significant first (rule R74). -/
def byteBits (B : List (BitVec 8)) : List Bool :=
  B.flatMap fun b => (List.range 8).map b.getLsbD

/-- The inverse bit-stuffing rule: a 0 after every five consecutive 1s; the first argument is the
number of 1s before the list (rule R111). -/
def stuff : Nat → List Bool → List Bool
  | _, [] => []
  | n, b :: bs =>
    if b then (if n = 4 then true :: false :: stuff 0 bs else true :: stuff (n + 1) bs)
    else false :: stuff 0 bs

/-- The flag as raw bits in order of arrival (rule R110). -/
def flag : List Bool := [false, true, true, true, true, true, true, false]

/-- Bits with the stuffed 0s taken out, and the number of 1s at their end; `none` where a sixth
consecutive 1 stands. The first argument is the number of 1s before the list (rule R278). -/
def unstuff : Nat → List Bool → Option (List Bool × Nat)
  | n, [] => some ([], n)
  | n, b :: bs =>
    if n = 5 then (if b then none else unstuff 0 bs)
    else (unstuff (if b then n + 1 else 0) bs).map fun r => (b :: r.1, r.2)

/-- The byte of at most eight bits, the first one in bit 0 (rule R74). -/
def byteOf (bits : List Bool) : BitVec 8 := bits.foldr (fun b v => (v <<< 1) ||| (if b then 1 else 0)) 0

/-- The results of `HD.STEP` over a stream of bits, in order. -/
def framesOf : Hd → List Bool → List (Option Frame)
  | _, [] => []
  | h, b :: bs => (hdTick h b).2.2 :: framesOf (hdTick h b).1 bs

/-- PG after the codewords of a list with their positions, and the pages emitted on the way. -/
def runWords (par : Params) : Pg → List (BitVec 32 × Nat) → Pg × List Page
  | p, [] => (p, [])
  | p, (w, i) :: rest =>
    let o := pgCodeword par p w i
    ((runWords par o.pg rest).1, o.page.toList ++ (runWords par o.pg rest).2)

/-- The 31-bit word of a codeword: bits 30:0 where the parity is bit 31, bits 31:1 where it is bit 0
(rules R118, R310). -/
def wordIn (pos : ParityPos) (cw : BitVec 32) : Nat :=
  match pos with
  | .top => cw.toNat % 2 ^ 31
  | .bottom => cw.toNat / 2

/-- The corrected data word of a codeword; `none` where it is uncorrectable (rule R311). -/
def dataWord (par : Params) (cw : BitVec 32) : Option (BitVec 21) :=
  match bchCorrect pagingCode (wordIn par.pgParityPos cw) with
  | .corrected c _ => some (BitVec.ofNat 21 (c / 2 ^ 10))
  | .uncorrectable => none

/-- Character `k` of a stream of payload bits: seven bits, the first to arrive in bit 0
(rule R120). -/
def charAt (bits : List Bool) (k : Nat) : BitVec 7 :=
  BitVec.ofNat 7 ((List.range 7).foldl (fun a j => a + (bits.getD (7 * k + j) false).toNat * 2 ^ j) 0)

/-- The characters of a stream of payload bits; what is left of less than seven bits is dropped
(rules R120, R123). -/
def chars (bits : List Bool) : List (BitVec 7) := (List.range (bits.length / 7)).map (charAt bits)

/-- The 20 payload bits of a data word, bit 19 first (rule R315). -/
def payload (d : BitVec 21) : List Bool := (List.range 20).map fun i => d.getLsbD (19 - i)

/-- The four numerals of a data word: the groups 19:16, 15:12, 11:8, 7:4, each bit-reversed
(rule R316). -/
def numerals (d : BitVec 21) : List (BitVec 4) :=
  [(d.extractLsb' 16 4).reverse, (d.extractLsb' 12 4).reverse, (d.extractLsb' 8 4).reverse,
    (d.extractLsb' 4 4).reverse]

/-! ### The Galois field and the code -/

/-- XOR of the numbers of a list. -/
def xorOf (l : List Nat) : Nat := l.foldl (· ^^^ ·) 0

/-- `alpha^i` by the recurrence of rule R233. -/
def alphaPow (m fp : Nat) : Nat → Nat
  | 0 => 1
  | i + 1 =>
    let v := 2 * alphaPow m fp i
    if v.testBit m then v ^^^ fp else v

/-- The polynomial with coefficients in the bits `0 .. len-1` of `w` at `alpha^i`: the sum of
`alpha^(i e)` over the set bits `e` (rule R241). `pow` gives the powers below `q1`. -/
def polyAt (pow : Nat → Nat) (q1 len w i : Nat) : Nat :=
  xorOf (((List.range len).filter w.testBit).map fun e => pow (i * e % q1))

/-- The checks of rule R231, for the exponent `m` of rule R230 and the polynomial `fp` after the
default is substituted. -/
def validCode (g : Nat) (n k t : Int) (m fp : Nat) : Prop :=
  1 ≤ k ∧ k < n ∧ 1 ≤ t ∧ 2 ≤ m ∧ m ≤ 16 ∧
  g.log2 = (n - k).toNat ∧ g % 2 = 1 ∧ fp.log2 = m ∧
  (∀ v, 1 ≤ v → v < 2 ^ m → (List.range (2 ^ m - 1)).countP (fun i => alphaPow m fp i == v) = 1) ∧
  (∀ i : Nat, 1 ≤ i → (i : Int) ≤ 2 * t →
    polyAt (alphaPow m fp) (2 ^ m - 1) (g.log2 + 1) g i = 0)

/-- `DEFAULT_FP` (rule R232); 0 where there is none. -/
def defaults : List Nat := [0, 0, 0x7, 0xB, 0x13, 0x25, 0x43, 0x89, 0x11D]

/-! ### PG -/

/-- The page of the message in progress (rule R314). -/
def pageIn (p : Pg) : Page where
  hasAddr := p.msg.hasAddr
  addr18 := p.msg.addr18
  func := p.msg.func
  pos := p.msg.pos
  alpha := if p.filter = .alpha ∨ p.filter = .both then p.msg.alpha else []
  num := if p.filter = .numeric ∨ p.filter = .both then p.msg.numt else []
  invalid := p.msg.invalid
  ndata := p.msg.ndata
  baud := p.baud

/-- The page that `finalize()` emits, if any (rule R314). -/
def pagesIn (p : Pg) : List Page :=
  if p.msg.hasAddr = true ∨ 0 < p.msg.ndata then [pageIn p] else []

/-- PG after `finalize(); pg_reset()` (rules R313, R317); `FILTER`, `BAUD` and `PARERR` are kept. -/
def restarted (p : Pg) (evs : List Event) : Pg where
  filter := p.filter
  state := .firstBitSinceSync
  inv := false
  prev := false
  alt := 0
  predone := false
  search := 0
  sr := 0
  nbits := 0
  cwidx := 0
  baud := p.baud
  parerr := p.parerr
  msg := PgMsg.empty
  last := evs

/-- A tick of PG that ends in `lose_sync(why)` (rule R318). -/
def lost (why : Event) (p : Pg) : PgOut :=
  let evs := why :: ((pagesIn p).map .msg ++ [.resyncReq])
  ⟨restarted p evs, evs, (pagesIn p).head?⟩

/-- The state after an operation of `PG@inst` that left `o` and answered with `r`. -/
def pgAfter (s : State) (inst : Inst) (o : PgOut) (r : Result) : State :=
  { s with
    pg := s.pg.set inst.toNat o.pg
    outq := s.outq ++ o.page.toList.map .page
    out := ⟨.ok, r, o.evs.map fun e => ⟨inst, e⟩, []⟩ }

/-- The bits held in the rolling character register, in order of arrival (rule R315). -/
def carried (m : PgMsg) : List Bool :=
  (List.range m.sr7n).map fun i => m.sr7.getLsbD (m.sr7n - 1 - i)

/-! ### External nodes -/

/-- The record of an external node after an INIT with the rate `x` that returned `r` and left the state
`st`. The rate it returned the first time it was given `x` is kept; another one now breaks the
contract (93_implementation_defined.md U2). -/
def initialised (M : Numerics) (e : Ext) (x r : RealVal) (st : Nat) : Ext :=
  let first : Option RealVal := (e.inits.find? fun p => p.1 == x).map Prod.snd
  { e with
    ph := .run, st := st
    inits := if first = none then e.inits ++ [(x, r)] else e.inits
    rateBroken := first.any fun r0 => r0 != r && !M.eq r0 r }

/-- A result is `None` or a value of the type. -/
def typed (t : Tag) (w : Option Sample) : Prop := ∀ x, w = some x → x.tag = t

/-! ### Pipelines of leaves -/

/-- A leaf of unit 1 or 4 whose step takes and gives a `Real` (rule R140). -/
def isRealLeaf (n : Nid) : Bool := nidUnit n == 1 || nidUnit n == 4

/-- The leaf is configured. -/
def leafReady (s : State) (n : Nid) : Bool :=
  match (nidUnit n).toNat with
  | 1 => (s.gz[(nidInst n).toNat]?.map Life.ph).any (· != .unconf)
  | 4 => (s.ma[(nidInst n).toNat]?.map Life.ph).any (· != .unconf)
  | _ => false

/-- The leaf is in phase RUN. -/
def leafRuns (s : State) (n : Nid) : Bool :=
  match (nidUnit n).toNat with
  | 1 => (s.gz[(nidInst n).toNat]?.map Life.ph) == some .run
  | 4 => (s.ma[(nidInst n).toNat]?.map Life.ph) == some .run
  | _ => false

/-! ### Trees of nodes -/

/-- The unit is configured with `c`: in CONF or in RUN (rule R16). -/
def isConfigured {C R : Type} (u : Option (Life C R)) (c : C) : Prop :=
  u = some (.conf c) ∨ ∃ r, u = some (.run c r)

/-- The INIT operation of a node of the block (rules R101, R104). -/
def initOf (n : Nid) (rate : B32) : Option Instr :=
  match (nidUnit n).toNat with
  | 0 => some (.pipeInit (nidInst n) rate)
  | 1 => some (.gzInit (nidInst n) rate)
  | 2 => some (.firInit (nidInst n) rate)
  | 3 => some (.bqInit (nidInst n) rate)
  | 4 => some (.maInit (nidInst n) rate)
  | 5 => some (.bsInit (nidInst n) rate)
  | _ => none

/-- The STEP operation of a node of the block that takes a sample of this type (rules R101, R104). -/
def stepOf (n : Nid) (v : PortSample) : Option Instr :=
  match (nidUnit n).toNat, v with
  | 0, v => some (.pipeStep (nidInst n) v)
  | 1, .real x => some (.gzStep (nidInst n) x)
  | 2, .real x => some (.firStep (nidInst n) x)
  | 2, .cplx re im => some (.fircStep (nidInst n) re im)
  | 3, .real x => some (.bqStep (nidInst n) x)
  | 3, .cplx re im => some (.bqcStep (nidInst n) re im)
  | 4, .real x => some (.maStep (nidInst n) x)
  | 5, .bit b => some (.bsStep (nidInst n) b)
  | _, _ => none

/-- An external node: units 10 to 14 (rule R140). -/
def isExt (n : Nid) : Prop := 10 ≤ (nidUnit n).toNat ∧ (nidUnit n).toNat ≤ 14

/-- The record of the external node bound under `n` replaced. -/
def withExt (n : Nid) (e : Ext) (s : State) : State :=
  { s with ext := s.ext.map fun q => if q.nid = n then e else q }

/-- The record of a unit after an INIT whose arithmetic was rounded or not. -/
def fresh (rounded : Bool) : Standing := ⟨.kept, rounded, false⟩

mutual

/-- `Inits s n x y t`: `init_node(n, x)` in the state `s` returns the rate `y` and leaves the state `t`
(rule R142). A leaf holds the registers of its own INIT (rules R161, R171, R186, R201, R211); an external
node answers as it is declared (rule R141), and what is kept of its rates is the model's choice (log
entry 18). -/
inductive Inits : State → Nid → RealVal → RealVal → State → Prop
  | gz {s : State} {i : Inst} {x : RealVal} {c : GzCfg} :
      isConfigured s.gz[i.toNat]? c → s.num.pos x = true →
      Inits s (nidOf 1 i) x x { s with gz := s.gz.set i.toNat (.run c (gzReg s.num c x)) }
  | fir {s : State} {i : Inst} {x : RealVal} {c : FirCfg} :
      isConfigured s.fir[i.toNat]? c → s.num.pos x = true →
      s.num.lt (s.num.clampf x c.fstop) (s.num.clampf x c.fstart) = false →
      Inits s (nidOf 2 i) x x
        { s with fir := s.fir.set i.toNat (.run c (firReg s.num s.par.tone c x)) }
  | bq {s : State} {i : Inst} {x : RealVal} {c : BqCfg} :
      isConfigured s.bq[i.toNat]? c → s.num.pos x = true →
      Inits s (nidOf 3 i) x x { s with bq := s.bq.set i.toNat (.run c (bqReg s.num c x)) }
  | ma {s : State} {i : Inst} {x : RealVal} {c : MaCfg} :
      isConfigured s.ma[i.toNat]? c → s.num.pos x = true →
      Inits s (nidOf 4 i) x x { s with ma := s.ma.set i.toNat (.run c (maReg s.num c)) }
  | bs {s : State} {i : Inst} {x : RealVal} {c : BsCfg} :
      isConfigured s.bs[i.toNat]? c → s.num.pos x = true →
      Inits s (nidOf 5 i) x x { s with bs := s.bs.set i.toNat (.run c (bsReg s.num c x)) }
  | ext {s : State} {n : Nid} {x y : RealVal} {e : Ext} {st : Nat} :
      isExt n → findExt s n = some e → s.num.pos x = true → extInitOf s.num e x = (y, st) →
      Inits s n x y (withExt n (initialised s.num e x y st) s)
  | serial {s t : State} {i : Inst} {x y : RealVal} {c : PipeCfg} :
      isConfigured s.pipe[i.toNat]? c → c.kind = .serial → s.num.pos x = true →
      InitsInTurn s c.child x y t →
      Inits s (nidOf 0 i) x y { t with pipe := t.pipe.set i.toNat (.run c ⟨x, y, fresh false⟩) }
  | parallel {s t : State} {i : Inst} {x y : RealVal} {c : PipeCfg} {f : MergeFn}
      {ys : List RealVal} :
      isConfigured s.pipe[i.toNat]? c → c.kind = .parallel f → s.num.pos x = true →
      InitsEach s c.child x (y :: ys) t → (∀ z ∈ ys, s.num.eq y z = true) →
      Inits s (nidOf 0 i) x y { t with pipe := t.pipe.set i.toNat (.run c ⟨x, y, fresh false⟩) }

/-- The children of a serial composite, in order: each is initialised with the rate that the one before
returned (rule R146). -/
inductive InitsInTurn : State → List Nid → RealVal → RealVal → State → Prop
  | none {s : State} {x : RealVal} : InitsInTurn s [] x x s
  | next {s t u : State} {n : Nid} {l : List Nid} {x y z : RealVal} :
      Inits s n x y t → InitsInTurn t l y z u → InitsInTurn s (n :: l) x z u

/-- The children of a parallel composite, in order: each is initialised with the same rate; the rates
they return (rule R148). -/
inductive InitsEach : State → List Nid → RealVal → List RealVal → State → Prop
  | none {s : State} {x : RealVal} : InitsEach s [] x [] s
  | next {s t u : State} {n : Nid} {l : List Nid} {x y : RealVal} {ys : List RealVal} :
      Inits s n x y t → InitsEach t l x ys u → InitsEach s (n :: l) x (y :: ys) u

end

/-- `InitFails s n x e`: `init_node(n, x)` in the state `s` raises `e`: for a rate that is not positive,
for a FIR whose clamped band edges change places (rule R171), for branches that disagree (rule R148), or
because it calls a child whose `init` raises `e`, after the children before it (rule R150). -/
inductive InitFails : State → Nid → RealVal → Status → Prop
  | rate {s : State} {n : Nid} {x : RealVal} {i : NodeInfo} :
      nodeInfo s n = some i → i.ph ≠ .unconf → s.num.pos x = false →
      InitFails s n x (.config .badArgument)
  | band {s : State} {i : Inst} {x : RealVal} {c : FirCfg} :
      isConfigured s.fir[i.toNat]? c → s.num.pos x = true →
      s.num.lt (s.num.clampf x c.fstop) (s.num.clampf x c.fstart) = true →
      InitFails s (nidOf 2 i) x (.config .badBand)
  | disagree {s t : State} {i : Inst} {x y : RealVal} {c : PipeCfg} {f : MergeFn}
      {ys : List RealVal} :
      isConfigured s.pipe[i.toNat]? c → c.kind = .parallel f → s.num.pos x = true →
      InitsEach s c.child x (y :: ys) t → (∃ z ∈ ys, s.num.eq y z = false) →
      InitFails s (nidOf 0 i) x (.config .rateMismatch)
  | inTurn {s t : State} {i : Inst} {x y : RealVal} {c : PipeCfg} {before after : List Nid} {n : Nid}
      {e : Status} :
      isConfigured s.pipe[i.toNat]? c → c.kind = .serial → s.num.pos x = true →
      c.child = before ++ n :: after → InitsInTurn s before x y t → InitFails t n y e →
      InitFails s (nidOf 0 i) x e
  | each {s t : State} {i : Inst} {x : RealVal} {c : PipeCfg} {f : MergeFn} {ys : List RealVal}
      {before after : List Nid} {n : Nid} {e : Status} :
      isConfigured s.pipe[i.toNat]? c → c.kind = .parallel f → s.num.pos x = true →
      c.child = before ++ n :: after → InitsEach s before x ys t → InitFails t n x e →
      InitFails s (nidOf 0 i) x e

/-- `s` after composite `i` in RUN has its record `standing` replaced. -/
def withStanding (i : Inst) (c : PipeCfg) (r : PipeReg) (h : Standing) (s : State) : State :=
  { s with pipe := s.pipe.set i.toNat (.run c { r with standing := h }) }

/-- The entries U3 and U5 leave the outputs of a unit open after a tick: they were open, the operand or
the result is no number, a sample since the last INIT was none, or one was outside `[-1, 1]` and an
operation since then was rounded. `w` is the unit's record before the tick; `numbers`, `inside` and
`rounded` are of the tick. -/
abbrev opened (w : Standing) (numbers inside rounded : Bool) : Prop :=
  w.anyOut = true ∨ numbers = false ∨ w.source = .notNumber ∨
    ((w.source = .outOfRange ∨ inside = false) ∧ (w.rounded = true ∨ rounded = true))

/-- What a `step_node` leaves: its answer, the events raised and the bits BS delivered in it, in order,
and the state. -/
structure Tick where
  out : Option Sample
  evs : List Raised
  bits : List Delivered
  st : State

mutual

/-- `Steps q s n v o`: `step_node(n, v)` in the state `s` leaves `o` (rule R142); `q` says how the operand
of the operation, and in a tree those since its last INIT, keep the source contract (U3). A leaf makes its
own STEP (rules R162, R175, R176, R189, R190, R202, R213), its answer any value where its outputs are open;
an external node that keeps the node contract answers as it is declared (rule R141); the answer of a
composite whose outputs are open is any value of its type. -/
inductive Steps : Contract → State → Nid → Sample → Tick → Prop
  | gz {q : Contract} {s t : State} {i : Inst} {x w : RealVal} {c : GzCfg} {r r' : GzReg} :
      s.gz[i.toNat]? = some (.run c r) → gzInsert s.num c r x q = r' →
      openReal r'.standing.anyOut (gzOutput s.num c r') s = (w, t) →
      Steps q s (nidOf 1 i) (.real x)
        ⟨some (.real w), [], [], { t with gz := s.gz.set i.toNat (.run c r') }⟩
  | fir {q : Contract} {s t : State} {i : Inst} {x y w : RealVal} {c : FirCfg} {r r' : FirReg}
      {l : List RealVal} :
      s.fir[i.toNat]? = some (.run c r) → c.cx = false → r.ring = .real l →
      firTick s.num r l x q = (r', y) → openReal r'.standing.anyOut y s = (w, t) →
      Steps q s (nidOf 2 i) (.real x)
        ⟨some (.real w), [], [], { t with fir := s.fir.set i.toNat (.run c r') }⟩
  | firc {q : Contract} {s t : State} {i : Inst} {x y w : Cplx} {c : FirCfg} {r r' : FirReg}
      {l : List Cplx} :
      s.fir[i.toNat]? = some (.run c r) → c.cx = true → r.ring = .cplx l →
      fircTick s.num r l x q = (r', y) → openCplx r'.standing.anyOut y s = (w, t) →
      Steps q s (nidOf 2 i) (.cplx x)
        ⟨some (.cplx w), [], [], { t with fir := s.fir.set i.toNat (.run c r') }⟩
  | bq {q : Contract} {s t : State} {i : Inst} {x y w : RealVal} {c : BqCfg} {r r' : BqReg}
      {d : Delay RealVal} :
      s.bq[i.toNat]? = some (.run c r) → c.cx = false → r.mem = .real d →
      bqTick s.num r d x q = (r', y) → openReal r'.standing.anyOut y s = (w, t) →
      Steps q s (nidOf 3 i) (.real x)
        ⟨some (.real w), [], [], { t with bq := s.bq.set i.toNat (.run c r') }⟩
  | bqc {q : Contract} {s t : State} {i : Inst} {x y w : Cplx} {c : BqCfg} {r r' : BqReg}
      {d : Delay Cplx} :
      s.bq[i.toNat]? = some (.run c r) → c.cx = true → r.mem = .cplx d →
      bqcTick s.num r d x q = (r', y) → openCplx r'.standing.anyOut y s = (w, t) →
      Steps q s (nidOf 3 i) (.cplx x)
        ⟨some (.cplx w), [], [], { t with bq := s.bq.set i.toNat (.run c r') }⟩
  | ma {q : Contract} {s t : State} {i : Inst} {x w : RealVal} {c : MaCfg} {r r' : MaReg} :
      s.ma[i.toNat]? = some (.run c r) → maTick s.num c r x q = r' →
      openReal r'.standing.anyOut (maOutput s.num c r') s = (w, t) →
      Steps q s (nidOf 4 i) (.real x)
        ⟨some (.real w), [], [], { t with ma := s.ma.set i.toNat (.run c r') }⟩
  | bs {q : Contract} {s : State} {i : Inst} {b : Bool} {c : BsCfg} {r r' : BsReg} {evs : List Event}
      {w : Option Bool} :
      s.bs[i.toNat]? = some (.run c r) → bsTick s.num c r b = (r', evs, w) →
      Steps q s (nidOf 5 i) (.bool b)
        ⟨w.map .bool, evs.map fun e => ⟨i, e⟩, w.toList.map fun d => ⟨i, d⟩,
          { s with bs := s.bs.set i.toNat (.run c r') }⟩
  | ext {q : Contract} {s : State} {n : Nid} {v : Sample} {e : Ext} {w : Option Sample} {st : Nat} :
      isExt n → findExt s n = some e → e.ph = .run → e.rateBroken = false → v.tag = e.inT →
      extStepOf e v = (w, st) → typed e.outT w →
      Steps q s n v ⟨w, [], [], withExt n { e with st := st } s⟩
  | serial {q : Contract} {s t : State} {i : Inst} {v : Sample} {c : PipeCfg} {r : PipeReg} {o : Tick}
      {w : Option Sample} {h : Standing} :
      s.pipe[i.toNat]? = some (.run c r) → c.kind = .serial →
      StepsInTurn (r.standing.source.and q) s c.child v o →
      r.standing.after q false true = h → openSample h.anyOut o.out o.st = (w, t) →
      Steps q s (nidOf 0 i) v ⟨w, o.evs, o.bits, withStanding i c r h t⟩
  | merged {q : Contract} {s t u : State} {i : Inst} {v : Sample} {c : PipeCfg} {r : PipeReg}
      {f : MergeFn} {ws : List Sample} {evs : List Raised} {bits : List Delivered} {w : Option Sample}
      {h : Standing} :
      s.pipe[i.toNat]? = some (.run c r) → c.kind = .parallel f →
      StepsEach (r.standing.source.and q) s c.child v (ws.map some) evs bits t →
      r.standing.after q (mergeRounds s.num f c.outT ws) true = h →
      openSample h.anyOut (some (mergeApply s.num f c.outT ws)) t = (w, u) →
      Steps q s (nidOf 0 i) v ⟨w, evs, bits, withStanding i c r h u⟩
  | split {q : Contract} {s t : State} {i : Inst} {v : Sample} {c : PipeCfg} {r : PipeReg} {f : MergeFn}
      {ws : List (Option Sample)} {evs : List Raised} {bits : List Delivered} :
      s.pipe[i.toNat]? = some (.run c r) → c.kind = .parallel f →
      StepsEach (r.standing.source.and q) s c.child v ws evs bits t → none ∈ ws →
      Steps q s (nidOf 0 i) v
        ⟨none, evs, bits, withStanding i c r (r.standing.after q false true) t⟩

/-- The children of a serial composite, in order: each is stepped with the value that the one before
produced, and one that answers `None` ends the evaluation (rule R147). -/
inductive StepsInTurn : Contract → State → List Nid → Sample → Tick → Prop
  | done {q : Contract} {s : State} {v : Sample} : StepsInTurn q s [] v ⟨some v, [], [], s⟩
  | stop {q : Contract} {s : State} {n : Nid} {l : List Nid} {v : Sample} {o : Tick} :
      Steps q s n v o → o.out = none → StepsInTurn q s (n :: l) v o
  | next {q : Contract} {s : State} {n : Nid} {l : List Nid} {v w : Sample} {o p : Tick} :
      Steps q s n v o → o.out = some w → StepsInTurn q o.st l w p →
      StepsInTurn q s (n :: l) v ⟨p.out, o.evs ++ p.evs, o.bits ++ p.bits, p.st⟩

/-- The children of a parallel composite, in order: each is stepped with the same value (rule R149). -/
inductive StepsEach : Contract → State → List Nid → Sample → List (Option Sample) → List Raised →
    List Delivered → State → Prop
  | none {q : Contract} {s : State} {v : Sample} : StepsEach q s [] v [] [] [] s
  | next {q : Contract} {s t : State} {n : Nid} {l : List Nid} {v : Sample} {o : Tick}
      {ws : List (Option Sample)} {evs : List Raised} {bits : List Delivered} :
      Steps q s n v o → StepsEach q o.st l v ws evs bits t →
      StepsEach q s (n :: l) v (o.out :: ws) (o.evs ++ evs) (o.bits ++ bits) t

end

end Claims
end Sys2Proof

open Sys2Proof Sys2Proof.Machine Sys2Proof.Claims

/-! ### The command interface -/

/-- Rules R100 to R106: every operation is read back from its command word and its operand, with
every operand at every value the encoding admits. -/
def Obligations.DecodeEncode : Prop :=
  ∀ i : Instr, i.wellFormed = true → decode (encode i) = .ok i

/-- Rules R101, R102, R106: an operation has one command; a command that decodes is the encoding of
what it decodes to. -/
def Obligations.EncodeDecode : Prop :=
  ∀ (c : Command) (i : Instr), decode c = .ok i → encode i = c

/-- Rules R101, R104, R346, R355 to R357, R360: command words written out from the table, one for
every unit; and the codes of the statuses, the events and the indicator. -/
def Obligations.TableWordsDecode : Prop :=
  decode ⟨0b0000001000000010, .rate 0x45FA0000⟩ = .ok (.pipeInit 2 0x45FA0000) ∧
  decode ⟨0b0000000000010000, .params [.int 110, .real 0x44972000]⟩ = .ok (.gzConfig 0 110 0x44972000) ∧
  decode ⟨0b0000000100100011, .sample (.cplx 0x3F800000 0xBF800000)⟩ =
    .ok (.fircStep 1 0x3F800000 0xBF800000) ∧
  decode ⟨0b0000000000110010, .sample (.real 0x3F000000)⟩ = .ok (.bqStep 0 0x3F000000) ∧
  decode ⟨0b0000001101000010, .sample (.real 0x3F000000)⟩ = .ok (.maStep 3 0x3F000000) ∧
  decode ⟨0b0000000001010000, .params [.int 2, .real 0x44000000, .real 0x44960000, .int 4, .int 1024]⟩ =
    .ok (.bsConfig 0 2 [0x44000000, 0x44960000] 4 1024) ∧
  decode ⟨0b0000000001101001, .word 0x6AF178D1⟩ = .ok (.bchCorrect 0 0x6AF178D1) ∧
  decode ⟨0b0000000001110001, .sample (.bit true)⟩ = .ok (.hdStep 0 true) ∧
  decode ⟨0b0000000010000011, .word 2⟩ = .ok (.pgSetFilter 0 2) ∧
  decode ⟨0b0000000010010000, .none⟩ = .ok (.outqDrain 0) ∧
  decode ⟨0b0000000011110000, .none⟩ = .ok (.coreReset 0) ∧
  decode ⟨0b0000000000010011, .none⟩ = .error .reservedCode ∧
  decode ⟨0b0000000000010010, .sample (.cplx 0 0)⟩ = .error .operandShape ∧
  Status.ok.code = 0x00 ∧
  [ConfigError.badWindowSize, .badEnum, .badTapCount, .badBand, .badArgument, .emptyCandidates,
    .badBufferWidth, .badCode, .rateMismatch, .emptyPipeline].map (fun e => (Status.config e).code) =
    [0x11, 0x12, 0x13, 0x14, 0x15, 0x16, 0x17, 0x18, 0x19, 0x1A] ∧
  [ContractFault.badPhase, .duplicateNode, .typeMismatch, .badCommand, .nodeOwned, .unknownNode,
    .badOperand].map (fun e => (Status.contract e).code) =
    [0x21, 0x22, 0x23, 0x24, 0x25, 0x26, 0x27] ∧
  (∀ (baud : RealVal) (l idx : Nat) (p : Page),
    [Event.sync baud, .noise l, .bsOverflow, .framing, .short, .overflow, .syncword, .syncwordInv,
      .parity idx, .unc idx, .badPreamble, .syncLost, .resyncReq, .msg p].map Event.code =
      [0x51, 0x52, 0x53, 0x71, 0x72, 0x73, 0x81, 0x82, 0x83, 0x84, 0x85, 0x86, 0x87, 0x88]) ∧
  [Indicator.syncing, .receiving, .error].map Indicator.code = [0, 1, 2]

/-- Rule R342: a step takes the first pending command, and runs the operation it decodes to; the
operations that a declared chain issues in response stand before the rest: a SYNC of the chained BS
as PG.SYNC, before its bits as PG.STEP or HD.STEP, a RESYNC_REQ of the chained PG as
BS.WAIT_FOR_SYNC (rules R109, R363).
The pending commands as state, the bits that a BS delivers inside a composite, the order of what
several chains issue, and the port on which a rate travels are the model's choice (log entries 1, 22,
23 and 24). -/
def Obligations.StepRunsDecoded : Prop :=
  ∀ (s : State) (c : Command) (rest : List Command) (i : Instr),
    s.pending = c :: rest → decode c = .ok i →
    step s =
      match exec i { s with pending := rest } with
      | .next t =>
        .next { t with pending := (t.par.chains.flatMap (chainIssues t.num t.out)).map encode ++ t.pending }
      | .fault r => .fault r
      | .refused r => .refused r

/-- Rule R107: a command whose code is not in the table of rule R104 and is not in the custom space,
or whose operand does not have the operation's shape, is rejected with BAD_COMMAND and changes
nothing. In the custom space a command is a BAD_COMMAND where no node is bound under its identity;
INIT and STEP of a bound node are routed to it, or are a NODE_OWNED where a composite owns it
(rule R152), and change of the block's state only what is kept of that node.
What the port takes for another shape is the model's choice (log entries 9 and 10), and so is which
codes of the custom space are INIT and STEP, and the phase check of a node (log entries 18 and 19).
The type of what the node answers is its declared one; the value is any, also where the node broke
the node contract (93_implementation_defined.md U2). What is kept of its rates for that, and that the
result of a STEP at the port is open too where it broke the contract, is the model's choice (log
entry 18). -/
def Obligations.ReservedCommandRejected : Prop :=
  ∀ (s : State) (c : Command) (rest : List Command), s.pending = c :: rest →
    let code := c.word.toNat % 256
    let custom := 0xA0 ≤ code ∧ code < 0xF0
    let s' := { s with pending := rest }
    let bad := rejected s' (.contract .badCommand)
    ((code ∉
        [0x00, 0x01, 0x02, 0x03, 0x10, 0x11, 0x12, 0x20, 0x21, 0x22, 0x23, 0x24, 0x30, 0x31, 0x32,
          0x33, 0x40, 0x41, 0x42, 0x50, 0x51, 0x52, 0x53, 0x60, 0x61, 0x62, 0x63, 0x64, 0x65, 0x66,
          0x67, 0x68, 0x69, 0x6A, 0x70, 0x71, 0x80, 0x81, 0x82, 0x83, 0x90, 0xF0] ∧ ¬ custom) ∨
      (¬ custom ∧ ∀ i : Instr, i.wellFormed = true → c ≠ encode i) →
      step s = .next bad) ∧
    (custom →
      let n : Nid := BitVec.ofNat 12 (c.word.toNat / 256 * 16 + code / 16)
      let bound (e : Ext) : List Ext := s.ext.map fun x => if x.nid = n then e else x
      (findExt s n = none → step s = .next bad) ∧
      ∀ e, findExt s n = some e →
        match Config.extOpCode (BitVec.ofNat 4 (code / 16)) (BitVec.ofNat 4 code), c.operand with
        | some .init, .rate r =>
          let x := s.num.ofB32 r
          (n ∈ s.used → step s = .next (rejected s' (.contract .nodeOwned))) ∧
          (n ∉ s.used → s.num.pos x = false → step s = .next (rejected s' (.config .badArgument))) ∧
          (n ∉ s.used → s.num.pos x = true → ∃ v st, step s =
            .next (done { s' with ext := bound (initialised s.num e x v st) } (.rate v)))
        | some .step, .sample v =>
          (portTag v ≠ e.inT → step s = .next bad) ∧
          (portTag v = e.inT → n ∈ s.used → step s = .next (rejected s' (.contract .nodeOwned))) ∧
          (portTag v = e.inT → n ∉ s.used → e.ph ≠ .run →
            step s = .next (rejected s' (.contract .badPhase))) ∧
          (portTag v = e.inT → n ∉ s.used → e.ph = .run → ∃ w st k,
            typed e.outT w ∧
            step s = .next (done { s' with ext := bound { e with st := st }, freeIx := k }
              (.sample w)))
        | _, _ => step s = .next bad)

/-- Rule R107: an instance number that is not below NINST of its kind, and any but 0 for OUTQ and
the whole block (rule R101), is rejected with BAD_COMMAND, before any other check (rule R359). -/
def Obligations.MissingInstanceRejected : Prop :=
  ∀ (i : Instr) (s : State), instances s (unitOf i) ≤ i.inst.toNat →
    leads i s (rejected s (.contract .badCommand))

/-- Rule R152: an INIT or a STEP issued at the command port to a node that a composite owns.
That a sample of PIPE.STEP of another type comes before this check is the model's choice (log
entry 10). -/
def Obligations.OwnedNodeRefused : Prop :=
  ∀ (i : Instr) (s : State), (isInit i || isStep i) = true → i.inst.toNat < instances s (unitOf i) →
    operandTyped s i = true → nidOfOp i ∈ s.used → leads i s (rejected s (.contract .nodeOwned))

/-- Rule R16: STEP is legal only in RUN, INIT not in UNCONF; the same of FIR.SET_TAPS,
BS.WAIT_FOR_SYNC, also on an owned instance, and the data operations of BCH (rules R177, R219,
section 2 of 46_bch.md). PIPE.INIT with a node below it in UNCONF, and PIPE.STEP with one that is not
in RUN, are a BAD_PHASE before any child is called (rules R150, R151, R152). -/
def Obligations.WrongPhaseRejected : Prop :=
  (∀ (i : Instr) (s : State),
    (isBchData i = true ∧ phaseOf s i = some .unconf ∨
      i.op = .firSetTaps ∧ phaseOf s i = some .unconf ∨
      i.op = .bsWaitForSync ∧ (phaseOf s i = some .unconf ∨ phaseOf s i = some .conf) ∨
      nidOfOp i ∉ s.used ∧ operandTyped s i = true ∧
        (isInit i = true ∧ phaseOf s i = some .unconf ∨
          isStep i = true ∧ (phaseOf s i = some .unconf ∨ phaseOf s i = some .conf))) →
    leads i s (rejected s (.contract .badPhase))) ∧
  ∀ (s : State) (inst : Inst) (rate : B32) (v : PortSample) (d : Nid) (i : NodeInfo),
    nidOf 0 inst ∉ s.used → Below s (nidOf 0 inst) d → nodeInfo s d = some i →
    (i.ph = .unconf → leads (.pipeInit inst rate) s (rejected s (.contract .badPhase))) ∧
    (i.ph ≠ .run → operandTyped s (.pipeStep inst v) = true →
      leads (.pipeStep inst v) s (rejected s (.contract .badPhase)))

/-! ### The whole machine -/

/-- Rules R355, R358, R377: every operation ends in a next state with one status; one that answers
with a status other than OK drives no result and no event, and changes nothing. -/
def Obligations.EveryOperationAnswers : Prop :=
  ∀ (i : Instr) (s : State), ∃ t, leads i s t ∧
    (t.out.status = .ok ∨ t = rejected s t.out.status)

/-- Rule R30: all state is private to one unit. An operation of a leaf, codec or decoder changes, of
all units' registers, only those of the instance it names. -/
def Obligations.UnitsArePrivate : Prop :=
  ∀ (i : Instr) (s t : State), 1 ≤ unitOf i → unitOf i ≤ 8 → leads i s t →
    t.par = s.par ∧ t.pending = s.pending ∧ t.used = s.used ∧ t.locks = s.locks ∧ t.ext = s.ext ∧
    t.pipe = s.pipe ∧
    (if unitOf i = 1 then except t.gz i.inst.toNat = except s.gz i.inst.toNat else t.gz = s.gz) ∧
    (if unitOf i = 2 then except t.fir i.inst.toNat = except s.fir i.inst.toNat else t.fir = s.fir) ∧
    (if unitOf i = 3 then except t.bq i.inst.toNat = except s.bq i.inst.toNat else t.bq = s.bq) ∧
    (if unitOf i = 4 then except t.ma i.inst.toNat = except s.ma i.inst.toNat else t.ma = s.ma) ∧
    (if unitOf i = 5 then except t.bs i.inst.toNat = except s.bs i.inst.toNat else t.bs = s.bs) ∧
    (if unitOf i = 6 then except t.bch i.inst.toNat = except s.bch i.inst.toNat else t.bch = s.bch) ∧
    (if unitOf i = 7 then except t.hd i.inst.toNat = except s.hd i.inst.toNat else t.hd = s.hd) ∧
    (if unitOf i = 8 then except t.pg i.inst.toNat = except s.pg i.inst.toNat else t.pg = s.pg)

/-- Rule R404: messages are lost only by CORE.RESET. Every operation but that and OUTQ.DRAIN leaves
the messages of the buffer where they are and appends those it emitted (rules R85, R343). -/
def Obligations.OutqOnlyGrows : Prop :=
  ∀ (i : Instr) (s t : State), i.op ≠ .outqDrain → i.op ≠ .coreReset → leads i s t →
    t.outq = s.outq ++ emitted t.out

/-- Rule R377: no step leaves a register in a state the rules do not describe. Every step keeps the
ranges and relations of `State.wf`: those of the register tables (rules R33 to R43), free locks
(rule R47), composites that form a forest with PIPE.USED as the set of their children (rule R143), and
NINST in 1..256 (rule R101). -/
def Obligations.StepKeepsWellFormed : Prop :=
  ∀ s t : State, s.wf = true → step s = .next t → t.wf = true

/-- The state after reset is well formed. NINST = 4 at reset is the model's choice (log entry 2). -/
def Obligations.ResetWellFormed : Prop := State.reset.wf = true

/-- Rules R7, R20: the parameters of the block are no state; no step changes one, nor the number of
instances of a unit kind.
That the parameters stand in the state is the model's choice (log entry 35). -/
def Obligations.StepKeepsParameters : Prop :=
  ∀ s t : State, step s = .next t →
    t.par = s.par ∧ t.pipe.length = s.pipe.length ∧ t.gz.length = s.gz.length ∧
    t.fir.length = s.fir.length ∧ t.bq.length = s.bq.length ∧ t.ma.length = s.ma.length ∧
    t.bs.length = s.bs.length ∧ t.bch.length = s.bch.length ∧ t.hd.length = s.hd.length ∧
    t.pg.length = s.pg.length

/-! ### Reset and the hand-off buffer -/

/-- Rules R48, R341: what reset leaves, and that it is the state CORE.RESET produces. That the ports
carry OK and nothing else at reset, so that they are as CORE.RESET leaves them, is the model's choice
(log entry 3). -/
def Obligations.ResetState : Prop :=
  (∀ u ∈ State.reset.pipe, u = .unconf) ∧ (∀ u ∈ State.reset.gz, u = .unconf) ∧
  (∀ u ∈ State.reset.fir, u = .unconf) ∧ (∀ u ∈ State.reset.bq, u = .unconf) ∧
  (∀ u ∈ State.reset.ma, u = .unconf) ∧ (∀ u ∈ State.reset.bs, u = .unconf) ∧
  (∀ u ∈ State.reset.bch, u = .unconf) ∧
  (∀ h ∈ State.reset.hd, h.ph = .run ∧ h.state = .waitFlag ∧ h.raw = 0 ∧ h.cnt8 = 0 ∧ h.nflag = 0 ∧
    h.ones = 0 ∧ h.acc = 0 ∧ h.accn = 0 ∧ h.buf = [] ∧ h.blen = 0 ∧ h.ovf = false) ∧
  (∀ p ∈ State.reset.pg, p.ph = .run ∧ p.filter = .both ∧ p.state = .firstBitSinceSync ∧
    p.inv = false ∧ p.prev = false ∧ p.alt = 0 ∧ p.predone = false ∧ p.search = 0 ∧ p.sr = 0 ∧
    p.nbits = 0 ∧ p.cwidx = 0 ∧ p.baud = State.reset.num.zero ∧ p.parerr = 0 ∧
    p.msg.hasAddr = false ∧ p.msg.addr18 = 0 ∧ p.msg.func = 0 ∧ p.msg.pos = 0 ∧ p.msg.alpha = [] ∧
    p.msg.numt = [] ∧ p.msg.invalid = false ∧ p.msg.ndata = 0 ∧ p.msg.sr7 = 0 ∧ p.msg.sr7n = 0) ∧
  State.reset.outqPh = .run ∧ State.reset.outq = [] ∧ State.reset.used = [] ∧ State.reset.locks = [] ∧
  leads (.coreReset 0) State.reset State.reset

/-- Rule R340: CORE.RESET, legal in every state, puts every instance of every unit into the reset
state; messages not yet drained are lost; no result, no event. -/
def Obligations.CoreResetResets : Prop :=
  ∀ s : State, ∃ t, leads (.coreReset 0) s t ∧ t.out.status = .ok ∧ t.out.result = .none ∧
    t.out.events = [] ∧ t.par = s.par ∧
    t.pipe = s.pipe.map (fun _ => .unconf) ∧ t.gz = s.gz.map (fun _ => .unconf) ∧
    t.fir = s.fir.map (fun _ => .unconf) ∧ t.bq = s.bq.map (fun _ => .unconf) ∧
    t.ma = s.ma.map (fun _ => .unconf) ∧ t.bs = s.bs.map (fun _ => .unconf) ∧
    t.bch = s.bch.map (fun _ => .unconf) ∧ t.hd = s.hd.map (fun _ => Hd.reset) ∧
    t.pg = s.pg.map (fun _ => Pg.reset s.num.zero) ∧ t.used = [] ∧ t.outq = [] ∧ t.locks = []

/-- Rule R344: OUTQ.DRAIN returns every message since the previous drain, oldest first, and empties
the buffer. -/
def Obligations.DrainReturnsAll : Prop :=
  ∀ s : State, leads (.outqDrain 0) s (done { s with outq := [] } (.messages s.outq))

/-! ### PIPE -/

/-- Rules R143, R144, R145, R153: the checks of PIPE.SERIAL in their order, which PIPE.PARALLEL makes
too; the first that fails decides the status.
Which identities are no node is the model's choice where they name an instance of another kind
(log entry 20). -/
def Obligations.SerialChecksInOrder : Prop :=
  ∀ (s : State) (inst : Inst) (l : List Nid) (p : Pipe), s.pipe[inst.toNat]? = some p →
    let info := l.map (nodeInfo s)
    let refused (e : Status) : Prop :=
      leads (.pipeSerial inst l) s (rejected s e) ∧
        ∀ f t, leads (.pipeParallel inst l f t) s (rejected s e)
    (p.ph ≠ .unconf → refused (.contract .badPhase)) ∧
    (p = .unconf → l = [] → refused (.config .emptyPipeline)) ∧
    (p = .unconf → l ≠ [] → none ∈ info → refused (.contract .unknownNode)) ∧
    (p = .unconf → l ≠ [] → none ∉ info → (∃ ts, some ⟨.unconf, ts⟩ ∈ info) →
      refused (.contract .badPhase)) ∧
    (p = .unconf → l ≠ [] → none ∉ info → (∀ ts, some ⟨.unconf, ts⟩ ∉ info) →
      ((∃ c ∈ l, c ∈ s.used) ∨ ¬ l.Nodup) → refused (.contract .duplicateNode))

/-- Rule R144: PIPE.SERIAL of configured, unused children builds the composite when each child's
output type is the next one's input type, and is a TYPE_MISMATCH otherwise. `ts` are the children's
phases and types. -/
def Obligations.SerialBuilds : Prop :=
  ∀ (s : State) (inst : Inst) (c0 : Nid) (cs : List Nid) (ts : List (Phase × Tag × Tag))
    (t0 tl : Phase × Tag × Tag),
    s.pipe[inst.toNat]? = some .unconf →
    (c0 :: cs).map (nodeInfo s) = ts.map (fun t => some ⟨t.1, some t.2⟩) →
    (∀ t ∈ ts, t.1 ≠ .unconf) →
    (∀ c ∈ c0 :: cs, c ∉ s.used) → (c0 :: cs).Nodup → ts.head? = some t0 → ts.getLast? = some tl →
    ((∀ j a b, ts[j]? = some a → ts[j + 1]? = some b → a.2.2 = b.2.1) →
      leads (.pipeSerial inst (c0 :: cs)) s
        (done { s with
          pipe := s.pipe.set inst.toNat (.conf ⟨.serial, c0 :: cs, t0.2.1, tl.2.2⟩)
          used := s.used ++ (c0 :: cs) } .none)) ∧
    ((∃ j a b, ts[j]? = some a ∧ ts[j + 1]? = some b ∧ a.2.2 ≠ b.2.1) →
      leads (.pipeSerial inst (c0 :: cs)) s (rejected s (.contract .typeMismatch)))

/-- Rule R145: PIPE.PARALLEL builds the composite when every child has the same input type, with the
declared output type and merge function, and is a TYPE_MISMATCH otherwise. -/
def Obligations.ParallelBuilds : Prop :=
  ∀ (s : State) (inst : Inst) (c0 : Nid) (cs : List Nid) (ts : List (Phase × Tag × Tag))
    (t0 : Phase × Tag × Tag) (f : MergeFn) (t : Tag),
    s.pipe[inst.toNat]? = some .unconf →
    (c0 :: cs).map (nodeInfo s) = ts.map (fun t => some ⟨t.1, some t.2⟩) →
    (∀ t ∈ ts, t.1 ≠ .unconf) →
    (∀ c ∈ c0 :: cs, c ∉ s.used) → (c0 :: cs).Nodup → ts.head? = some t0 →
    ((∀ u ∈ ts, u.2.1 = t0.2.1) →
      leads (.pipeParallel inst (c0 :: cs) f t) s
        (done { s with
          pipe := s.pipe.set inst.toNat (.conf ⟨.parallel f, c0 :: cs, t0.2.1, t⟩)
          used := s.used ++ (c0 :: cs) } .none)) ∧
    ((∃ u ∈ ts, u.2.1 ≠ t0.2.1) →
      leads (.pipeParallel inst (c0 :: cs) f t) s (rejected s (.contract .typeMismatch)))

/-- Rules R146, R148, R150: PIPE.INIT of a serial composite of leaves that keep the rate, and of a
parallel one whose branches agree, completes: the composite and every child go to RUN, its two rates
are the operand, the children's registers are those of their own INIT with that rate (rules R161,
R201), and no node that is not in the tree changes. After a child that returns another rate, here the
node of 95_test_vectors.md that halves it, the next child is initialised with the rate returned
(V-PIPE-4).
The third part says it of any node of the block that no composite owns and of any tree below it: GZ,
FIR, BQ, MA, BS, external nodes and composites. The fourth part: where the INIT of a node of the tree
raises, such as BAD_BAND of a FIR, or branches disagree, the operation raises the same and no register
of any node changes (rule R358). In both parts a leaf that is no child does at the command port what it
does in a tree (rule R142).
What is kept of an external node's rates (`initialised`) is the model's choice (log entry 18), and so
is which of the branches' rates are compared (log entry 40). A strict comparison, here
of the edges of a band, is the model's reading of `le` and `eq` of `NUM` (log entry 42). -/
def Obligations.PipeInitRunsTree : Prop :=
  (∀ (s : State) (inst : Inst) (rate : B32) (p : Pipe) (c : PipeCfg),
    s.pipe[inst.toNat]? = some p → (p = .conf c ∨ ∃ r, p = .run c r) → nidOf 0 inst ∉ s.used →
    (∀ n ∈ c.child, isRealLeaf n = true ∧ leafReady s n = true) →
    s.num.pos (s.num.ofB32 rate) = true →
    let M := s.num
    let x := M.ofB32 rate
    (c.kind = .serial ∨ (∃ f, c.kind = .parallel f) ∧ c.child ≠ [] ∧ M.eq x x = true) →
    ∃ t, leads (.pipeInit inst rate) s t ∧ t.out = ⟨.ok, .rate x, [], []⟩ ∧
      t.pipe = s.pipe.set inst.toNat (.run c ⟨x, x, fresh false⟩) ∧
      (∀ n ∈ c.child, leafRuns t n = true) ∧
      (∀ (i : Inst) (g : GzCfg), nidOf 1 i ∈ c.child →
        (s.gz[i.toNat]? = some (.conf g) ∨ ∃ r, s.gz[i.toNat]? = some (.run g r)) →
        t.gz[i.toNat]? = some (.run g (gzReg M g x))) ∧
      (∀ (i : Inst) (m : MaCfg), nidOf 4 i ∈ c.child →
        (s.ma[i.toNat]? = some (.conf m) ∨ ∃ r, s.ma[i.toNat]? = some (.run m r)) →
        t.ma[i.toNat]? = some (.run m ⟨List.replicate m.n M.zero, 0, M.zero, 0, fresh false⟩)) ∧
      (∀ i : Inst, nidOf 1 i ∉ c.child → t.gz[i.toNat]? = s.gz[i.toNat]?) ∧
      (∀ i : Inst, nidOf 4 i ∉ c.child → t.ma[i.toNat]? = s.ma[i.toNat]?) ∧
      t.fir = s.fir ∧ t.bq = s.bq ∧ t.bs = s.bs ∧ t.bch = s.bch ∧ t.hd = s.hd ∧ t.pg = s.pg ∧
      t.ext = s.ext ∧ t.used = s.used ∧ t.outq = s.outq ∧ t.locks = s.locks ∧ t.par = s.par ∧
      t.pending = s.pending ∧ t.freeIx = s.freeIx) ∧
  (∀ (s : State) (inst i : Inst) (rate : B32) (p : Pipe) (ts : Tag × Tag) (e : Ext) (u : Gz)
    (g : GzCfg),
    let c : PipeCfg := ⟨.serial, [e.nid, nidOf 1 i], ts.1, ts.2⟩
    s.pipe[inst.toNat]? = some p → (p = .conf c ∨ ∃ r, p = .run c r) → nidOf 0 inst ∉ s.used →
    findExt s e.nid = some e → nidUnit e.nid = 10 → e.ph ≠ .unconf → e.behav = .dec2 →
    s.gz[i.toNat]? = some u → (u = .conf g ∨ ∃ r, u = .run g r) →
    let M := s.num
    let x := M.ofB32 rate
    let h := M.div x (M.lit 2 1)
    M.pos x = true → M.pos h = true →
    leads (.pipeInit inst rate) s
      (done { s with
        ext := s.ext.map fun n => if n.nid = e.nid then initialised M e x h 0 else n
        gz := s.gz.set i.toNat (.run g (gzReg M g h))
        pipe := s.pipe.set inst.toNat (.run c ⟨x, h, fresh false⟩) } (.rate h))) ∧
  (∀ (s t : State) (n : Nid) (rate : B32) (i : Instr) (y : RealVal),
    s.forest = true → n ∉ s.used → initOf n rate = some i → Inits s n (s.num.ofB32 rate) y t →
    leads i s (done t (.rate y))) ∧
  (∀ (s : State) (n : Nid) (rate : B32) (i : Instr) (e : Status),
    s.forest = true → n ∉ s.used → initOf n rate = some i → InitFails s n (s.num.ofB32 rate) e →
    leads i s (rejected s e))

/-- Rule R148: the branches of a parallel composite must agree on the rate. Of branches that return
the rate they are given, GZ and MA leaves, and one that halves it, the node of 95_test_vectors.md, the
first one's rate differs from a later one's: PIPE.INIT is a RATE_MISMATCH, in CONF and in RUN, and
nothing changes (rules R150, R358). That the first rate is compared with each later one is the model's
choice (log entry 40). -/
def Obligations.RateMismatchRejected : Prop :=
  ∀ (s : State) (inst : Inst) (rate : B32) (p : Pipe) (f : MergeFn) (ts : Tag × Tag) (e : Ext)
    (c0 : Nid) (cs : List Nid),
    let c : PipeCfg := ⟨.parallel f, c0 :: cs, ts.1, ts.2⟩
    s.pipe[inst.toNat]? = some p → (p = .conf c ∨ ∃ r, p = .run c r) → nidOf 0 inst ∉ s.used →
    findExt s e.nid = some e → nidUnit e.nid = 10 → e.ph ≠ .unconf → e.behav = .dec2 →
    (∀ n ∈ c0 :: cs, n = e.nid ∨ isRealLeaf n = true ∧ leafReady s n = true) →
    let x := s.num.ofB32 rate
    let h := s.num.div x (s.num.lit 2 1)
    s.num.pos x = true →
    (c0 = e.nid ∧ (∃ n ∈ cs, n ≠ e.nid) ∧ s.num.eq h x = false ∨
      c0 ≠ e.nid ∧ e.nid ∈ cs ∧ s.num.eq x h = false) →
    leads (.pipeInit inst rate) s (rejected s (.config .rateMismatch))

/-- Rules R142, R147, R149, R151: PIPE.STEP of a tree of leaves and composites in RUN completes: in a
serial composite the first child is stepped with the operand and each later one with what the child
before it produced, a `None` ending the evaluation, and the result is what the last one produced; in a
parallel one every child is stepped with the operand, and the result is MERGE of what they produced,
or `None`. The events a BS child raises and the bits it delivers are those of the PIPE.STEP. Each leaf
of the tree makes its own STEP: a leaf outside the tree makes the same one at the command port (rule
R142).
The first part says it of two moving averages; the second of any node of the block that no composite
owns, and of any tree below it. That the value of a PIPE.STEP has the composite's type is the model's
choice (log entry 10), and so are the names of the merge functions (log entry 17) and which samples open
the outputs of the leaves and composites of the tree (log entries 12 and 13). -/
def Obligations.PipeStepSerial : Prop :=
  (∀ (s : State) (inst i j : Inst) (x : B32) (ot : Tag) (r : PipeReg) (ci cj : MaCfg)
    (ri rj : MaReg),
    s.pipe[inst.toNat]? = some (.run ⟨.serial, [nidOf 4 i, nidOf 4 j], .real, ot⟩ r) →
    nidOf 0 inst ∉ s.used → i ≠ j →
    s.ma[i.toNat]? = some (.run ci ri) → s.ma[j.toNat]? = some (.run cj rj) →
    let M := s.num
    let q := realContract M (M.ofB32 x)
    let a := maTick M ci ri (M.ofB32 x) (r.standing.source.and q)
    let y := maOutput M ci a
    let b := maTick M cj rj y (r.standing.source.and q)
    let h := r.standing.after q false true
    a.standing.anyOut = false → b.standing.anyOut = false → h.anyOut = false →
    leads (.pipeStep inst (.real x)) s
      (done (withStanding inst ⟨.serial, [nidOf 4 i, nidOf 4 j], .real, ot⟩ r h
          { s with ma := (s.ma.set i.toNat (.run ci a)).set j.toNat (.run cj b) })
        (.sample (some (.real (maOutput M cj b)))))) ∧
  ∀ (s : State) (n : Nid) (v : PortSample) (i : Instr) (o : Tick),
    s.forest = true → n ∉ s.used → (∀ d, Below s n d → phaseIs (· == .run) s d = true) →
    stepOf n v = some i → operandTyped s i = true →
    Steps (sampleContract s.num (sampleOf s.num v)) s n (sampleOf s.num v) o →
    leads i s { o.st with out := ⟨.ok, .sample o.out, o.evs, o.bits⟩ }

/-- Rules R147, R149, R151: a child that returns `None` ends the evaluation of a serial composite:
the child after it is not stepped and does not change. A parallel split steps every branch although
an earlier one returned `None`, and then returns `None`; where every branch returns a value it returns
MERGE of them in child order (rule R145). The decimating node is the one of 95_test_vectors.md.
Where that node breaks the node contract, because it answers with a value of another type than its
declared one or has returned another rate on a second INIT with the same rate
(93_implementation_defined.md U2, rules R140, R141, R406), the tick ends: the nodes stepped before it
have advanced, the ones after it have not, and the result is any value, in either kind of composite.
The names of the merge functions are the model's choice (log entry 17); so are that the rates of all
INITs of a node are kept, that the value of a PIPE.STEP has the composite's type (log entry 18), and which
samples open the outputs of MA and of the composite (log entries 12 and 13). -/
def Obligations.NoneInComposites : Prop :=
  ∀ (s : State) (inst i j : Inst) (x : B32) (kind : PipeKind) (before : Bool) (ot : Tag) (r : PipeReg)
    (e : Ext) (m : MaCfg) (q : MaReg),
    let c : PipeCfg :=
      ⟨kind, if before then [nidOf 4 j, e.nid, nidOf 4 i] else [e.nid, nidOf 4 i], .real, ot⟩
    s.pipe[inst.toNat]? = some (.run c r) →
    nidOf 0 inst ∉ s.used → findExt s e.nid = some e → nidUnit e.nid = 10 → e.ph = .run →
    e.inT = .real → (e.behav = .dec2 ∨ e.behav = .dec2SameRate) →
    s.ma[i.toNat]? = some (.run m q) →
    let M := s.num
    let a := M.ofB32 x
    let ext := s.ext.map fun n => if n.nid = e.nid then { e with st := e.st + 1 } else n
    let d := realContract M a
    let h (rounded : Bool) := r.standing.after d rounded true
    let q' := maTick M m q a (r.standing.source.and d)
    let y := maOutput M m q'
    let at' (rounded : Bool) := withStanding inst c r (h rounded)
    let both := { s with ext := ext, ma := s.ma.set i.toNat (.run m q') }
    let broken := e.rateBroken = true ∨ (e.st % 2 = 1 ∧ e.outT ≠ .real)
    (before = false → ¬ broken →
      (kind = .serial → e.st % 2 = 0 →
        leads (.pipeStep inst (.real x)) s
          (done (at' false { s with ext := ext }) (.sample none))) ∧
      (∀ f, kind = .parallel f → q'.standing.anyOut = false → e.st % 2 = 0 →
        leads (.pipeStep inst (.real x)) s (done (at' false both) (.sample none))) ∧
      (∀ f, kind = .parallel f → q'.standing.anyOut = false → e.st % 2 = 1 →
        let rounded :=
          match f, ot with
          | .sum, .real => M.rounds (.add a y)
          | .difference, .real => M.rounds (.sub a y)
          | _, _ => false
        let w : Sample :=
          match f, ot with
          | .sum, .real => .real (M.add a y)
          | .difference, .real => .real (M.sub a y)
          | .other k, t => (Config.merge (k + 1) [.real a, .real y]).sample t
          | _, t => (Config.merge 0 [.real a, .real y]).sample t
        (h rounded).anyOut = false →
        leads (.pipeStep inst (.real x)) s (done (at' rounded both) (.sample (some w))))) ∧
    (before = false → broken → ∃ v k, typed ot v ∧
      leads (.pipeStep inst (.real x)) s
        (done (at' false { s with ext := ext, freeIx := k }) (.sample v))) ∧
    (∀ m0 q0, before = true → broken → s.ma[j.toNat]? = some (.run m0 q0) →
      let p := maTick M m0 q0 a (r.standing.source.and d)
      p.standing.anyOut = false → ∃ v k, typed ot v ∧
      leads (.pipeStep inst (.real x)) s
        (done (at' false { s with ext := ext, ma := s.ma.set j.toNat (.run m0 p), freeIx := k })
          (.sample v)))

/-! ### GZ -/

/-- Rules R160, R200: GZ.CONFIG and MA.CONFIG, and their BAD_WINDOW_SIZE. -/
def Obligations.WindowSizes : Prop :=
  ∀ (s : State) (inst : Inst) (n : I32) (f : B32),
    (inst.toNat < s.gz.length →
      (1 ≤ n.toInt → leads (.gzConfig inst n f) s
        (done { s with gz := s.gz.set inst.toNat (.conf ⟨n.toInt.toNat, s.num.ofB32 f⟩) } .none)) ∧
      (n.toInt < 1 → leads (.gzConfig inst n f) s (rejected s (.config .badWindowSize)))) ∧
    (inst.toNat < s.ma.length →
      (1 ≤ n.toInt → leads (.maConfig inst n) s
        (done { s with ma := s.ma.set inst.toNat (.conf ⟨n.toInt.toNat⟩) } .none)) ∧
      (n.toInt < 1 → leads (.maConfig inst n) s (rejected s (.config .badWindowSize))))

/-- Rules R13, R14, R161: GZ.INIT in CONF and in RUN. A strict
comparison is the model's reading of `le` and `eq` of `NUM` (log entry 42). -/
def Obligations.GzInit : Prop :=
  ∀ (s : State) (inst : Inst) (rate : B32) (g : Gz) (c : GzCfg),
    s.gz[inst.toNat]? = some g → (g = .conf c ∨ ∃ r, g = .run c r) → nidOf 1 inst ∉ s.used →
    let M := s.num
    let x := M.ofB32 rate
    let nyq := M.div x (M.lit 2 1)
    let fc := if M.lt c.f M.zero then M.zero else if M.lt nyq c.f then nyq else c.f
    let k := (M.floor (M.add (M.div (M.mul fc (M.lit c.n 1)) x) (M.lit 1 2))).toNat
    let w := M.div (M.mul (M.lit 2 1) M.pi) (M.lit c.n 1)
    (M.pos x = true → leads (.gzInit inst rate) s
      (done { s with gz := s.gz.set inst.toNat (.run c
        { rate := x, k := k, coeff := M.mul (M.lit 2 1) (M.cos (M.mul w (M.lit k 1))),
          ring := List.replicate c.n M.zero, wp := 0, standing := fresh (!M.exact) }) }
      (.rate x))) ∧
    (M.pos x = false → leads (.gzInit inst rate) s (rejected s (.config .badArgument)))

/-- Rules R71, R162: GZ.STEP inserts the sample, and answers with the magnitude that the recurrence
over the last N samples, oldest first, leaves. Where a sample since the last INIT was not a number, or was
outside `[-1, 1]` and `NUM` is not exact (93_implementation_defined.md U3, rules R103, R406), the operation
completes and its output is any value.
Which samples open the outputs is the model's reading (log entries 12, 13 and 41). -/
def Obligations.GzStep : Prop :=
  ∀ (s : State) (inst : Inst) (x : B32) (c : GzCfg) (r : GzReg),
    s.gz[inst.toNat]? = some (.run c r) → nidOf 1 inst ∉ s.used →
    r.ring.length = c.n → r.wp < c.n →
    let M := s.num
    let v := M.ofB32 x
    let ring := r.ring.set r.wp v
    let wp := (r.wp + 1) % c.n
    let scan := (List.range c.n).reverse.foldl
      (fun (v : RealVal × RealVal) (a : Nat) =>
        (M.add (M.sub (M.mul r.coeff v.1) v.2) (ringAt ring ((wp : Int) - 1 - (a : Int)) M.zero), v.1))
      (M.zero, M.zero)
    let y := M.sqrt (M.sub (M.add (M.mul scan.2 scan.2) (M.mul scan.1 scan.1))
      (M.mul (M.mul r.coeff scan.1) scan.2))
    let u : Gz := .run c
      { r with
        ring := ring, wp := wp
        standing := r.standing.after (realContract M v) (!M.exact) (M.fin v) }
    let free := opened r.standing (M.fin v) (M.inRange v) (!M.exact)
    (¬ free →
      leads (.gzStep inst x) s
        (done { s with gz := s.gz.set inst.toNat u } (.sample (some (.real y))))) ∧
    (free →
      ∃ z k, leads (.gzStep inst x) s
        (done { s with gz := s.gz.set inst.toNat u, freeIx := k } (.sample (some (.real z)))))

/-! ### FIR -/

/-- Rule R170: the checks in the order written, and the registers. A strict
comparison is the model's reading of `le` and `eq` of `NUM` (log entry 42). -/
def Obligations.FirConfig : Prop :=
  ∀ (s : State) (inst : Inst) (window t : I32) (f1 f2 beta : B32) (cx : I32),
    inst.toNat < s.fir.length →
    let M := s.num
    let op := Instr.firConfig inst window t f1 f2 beta cx
    let windows : List Window := [.rect, .hamming, .hann, .blackman, .kaiser]
    (¬ (0 ≤ window.toInt ∧ window.toInt ≤ 4) → leads op s (rejected s (.config .badEnum))) ∧
    (0 ≤ window.toInt ∧ window.toInt ≤ 4 → t.toInt ≤ 0 →
      leads op s (rejected s (.config .badTapCount))) ∧
    (0 ≤ window.toInt ∧ window.toInt ≤ 4 → 0 < t.toInt → M.lt (M.ofB32 beta) M.zero = true →
      leads op s (rejected s (.config .badArgument))) ∧
    (0 ≤ window.toInt ∧ window.toInt ≤ 4 → 0 < t.toInt → M.lt (M.ofB32 beta) M.zero = false →
      ¬ (0 ≤ cx.toInt ∧ cx.toInt ≤ 1) → leads op s (rejected s (.config .badEnum))) ∧
    (0 ≤ window.toInt ∧ window.toInt ≤ 4 → 0 < t.toInt → M.lt (M.ofB32 beta) M.zero = false →
      0 ≤ cx.toInt ∧ cx.toInt ≤ 1 →
      ∃ w, windows[window.toInt.toNat]? = some w ∧ leads op s
        (done { s with fir := s.fir.set inst.toNat (.conf
          ⟨w, t.toInt.toNat, M.ofB32 f1, M.ofB32 f2, M.ofB32 beta, cx.toInt == 1⟩) } .none))

/-- Rules R14, R171, R172: FIR.INIT in CONF and in RUN. The taps are those of rule R173 for the
clamped band edges. A strict
comparison is the model's reading of `le` and `eq` of `NUM` (log entry 42). -/
def Obligations.FirInit : Prop :=
  ∀ (s : State) (inst : Inst) (rate : B32) (u : Fir) (c : FirCfg),
    s.fir[inst.toNat]? = some u → (u = .conf c ∨ ∃ r, u = .run c r) → nidOf 2 inst ∉ s.used →
    let M := s.num
    let x := M.ofB32 rate
    let nyq := M.div x (M.lit 2 1)
    let clamp (f : RealVal) := if M.lt f M.zero then M.zero else if M.lt nyq f then nyq else f
    let te := if c.t % 2 = 1 then c.t else c.t - 1
    (M.pos x = false → leads (.firInit inst rate) s (rejected s (.config .badArgument))) ∧
    (M.pos x = true → M.lt (clamp c.fstop) (clamp c.fstart) = true →
      leads (.firInit inst rate) s (rejected s (.config .badBand))) ∧
    (M.pos x = true → M.lt (clamp c.fstop) (clamp c.fstart) = false →
      leads (.firInit inst rate) s
        (done { s with fir := s.fir.set inst.toNat (.run c
          { te := te, rate := x,
            taps := (List.range te).map
              (firTap M s.par.tone c x (clamp c.fstart) (clamp c.fstop) te),
            ring := if c.cx then .cplx (List.replicate te ⟨M.zero, M.zero⟩)
              else .real (List.replicate te M.zero),
            wp := 0, standing := fresh (!M.exact) }) } (.rate x)))

/-- Rules R173, R174, R178: the five window functions, 1 for a single tap; the band taps, and the
single-tone taps as `FIR_TONE`; `sinc(0) = 1`. The square of the KAISER row is a product, `FIR_TONE` is given
the values of the window, `d` and `M` are computed as integers before they become `Real`, and `2*n` of the
KAISER row is a product in `NUM`: the model's choices (log entries 8, 16 and 44). -/
def Obligations.FirTapFormula : Prop :=
  ∀ (M : Numerics) (tone : ToneSel) (c : FirCfg) (rate f1 f2 : RealVal) (te n : Nat),
    let one := M.lit 1 1
    let two := M.lit 2 1
    let window (n : Nat) : RealVal :=
      let m := M.lit ((te - 1 : Nat) : Int) 1
      let nR := M.lit (n : Int) 1
      let c1 := M.cos (M.div (M.mul (M.mul two M.pi) nR) m)
      let c2 := M.cos (M.div (M.mul (M.mul (M.lit 4 1) M.pi) nR) m)
      let u := M.sub (M.div (M.mul two nR) m) one
      if te = 1 then one
      else
        match c.window with
        | .rect => one
        | .hamming => M.sub (M.lit 54 100) (M.mul (M.lit 46 100) c1)
        | .hann => M.sub (M.lit 1 2) (M.mul (M.lit 1 2) c1)
        | .blackman =>
          M.add (M.sub (M.lit 42 100) (M.mul (M.lit 1 2) c1)) (M.mul (M.lit 8 100) c2)
        | .kaiser =>
          M.div (M.besselI0 (M.mul c.beta (M.sqrt (M.sub one (M.mul u u))))) (M.besselI0 c.beta)
    let d := M.lit ((n : Int) - ((te - 1) / 2 : Nat)) 1
    let a := M.div f1 rate
    let b := M.div f2 rate
    let sinc (x : RealVal) :=
      if M.eq x M.zero then one else M.div (M.sin (M.mul M.pi x)) (M.mul M.pi x)
    win M c.window c.beta te n = window n ∧
    firTap M tone c rate f1 f2 te n =
      if M.eq f1 f2 then firToneTap M tone n te a ((List.range te).map window)
      else
        M.mul (window n)
          (M.sub (M.mul (M.mul two b) (sinc (M.mul (M.mul two b) d)))
            (M.mul (M.mul two a) (sinc (M.mul (M.mul two a) d))))

/-- Rule R175: FIR.STEP of a real filter: tap `i` times the sample of age `i`, from `i = 0`. Where a
sample or a sum since the last INIT was not a number (93_implementation_defined.md U3, U5), or a sample was
outside `[-1, 1]` and an operation was rounded (U3, rules R103, R406), the operation completes and its
output is any value.
Which samples open the outputs is the model's reading (log entries 12 and 13). -/
def Obligations.FirStep : Prop :=
  ∀ (s : State) (inst : Inst) (x : B32) (c : FirCfg) (r : FirReg) (l : List RealVal),
    s.fir[inst.toNat]? = some (.run c r) → nidOf 2 inst ∉ s.used → c.cx = false → r.ring = .real l →
    l.length = r.te → r.wp < r.te →
    let M := s.num
    let v := M.ofB32 x
    let ring := l.set r.wp v
    let wp := (r.wp + 1) % r.te
    let tap (i : Nat) := r.taps.getD i M.zero
    let old (i : Nat) := ringAt ring ((wp : Int) - 1 - (i : Int)) M.zero
    let sum (n : Nat) := (List.range n).foldl (fun y i => M.add y (M.mul (tap i) (old i))) M.zero
    let y := sum r.te
    let rounded := (List.range r.te).any fun i =>
      M.rounds (.mul (tap i) (old i)) || M.rounds (.add (sum i) (M.mul (tap i) (old i)))
    let u : Fir := .run c
      { r with
        ring := .real ring, wp := wp
        standing := r.standing.after (realContract M v) rounded (M.fin v && M.fin y) }
    let free := opened r.standing (M.fin v && M.fin y) (M.inRange v) rounded
    (¬ free →
      leads (.firStep inst x) s
        (done { s with fir := s.fir.set inst.toNat u } (.sample (some (.real y))))) ∧
    (free →
      ∃ z k, leads (.firStep inst x) s
        (done { s with fir := s.fir.set inst.toNat u, freeIx := k } (.sample (some (.real z)))))

/-- Rule R176: FIRC.STEP of a complex filter, real taps on complex samples. Its output is any value where
that of rule R175 is (93_implementation_defined.md U3, U5, rules R103, R406), of the parts of the samples
and of the sums.
Which samples open the outputs is the model's reading (log entries 12 and 13). -/
def Obligations.FircStep : Prop :=
  ∀ (s : State) (inst : Inst) (re im : B32) (c : FirCfg) (r : FirReg) (l : List Cplx),
    s.fir[inst.toNat]? = some (.run c r) → nidOf 2 inst ∉ s.used → c.cx = true → r.ring = .cplx l →
    l.length = r.te → r.wp < r.te →
    let M := s.num
    let z : Cplx := ⟨M.ofB32 re, M.ofB32 im⟩
    let ring := l.set r.wp z
    let wp := (r.wp + 1) % r.te
    let o : Cplx := ⟨M.zero, M.zero⟩
    let tap (i : Nat) := r.taps.getD i M.zero
    let old (i : Nat) := ringAt ring ((wp : Int) - 1 - (i : Int)) o
    let sum (n : Nat) := (List.range n).foldl
      (fun (y : Cplx) i =>
        ⟨M.add y.re (M.mul (tap i) (old i).re), M.add y.im (M.mul (tap i) (old i).im)⟩) o
    let y := sum r.te
    let rounded (part : Cplx → RealVal) := (List.range r.te).any fun i =>
      M.rounds (.mul (tap i) (part (old i))) ||
        M.rounds (.add (part (sum i)) (M.mul (tap i) (part (old i))))
    let numbers := M.finC z && M.finC y
    let any := rounded Cplx.re || rounded Cplx.im
    let u : Fir := .run c
      { r with
        ring := .cplx ring, wp := wp, standing := r.standing.after (cplxContract M z) any numbers }
    let free := opened r.standing numbers (M.inRange z.re && M.inRange z.im) any
    (¬ free →
      leads (.fircStep inst re im) s
        (done { s with fir := s.fir.set inst.toNat u } (.sample (some (.cplx y))))) ∧
    (free →
      ∃ v k, leads (.fircStep inst re im) s
        (done { s with fir := s.fir.set inst.toNat u, freeIx := k } (.sample (some (.cplx v)))))

/-- Rules R175, R176, R189, R190: a real step of a unit in RUN that is configured complex, or the
reverse, is a TYPE_MISMATCH. PIPE.STEP of a constructed composite with a sample of another type than
its input type is a BAD_COMMAND (rule R107), of an owned composite too and in any phase; that this is
another shape of the operand, and not a TYPE_MISMATCH, is the model's choice (log entry 10). -/
def Obligations.WrongSampleType : Prop :=
  (∀ (s : State) (inst : Inst) (x y : B32) (cf : FirCfg) (rf : FirReg) (cb : BqCfg) (rb : BqReg),
    (s.fir[inst.toNat]? = some (.run cf rf) → nidOf 2 inst ∉ s.used →
      (cf.cx = true → leads (.firStep inst x) s (rejected s (.contract .typeMismatch))) ∧
      (cf.cx = false → leads (.fircStep inst x y) s (rejected s (.contract .typeMismatch)))) ∧
    (s.bq[inst.toNat]? = some (.run cb rb) → nidOf 3 inst ∉ s.used →
      (cb.cx = true → leads (.bqStep inst x) s (rejected s (.contract .typeMismatch))) ∧
      (cb.cx = false → leads (.bqcStep inst x y) s (rejected s (.contract .typeMismatch))))) ∧
  ∀ (s : State) (inst : Inst) (v : PortSample) (c : PipeCfg),
    isConfigured s.pipe[inst.toNat]? c → portTag v ≠ c.inT →
    leads (.pipeStep inst v) s (rejected s (.contract .badCommand))

/-- Rule R177: FIR.SET_TAPS, also on an owned filter: in CONF only T changes; in RUN the taps are
computed anew with the rate of the last INIT and the history is discarded; 0 is a BAD_TAP_COUNT. What the
record `standing` becomes is the model's (log entries 12, 13 and 41). A strict
comparison is the model's reading of `le` and `eq` of `NUM` (log entry 42). -/
def Obligations.FirSetTaps : Prop :=
  ∀ (s : State) (inst : Inst) (t : Nat) (c : FirCfg) (r : FirReg),
    let M := s.num
    let nyq := M.div r.rate (M.lit 2 1)
    let clamp (f : RealVal) := if M.lt f M.zero then M.zero else if M.lt nyq f then nyq else f
    let te := if t % 2 = 1 then t else t - 1
    (s.fir[inst.toNat]? = some (.conf c) → t ≠ 0 →
      leads (.firSetTaps inst t) s
        (done { s with fir := s.fir.set inst.toNat (.conf { c with t := t }) } .none)) ∧
    (s.fir[inst.toNat]? = some (.run c r) → t ≠ 0 →
      leads (.firSetTaps inst t) s
        (done { s with fir := s.fir.set inst.toNat (.run { c with t := t }
          { r with
            te := te
            taps := (List.range te).map (firTap M s.par.tone { c with t := t } r.rate
              (clamp c.fstart) (clamp c.fstop) te)
            ring := if c.cx then .cplx (List.replicate te ⟨M.zero, M.zero⟩)
              else .real (List.replicate te M.zero)
            wp := 0
            standing := { r.standing with rounded := r.standing.rounded || !M.exact } }) } .none)) ∧
    (s.fir[inst.toNat]? = some (.conf c) ∨ s.fir[inst.toNat]? = some (.run c r) →
      leads (.firSetTaps inst 0) s (rejected s (.config .badTapCount)))

/-! ### BQ -/

/-- Rule R185: the checks in the order written, and the registers. A strict
comparison is the model's reading of `le` and `eq` of `NUM` (log entry 42). -/
def Obligations.BqConfig : Prop :=
  ∀ (s : State) (inst : Inst) (type : I32) (f0 q gain : B32) (cx : I32),
    inst.toNat < s.bq.length →
    let M := s.num
    let op := Instr.bqConfig inst type f0 q gain cx
    let types : List BqType :=
      [.lowpass, .highpass, .bandpassSkirt, .bandpassPeak, .notch, .lowshelf, .highshelf]
    (¬ (0 ≤ type.toInt ∧ type.toInt ≤ 6) → leads op s (rejected s (.config .badEnum))) ∧
    (0 ≤ type.toInt ∧ type.toInt ≤ 6 → M.pos (M.ofB32 q) = false →
      leads op s (rejected s (.config .badArgument))) ∧
    (0 ≤ type.toInt ∧ type.toInt ≤ 6 → M.pos (M.ofB32 q) = true →
      ¬ (0 ≤ cx.toInt ∧ cx.toInt ≤ 1) → leads op s (rejected s (.config .badEnum))) ∧
    (0 ≤ type.toInt ∧ type.toInt ≤ 6 → M.pos (M.ofB32 q) = true → 0 ≤ cx.toInt ∧ cx.toInt ≤ 1 →
      ∃ w, types[type.toInt.toNat]? = some w ∧ leads op s
        (done { s with bq := s.bq.set inst.toNat (.conf
          ⟨w, M.ofB32 f0, M.ofB32 q, M.ofB32 gain, cx.toInt == 1⟩) } .none))

/-- Rules R14, R186, R187: BQ.INIT in CONF and in RUN: the six values of rule R188 for the clamped
frequency, divided by `a0`, and the delay registers cleared. A strict
comparison is the model's reading of `le` and `eq` of `NUM` (log entry 42). -/
def Obligations.BqInit : Prop :=
  ∀ (s : State) (inst : Inst) (rate : B32) (u : Bq) (c : BqCfg),
    s.bq[inst.toNat]? = some u → (u = .conf c ∨ ∃ r, u = .run c r) → nidOf 3 inst ∉ s.used →
    let M := s.num
    let x := M.ofB32 rate
    let nyq := M.div x (M.lit 2 1)
    let f0 := if M.lt c.f0 M.zero then M.zero else if M.lt nyq c.f0 then nyq else c.f0
    let k := cookbook M c.type f0 c.q c.gainDb x
    let o : Cplx := ⟨M.zero, M.zero⟩
    (M.pos x = false → leads (.bqInit inst rate) s (rejected s (.config .badArgument))) ∧
    (M.pos x = true → leads (.bqInit inst rate) s
      (done { s with bq := s.bq.set inst.toNat (.run c
        { rate := x,
          co := ⟨M.div k.b0 k.a0, M.div k.b1 k.a0, M.div k.b2 k.a0, M.div k.a1 k.a0,
            M.div k.a2 k.a0⟩,
          mem := if c.cx then .cplx ⟨o, o, o, o⟩ else .real ⟨M.zero, M.zero, M.zero, M.zero⟩,
          standing := fresh (!M.exact) }) } (.rate x)))

/-- Rule R188: the cookbook's six values, row by row. A minus sign before a term is a subtraction from
0 (log entry 8). -/
def Obligations.BqCookbook : Prop :=
  ∀ (M : Numerics) (f0 q gain rate : RealVal),
    let one := M.lit 1 1
    let two := M.lit 2 1
    let w0 := M.div (M.mul (M.mul two M.pi) f0) rate
    let cs := M.cos w0
    let sn := M.sin w0
    let alpha := M.div sn (M.mul two q)
    let A := M.pow10 (M.div gain (M.lit 40 1))
    let sq := M.mul (M.mul two (M.sqrt A)) alpha
    let neg (x : RealVal) := M.sub M.zero x
    let cb (t : BqType) := cookbook M t f0 q gain rate
    let m2cs := M.mul (M.lit (-2) 1) cs
    let ap := M.add A one
    let am := M.sub A one
    let am_cs := M.mul am cs
    let ap_cs := M.mul ap cs
    cb .lowpass = ⟨M.div (M.sub one cs) two, M.sub one cs, M.div (M.sub one cs) two,
      M.add one alpha, m2cs, M.sub one alpha⟩ ∧
    cb .highpass = ⟨M.div (M.add one cs) two, neg (M.add one cs), M.div (M.add one cs) two,
      M.add one alpha, m2cs, M.sub one alpha⟩ ∧
    cb .bandpassSkirt = ⟨M.div sn two, M.zero, M.div (neg sn) two,
      M.add one alpha, m2cs, M.sub one alpha⟩ ∧
    cb .bandpassPeak = ⟨alpha, M.zero, neg alpha, M.add one alpha, m2cs, M.sub one alpha⟩ ∧
    cb .notch = ⟨one, m2cs, one, M.add one alpha, m2cs, M.sub one alpha⟩ ∧
    cb .lowshelf = ⟨M.mul A (M.add (M.sub ap am_cs) sq), M.mul (M.mul two A) (M.sub am ap_cs),
      M.mul A (M.sub (M.sub ap am_cs) sq), M.add (M.add ap am_cs) sq,
      M.mul (M.lit (-2) 1) (M.add am ap_cs), M.sub (M.add ap am_cs) sq⟩ ∧
    cb .highshelf = ⟨M.mul A (M.add (M.add ap am_cs) sq),
      M.mul (M.mul (M.lit (-2) 1) A) (M.add am ap_cs),
      M.mul A (M.sub (M.add ap am_cs) sq), M.add (M.sub ap am_cs) sq,
      M.mul two (M.sub am ap_cs), M.sub (M.sub ap am_cs) sq⟩

/-- Rules R189, R190: BQ.STEP and BQC.STEP: the direct-form-I sum from left to right, on the real and
on the imaginary parts alike, and the four delay registers shifted. Where a sample or a sum since the
last INIT was not a number (93_implementation_defined.md U3, U5), or a sample was outside `[-1, 1]` and
`NUM` is not exact (U3, rules R103, R406), the operation completes and its output is any value.
Which samples open the outputs is the model's reading (log entries 12, 13 and 41). -/
def Obligations.BqSteps : Prop :=
  ∀ (s : State) (inst : Inst) (a b : B32) (c : BqCfg) (r : BqReg),
    s.bq[inst.toNat]? = some (.run c r) → nidOf 3 inst ∉ s.used →
    let M := s.num
    let k := r.co
    let out (x x1 x2 y1 y2 : RealVal) := M.sub (M.sub (M.add (M.add (M.mul k.b0 x) (M.mul k.b1 x1))
      (M.mul k.b2 x2)) (M.mul k.a1 y1)) (M.mul k.a2 y2)
    let u (mem : BqMem) (q : Contract) (numbers : Bool) := s.bq.set inst.toNat (.run c
      { r with mem := mem, standing := r.standing.after q (!M.exact) numbers })
    (∀ d, c.cx = false → r.mem = .real d →
      let x := M.ofB32 a
      let y := out x d.x1 d.x2 d.y1 d.y2
      let numbers := M.fin x && M.fin y
      let bq := u (.real ⟨x, d.x1, y, d.y1⟩) (realContract M x) numbers
      let free := opened r.standing numbers (M.inRange x) (!M.exact)
      (¬ free →
        leads (.bqStep inst a) s (done { s with bq := bq } (.sample (some (.real y))))) ∧
      (free →
        ∃ v k, leads (.bqStep inst a) s
          (done { s with bq := bq, freeIx := k } (.sample (some (.real v)))))) ∧
    (∀ d, c.cx = true → r.mem = .cplx d →
      let z : Cplx := ⟨M.ofB32 a, M.ofB32 b⟩
      let y : Cplx := ⟨out z.re d.x1.re d.x2.re d.y1.re d.y2.re,
        out z.im d.x1.im d.x2.im d.y1.im d.y2.im⟩
      let numbers := M.finC z && M.finC y
      let bq := u (.cplx ⟨z, d.x1, y, d.y1⟩) (cplxContract M z) numbers
      let free := opened r.standing numbers (M.inRange z.re && M.inRange z.im) (!M.exact)
      (¬ free →
        leads (.bqcStep inst a b) s (done { s with bq := bq } (.sample (some (.cplx y))))) ∧
      (free →
        ∃ v k, leads (.bqcStep inst a b) s
          (done { s with bq := bq, freeIx := k } (.sample (some (.cplx v))))))

/-! ### MA -/

/-- Rule R201: MA.INIT in CONF and in RUN. -/
def Obligations.MaInit : Prop :=
  ∀ (s : State) (inst : Inst) (rate : B32) (u : Ma) (c : MaCfg),
    s.ma[inst.toNat]? = some u → (u = .conf c ∨ ∃ r, u = .run c r) → nidOf 4 inst ∉ s.used →
    let M := s.num
    (M.pos (M.ofB32 rate) = true → leads (.maInit inst rate) s
      (done { s with ma := s.ma.set inst.toNat (.run c
        { ring := List.replicate c.n M.zero, wp := 0, sum := M.zero, zrun := 0,
          standing := fresh false }) }
        (.rate (M.ofB32 rate)))) ∧
    (M.pos (M.ofB32 rate) = false →
      leads (.maInit inst rate) s (rejected s (.config .badArgument)))

/-- Rules R202, R203: MA.STEP: the evicted sample leaves the sum as the new one enters, N exact zeros
in a row make the sum exactly 0, and the answer is the sum divided by N. Where a sample or a sum
since the last INIT was not a number (93_implementation_defined.md U3, U5), or a sample was outside
`[-1, 1]` and an operation was rounded (U3, rules R103, R406), the operation completes and its output is
any value, while WP and ZRUN follow the rules.
Which samples open the outputs is the model's reading (log entries 12 and 13). -/
def Obligations.MaStep : Prop :=
  ∀ (s : State) (inst : Inst) (x : B32) (c : MaCfg) (r : MaReg),
    s.ma[inst.toNat]? = some (.run c r) → nidOf 4 inst ∉ s.used →
    r.ring.length = c.n → r.wp < c.n →
    let M := s.num
    let v := M.ofB32 x
    let evicted := r.ring.getD r.wp M.zero
    let zrun := if M.eq v M.zero then min (r.zrun + 1) c.n else 0
    let sum := if M.eq v M.zero ∧ c.n ≤ zrun then M.zero else M.add r.sum (M.sub v evicted)
    let n := M.lit c.n 1
    let rounded :=
      (!(M.eq v M.zero && decide (c.n ≤ zrun)) &&
        (M.rounds (.sub v evicted) || M.rounds (.add r.sum (M.sub v evicted)))) ||
      M.rounds (.lit c.n 1) || M.rounds (.div sum n)
    let numbers := M.fin v && M.fin sum
    let u : Ma := .run c
      { ring := r.ring.set r.wp v, wp := (r.wp + 1) % c.n, sum := sum, zrun := zrun,
        standing := r.standing.after (realContract M v) rounded numbers }
    let free := opened r.standing numbers (M.inRange v) rounded
    (¬ free →
      leads (.maStep inst x) s
        (done { s with ma := s.ma.set inst.toNat u } (.sample (some (.real (M.div sum n)))))) ∧
    (free →
      ∃ y k, leads (.maStep inst x) s
        (done { s with ma := s.ma.set inst.toNat u, freeIx := k } (.sample (some (.real y)))))

/-! ### BS -/

/-- Rule R210: the checks in the order written, and the registers. -/
def Obligations.BsConfig : Prop :=
  ∀ (s : State) (inst : Inst) (c : I32) (cand : List B32) (req cap : I32),
    inst.toNat < s.bs.length →
    let M := s.num
    let op := Instr.bsConfig inst c cand req cap
    let low := ∃ x ∈ cand, M.le (M.ofB32 x) M.zero = true
    (c.toInt < 1 → leads op s (rejected s (.config .emptyCandidates))) ∧
    (1 ≤ c.toInt → low → leads op s (rejected s (.config .badArgument))) ∧
    (1 ≤ c.toInt → ¬ low → req.toInt < 1 → leads op s (rejected s (.config .badArgument))) ∧
    (1 ≤ c.toInt → ¬ low → 1 ≤ req.toInt → cap.toInt < 1 →
      leads op s (rejected s (.config .badBufferWidth))) ∧
    (1 ≤ c.toInt → ¬ low → 1 ≤ req.toInt → 1 ≤ cap.toInt →
      leads op s (done { s with bs := s.bs.set inst.toNat (.conf
        ⟨c.toInt.toNat, cand.map M.ofB32, req.toInt.toNat, cap.toInt.toNat⟩) } .none))

/-- Rules R211, R212, R219: BS.INIT in CONF and in RUN, and BS.WAIT_FOR_SYNC, also on an owned
instance. Both clear the run-length state and the bit buffer; with one candidate BS is locked to it,
otherwise it searches.
The field `last` is the model's (log entry 29). -/
def Obligations.BsInitAndWait : Prop :=
  ∀ (s : State) (inst : Inst) (rate : B32) (u : Bs) (c : BsCfg) (r : BsReg),
    s.bs[inst.toNat]? = some u →
    let M := s.num
    let x := M.ofB32 rate
    let cleared (rate : RealVal) (spbc : List RealVal) : BsReg :=
      { rate := rate, spbc := spbc,
        spb := if c.c = 1 then spbc.getD 0 M.zero else M.zero,
        lidx := if c.c = 1 then .holds 0 else .unwritten,
        lvalid := false, level := .unwritten, run := 0, mvalid := false, midx := .unwritten,
        mcnt := 0, bitbuf := [], head := 0, count := 0, last := [] }
    ((u = .conf c ∨ u = .run c r) → nidOf 5 inst ∉ s.used → M.pos x = true →
      leads (.bsInit inst rate) s
        (done { s with bs := s.bs.set inst.toNat (.run c
          (cleared x (c.cand.map fun b => M.div x b))) } (.rate x))) ∧
    ((u = .conf c ∨ u = .run c r) → nidOf 5 inst ∉ s.used → M.pos x = false →
      leads (.bsInit inst rate) s (rejected s (.config .badArgument))) ∧
    (u = .run c r → leads (.bsWaitForSync inst) s
      (done { s with bs := s.bs.set inst.toNat (.run c (cleared r.rate r.spbc)) } .none))

/-- Rules R72, R213, R214, R217, R218: BS.STEP where no run ends, or one ends while BS is locked. The
bits of the run join the queue as far as it has room, each bit that has none is a BS_OVERFLOW, a run
of more than 512 bits is a NOISE; then the oldest bit leaves. The premise is the part of the
invariant `StepKeepsWellFormed` about this instance. `IND` after the tick, whatever the tick does, is
ERROR where it raised NOISE or BS_OVERFLOW, and else says whether BS is locked (rule R346).
The field `last` is the model's (log entry 29). -/
def Obligations.BsStep : Prop :=
  ∀ (s : State) (inst : Inst) (lv : Bool) (c : BsCfg) (r : BsReg),
    s.bs[inst.toNat]? = some (.run c r) → nidOf 5 inst ∉ s.used → r.wf c = true →
    let M := s.num
    let any := bsTick M c r lv
    (indBs M (.run c any.1) =
      if any.2.1.any bsError then .error
      else if M.eq any.1.spb M.zero then .syncing else .receiving) ∧
    let ended : Option Bool :=
      match r.lvalid, r.level with
      | true, .holds old => if lv = old then none else some old
      | _, _ => none
    ((ended = none ∨ M.eq r.spb M.zero = false) →
    let run := if r.lvalid = true ∧ ended = none then min (r.run + 1) (2 ^ 32 - 1) else 1
    let nb := M.round (M.div (M.ofNat r.run) r.spb)
    let room := c.cap - (queue c r).length
    let pushed := if nb ≤ 512 then ended.toList.flatMap (List.replicate nb) else []
    let evs : List Event :=
      if ended = none then []
      else if nb ≤ 512 then List.replicate (nb - room) .bsOverflow
      else [.noise r.run]
    let bits := queue c r ++ pushed.take room
    ∃ r', queue c r' = bits.tail ∧ r'.wf c = true ∧
      r' = { r with
        level := .holds lv, lvalid := true, run := run, last := evs,
        bitbuf := r'.bitbuf, head := if bits = [] then r.head else (r.head + 1) % c.cap,
        count := r'.count } ∧
      leads (.bsStep inst lv) s
        { s with
          bs := s.bs.set inst.toNat (.run c r')
          out := ⟨.ok, .sample (bits.head?.map .bool), evs.map fun e => ⟨inst, e⟩,
            bits.head?.toList.map fun b => ⟨inst, b⟩⟩ })

/-- Rules R215, R216: a run that ends while BS is unlocked, with no bit in the buffer. The least
candidate within 20 percent matches; `REQ` matches of one candidate in a row lock BS to it and raise
SYNC; a run that matches none starts the count again. No bit is buffered.
The absolute value in `near` is the model's choice, since `NUM` has none (log entry 8, with the strict
comparison of log entry 42). The field `last` is the model's (log entry 29). -/
def Obligations.BsSearch : Prop :=
  ∀ (s : State) (inst : Inst) (lv old : Bool) (c : BsCfg) (r : BsReg),
    s.bs[inst.toNat]? = some (.run c r) → nidOf 5 inst ∉ s.used →
    r.lvalid = true → r.level = .holds old → lv ≠ old → s.num.eq r.spb s.num.zero = true →
    r.count = 0 → r.spbc.length = c.c → c.cand.length = c.c →
    let M := s.num
    let spb (i : Nat) := r.spbc.getD i M.zero
    let near (i : Nat) := M.le (M.abs (M.sub (M.ofNat r.run) (spb i))) (M.mul (M.lit 2 10) (spb i))
    let r1 := { r with level := .holds lv, run := 1 }
    (∀ i, i < c.c → near i = true → (∀ j, j < i → near j = false) →
      let n := if r.mvalid = true ∧ r.midx = .holds i then min (r.mcnt + 1) (2 ^ 32 - 1) else 1
      (n < c.req → leads (.bsStep inst lv) s
        (done { s with bs := s.bs.set inst.toNat (.run c
          { r1 with mvalid := true, midx := .holds i, mcnt := n, last := [] }) } (.sample none))) ∧
      (c.req ≤ n →
        let e : Event := .sync (c.cand.getD i M.zero)
        leads (.bsStep inst lv) s
        { s with
          bs := s.bs.set inst.toNat (.run c
            { r1 with spb := spb i, lidx := .holds i, mvalid := false, midx := .holds i, mcnt := 0,
                      last := [e] })
          out := ⟨.ok, .sample none, [⟨inst, e⟩], []⟩ })) ∧
    ((∀ i, i < c.c → near i = false) → leads (.bsStep inst lv) s
      (done { s with bs := s.bs.set inst.toNat (.run c
        { r1 with mvalid := false, mcnt := 0, last := [] }) } (.sample none)))

/-! ### BCH -/

/-- Rules R230 to R233: BCH.CONFIG in either phase builds the tables when every check holds, and is a
BAD_CODE otherwise. `m` is the least M with `2^M >= N + 1`. -/
def Obligations.BchConfig : Prop :=
  ∀ (s : State) (inst : Inst) (g : Nat) (n k t : I32) (fp m : Nat), inst.toNat < s.bch.length →
    (∀ M : Nat, m ≤ M ↔ n.toInt + 1 ≤ 2 ^ M) →
    let fp' := if fp = 0 then defaults.getD m 0 else fp
    let exp := (List.range (2 ^ m - 1)).map (alphaPow m fp')
    let log := (List.range (2 ^ m - 1)).map fun v => exp.idxOf (v + 1)
    (validCode g n.toInt k.toInt t.toInt m fp' →
      leads (.bchConfig inst g n k t fp) s
        (done { s with bch := s.bch.set inst.toNat (.run
          ⟨g, n.toInt.toNat, k.toInt.toNat, t.toInt.toNat, fp', m, 2 ^ m - 1, exp, log⟩) } .none)) ∧
    (¬ validCode g n.toInt k.toInt t.toInt m fp' →
      leads (.bchConfig inst g n k t fp) s (rejected s (.config .badCode)))

/-- Rules R234 to R238: the results of the field operations of a configured instance, and their
BAD_OPERANDs. -/
def Obligations.GfResults : Prop :=
  ∀ (s : State) (inst : Inst) (c : BchCode) (a b e : Nat), s.bch[inst.toNat]? = some (.run c) →
    let exp (i : Nat) := c.exp.getD (i % c.q1) 0
    let log (v : Nat) := c.log.getD (v - 1) 0
    let bad := rejected s (.contract .badOperand)
    leads (.gfExp inst e) s (done s (.word (exp e))) ∧
    (a ≠ 0 → a < 2 ^ c.m →
      leads (.gfLog inst a) s (done s (.word (log a))) ∧
      leads (.gfInv inst a) s (done s (.word (exp (c.q1 - log a)))) ∧
      leads (.gfPow inst a e) s (done s (.word (if e = 0 then 1 else exp (log a * e))))) ∧
    (leads (.gfLog inst 0) s bad ∧ leads (.gfInv inst 0) s bad ∧
      leads (.gfPow inst 0 e) s (done s (.word (if e = 0 then 1 else 0)))) ∧
    (a < 2 ^ c.m → b < 2 ^ c.m →
      leads (.gfMul inst a b) s
        (done s (.word (if a = 0 ∨ b = 0 then 0 else exp (log a + log b))))) ∧
    (2 ^ c.m ≤ a →
      leads (.gfLog inst a) s bad ∧ leads (.gfInv inst a) s bad ∧ leads (.gfPow inst a e) s bad ∧
      leads (.gfMul inst a b) s bad ∧ leads (.gfMul inst b a) s bad)

/-- Rules R237, R239: under `gf_mul` the non-zero elements of a configured field are a cyclic group
of order Q1 generated by 2; `gf_mul` is commutative and associative and distributes over XOR. -/
def Obligations.GfLaws : Prop :=
  ∀ (c : BchCode) (a b d : Nat), c.wf = true → a < 2 ^ c.m → b < 2 ^ c.m → d < 2 ^ c.m →
    gfMul c a b < 2 ^ c.m ∧ gfMul c a b = gfMul c b a ∧
    gfMul c (gfMul c a b) d = gfMul c a (gfMul c b d) ∧
    gfMul c a (b ^^^ d) = gfMul c a b ^^^ gfMul c a d ∧ gfMul c a 1 = a ∧
    (a ≠ 0 → gfMul c a (gfInv c a) = 1 ∧ gfPow c a c.q1 = 1 ∧
      (b ≠ 0 → gfMul c a b ≠ 0) ∧ ∃ i, i < c.q1 ∧ gfPow c 2 i = a)

/-- Rules R240, R241, R242, R246: the results of the code operations of a configured instance. The
word that BCH.ENCODE gives is a multiple of G, here the sum of the shifts of G by the elements of a
list, has the message in its high bits, and checks true; BCH.DECODE gives the high bits back. -/
def Obligations.BchCodeResults : Prop :=
  ∀ (s : State) (inst : Inst) (c : BchCode) (v : Nat), s.bch[inst.toNat]? = some (.run c) →
    c.wf = true →
    let S := (List.range (2 * c.t)).map fun j => polyAt (fun i => c.exp.getD i 0) c.q1 c.n v (j + 1)
    let bad := rejected s (.contract .badOperand)
    (v < 2 ^ c.k → ∃ (w : Nat) (shifts : List Nat), leads (.bchEncode inst v) s (done s (.word w)) ∧
      w = xorOf (shifts.map (c.g <<< ·)) ∧ w < 2 ^ c.n ∧ w >>> (c.n - c.k) = v ∧
      leads (.bchCheck inst w) s (done s (.flag true)) ∧
      leads (.bchDecode inst w) s (done s (.word v))) ∧
    (2 ^ c.k ≤ v → leads (.bchEncode inst v) s bad) ∧
    (v < 2 ^ c.n →
      leads (.bchSyndrome inst v) s (done s (.words S)) ∧
      leads (.bchCheck inst v) s (done s (.flag (S.all (· == 0)))) ∧
      leads (.bchDecode inst v) s (done s (.word (v >>> (c.n - c.k))))) ∧
    (2 ^ c.n ≤ v →
      leads (.bchSyndrome inst v) s bad ∧ leads (.bchCheck inst v) s bad ∧
      leads (.bchCorrect inst v) s bad ∧ leads (.bchDecode inst v) s bad)

/-- Rules R245, R248: BCH.CORRECT completes; a word with zero syndromes comes back as it is; a
corrected word has zero syndromes and differs from the operand in as many bits as the answer says. The
answer is that of `bchCorrect`, of which `PagingCodeCorrects` says that it undoes one and two flipped
bits (rule R249). -/
def Obligations.BchCorrectSound : Prop :=
  ∀ (s : State) (inst : Inst) (c : BchCode) (r : Nat), s.bch[inst.toNat]? = some (.run c) →
    c.wf = true → r < 2 ^ c.n →
    ∃ res, leads (.bchCorrect inst r) s (done s res) ∧
      (res = .uncorrectable ∨ ∃ w e, res = .corrected w e) ∧
      (res =
        match bchCorrect c r with
        | .corrected w e => .corrected w e
        | .uncorrectable => .uncorrectable) ∧
      (bchCheck c r = true → res = .corrected r 0) ∧
      ∀ w e, res = .corrected w e → bchCheck c w = true ∧ w < 2 ^ c.n ∧
        (List.range c.n).countP (fun i => r.testBit i != w.testBit i) = e

/-- Rules R249, R250: the paging code is the code of `BCH.CONFIG 0x769, 31, 21, 2, 0`, with the field
polynomial 0x25, and corrects every codeword with none, one or two bits flipped. -/
def Obligations.PagingCodeCorrects : Prop :=
  (pagingCode.g = 0x769 ∧ pagingCode.n = 31 ∧ pagingCode.k = 21 ∧ pagingCode.t = 2 ∧
    pagingCode.fp = 0x25 ∧ pagingCode.m = 5 ∧ pagingCode.q1 = 31) ∧
  (∀ (s : State) (inst : Inst), inst.toNat < s.bch.length →
    leads (.bchConfig inst 0x769 31 21 2 0) s
      (done { s with bch := s.bch.set inst.toNat (.run pagingCode) } .none)) ∧
  ∀ m e1 e2 : Nat, m < 2 ^ 21 → e1 < 31 → e2 < 31 → e1 ≠ e2 →
    let w := bchEncode pagingCode m
    bchCorrect pagingCode w = .corrected w 0 ∧
    bchCorrect pagingCode (w ^^^ 2 ^ e1) = .corrected w 1 ∧
    bchCorrect pagingCode (w ^^^ 2 ^ e1 ^^^ 2 ^ e2) = .corrected w 2

/-! ### HD -/

/-- Rules R271, R273, R274, R275: HD.STEP completes with what the tick gives, a frame also going to
OUTQ; and the tick outside a frame, with `HD_MIN_FLAGS = 1`: the flag is found or not, an octet is
counted, a further flag is counted, and an octet that is not a flag starts the frame with its bits
destuffed, or is a SHORT where six 1s stand in it. `IND` after the tick (rule R346).
The field `last` is the model's (log entry 29). -/
def Obligations.HdStep : Prop :=
  ∀ (s : State) (inst : Inst) (b : Bool) (h : Hd), s.hd[inst.toNat]? = some h →
    let o := hdTick h b
    let raw := (h.raw <<< 1) ||| (if b then 1 else 0)
    let n := min (h.nflag + 1) 255
    leads (.hdStep inst b) s
      { s with
        hd := s.hd.set inst.toNat o.1
        outq := s.outq ++ o.2.2.toList.map .frame
        out := ⟨.ok, .frame o.2.2, o.2.1.map fun e => ⟨inst, e⟩, []⟩ } ∧
    (h.state = .waitFlag → raw = 0x7E →
      o = ({ h with raw := raw, state := .countFlag, nflag := 1, cnt8 := 0, last := [] }, [], none)) ∧
    (h.state = .waitFlag → raw ≠ 0x7E → o = ({ h with raw := raw, last := [] }, [], none)) ∧
    ((h.state = .waitData ∨ (h.state = .countFlag ∧ 1 ≤ h.nflag)) → h.cnt8 < 7 →
      o = ({ h with raw := raw, state := .waitData, cnt8 := h.cnt8 + 1, last := [] }, [], none)) ∧
    ((h.state = .waitData ∨ (h.state = .countFlag ∧ 1 ≤ h.nflag)) → h.cnt8 = 7 → raw = 0x7E →
      o = ({ h with raw := raw, state := .waitData, cnt8 := 0, nflag := n, last := [] }, [], none)) ∧
    ((h.state = .waitData ∨ (h.state = .countFlag ∧ 1 ≤ h.nflag)) → h.cnt8 = 7 → raw ≠ 0x7E →
      o =
        match unstuff 0 ((List.range 8).map fun i => raw.getLsbD (7 - i)) with
        | none =>
          ({ h with raw := raw, state := .waitFlag, nflag := 0, cnt8 := 0, ones := 0, acc := 0,
                    accn := 0, blen := 0, ovf := false, last := [.short] }, [.short], none)
        | some (bits, k) =>
          let full := bits.length = 8
          ({ h with raw := raw, state := .waitEnd, cnt8 := 0, ones := k,
                    acc := if full then 0 else byteOf bits, accn := if full then 0 else bits.length,
                    buf := if full then byteOf bits :: h.buf.drop 1 else h.buf,
                    blen := if full then 1 else 0, ovf := false, last := [] }, [], none)) ∧
    indHd o.1 =
      if o.2.1.any hdError then .error
      else if o.1.state = .waitEnd then .receiving else .syncing

/-- Rules R276, R277, R278, R281: the tick inside a frame: the stuffed bit, a stored bit, a byte that
is complete, a byte that is lost, and the sixth consecutive 1, which ends the frame. The premise
`raw ≠ 0x7E` shuts out no state of a run (rule R276: the flag's sixth 1 has ended the frame).
The field `last` is the model's (log entry 29). -/
def Obligations.HdInFrame : Prop :=
  ∀ (h : Hd) (b : Bool), h.state = .waitEnd →
    let raw := (h.raw <<< 1) ||| (if b then 1 else 0)
    let bit : BitVec 8 := if b then 1 else 0
    let ones := if b then h.ones + 1 else 0
    let acc := h.acc ||| (bit <<< h.accn)
    let ends : List Event × Option Frame :=
      if h.ovf = true then ([.overflow], none)
      else if h.blen * 8 < 120 then ([.short], none)
      else
        match parseFrame (h.buf.take h.blen) with
        | none => ([.framing], none)
        | some f => ([], some f)
    (h.ones = 5 → b = false → raw ≠ 0x7E →
      hdTick h b = ({ h with raw := raw, ones := 0, last := [] }, [], none)) ∧
    (h.ones = 5 → b = true →
      hdTick h b =
        ({ h with raw := raw, state := .waitFlag, nflag := 0, cnt8 := 0, ones := 0, acc := 0,
                  accn := 0, blen := 0, ovf := false, last := ends.1 }, ends)) ∧
    (h.ones < 5 → h.accn < 7 → raw ≠ 0x7E →
      hdTick h b =
        ({ h with raw := raw, ones := ones, acc := acc, accn := h.accn + 1, last := [] }, [], none)) ∧
    (h.ones < 5 → h.accn = 7 → h.blen < 512 → h.blen ≤ h.buf.length → raw ≠ 0x7E →
      hdTick h b =
        ({ h with raw := raw, ones := ones, acc := 0, accn := 0, blen := h.blen + 1,
                  buf := h.buf.take h.blen ++ acc :: h.buf.drop (h.blen + 1), last := [] },
          [], none)) ∧
    (h.ones < 5 → h.accn = 7 → 512 ≤ h.blen → raw ≠ 0x7E →
      hdTick h b =
        ({ h with raw := raw, ones := ones, acc := 0, accn := 0, ovf := true, last := [] },
          [], none))

/-- Rules R282 to R287, R112 to R115: the parse of the bytes of a frame with these address blocks,
control byte and following bytes is that frame. `block k` lays out address block number `k`; the low
bits of its characters, which `low` gives, are ignored. A ninth repeater block, an address field that
runs past the end of the frame, and a frame without a control byte are violations (rule R284). -/
def Obligations.ParseOfLayout : Prop :=
  ∀ (dest src : Addr) (reps : List Addr) (ctl : BitVec 8) (rest : List (BitVec 8))
    (low : Nat → BitVec 1),
    let block (k : Nat) (a : Addr) : List (BitVec 8) :=
      (a.call.mapIdx fun j c => c ++ low (6 * k + j)) ++
        [BitVec.ofBool a.ch ++ a.rr ++ a.ssid ++ BitVec.ofBool a.ext]
    (∀ a ∈ dest :: src :: reps, a.call.length = 6) → reps.length ≤ 8 →
    let addresses := block 0 dest ++ block 1 src ++ (reps.mapIdx fun k a => block (k + 2) a).flatten
    let bytes := addresses ++ ctl :: rest
    ((src :: reps).map Addr.ext = List.replicate reps.length false ++ [true] →
      let type : FrameType :=
        if ctl.getLsbD 0 = false then .i else if ctl.getLsbD 1 = false then .s else .u
      let f (p p2 : Option (BitVec 8)) (l : Option (List (BitVec 8))) : Frame :=
        ⟨dest, src, reps, ctl, type, p, p2, l⟩
      let follows := type = .i ∨ (type = .u ∧ ctl &&& 0xEF = 0x03)
      (¬ follows → parseFrame bytes = some (f none none none)) ∧
      (follows → rest = [] → parseFrame bytes = none) ∧
      (∀ p l, follows → rest = p :: l → p ≠ 0xFF →
        parseFrame bytes = some (f (some p) none (some l))) ∧
      (follows → rest = [0xFF] → parseFrame bytes = none) ∧
      (∀ p2 l, follows → rest = 0xFF :: p2 :: l →
        parseFrame bytes = some (f (some 0xFF) (some p2) (some l))) ∧
      (reps ≠ [] → parseFrame addresses = none)) ∧
    ((∀ a ∈ src :: reps, a.ext = false) →
      (reps.length = 8 → parseFrame bytes = none) ∧
      (reps.length < 8 → rest.length + 1 < 7 → parseFrame bytes = none))

/-- Rule R288: one or more flags, the stuffed bits of a frame of 15 to 512 bytes, least significant
first, and a flag: the parse of the bytes is the result of the tick of the closing flag's seventh
bit, and no other tick has one. -/
def Obligations.FrameReproduced : Prop :=
  ∀ (flags : Nat) (B : List (BitVec 8)), 1 ≤ flags → 15 ≤ B.length → B.length ≤ 512 →
    let body := stuff 0 (byteBits B)
    framesOf Hd.reset ((List.replicate flags flag).flatten ++ body ++ flag) =
      List.replicate (8 * flags + body.length + 6) none ++ [parseFrame B, none]

/-! ### HD and PG: the commands -/

/-- Rules R270, R300, R301, R303, R317: HD.RESET, PG.RESET, PG.SYNC and PG.SET_FILTER.
The field `last` is the model's (log entry 29). -/
def Obligations.DecoderCommands : Prop :=
  ∀ (s : State) (inst : Inst) (baud : B32) (f : Nat) (h : Hd) (p : Pg),
    (s.hd[inst.toNat]? = some h →
      leads (.hdReset inst) s
        (done { s with
          hd := s.hd.set inst.toNat ⟨.waitFlag, 0, 0, 0, 0, 0, 0, [], 0, false, []⟩ } .none)) ∧
    (s.pg[inst.toNat]? = some p →
      let evs := (pagesIn p).map .msg
      leads (.pgReset inst) s
        (pgAfter s inst ⟨restarted p evs, evs, (pagesIn p).head?⟩ .none) ∧
      leads (.pgSync inst baud) s
        (pgAfter s inst
          ⟨{ restarted p evs with baud := s.num.ofB32 baud }, evs, (pagesIn p).head?⟩ .none) ∧
      (∀ w, [Filter.addressOnly, .numeric, .alpha, .both][f]? = some w →
        leads (.pgSetFilter inst f) s
          (pgAfter s inst ⟨{ p with filter := w, last := [] }, [], none⟩ .none)) ∧
      (3 < f → leads (.pgSetFilter inst f) s (rejected s (.config .badEnum))))

/-! ### PG -/

/-- Rules R302, R304, R307: PG.STEP completes with what the tick gives, a page also going to OUTQ;
the tick on the first bit; the tick in which no word is complete; and `IND` after the tick (rule
R346).
The field `last` is the model's (log entry 29). -/
def Obligations.PgStep : Prop :=
  ∀ (s : State) (inst : Inst) (b : Bool) (p : Pg), s.pg[inst.toNat]? = some p →
    let o := pgTick s.par p b
    let bit (v : Bool) : BitVec 32 := if v then 1 else 0
    leads (.pgStep inst b) s (pgAfter s inst o (.page o.page)) ∧
    (p.state = .firstBitSinceSync →
      o = ⟨{ p with prev := b, alt := 0, predone := false, sr := bit b,
                    state := .waitForInitialSyncWord, last := [] }, [], none⟩) ∧
    ((p.state = .readPocsagBatch ∨ p.state = .waitForImmediateSyncWord) → p.nbits < 31 →
      o = ⟨{ p with sr := (p.sr <<< 1) ||| bit (b != p.inv), nbits := p.nbits + 1, last := [] },
        [], none⟩) ∧
    indPg o.pg =
      if o.evs.any pgError then .error
      else if o.pg.state = .readPocsagBatch ∨ o.pg.state = .waitForImmediateSyncWord then .receiving
      else .syncing

/-- Rules R305, R306, R318: the preamble and the search for the first sync word, true or inverted.
The field `last` is the model's (log entry 29). -/
def Obligations.PgAcquisition : Prop :=
  ∀ (par : Params) (p : Pg) (b : Bool), p.state = .waitForInitialSyncWord →
    let o := pgTick par p b
    let sr := (p.sr <<< 1) ||| (if b then 1 else 0)
    let found := { p with
      sr := sr, prev := b, predone := true, nbits := 0, cwidx := 0, state := .readPocsagBatch }
    let n := if p.predone then p.search else 0
    let ended := p.predone = true ∨ (b = p.prev ∧ par.pgPreMin ≤ p.alt)
    (p.predone = false → b ≠ p.prev → p.alt < par.pgPreMax →
      o = ⟨{ p with sr := sr, alt := p.alt + 1, prev := b, last := [] }, [], none⟩) ∧
    (p.predone = false → b ≠ p.prev → par.pgPreMax ≤ p.alt → o = lost .badPreamble p) ∧
    (p.predone = false → b = p.prev → p.alt < par.pgPreMin → o = lost .badPreamble p) ∧
    (ended → sr = par.pgSync →
      o = ⟨{ found with inv := false, search := n, last := [.syncword] }, [.syncword], none⟩) ∧
    (ended → sr = ~~~ par.pgSync →
      o = ⟨{ found with inv := true, search := n, last := [.syncwordInv] }, [.syncwordInv], none⟩) ∧
    (ended → sr ≠ par.pgSync → sr ≠ ~~~ par.pgSync → n < 32 →
      o = ⟨{ p with sr := sr, prev := b, predone := true, search := n + 1, last := [] }, [], none⟩) ∧
    (ended → sr ≠ par.pgSync → sr ≠ ~~~ par.pgSync → 32 ≤ n → o = lost .syncLost p)

/-- Rules R307, R308, R309, R318: the tick that completes a word: a codeword of a batch, the sixteenth
of which ends the batch; or the word after a batch, which must be the sync word.
The field `last` is the model's (log entry 29). -/
def Obligations.PgWords : Prop :=
  ∀ (par : Params) (p : Pg) (b : Bool), p.nbits = 31 →
    let o := pgTick par p b
    let sr := (p.sr <<< 1) ||| (if b != p.inv then 1 else 0)
    let c := pgCodeword par { p with sr := sr, nbits := 0 } sr p.cwidx
    (p.state = .readPocsagBatch →
      o = { c with pg := { c.pg with
              last := c.evs
              cwidx := if p.cwidx = 15 then 0 else p.cwidx + 1
              state := if p.cwidx = 15 then .waitForImmediateSyncWord else .readPocsagBatch } }) ∧
    (p.state = .waitForImmediateSyncWord → sr = par.pgSync →
      o = ⟨{ p with sr := sr, nbits := 0, state := .readPocsagBatch, last := [] }, [], none⟩) ∧
    (p.state = .waitForImmediateSyncWord → sr ≠ par.pgSync → o = lost .syncLost p)

/-- Rules R310 to R316, R118 to R121: what a codeword does: the parity log, and the five classes of
its 31-bit word. -/
def Obligations.PgCodeword : Prop :=
  ∀ (par : Params) (p : Pg) (cw : BitVec 32) (idx : Nat), p.msg.sr7n ≤ 6 →
    let odd := (List.range 32).countP cw.getLsbD % 2 = 1
    let q := if odd then { p with parerr := min (p.parerr + 1) (2 ^ 32 - 1) } else p
    let log : List Event := if odd then [.parity idx] else []
    let pages := pagesIn p
    let o := pgCodeword par p cw idx
    (dataWord par cw = none →
      o = ⟨{ q with msg := { p.msg with invalid := true } }, log ++ [.unc idx], none⟩) ∧
    (∀ d, dataWord par cw = some d → d = par.pgIdle →
      o = ⟨{ q with msg := PgMsg.empty }, log ++ pages.map .msg, pages.head?⟩) ∧
    (∀ d, dataWord par cw = some d → d ≠ par.pgIdle → d.getLsbD 20 = false →
      o = ⟨{ q with msg := { PgMsg.empty with
              hasAddr := true, addr18 := d.extractLsb' 2 18, func := d.extractLsb' 0 2,
              pos := BitVec.ofNat 4 idx } },
        log ++ pages.map .msg, pages.head?⟩) ∧
    (∀ d, dataWord par cw = some d → d ≠ par.pgIdle → d.getLsbD 20 = true →
      let bits := carried p.msg ++ payload d
      ∃ m, o = ⟨{ q with msg := m }, log, none⟩ ∧
        m.hasAddr = p.msg.hasAddr ∧ m.addr18 = p.msg.addr18 ∧ m.func = p.msg.func ∧
        m.pos = p.msg.pos ∧ m.invalid = p.msg.invalid ∧
        m.ndata = min (p.msg.ndata + 1) (2 ^ 32 - 1) ∧
        m.numt = p.msg.numt ++ numerals d ∧
        m.alpha = p.msg.alpha ++ chars bits ∧ carried m = bits.drop (7 * (bits.length / 7)))

/-- Rule R322: an address codeword, then data codewords, then an address codeword: after what came
before, exactly one page, with the address, the texts of the data codewords as the filter lets them
through, their number, and no invalid codeword. -/
def Obligations.PageSegmentation : Prop :=
  ∀ (par : Params) (p : Pg) (a a2 : BitVec 32) (i i2 : Nat) (ws : List (BitVec 32 × Nat))
    (da da2 : BitVec 21) (ds : List (BitVec 21)),
    dataWord par a = some da → da ≠ par.pgIdle → da.getLsbD 20 = false →
    dataWord par a2 = some da2 → da2 ≠ par.pgIdle → da2.getLsbD 20 = false →
    ws.map (fun w => dataWord par w.1) = ds.map some →
    (∀ d ∈ ds, d ≠ par.pgIdle ∧ d.getLsbD 20 = true) → ds.length < 2 ^ 32 →
    (runWords par p ((a, i) :: (ws ++ [(a2, i2)]))).2 = pagesIn p ++
      [{ hasAddr := true, addr18 := da.extractLsb' 2 18, func := da.extractLsb' 0 2,
         pos := BitVec.ofNat 4 i,
         alpha := if p.filter = .alpha ∨ p.filter = .both then chars (ds.flatMap payload) else [],
         num := if p.filter = .numeric ∨ p.filter = .both then ds.flatMap numerals else [],
         invalid := false, ndata := ds.length, baud := p.baud }]
end

