-- ==== Sys2Proof/Laws/Binary64.lean ====
section
/-!
SUPPORT. The reference numerics, binary64, has the properties that rule R12 requires of `NUM`
(`Numerics.Lawful`).
-/

namespace Sys2Proof
namespace Machine
namespace B64

/-! ### Patterns -/

/-- The pattern of a finite number stands for one, with the sign it is given; it is 0 exactly where
the magnitude is. -/
theorem view_code (neg : Bool) {c : Nat} (h : c < infCode) :
    ∃ m e, view ⟨(if neg then signCode else 0) + c⟩ = .fin neg m e ∧ (m = 0 ↔ c = 0) := by
  have h' : c < 2047 * 2 ^ 52 := h
  have hs : ((if neg then signCode else 0) + c) >>> (11 + 52) % 2 = neg.toNat := by
    rw [Nat.shiftRight_eq_div_pow]; cases neg <;> simp [signCode] <;> omega
  have hx : ((if neg then signCode else 0) + c) >>> 52 % 2 ^ 11 = c / 2 ^ 52 := by
    rw [Nat.shiftRight_eq_div_pow]; cases neg <;> simp [signCode] <;> omega
  have hf : ((if neg then signCode else 0) + c) % 2 ^ 52 = c % 2 ^ 52 := by
    cases neg <;> simp [signCode]; omega
  have hn : (neg.toNat == 1) = neg := by cases neg <;> rfl
  unfold view viewOf
  simp only [hs, hx, hf, hn]
  rw [if_neg (by omega)]
  split
  · exact ⟨_, _, rfl, by omega⟩
  · exact ⟨_, _, rfl, by omega⟩

theorem view_zeroS (neg : Bool) : ∃ e, view (zeroS neg) = .fin neg 0 e := by
  obtain ⟨m, e, h, h0⟩ := view_code neg (c := 0) (by decide)
  rw [h0.mpr rfl] at h
  exact ⟨e, h⟩

/-- A number that is neither too small nor too large rounds to a finite number that is not 0. -/
theorem roundMag_normal {m : Nat} {e : Int} (s : Bool) (hm : m ≠ 0)
    (hl : -1022 ≤ e + (Nat.log2 m : Int)) (hu : e + (Nat.log2 m : Int) ≤ 1020) :
    0 < roundMag 53 (-1074) m e s ∧ roundMag 53 (-1074) m e s < infCode := by
  have h1 : 2 ^ Nat.log2 m ≤ m := Nat.log2_self_le hm
  have h2 : m < 2 ^ (Nat.log2 m + 1) := Nat.lt_log2_self
  unfold roundMag
  rw [if_neg hm]
  generalize Nat.log2 m = L at *
  have hq : max (e + ((L + 1 : Nat) : Int) - ((53 : Nat) : Int)) (-1074) = e + L - 52 := by omega
  simp only [hq]
  have key : ∀ r : Nat, 0 < r → r ≤ 2 ^ 53 →
      0 < (e + L - 52 - -1074).toNat * 2 ^ (53 - 1) + r ∧
      (e + L - 52 - -1074).toNat * 2 ^ (53 - 1) + r < infCode := by
    intro r h0 h53
    have : infCode = 2047 * 2 ^ 52 := rfl
    have : (e + L - 52 - -1074).toNat ≤ 2042 := by omega
    omega
  apply key
  · split
    · rw [Nat.shiftLeft_eq]; positivity
    · have hk : (e + L - 52 - e).toNat ≤ L := by omega
      have : 0 < m >>> (e + L - 52 - e).toNat := by
        rw [Nat.shiftRight_eq_div_pow]
        exact Nat.div_pos (le_trans (Nat.pow_le_pow_right (by decide) hk) h1) (by positivity)
      split <;> omega
  · split
    · rw [Nat.shiftLeft_eq]
      calc m * 2 ^ (-(e + L - 52 - e)).toNat ≤ 2 ^ (L + 1) * 2 ^ (-(e + L - 52 - e)).toNat :=
            Nat.mul_le_mul_right _ (le_of_lt h2)
        _ = 2 ^ 53 := by rw [← Nat.pow_add]; congr 1; omega
    · have hk : (e + L - 52 - e).toNat = L - 52 := by omega
      have : m >>> (e + L - 52 - e).toNat < 2 ^ 53 := by
        rw [hk, Nat.shiftRight_eq_div_pow, Nat.div_lt_iff_lt_mul (by positivity), ← Nat.pow_add]
        rwa [show 53 + (L - 52) = L + 1 by omega]
      split <;> omega

/-- The view of a rounded number. -/
theorem view_ofMag {neg : Bool} {m : Nat} {e : Int} {s : Bool}
    (h : m = 0 ∨ -1022 ≤ e + (Nat.log2 m : Int) ∧ e + (Nat.log2 m : Int) ≤ 1020) :
    ∃ m' e', view (ofMag neg m e s) = .fin neg m' e' ∧ (m' = 0 ↔ m = 0) := by
  have hc : roundMag 53 (-1074) m e s < infCode ∧ (roundMag 53 (-1074) m e s = 0 ↔ m = 0) := by
    rcases Nat.eq_zero_or_pos m with h0 | h0
    · subst h0; simp [roundMag, infCode]
    · have hm : m ≠ 0 := by omega
      obtain ⟨hl, hu⟩ := h.resolve_left hm
      have := roundMag_normal s hm hl hu
      exact ⟨this.2, by omega⟩
  obtain ⟨m', e', hv, h0⟩ := view_code neg hc.1
  refine ⟨m', e', ?_, h0.trans hc.2⟩
  unfold ofMag pack
  rw [Nat.min_eq_left (le_of_lt hc.1)]
  exact hv

theorem view_quot {neg : Bool} {p q : Nat} (hp : p ≤ 2 ^ 32) (hq : 1 ≤ q) (hq' : q ≤ 2 ^ 32) :
    ∃ m e, view (quot neg p q 0) = .fin neg m e ∧ (m = 0 ↔ p = 0) := by
  have h1 : 2 ^ Nat.log2 q ≤ q := Nat.log2_self_le (by omega)
  have h2 : q < 2 ^ (Nat.log2 q + 1) := Nat.lt_log2_self
  have hlq : Nat.log2 q ≤ 32 := by
    by_contra h
    have : 2 ^ 33 ≤ 2 ^ Nat.log2 q := Nat.pow_le_pow_right (by decide) (by omega)
    omega
  unfold quot
  generalize Nat.log2 q = L at *
  rcases Nat.eq_zero_or_pos p with h0 | h0
  · subst h0
    obtain ⟨m, e, hv, hm⟩ := view_ofMag (neg := neg) (m := 0 <<< (128 + L) / q)
      (e := 0 - ((128 + L : Nat) : Int)) (s := 0 <<< (128 + L) % q != 0) (.inl (by simp))
    exact ⟨m, e, hv, by simpa using hm⟩
  · have hlow : 2 ^ 127 ≤ p <<< (128 + L) / q := by
      rw [Nat.le_div_iff_mul_le (by omega), Nat.shiftLeft_eq]
      calc 2 ^ 127 * q ≤ 2 ^ 127 * 2 ^ (L + 1) := Nat.mul_le_mul_left _ (le_of_lt h2)
        _ = 1 * 2 ^ (128 + L) := by rw [← Nat.pow_add, Nat.one_mul]; congr 1; omega
        _ ≤ p * 2 ^ (128 + L) := Nat.mul_le_mul_right _ h0
    have hup : p <<< (128 + L) / q < 2 ^ (161 + L) := by
      rw [Nat.shiftLeft_eq]
      calc p * 2 ^ (128 + L) / q ≤ p * 2 ^ (128 + L) := Nat.div_le_self _ _
        _ ≤ 2 ^ 32 * 2 ^ (128 + L) := Nat.mul_le_mul_right _ hp
        _ = 2 ^ (160 + L) := by rw [← Nat.pow_add]; congr 1; omega
        _ < 2 ^ (161 + L) := Nat.pow_lt_pow_right (by decide) (by omega)
    have hne : p <<< (128 + L) / q ≠ 0 := by
      have : 0 < 2 ^ 127 := by positivity
      omega
    have hll : 127 ≤ Nat.log2 (p <<< (128 + L) / q) := (Nat.le_log2 hne).mpr hlow
    have hlu : Nat.log2 (p <<< (128 + L) / q) < 161 + L := (Nat.log2_lt hne).mpr hup
    obtain ⟨m, e, hv, hm⟩ := view_ofMag (neg := neg) (m := p <<< (128 + L) / q)
      (e := 0 - ((128 + L : Nat) : Int)) (s := p <<< (128 + L) % q != 0) (.inr (by omega))
    exact ⟨m, e, hv, hm.trans (iff_of_false hne (by omega))⟩

/-! ### Comparisons -/

theorem scaled_zero (neg : Bool) (e b : Int) : scaled neg 0 e b = 0 := by
  cases neg <;> simp [scaled]

theorem scaled_sign (m : Nat) (e b : Int) : m <<< (e - b).toNat = 0 ↔ m = 0 := by
  simp [Nat.shiftLeft_eq]

theorem scaled_nonpos (neg : Bool) (m : Nat) (e b : Int) :
    scaled neg m e b ≤ 0 ↔ (neg || m == 0) = true := by
  have := scaled_sign m e b
  unfold scaled
  generalize m <<< (e - b).toNat = k at *
  cases neg <;> simp; omega

theorem scaled_nonneg (neg : Bool) (m : Nat) (e b : Int) :
    0 ≤ scaled neg m e b ↔ (!neg || m == 0) = true := by
  have := scaled_sign m e b
  unfold scaled
  generalize m <<< (e - b).toNat = k at *
  cases neg <;> simp; omega

theorem view_zero : view numerics.zero = .fin false 0 (-1074) := by decide +kernel

theorem le_zero {x : RealVal} {neg : Bool} {m : Nat} {e : Int} (h : view x = .fin neg m e) :
    le x numerics.zero = (neg || m == 0) := by
  unfold le; rw [h, view_zero]
  simp only [scaled_zero]
  rw [Bool.eq_iff_iff, decide_eq_true_iff]; exact scaled_nonpos ..

theorem zero_le {x : RealVal} {neg : Bool} {m : Nat} {e : Int} (h : view x = .fin neg m e) :
    le numerics.zero x = (!neg || m == 0) := by
  unfold le; rw [h, view_zero]
  simp only [scaled_zero]
  rw [Bool.eq_iff_iff, decide_eq_true_iff]; exact scaled_nonneg ..

theorem eq_zero {x : RealVal} {neg : Bool} {m : Nat} {e : Int} (h : view x = .fin neg m e) :
    eq x numerics.zero = (m == 0) := by
  unfold eq; rw [le_zero h, zero_le h]; cases neg <;> simp

theorem eq_self {x : RealVal} {neg : Bool} {m : Nat} {e : Int} (h : view x = .fin neg m e) :
    eq x x = true := by
  unfold eq le; rw [h]; simp

theorem eq_zeros {x y : RealVal} {a b : Bool} {e f : Int} (h : view x = .fin a 0 e)
    (h' : view y = .fin b 0 f) : eq x y = true := by
  unfold eq le; rw [h, h']; simp [scaled_zero]

theorem fin_view {x : RealVal} (h : fin x = true) : ∃ neg m e, view x = .fin neg m e := by
  unfold fin at h; split at h
  · exact ⟨_, _, _, by assumption⟩
  · exact absurd h (by decide)

theorem view_fin {x : RealVal} {neg : Bool} {m : Nat} {e : Int} (h : view x = .fin neg m e) :
    fin x = true := by
  unfold fin; rw [h]

/-! ### Operations -/

theorem view_flip {x : RealVal} {neg : Bool} {m : Nat} {e : Int} (h : view x = .fin neg m e) :
    view (flip x) = .fin (!neg) m e := by
  obtain ⟨c⟩ := x
  have key : ∀ d : Nat, (d >>> 52) % 2 ^ 11 = (c >>> 52) % 2 ^ 11 → d % 2 ^ 52 = c % 2 ^ 52 →
      ((d >>> (11 + 52)) % 2 == 1) = !((c >>> (11 + 52)) % 2 == 1) →
      view ⟨d⟩ = .fin (!neg) m e := by
    intro d h1 h2 h3
    unfold view viewOf at h ⊢
    simp only [h1, h2, h3] at h ⊢
    split at h
    · split at h <;> exact absurd h (by simp)
    · rw [if_neg (by assumption)]
      split at h
      · rw [if_pos (by assumption)]; cases h; rfl
      · rw [if_neg (by assumption)]; cases h; rfl
  unfold flip
  simp only [Nat.shiftRight_eq_div_pow] at key ⊢
  split
  · rename_i hb
    have hb' : c / 2 ^ 63 % 2 = 1 := by simpa using hb
    apply key <;> simp only [signCode]
    · omega
    · omega
    · have : (c - 2 ^ 63) / 2 ^ (11 + 52) % 2 = 0 := by omega
      rw [this, hb']; rfl
  · rename_i hb
    have hb' : c / 2 ^ 63 % 2 = 0 := by
      have : ¬ c / 2 ^ 63 % 2 = 1 := by simpa using hb
      omega
    apply key <;> simp only [signCode]
    · omega
    · omega
    · have : (c + 2 ^ 63) / 2 ^ (11 + 52) % 2 = 1 := by omega
      rw [this, hb']; rfl

theorem add_zero_left {x y : RealVal} {a : Bool} {e : Int} (h : view x = .fin a 0 e)
    (hy : fin y = true) : eq (add x y) y = true ∧ eq (add y x) y = true := by
  obtain ⟨b, n, f, hy⟩ := fin_view hy
  obtain ⟨g, h1⟩ := view_zeroS (a && b)
  obtain ⟨g', h2⟩ := view_zeroS (b && a)
  unfold add; rw [h, hy]
  by_cases hn : n = 0
  · subst hn; exact ⟨eq_zeros h1 hy, eq_zeros h2 hy⟩
  · simp only [if_true, if_neg hn]; exact ⟨eq_self hy, eq_self hy⟩

theorem mul_zero_right {x y : RealVal} {a : Bool} {e : Int} (h : view x = .fin a 0 e)
    (hy : fin y = true) : eq (mul y x) numerics.zero = true := by
  obtain ⟨b, n, f, hy⟩ := fin_view hy
  unfold mul; rw [h, hy]
  obtain ⟨m, e', hv, hm⟩ := view_ofMag (neg := b != a) (m := n * 0) (e := f + e) (s := false) (.inl rfl)
  rw [eq_zero hv, beq_iff_eq]; exact hm.mpr (Nat.mul_zero n)

/-- The view of a binary32 pattern. -/
theorem viewB32 (b : B32) :
    (b32Nan b = true ∧ b32Fin b = false ∧ b32Zero b = false ∧ viewOf 8 23 (-149) b.toNat = .nan) ∨
    (b32Nan b = false ∧ b32Fin b = false ∧ b32Zero b = false ∧
      viewOf 8 23 (-149) b.toNat = .inf (b32Neg b)) ∨
    (b32Nan b = false ∧ b32Fin b = true ∧ ∃ m e, viewOf 8 23 (-149) b.toNat = .fin (b32Neg b) m e ∧
      (b32Zero b = (m == 0)) ∧ m < 2 ^ 24 ∧ -149 ≤ e ∧ e ≤ 105) := by
  have hlt := b.isLt
  have hs : (b.toNat >>> (8 + 23) % 2 == 1) = b32Neg b := by
    unfold b32Neg
    rw [Nat.shiftRight_eq_div_pow, BitVec.getLsbD, Nat.testBit_eq_decide_div_mod_eq, Bool.eq_iff_iff]
    simp
  have hx : ∀ k, k < 256 → ((b.extractLsb' 23 8 == BitVec.ofNat 8 k) = (b.toNat >>> 23 % 2 ^ 8 == k)) := by
    intro k hk
    rw [Bool.eq_iff_iff]
    simp only [beq_iff_eq, ← BitVec.toNat_inj, BitVec.extractLsb'_toNat, BitVec.toNat_ofNat]
    rw [Nat.mod_eq_of_lt (a := k) hk]
  have hf : (b.extractLsb' 0 23 == 0) = (b.toNat % 2 ^ 23 == 0) := by
    rw [Bool.eq_iff_iff]
    simp [← BitVec.toNat_inj, BitVec.extractLsb'_toNat]
  have hz : b32Zero b = (b.toNat % 2 ^ 31 == 0) := by
    rw [Bool.eq_iff_iff]
    simp [b32Zero, ← BitVec.toNat_inj, BitVec.extractLsb'_toNat]
  have hN : b32Nan b = (b.toNat >>> 23 % 2 ^ 8 == 255 && !(b.toNat % 2 ^ 23 == 0)) := by
    unfold b32Nan; rw [← hf]; rw [show (255 : BitVec 8) = BitVec.ofNat 8 255 from rfl, hx 255 (by decide)]; rfl
  have hF : b32Fin b = !(b.toNat >>> 23 % 2 ^ 8 == 255) := by
    unfold b32Fin; rw [← hx 255 (by decide)]; rfl
  unfold viewOf
  simp only [hs, hz, hN, hF, show 2 ^ 8 - 1 = 255 from rfl]
  rw [Nat.shiftRight_eq_div_pow]
  have hb : ∀ {m n : Nat}, m ≠ n → (m == n) = false := fun h => beq_eq_false_iff_ne.mpr h
  by_cases h1 : b.toNat / 2 ^ 23 % 2 ^ 8 = 255
  · rw [if_pos h1, h1]
    by_cases h2 : b.toNat % 2 ^ 23 = 0
    · rw [if_pos h2, h2]
      exact .inr (.inl ⟨rfl, rfl, hb (by omega), rfl⟩)
    · rw [if_neg h2, hb h2]
      exact .inl ⟨rfl, rfl, hb (by omega), rfl⟩
  · rw [if_neg h1, hb h1]
    refine .inr (.inr ⟨rfl, rfl, ?_⟩)
    split
    · refine ⟨_, _, rfl, ?_, by omega, by omega, by omega⟩
      rw [Bool.eq_iff_iff]; simp only [beq_iff_eq]; omega
    · refine ⟨_, _, rfl, ?_, by omega, by omega, by omega⟩
      rw [Bool.eq_iff_iff]; simp only [beq_iff_eq]; omega

/-- A binary32 pattern widened keeps its sign, is 0 where it was 0, and is finite where it was. -/
theorem view_ofB32 (b : B32) :
    (b32Nan b = true ∧ b32Fin b = false ∧ b32Zero b = false ∧ ofB32 b = nan) ∨
    (b32Nan b = false ∧ b32Fin b = false ∧ b32Zero b = false ∧ ofB32 b = inf (b32Neg b)) ∨
    (b32Nan b = false ∧ b32Fin b = true ∧
      ∃ m e, view (ofB32 b) = .fin (b32Neg b) m e ∧ b32Zero b = (m == 0)) := by
  unfold ofB32
  rcases viewB32 b with ⟨h1, h2, h3, h⟩ | ⟨h1, h2, h3, h⟩ | ⟨h1, h2, m, e, h, h3, hm, hl, hu⟩
  · exact .inl ⟨h1, h2, h3, by rw [h]⟩
  · exact .inr (.inl ⟨h1, h2, h3, by rw [h]⟩)
  · have hlog : m = 0 ∨ Nat.log2 m < 24 := by
      by_cases h0 : m = 0
      · exact .inl h0
      · exact .inr ((Nat.log2_lt h0).mpr hm)
    obtain ⟨m', e', hv, h0⟩ := view_ofMag (neg := b32Neg b) (m := m) (e := e) (s := false)
      (hlog.imp id (fun h => ⟨by omega, by omega⟩))
    refine .inr (.inr ⟨h1, h2, m', e', by rw [h]; exact hv, ?_⟩)
    rw [h3, Bool.eq_iff_iff]; simp only [beq_iff_eq, h0]

theorem view_lit {p : Int} {q : Nat} (h : litInRange p q) :
    ∃ m e, view (lit p q) = .fin (decide (p < 0)) m e ∧ (m = 0 ↔ p = 0) := by
  obtain ⟨m, e, hv, hm⟩ := view_quot (neg := decide (p < 0)) h.1 h.2.1 h.2.2
  exact ⟨m, e, hv, hm.trans Int.natAbs_eq_zero⟩

/-- The reference numerics meets what rule R12 requires of `NUM`. -/
theorem numerics_lawful : numerics.Lawful where
  fin_port b := by
    rcases view_ofB32 b with ⟨_, h, _, hv⟩ | ⟨_, h, _, hv⟩ | ⟨_, h, m, e, hv, _⟩
    · rw [h]; show fin (ofB32 b) = _; rw [hv]; decide
    · rw [h]; show fin (ofB32 b) = _; rw [hv]; cases b32Neg b <;> decide
    · rw [h]; exact view_fin hv
  fin_lit p q h := by obtain ⟨m, e, hv, _⟩ := view_lit h; exact view_fin hv
  fin_pi := by decide
  sub_self x h := by
    obtain ⟨a, m, e, h⟩ := fin_view h
    have hf := view_flip h
    show eq (add x (flip x)) numerics.zero = true
    unfold add; rw [h, hf]
    by_cases hm : m = 0
    · obtain ⟨g, hg⟩ := view_zeroS (a && !a)
      simp only [hm, if_true, eq_zero hg]; rfl
    · obtain ⟨g, hg⟩ := view_zeroS false
      have hs : scaled a m e e + scaled (!a) m e e = 0 := by cases a <;> simp [scaled]
      simp only [if_neg hm, min_self, hs, if_true, eq_zero hg]; rfl
  zero_add x h := (add_zero_left view_zero h).1
  mul_zero x h := mul_zero_right view_zero h
  zero_div x h h0 := by
    obtain ⟨a, m, e, h⟩ := fin_view h
    have hm : m ≠ 0 := by
      have : eq x numerics.zero = false := h0
      rw [eq_zero h] at this; simpa using this
    show eq (div numerics.zero x) numerics.zero = true
    unfold div; rw [h, view_zero]; simp only [if_neg hm]
    unfold quot
    obtain ⟨m', e', hv, hm'⟩ := view_ofMag (neg := false != a) (m := 0 <<< (128 + Nat.log2 m) / m)
      (e := -1074 - e - ((128 + Nat.log2 m : Nat) : Int))
      (s := 0 <<< (128 + Nat.log2 m) % m != 0) (.inl (by simp))
    rw [eq_zero hv]; simp [hm']
  port_le b := by
    show le (ofB32 b) numerics.zero = _
    rcases view_ofB32 b with ⟨h1, _, h3, hv⟩ | ⟨h1, _, h3, hv⟩ | ⟨h1, _, m, e, hv, h3⟩
    · rw [hv, h1]; rfl
    · rw [hv, h1, h3]; cases b32Neg b <;> decide +kernel
    · rw [le_zero hv, h1, h3]; rfl
  port_ge b := by
    show le numerics.zero (ofB32 b) = _
    rcases view_ofB32 b with ⟨h1, _, h3, hv⟩ | ⟨h1, _, h3, hv⟩ | ⟨h1, _, m, e, hv, h3⟩
    · rw [hv, h1]; rfl
    · rw [hv, h1, h3]; cases b32Neg b <;> decide +kernel
    · rw [zero_le hv, h1, h3]; rfl
  port_eq b := by
    show eq (ofB32 b) numerics.zero = _
    rcases view_ofB32 b with ⟨h1, _, h3, hv⟩ | ⟨h1, _, h3, hv⟩ | ⟨h1, _, m, e, hv, h3⟩
    · rw [hv, h3]; decide +kernel
    · rw [hv, h3]; cases b32Neg b <;> decide +kernel
    · rw [eq_zero hv, h3]
  lit_le p q h := by
    obtain ⟨m, e, hv, hm⟩ := view_lit h
    show le (lit p q) numerics.zero = _
    rw [le_zero hv, Bool.eq_iff_iff]; simp [hm]; omega
  lit_ge p q h := by
    obtain ⟨m, e, hv, hm⟩ := view_lit h
    show le numerics.zero (lit p q) = _
    rw [zero_le hv, Bool.eq_iff_iff]; simp [hm]; omega
  zero_total x h := by
    obtain ⟨a, m, e, h⟩ := fin_view h
    show (le x numerics.zero || le numerics.zero x) = true
    rw [le_zero h, zero_le h]; cases a <;> simp
  zero_eq x h := rfl
  zero_acts x y h h0 hy := by
    obtain ⟨a, m, e, h⟩ := fin_view h
    have hm : m = 0 := by
      have : eq x numerics.zero = true := h0
      rw [eq_zero h] at this; simpa using this
    subst hm
    exact ⟨(add_zero_left h hy).2, mul_zero_right h hy⟩

end B64

/-- Every numerics record the block can be given has the properties of rule R12. -/
theorem numericsOf_lawful (sel : NumSel) : (numericsOf sel).Lawful := by
  cases sel with
  | binary64 => exact B64.numerics_lawful
  | other k => exact (Config.openNumerics k).lawful

end Machine
end Sys2Proof
end

