-- ==== Sys2Proof/Laws/State.lean ====
section
/-!
SUPPORT. What every update of the state does to every field: one lemma per field per update, so that
no proof unfolds a record update.
-/

namespace Sys2Proof
namespace Machine

/-! ### `putPipe` -/

@[simp] theorem putPipe_par (i : Inst) (u : Pipe) (s : State) : (putPipe i u s).par = s.par := rfl
@[simp] theorem putPipe_pending (i : Inst) (u : Pipe) (s : State) : (putPipe i u s).pending = s.pending := rfl
@[simp] theorem putPipe_out (i : Inst) (u : Pipe) (s : State) : (putPipe i u s).out = s.out := rfl
@[simp] theorem putPipe_freeIx (i : Inst) (u : Pipe) (s : State) : (putPipe i u s).freeIx = s.freeIx := rfl
@[simp] theorem putPipe_used (i : Inst) (u : Pipe) (s : State) : (putPipe i u s).used = s.used := rfl
@[simp] theorem putPipe_locks (i : Inst) (u : Pipe) (s : State) : (putPipe i u s).locks = s.locks := rfl
@[simp] theorem putPipe_pipe (i : Inst) (u : Pipe) (s : State) : (putPipe i u s).pipe = s.pipe.set i.toNat u := rfl
@[simp] theorem putPipe_gz (i : Inst) (u : Pipe) (s : State) : (putPipe i u s).gz = s.gz := rfl
@[simp] theorem putPipe_fir (i : Inst) (u : Pipe) (s : State) : (putPipe i u s).fir = s.fir := rfl
@[simp] theorem putPipe_bq (i : Inst) (u : Pipe) (s : State) : (putPipe i u s).bq = s.bq := rfl
@[simp] theorem putPipe_ma (i : Inst) (u : Pipe) (s : State) : (putPipe i u s).ma = s.ma := rfl
@[simp] theorem putPipe_bs (i : Inst) (u : Pipe) (s : State) : (putPipe i u s).bs = s.bs := rfl
@[simp] theorem putPipe_bch (i : Inst) (u : Pipe) (s : State) : (putPipe i u s).bch = s.bch := rfl
@[simp] theorem putPipe_hd (i : Inst) (u : Pipe) (s : State) : (putPipe i u s).hd = s.hd := rfl
@[simp] theorem putPipe_pg (i : Inst) (u : Pipe) (s : State) : (putPipe i u s).pg = s.pg := rfl
@[simp] theorem putPipe_ext (i : Inst) (u : Pipe) (s : State) : (putPipe i u s).ext = s.ext := rfl
@[simp] theorem putPipe_outq (i : Inst) (u : Pipe) (s : State) : (putPipe i u s).outq = s.outq := rfl
@[simp] theorem putPipe_num (i : Inst) (u : Pipe) (s : State) : (putPipe i u s).num = s.num := rfl

/-! ### `putGz` -/

@[simp] theorem putGz_par (i : Inst) (u : Gz) (s : State) : (putGz i u s).par = s.par := rfl
@[simp] theorem putGz_pending (i : Inst) (u : Gz) (s : State) : (putGz i u s).pending = s.pending := rfl
@[simp] theorem putGz_out (i : Inst) (u : Gz) (s : State) : (putGz i u s).out = s.out := rfl
@[simp] theorem putGz_freeIx (i : Inst) (u : Gz) (s : State) : (putGz i u s).freeIx = s.freeIx := rfl
@[simp] theorem putGz_used (i : Inst) (u : Gz) (s : State) : (putGz i u s).used = s.used := rfl
@[simp] theorem putGz_locks (i : Inst) (u : Gz) (s : State) : (putGz i u s).locks = s.locks := rfl
@[simp] theorem putGz_pipe (i : Inst) (u : Gz) (s : State) : (putGz i u s).pipe = s.pipe := rfl
@[simp] theorem putGz_gz (i : Inst) (u : Gz) (s : State) : (putGz i u s).gz = s.gz.set i.toNat u := rfl
@[simp] theorem putGz_fir (i : Inst) (u : Gz) (s : State) : (putGz i u s).fir = s.fir := rfl
@[simp] theorem putGz_bq (i : Inst) (u : Gz) (s : State) : (putGz i u s).bq = s.bq := rfl
@[simp] theorem putGz_ma (i : Inst) (u : Gz) (s : State) : (putGz i u s).ma = s.ma := rfl
@[simp] theorem putGz_bs (i : Inst) (u : Gz) (s : State) : (putGz i u s).bs = s.bs := rfl
@[simp] theorem putGz_bch (i : Inst) (u : Gz) (s : State) : (putGz i u s).bch = s.bch := rfl
@[simp] theorem putGz_hd (i : Inst) (u : Gz) (s : State) : (putGz i u s).hd = s.hd := rfl
@[simp] theorem putGz_pg (i : Inst) (u : Gz) (s : State) : (putGz i u s).pg = s.pg := rfl
@[simp] theorem putGz_ext (i : Inst) (u : Gz) (s : State) : (putGz i u s).ext = s.ext := rfl
@[simp] theorem putGz_outq (i : Inst) (u : Gz) (s : State) : (putGz i u s).outq = s.outq := rfl
@[simp] theorem putGz_num (i : Inst) (u : Gz) (s : State) : (putGz i u s).num = s.num := rfl

/-! ### `putFir` -/

@[simp] theorem putFir_par (i : Inst) (u : Fir) (s : State) : (putFir i u s).par = s.par := rfl
@[simp] theorem putFir_pending (i : Inst) (u : Fir) (s : State) : (putFir i u s).pending = s.pending := rfl
@[simp] theorem putFir_out (i : Inst) (u : Fir) (s : State) : (putFir i u s).out = s.out := rfl
@[simp] theorem putFir_freeIx (i : Inst) (u : Fir) (s : State) : (putFir i u s).freeIx = s.freeIx := rfl
@[simp] theorem putFir_used (i : Inst) (u : Fir) (s : State) : (putFir i u s).used = s.used := rfl
@[simp] theorem putFir_locks (i : Inst) (u : Fir) (s : State) : (putFir i u s).locks = s.locks := rfl
@[simp] theorem putFir_pipe (i : Inst) (u : Fir) (s : State) : (putFir i u s).pipe = s.pipe := rfl
@[simp] theorem putFir_gz (i : Inst) (u : Fir) (s : State) : (putFir i u s).gz = s.gz := rfl
@[simp] theorem putFir_fir (i : Inst) (u : Fir) (s : State) : (putFir i u s).fir = s.fir.set i.toNat u := rfl
@[simp] theorem putFir_bq (i : Inst) (u : Fir) (s : State) : (putFir i u s).bq = s.bq := rfl
@[simp] theorem putFir_ma (i : Inst) (u : Fir) (s : State) : (putFir i u s).ma = s.ma := rfl
@[simp] theorem putFir_bs (i : Inst) (u : Fir) (s : State) : (putFir i u s).bs = s.bs := rfl
@[simp] theorem putFir_bch (i : Inst) (u : Fir) (s : State) : (putFir i u s).bch = s.bch := rfl
@[simp] theorem putFir_hd (i : Inst) (u : Fir) (s : State) : (putFir i u s).hd = s.hd := rfl
@[simp] theorem putFir_pg (i : Inst) (u : Fir) (s : State) : (putFir i u s).pg = s.pg := rfl
@[simp] theorem putFir_ext (i : Inst) (u : Fir) (s : State) : (putFir i u s).ext = s.ext := rfl
@[simp] theorem putFir_outq (i : Inst) (u : Fir) (s : State) : (putFir i u s).outq = s.outq := rfl
@[simp] theorem putFir_num (i : Inst) (u : Fir) (s : State) : (putFir i u s).num = s.num := rfl

/-! ### `putBq` -/

@[simp] theorem putBq_par (i : Inst) (u : Bq) (s : State) : (putBq i u s).par = s.par := rfl
@[simp] theorem putBq_pending (i : Inst) (u : Bq) (s : State) : (putBq i u s).pending = s.pending := rfl
@[simp] theorem putBq_out (i : Inst) (u : Bq) (s : State) : (putBq i u s).out = s.out := rfl
@[simp] theorem putBq_freeIx (i : Inst) (u : Bq) (s : State) : (putBq i u s).freeIx = s.freeIx := rfl
@[simp] theorem putBq_used (i : Inst) (u : Bq) (s : State) : (putBq i u s).used = s.used := rfl
@[simp] theorem putBq_locks (i : Inst) (u : Bq) (s : State) : (putBq i u s).locks = s.locks := rfl
@[simp] theorem putBq_pipe (i : Inst) (u : Bq) (s : State) : (putBq i u s).pipe = s.pipe := rfl
@[simp] theorem putBq_gz (i : Inst) (u : Bq) (s : State) : (putBq i u s).gz = s.gz := rfl
@[simp] theorem putBq_fir (i : Inst) (u : Bq) (s : State) : (putBq i u s).fir = s.fir := rfl
@[simp] theorem putBq_bq (i : Inst) (u : Bq) (s : State) : (putBq i u s).bq = s.bq.set i.toNat u := rfl
@[simp] theorem putBq_ma (i : Inst) (u : Bq) (s : State) : (putBq i u s).ma = s.ma := rfl
@[simp] theorem putBq_bs (i : Inst) (u : Bq) (s : State) : (putBq i u s).bs = s.bs := rfl
@[simp] theorem putBq_bch (i : Inst) (u : Bq) (s : State) : (putBq i u s).bch = s.bch := rfl
@[simp] theorem putBq_hd (i : Inst) (u : Bq) (s : State) : (putBq i u s).hd = s.hd := rfl
@[simp] theorem putBq_pg (i : Inst) (u : Bq) (s : State) : (putBq i u s).pg = s.pg := rfl
@[simp] theorem putBq_ext (i : Inst) (u : Bq) (s : State) : (putBq i u s).ext = s.ext := rfl
@[simp] theorem putBq_outq (i : Inst) (u : Bq) (s : State) : (putBq i u s).outq = s.outq := rfl
@[simp] theorem putBq_num (i : Inst) (u : Bq) (s : State) : (putBq i u s).num = s.num := rfl

/-! ### `putMa` -/

@[simp] theorem putMa_par (i : Inst) (u : Ma) (s : State) : (putMa i u s).par = s.par := rfl
@[simp] theorem putMa_pending (i : Inst) (u : Ma) (s : State) : (putMa i u s).pending = s.pending := rfl
@[simp] theorem putMa_out (i : Inst) (u : Ma) (s : State) : (putMa i u s).out = s.out := rfl
@[simp] theorem putMa_freeIx (i : Inst) (u : Ma) (s : State) : (putMa i u s).freeIx = s.freeIx := rfl
@[simp] theorem putMa_used (i : Inst) (u : Ma) (s : State) : (putMa i u s).used = s.used := rfl
@[simp] theorem putMa_locks (i : Inst) (u : Ma) (s : State) : (putMa i u s).locks = s.locks := rfl
@[simp] theorem putMa_pipe (i : Inst) (u : Ma) (s : State) : (putMa i u s).pipe = s.pipe := rfl
@[simp] theorem putMa_gz (i : Inst) (u : Ma) (s : State) : (putMa i u s).gz = s.gz := rfl
@[simp] theorem putMa_fir (i : Inst) (u : Ma) (s : State) : (putMa i u s).fir = s.fir := rfl
@[simp] theorem putMa_bq (i : Inst) (u : Ma) (s : State) : (putMa i u s).bq = s.bq := rfl
@[simp] theorem putMa_ma (i : Inst) (u : Ma) (s : State) : (putMa i u s).ma = s.ma.set i.toNat u := rfl
@[simp] theorem putMa_bs (i : Inst) (u : Ma) (s : State) : (putMa i u s).bs = s.bs := rfl
@[simp] theorem putMa_bch (i : Inst) (u : Ma) (s : State) : (putMa i u s).bch = s.bch := rfl
@[simp] theorem putMa_hd (i : Inst) (u : Ma) (s : State) : (putMa i u s).hd = s.hd := rfl
@[simp] theorem putMa_pg (i : Inst) (u : Ma) (s : State) : (putMa i u s).pg = s.pg := rfl
@[simp] theorem putMa_ext (i : Inst) (u : Ma) (s : State) : (putMa i u s).ext = s.ext := rfl
@[simp] theorem putMa_outq (i : Inst) (u : Ma) (s : State) : (putMa i u s).outq = s.outq := rfl
@[simp] theorem putMa_num (i : Inst) (u : Ma) (s : State) : (putMa i u s).num = s.num := rfl

/-! ### `putBs` -/

@[simp] theorem putBs_par (i : Inst) (u : Bs) (s : State) : (putBs i u s).par = s.par := rfl
@[simp] theorem putBs_pending (i : Inst) (u : Bs) (s : State) : (putBs i u s).pending = s.pending := rfl
@[simp] theorem putBs_out (i : Inst) (u : Bs) (s : State) : (putBs i u s).out = s.out := rfl
@[simp] theorem putBs_freeIx (i : Inst) (u : Bs) (s : State) : (putBs i u s).freeIx = s.freeIx := rfl
@[simp] theorem putBs_used (i : Inst) (u : Bs) (s : State) : (putBs i u s).used = s.used := rfl
@[simp] theorem putBs_locks (i : Inst) (u : Bs) (s : State) : (putBs i u s).locks = s.locks := rfl
@[simp] theorem putBs_pipe (i : Inst) (u : Bs) (s : State) : (putBs i u s).pipe = s.pipe := rfl
@[simp] theorem putBs_gz (i : Inst) (u : Bs) (s : State) : (putBs i u s).gz = s.gz := rfl
@[simp] theorem putBs_fir (i : Inst) (u : Bs) (s : State) : (putBs i u s).fir = s.fir := rfl
@[simp] theorem putBs_bq (i : Inst) (u : Bs) (s : State) : (putBs i u s).bq = s.bq := rfl
@[simp] theorem putBs_ma (i : Inst) (u : Bs) (s : State) : (putBs i u s).ma = s.ma := rfl
@[simp] theorem putBs_bs (i : Inst) (u : Bs) (s : State) : (putBs i u s).bs = s.bs.set i.toNat u := rfl
@[simp] theorem putBs_bch (i : Inst) (u : Bs) (s : State) : (putBs i u s).bch = s.bch := rfl
@[simp] theorem putBs_hd (i : Inst) (u : Bs) (s : State) : (putBs i u s).hd = s.hd := rfl
@[simp] theorem putBs_pg (i : Inst) (u : Bs) (s : State) : (putBs i u s).pg = s.pg := rfl
@[simp] theorem putBs_ext (i : Inst) (u : Bs) (s : State) : (putBs i u s).ext = s.ext := rfl
@[simp] theorem putBs_outq (i : Inst) (u : Bs) (s : State) : (putBs i u s).outq = s.outq := rfl
@[simp] theorem putBs_num (i : Inst) (u : Bs) (s : State) : (putBs i u s).num = s.num := rfl

/-! ### `putBch` -/

@[simp] theorem putBch_par (i : Inst) (u : Bch) (s : State) : (putBch i u s).par = s.par := rfl
@[simp] theorem putBch_pending (i : Inst) (u : Bch) (s : State) : (putBch i u s).pending = s.pending := rfl
@[simp] theorem putBch_out (i : Inst) (u : Bch) (s : State) : (putBch i u s).out = s.out := rfl
@[simp] theorem putBch_freeIx (i : Inst) (u : Bch) (s : State) : (putBch i u s).freeIx = s.freeIx := rfl
@[simp] theorem putBch_used (i : Inst) (u : Bch) (s : State) : (putBch i u s).used = s.used := rfl
@[simp] theorem putBch_locks (i : Inst) (u : Bch) (s : State) : (putBch i u s).locks = s.locks := rfl
@[simp] theorem putBch_pipe (i : Inst) (u : Bch) (s : State) : (putBch i u s).pipe = s.pipe := rfl
@[simp] theorem putBch_gz (i : Inst) (u : Bch) (s : State) : (putBch i u s).gz = s.gz := rfl
@[simp] theorem putBch_fir (i : Inst) (u : Bch) (s : State) : (putBch i u s).fir = s.fir := rfl
@[simp] theorem putBch_bq (i : Inst) (u : Bch) (s : State) : (putBch i u s).bq = s.bq := rfl
@[simp] theorem putBch_ma (i : Inst) (u : Bch) (s : State) : (putBch i u s).ma = s.ma := rfl
@[simp] theorem putBch_bs (i : Inst) (u : Bch) (s : State) : (putBch i u s).bs = s.bs := rfl
@[simp] theorem putBch_bch (i : Inst) (u : Bch) (s : State) : (putBch i u s).bch = s.bch.set i.toNat u := rfl
@[simp] theorem putBch_hd (i : Inst) (u : Bch) (s : State) : (putBch i u s).hd = s.hd := rfl
@[simp] theorem putBch_pg (i : Inst) (u : Bch) (s : State) : (putBch i u s).pg = s.pg := rfl
@[simp] theorem putBch_ext (i : Inst) (u : Bch) (s : State) : (putBch i u s).ext = s.ext := rfl
@[simp] theorem putBch_outq (i : Inst) (u : Bch) (s : State) : (putBch i u s).outq = s.outq := rfl
@[simp] theorem putBch_num (i : Inst) (u : Bch) (s : State) : (putBch i u s).num = s.num := rfl

/-! ### `putHd` -/

@[simp] theorem putHd_par (i : Inst) (u : Hd) (s : State) : (putHd i u s).par = s.par := rfl
@[simp] theorem putHd_pending (i : Inst) (u : Hd) (s : State) : (putHd i u s).pending = s.pending := rfl
@[simp] theorem putHd_out (i : Inst) (u : Hd) (s : State) : (putHd i u s).out = s.out := rfl
@[simp] theorem putHd_freeIx (i : Inst) (u : Hd) (s : State) : (putHd i u s).freeIx = s.freeIx := rfl
@[simp] theorem putHd_used (i : Inst) (u : Hd) (s : State) : (putHd i u s).used = s.used := rfl
@[simp] theorem putHd_locks (i : Inst) (u : Hd) (s : State) : (putHd i u s).locks = s.locks := rfl
@[simp] theorem putHd_pipe (i : Inst) (u : Hd) (s : State) : (putHd i u s).pipe = s.pipe := rfl
@[simp] theorem putHd_gz (i : Inst) (u : Hd) (s : State) : (putHd i u s).gz = s.gz := rfl
@[simp] theorem putHd_fir (i : Inst) (u : Hd) (s : State) : (putHd i u s).fir = s.fir := rfl
@[simp] theorem putHd_bq (i : Inst) (u : Hd) (s : State) : (putHd i u s).bq = s.bq := rfl
@[simp] theorem putHd_ma (i : Inst) (u : Hd) (s : State) : (putHd i u s).ma = s.ma := rfl
@[simp] theorem putHd_bs (i : Inst) (u : Hd) (s : State) : (putHd i u s).bs = s.bs := rfl
@[simp] theorem putHd_bch (i : Inst) (u : Hd) (s : State) : (putHd i u s).bch = s.bch := rfl
@[simp] theorem putHd_hd (i : Inst) (u : Hd) (s : State) : (putHd i u s).hd = s.hd.set i.toNat u := rfl
@[simp] theorem putHd_pg (i : Inst) (u : Hd) (s : State) : (putHd i u s).pg = s.pg := rfl
@[simp] theorem putHd_ext (i : Inst) (u : Hd) (s : State) : (putHd i u s).ext = s.ext := rfl
@[simp] theorem putHd_outq (i : Inst) (u : Hd) (s : State) : (putHd i u s).outq = s.outq := rfl
@[simp] theorem putHd_num (i : Inst) (u : Hd) (s : State) : (putHd i u s).num = s.num := rfl

/-! ### `putPg` -/

@[simp] theorem putPg_par (i : Inst) (u : Pg) (s : State) : (putPg i u s).par = s.par := rfl
@[simp] theorem putPg_pending (i : Inst) (u : Pg) (s : State) : (putPg i u s).pending = s.pending := rfl
@[simp] theorem putPg_out (i : Inst) (u : Pg) (s : State) : (putPg i u s).out = s.out := rfl
@[simp] theorem putPg_freeIx (i : Inst) (u : Pg) (s : State) : (putPg i u s).freeIx = s.freeIx := rfl
@[simp] theorem putPg_used (i : Inst) (u : Pg) (s : State) : (putPg i u s).used = s.used := rfl
@[simp] theorem putPg_locks (i : Inst) (u : Pg) (s : State) : (putPg i u s).locks = s.locks := rfl
@[simp] theorem putPg_pipe (i : Inst) (u : Pg) (s : State) : (putPg i u s).pipe = s.pipe := rfl
@[simp] theorem putPg_gz (i : Inst) (u : Pg) (s : State) : (putPg i u s).gz = s.gz := rfl
@[simp] theorem putPg_fir (i : Inst) (u : Pg) (s : State) : (putPg i u s).fir = s.fir := rfl
@[simp] theorem putPg_bq (i : Inst) (u : Pg) (s : State) : (putPg i u s).bq = s.bq := rfl
@[simp] theorem putPg_ma (i : Inst) (u : Pg) (s : State) : (putPg i u s).ma = s.ma := rfl
@[simp] theorem putPg_bs (i : Inst) (u : Pg) (s : State) : (putPg i u s).bs = s.bs := rfl
@[simp] theorem putPg_bch (i : Inst) (u : Pg) (s : State) : (putPg i u s).bch = s.bch := rfl
@[simp] theorem putPg_hd (i : Inst) (u : Pg) (s : State) : (putPg i u s).hd = s.hd := rfl
@[simp] theorem putPg_pg (i : Inst) (u : Pg) (s : State) : (putPg i u s).pg = s.pg.set i.toNat u := rfl
@[simp] theorem putPg_ext (i : Inst) (u : Pg) (s : State) : (putPg i u s).ext = s.ext := rfl
@[simp] theorem putPg_outq (i : Inst) (u : Pg) (s : State) : (putPg i u s).outq = s.outq := rfl
@[simp] theorem putPg_num (i : Inst) (u : Pg) (s : State) : (putPg i u s).num = s.num := rfl

/-! ### `reject` -/

@[simp] theorem reject_par (e : Status) (s : State) : (reject e s).par = s.par := rfl
@[simp] theorem reject_pending (e : Status) (s : State) : (reject e s).pending = s.pending := rfl
@[simp] theorem reject_out (e : Status) (s : State) : (reject e s).out = ⟨e, .none, [], []⟩ := rfl
@[simp] theorem reject_freeIx (e : Status) (s : State) : (reject e s).freeIx = s.freeIx := rfl
@[simp] theorem reject_used (e : Status) (s : State) : (reject e s).used = s.used := rfl
@[simp] theorem reject_locks (e : Status) (s : State) : (reject e s).locks = s.locks := rfl
@[simp] theorem reject_pipe (e : Status) (s : State) : (reject e s).pipe = s.pipe := rfl
@[simp] theorem reject_gz (e : Status) (s : State) : (reject e s).gz = s.gz := rfl
@[simp] theorem reject_fir (e : Status) (s : State) : (reject e s).fir = s.fir := rfl
@[simp] theorem reject_bq (e : Status) (s : State) : (reject e s).bq = s.bq := rfl
@[simp] theorem reject_ma (e : Status) (s : State) : (reject e s).ma = s.ma := rfl
@[simp] theorem reject_bs (e : Status) (s : State) : (reject e s).bs = s.bs := rfl
@[simp] theorem reject_bch (e : Status) (s : State) : (reject e s).bch = s.bch := rfl
@[simp] theorem reject_hd (e : Status) (s : State) : (reject e s).hd = s.hd := rfl
@[simp] theorem reject_pg (e : Status) (s : State) : (reject e s).pg = s.pg := rfl
@[simp] theorem reject_ext (e : Status) (s : State) : (reject e s).ext = s.ext := rfl
@[simp] theorem reject_outq (e : Status) (s : State) : (reject e s).outq = s.outq := rfl
@[simp] theorem reject_num (e : Status) (s : State) : (reject e s).num = s.num := rfl

/-! ### `acquire` -/

@[simp] theorem acquire_par (n : Nid) (s : State) : (acquire n s).par = s.par := rfl
@[simp] theorem acquire_pending (n : Nid) (s : State) : (acquire n s).pending = s.pending := rfl
@[simp] theorem acquire_out (n : Nid) (s : State) : (acquire n s).out = s.out := rfl
@[simp] theorem acquire_freeIx (n : Nid) (s : State) : (acquire n s).freeIx = s.freeIx := rfl
@[simp] theorem acquire_used (n : Nid) (s : State) : (acquire n s).used = s.used := rfl
@[simp] theorem acquire_locks (n : Nid) (s : State) : (acquire n s).locks = n :: s.locks := rfl
@[simp] theorem acquire_pipe (n : Nid) (s : State) : (acquire n s).pipe = s.pipe := rfl
@[simp] theorem acquire_gz (n : Nid) (s : State) : (acquire n s).gz = s.gz := rfl
@[simp] theorem acquire_fir (n : Nid) (s : State) : (acquire n s).fir = s.fir := rfl
@[simp] theorem acquire_bq (n : Nid) (s : State) : (acquire n s).bq = s.bq := rfl
@[simp] theorem acquire_ma (n : Nid) (s : State) : (acquire n s).ma = s.ma := rfl
@[simp] theorem acquire_bs (n : Nid) (s : State) : (acquire n s).bs = s.bs := rfl
@[simp] theorem acquire_bch (n : Nid) (s : State) : (acquire n s).bch = s.bch := rfl
@[simp] theorem acquire_hd (n : Nid) (s : State) : (acquire n s).hd = s.hd := rfl
@[simp] theorem acquire_pg (n : Nid) (s : State) : (acquire n s).pg = s.pg := rfl
@[simp] theorem acquire_ext (n : Nid) (s : State) : (acquire n s).ext = s.ext := rfl
@[simp] theorem acquire_outq (n : Nid) (s : State) : (acquire n s).outq = s.outq := rfl
@[simp] theorem acquire_num (n : Nid) (s : State) : (acquire n s).num = s.num := rfl

/-! ### `release` -/

@[simp] theorem release_par (n : Nid) (s : State) : (release n s).par = s.par := rfl
@[simp] theorem release_pending (n : Nid) (s : State) : (release n s).pending = s.pending := rfl
@[simp] theorem release_out (n : Nid) (s : State) : (release n s).out = s.out := rfl
@[simp] theorem release_freeIx (n : Nid) (s : State) : (release n s).freeIx = s.freeIx := rfl
@[simp] theorem release_used (n : Nid) (s : State) : (release n s).used = s.used := rfl
@[simp] theorem release_locks (n : Nid) (s : State) : (release n s).locks = s.locks.erase n := rfl
@[simp] theorem release_pipe (n : Nid) (s : State) : (release n s).pipe = s.pipe := rfl
@[simp] theorem release_gz (n : Nid) (s : State) : (release n s).gz = s.gz := rfl
@[simp] theorem release_fir (n : Nid) (s : State) : (release n s).fir = s.fir := rfl
@[simp] theorem release_bq (n : Nid) (s : State) : (release n s).bq = s.bq := rfl
@[simp] theorem release_ma (n : Nid) (s : State) : (release n s).ma = s.ma := rfl
@[simp] theorem release_bs (n : Nid) (s : State) : (release n s).bs = s.bs := rfl
@[simp] theorem release_bch (n : Nid) (s : State) : (release n s).bch = s.bch := rfl
@[simp] theorem release_hd (n : Nid) (s : State) : (release n s).hd = s.hd := rfl
@[simp] theorem release_pg (n : Nid) (s : State) : (release n s).pg = s.pg := rfl
@[simp] theorem release_ext (n : Nid) (s : State) : (release n s).ext = s.ext := rfl
@[simp] theorem release_outq (n : Nid) (s : State) : (release n s).outq = s.outq := rfl
@[simp] theorem release_num (n : Nid) (s : State) : (release n s).num = s.num := rfl

/-! ### `issue` -/

@[simp] theorem issue_par (c : Command) (s : State) : (issue c s).par = s.par := rfl
@[simp] theorem issue_pending (c : Command) (s : State) : (issue c s).pending = c :: s.pending := rfl
@[simp] theorem issue_out (c : Command) (s : State) : (issue c s).out = s.out := rfl
@[simp] theorem issue_freeIx (c : Command) (s : State) : (issue c s).freeIx = s.freeIx := rfl
@[simp] theorem issue_used (c : Command) (s : State) : (issue c s).used = s.used := rfl
@[simp] theorem issue_locks (c : Command) (s : State) : (issue c s).locks = s.locks := rfl
@[simp] theorem issue_pipe (c : Command) (s : State) : (issue c s).pipe = s.pipe := rfl
@[simp] theorem issue_gz (c : Command) (s : State) : (issue c s).gz = s.gz := rfl
@[simp] theorem issue_fir (c : Command) (s : State) : (issue c s).fir = s.fir := rfl
@[simp] theorem issue_bq (c : Command) (s : State) : (issue c s).bq = s.bq := rfl
@[simp] theorem issue_ma (c : Command) (s : State) : (issue c s).ma = s.ma := rfl
@[simp] theorem issue_bs (c : Command) (s : State) : (issue c s).bs = s.bs := rfl
@[simp] theorem issue_bch (c : Command) (s : State) : (issue c s).bch = s.bch := rfl
@[simp] theorem issue_hd (c : Command) (s : State) : (issue c s).hd = s.hd := rfl
@[simp] theorem issue_pg (c : Command) (s : State) : (issue c s).pg = s.pg := rfl
@[simp] theorem issue_ext (c : Command) (s : State) : (issue c s).ext = s.ext := rfl
@[simp] theorem issue_outq (c : Command) (s : State) : (issue c s).outq = s.outq := rfl
@[simp] theorem issue_num (c : Command) (s : State) : (issue c s).num = s.num := rfl

/-! ### `emit` -/

@[simp] theorem emit_par (m : Message) (s : State) : (emit m s).par = s.par := rfl
@[simp] theorem emit_pending (m : Message) (s : State) : (emit m s).pending = s.pending := rfl
@[simp] theorem emit_out (m : Message) (s : State) : (emit m s).out = s.out := rfl
@[simp] theorem emit_freeIx (m : Message) (s : State) : (emit m s).freeIx = s.freeIx := rfl
@[simp] theorem emit_used (m : Message) (s : State) : (emit m s).used = s.used := rfl
@[simp] theorem emit_locks (m : Message) (s : State) : (emit m s).locks = s.locks := by
  simp [emit, underLock, acquire, release]
@[simp] theorem emit_pipe (m : Message) (s : State) : (emit m s).pipe = s.pipe := rfl
@[simp] theorem emit_gz (m : Message) (s : State) : (emit m s).gz = s.gz := rfl
@[simp] theorem emit_fir (m : Message) (s : State) : (emit m s).fir = s.fir := rfl
@[simp] theorem emit_bq (m : Message) (s : State) : (emit m s).bq = s.bq := rfl
@[simp] theorem emit_ma (m : Message) (s : State) : (emit m s).ma = s.ma := rfl
@[simp] theorem emit_bs (m : Message) (s : State) : (emit m s).bs = s.bs := rfl
@[simp] theorem emit_bch (m : Message) (s : State) : (emit m s).bch = s.bch := rfl
@[simp] theorem emit_hd (m : Message) (s : State) : (emit m s).hd = s.hd := rfl
@[simp] theorem emit_pg (m : Message) (s : State) : (emit m s).pg = s.pg := rfl
@[simp] theorem emit_ext (m : Message) (s : State) : (emit m s).ext = s.ext := rfl
@[simp] theorem emit_outq (m : Message) (s : State) : (emit m s).outq = s.outq ++ [m] := rfl
@[simp] theorem emit_num (m : Message) (s : State) : (emit m s).num = s.num := rfl

/-! ### `drain` -/

@[simp] theorem drain_par (s : State) : (drain s).par = s.par := rfl
@[simp] theorem drain_pending (s : State) : (drain s).pending = s.pending := rfl
@[simp] theorem drain_out (s : State) : (drain s).out = s.out := rfl
@[simp] theorem drain_freeIx (s : State) : (drain s).freeIx = s.freeIx := rfl
@[simp] theorem drain_used (s : State) : (drain s).used = s.used := rfl
@[simp] theorem drain_locks (s : State) : (drain s).locks = s.locks := by
  simp [drain, underLock, acquire, release]
@[simp] theorem drain_pipe (s : State) : (drain s).pipe = s.pipe := rfl
@[simp] theorem drain_gz (s : State) : (drain s).gz = s.gz := rfl
@[simp] theorem drain_fir (s : State) : (drain s).fir = s.fir := rfl
@[simp] theorem drain_bq (s : State) : (drain s).bq = s.bq := rfl
@[simp] theorem drain_ma (s : State) : (drain s).ma = s.ma := rfl
@[simp] theorem drain_bs (s : State) : (drain s).bs = s.bs := rfl
@[simp] theorem drain_bch (s : State) : (drain s).bch = s.bch := rfl
@[simp] theorem drain_hd (s : State) : (drain s).hd = s.hd := rfl
@[simp] theorem drain_pg (s : State) : (drain s).pg = s.pg := rfl
@[simp] theorem drain_ext (s : State) : (drain s).ext = s.ext := rfl
@[simp] theorem drain_outq (s : State) : (drain s).outq = [] := rfl
@[simp] theorem drain_num (s : State) : (drain s).num = s.num := rfl

/-! ### `putExt` -/

@[simp] theorem putExt_par (n : Nid) (e : Ext) (s : State) : (putExt n e s).par = s.par := rfl
@[simp] theorem putExt_pending (n : Nid) (e : Ext) (s : State) : (putExt n e s).pending = s.pending := rfl
@[simp] theorem putExt_out (n : Nid) (e : Ext) (s : State) : (putExt n e s).out = s.out := rfl
@[simp] theorem putExt_freeIx (n : Nid) (e : Ext) (s : State) : (putExt n e s).freeIx = s.freeIx := rfl
@[simp] theorem putExt_used (n : Nid) (e : Ext) (s : State) : (putExt n e s).used = s.used := rfl
@[simp] theorem putExt_locks (n : Nid) (e : Ext) (s : State) : (putExt n e s).locks = s.locks := rfl
@[simp] theorem putExt_pipe (n : Nid) (e : Ext) (s : State) : (putExt n e s).pipe = s.pipe := rfl
@[simp] theorem putExt_gz (n : Nid) (e : Ext) (s : State) : (putExt n e s).gz = s.gz := rfl
@[simp] theorem putExt_fir (n : Nid) (e : Ext) (s : State) : (putExt n e s).fir = s.fir := rfl
@[simp] theorem putExt_bq (n : Nid) (e : Ext) (s : State) : (putExt n e s).bq = s.bq := rfl
@[simp] theorem putExt_ma (n : Nid) (e : Ext) (s : State) : (putExt n e s).ma = s.ma := rfl
@[simp] theorem putExt_bs (n : Nid) (e : Ext) (s : State) : (putExt n e s).bs = s.bs := rfl
@[simp] theorem putExt_bch (n : Nid) (e : Ext) (s : State) : (putExt n e s).bch = s.bch := rfl
@[simp] theorem putExt_hd (n : Nid) (e : Ext) (s : State) : (putExt n e s).hd = s.hd := rfl
@[simp] theorem putExt_pg (n : Nid) (e : Ext) (s : State) : (putExt n e s).pg = s.pg := rfl
@[simp] theorem putExt_ext (n : Nid) (e : Ext) (s : State) : (putExt n e s).ext = s.ext.map fun x => if x.nid == n then e else x := rfl
@[simp] theorem putExt_outq (n : Nid) (e : Ext) (s : State) : (putExt n e s).outq = s.outq := rfl
@[simp] theorem putExt_num (n : Nid) (e : Ext) (s : State) : (putExt n e s).num = s.num := rfl

/-! ### `routed` -/

@[simp] theorem routed_par (s : State) : (routed s).par = s.par := rfl
@[simp] theorem routed_pending (s : State) : (routed s).pending = (followUps s.num s.par s.out).map encode ++ s.pending := rfl
@[simp] theorem routed_out (s : State) : (routed s).out = s.out := rfl
@[simp] theorem routed_freeIx (s : State) : (routed s).freeIx = s.freeIx := rfl
@[simp] theorem routed_used (s : State) : (routed s).used = s.used := rfl
@[simp] theorem routed_locks (s : State) : (routed s).locks = s.locks := rfl
@[simp] theorem routed_pipe (s : State) : (routed s).pipe = s.pipe := rfl
@[simp] theorem routed_gz (s : State) : (routed s).gz = s.gz := rfl
@[simp] theorem routed_fir (s : State) : (routed s).fir = s.fir := rfl
@[simp] theorem routed_bq (s : State) : (routed s).bq = s.bq := rfl
@[simp] theorem routed_ma (s : State) : (routed s).ma = s.ma := rfl
@[simp] theorem routed_bs (s : State) : (routed s).bs = s.bs := rfl
@[simp] theorem routed_bch (s : State) : (routed s).bch = s.bch := rfl
@[simp] theorem routed_hd (s : State) : (routed s).hd = s.hd := rfl
@[simp] theorem routed_pg (s : State) : (routed s).pg = s.pg := rfl
@[simp] theorem routed_ext (s : State) : (routed s).ext = s.ext := rfl
@[simp] theorem routed_outq (s : State) : (routed s).outq = s.outq := rfl
@[simp] theorem routed_num (s : State) : (routed s).num = s.num := rfl

/-! ### `accept` -/

@[simp] theorem accept_par (d : Done) (b : List Delivered) : (accept d b).par = d.st.par := rfl
@[simp] theorem accept_pending (d : Done) (b : List Delivered) : (accept d b).pending = d.st.pending := rfl
@[simp] theorem accept_out (d : Done) (b : List Delivered) : (accept d b).out = ⟨.ok, d.res, d.evs, b⟩ := rfl
@[simp] theorem accept_freeIx (d : Done) (b : List Delivered) : (accept d b).freeIx = d.st.freeIx := rfl
@[simp] theorem accept_used (d : Done) (b : List Delivered) : (accept d b).used = d.st.used := rfl
@[simp] theorem accept_locks (d : Done) (b : List Delivered) : (accept d b).locks = d.st.locks := rfl
@[simp] theorem accept_pipe (d : Done) (b : List Delivered) : (accept d b).pipe = d.st.pipe := rfl
@[simp] theorem accept_gz (d : Done) (b : List Delivered) : (accept d b).gz = d.st.gz := rfl
@[simp] theorem accept_fir (d : Done) (b : List Delivered) : (accept d b).fir = d.st.fir := rfl
@[simp] theorem accept_bq (d : Done) (b : List Delivered) : (accept d b).bq = d.st.bq := rfl
@[simp] theorem accept_ma (d : Done) (b : List Delivered) : (accept d b).ma = d.st.ma := rfl
@[simp] theorem accept_bs (d : Done) (b : List Delivered) : (accept d b).bs = d.st.bs := rfl
@[simp] theorem accept_bch (d : Done) (b : List Delivered) : (accept d b).bch = d.st.bch := rfl
@[simp] theorem accept_hd (d : Done) (b : List Delivered) : (accept d b).hd = d.st.hd := rfl
@[simp] theorem accept_pg (d : Done) (b : List Delivered) : (accept d b).pg = d.st.pg := rfl
@[simp] theorem accept_ext (d : Done) (b : List Delivered) : (accept d b).ext = d.st.ext := rfl
@[simp] theorem accept_outq (d : Done) (b : List Delivered) : (accept d b).outq = d.st.outq := rfl
@[simp] theorem accept_num (d : Done) (b : List Delivered) : (accept d b).num = d.st.num := rfl

/-! ### `coreReset` -/

@[simp] theorem coreReset_par (s : State) : (coreReset s).par = s.par := rfl
@[simp] theorem coreReset_pending (s : State) : (coreReset s).pending = s.pending := rfl
@[simp] theorem coreReset_out (s : State) : (coreReset s).out = s.out := rfl
@[simp] theorem coreReset_freeIx (s : State) : (coreReset s).freeIx = s.freeIx := rfl
@[simp] theorem coreReset_used (s : State) : (coreReset s).used = [] := rfl
@[simp] theorem coreReset_locks (s : State) : (coreReset s).locks = [] := rfl
@[simp] theorem coreReset_pipe (s : State) : (coreReset s).pipe = resetAll .unconf s.pipe := rfl
@[simp] theorem coreReset_gz (s : State) : (coreReset s).gz = resetAll .unconf s.gz := rfl
@[simp] theorem coreReset_fir (s : State) : (coreReset s).fir = resetAll .unconf s.fir := rfl
@[simp] theorem coreReset_bq (s : State) : (coreReset s).bq = resetAll .unconf s.bq := rfl
@[simp] theorem coreReset_ma (s : State) : (coreReset s).ma = resetAll .unconf s.ma := rfl
@[simp] theorem coreReset_bs (s : State) : (coreReset s).bs = resetAll .unconf s.bs := rfl
@[simp] theorem coreReset_bch (s : State) : (coreReset s).bch = resetAll .unconf s.bch := rfl
@[simp] theorem coreReset_hd (s : State) : (coreReset s).hd = resetAll Hd.reset s.hd := rfl
@[simp] theorem coreReset_pg (s : State) : (coreReset s).pg = resetAll (Pg.reset s.num.zero) s.pg := rfl
@[simp] theorem coreReset_ext (s : State) : (coreReset s).ext = s.ext.map resetExt := rfl
@[simp] theorem coreReset_outq (s : State) : (coreReset s).outq = [] := rfl
@[simp] theorem coreReset_num (s : State) : (coreReset s).num = s.num := rfl

/-! ### Updates made under a lock -/

/-- An action that leaves the locks alone is unchanged by the lock around it (rules R79 to R81). -/
theorem underLock_eq (n : Nid) (act : State → State) (s : State)
    (h : ∀ t, act { t with locks := n :: s.locks } = { act t with locks := n :: s.locks })
    (hl : (act s).locks = s.locks) : underLock n act s = act s := by
  unfold underLock release acquire
  rw [h s]
  simp only [List.erase_cons_head]
  rw [← hl]

@[simp] theorem underLock_putGz (n : Nid) (i : Inst) (u : Gz) (s : State) :
    underLock n (putGz i u) s = putGz i u s :=
  underLock_eq n _ s (fun _ => rfl) rfl

@[simp] theorem underLock_putFir (n : Nid) (i : Inst) (u : Fir) (s : State) :
    underLock n (putFir i u) s = putFir i u s :=
  underLock_eq n _ s (fun _ => rfl) rfl

@[simp] theorem underLock_putBq (n : Nid) (i : Inst) (u : Bq) (s : State) :
    underLock n (putBq i u) s = putBq i u s :=
  underLock_eq n _ s (fun _ => rfl) rfl

@[simp] theorem underLock_putMa (n : Nid) (i : Inst) (u : Ma) (s : State) :
    underLock n (putMa i u) s = putMa i u s :=
  underLock_eq n _ s (fun _ => rfl) rfl

@[simp] theorem underLock_putBs (n : Nid) (i : Inst) (u : Bs) (s : State) :
    underLock n (putBs i u) s = putBs i u s :=
  underLock_eq n _ s (fun _ => rfl) rfl

/-- `emit` appends to the buffer and leaves everything else, the lock included (rule R343). -/
theorem emit_eq (m : Message) (s : State) : emit m s = { s with outq := s.outq ++ [m] } := by
  unfold emit
  exact underLock_eq outqLock _ s (fun _ => rfl) rfl

/-- `drain` empties the buffer and leaves everything else (rule R344). -/
theorem drain_eq (s : State) : drain s = { s with outq := [] } := by
  unfold drain
  exact underLock_eq outqLock _ s (fun _ => rfl) rfl

end Machine
end Sys2Proof
end

