-- ==== Sys2Proof/Laws/Ops.lean ====
section
/-!
SUPPORT. For each shared operation of Machine/Ops.lean, what it can do: the lemmas that a proof about
a meaning cites instead of unfolding the operation.
-/

namespace Sys2Proof
namespace Machine

/-! ### Answers -/

@[simp] theorem conclude_error (s : State) (e : Status) :
    conclude s (.error e) = .next (reject e s) := rfl

@[simp] theorem conclude_ok (s : State) (d : Done) : conclude s (.ok d) = .next (accept d []) := rfl

@[simp] theorem concludeBits_error (s : State) (e : Status) :
    concludeBits s (.error e) = .next (reject e s) := rfl

@[simp] theorem concludeBits_ok (s : State) (d : Done) (bits : List Delivered) :
    concludeBits s (.ok (d, bits)) = .next (accept d bits) := rfl

/-- An operation ends in a next state: it was rejected and changed only the ports, or it was
executed. -/
theorem conclude_next {s t : State} {a : Ans Done} :
    conclude s a = .next t ↔
      (∃ e, a = .error e ∧ t = reject e s) ∨ (∃ d, a = .ok d ∧ t = accept d []) := by
  cases a <;> simp [eq_comm]

/-- `conclude_next` for the operations that can deliver bits. -/
theorem concludeBits_next {s t : State} {a : Ans (Done × List Delivered)} :
    concludeBits s a = .next t ↔
      (∃ e, a = .error e ∧ t = reject e s) ∨ (∃ d bits, a = .ok (d, bits) ∧ t = accept d bits) := by
  rcases a with e | ⟨d, bits⟩
  · simp [eq_comm]
  · rw [concludeBits_ok]
    constructor
    · intro h; exact .inr ⟨d, bits, rfl, (Host.Outcome.next.inj h).symm⟩
    · rintro (⟨e, h, _⟩ | ⟨_, _, h, rfl⟩)
      · exact nomatch h
      · cases h; rfl

/-- The rule of an operation is a sequence of checks: it comes to a value only if its first part
does. -/
theorem bind_ok {α β : Type} {a : Ans α} {f : α → Ans β} {b : β} :
    (a >>= f) = .ok b ↔ ∃ x, a = .ok x ∧ f x = .ok b := by
  cases a <;> simp [bind, Except.bind]

/-- The first check that fails decides the status (rule R359). -/
theorem bind_error {α β : Type} {a : Ans α} {f : α → Ans β} {e : Status} :
    (a >>= f) = .error e ↔ a = .error e ∨ ∃ x, a = .ok x ∧ f x = .error e := by
  cases a <;> simp [bind, Except.bind]

/-! ### Checks -/

/-- `pick` gives the instance that is there. -/
theorem pick_ok {α : Type} {l : List α} {inst : Inst} {u : α} :
    pick l inst = .ok u ↔ l[inst.toNat]? = some u := by
  unfold pick; cases l[inst.toNat]? <;> simp

/-- `pick` is a BAD_COMMAND where there is no such instance, and never anything else. -/
theorem pick_error {α : Type} {l : List α} {inst : Inst} {e : Status} :
    pick l inst = .error e ↔ l.length ≤ inst.toNat ∧ e = badCommand := by
  unfold pick
  cases h : l[inst.toNat]? with
  | none => simp [List.getElem?_eq_none_iff.mp h, eq_comm]
  | some u =>
    have := (List.getElem?_eq_some_iff.mp h).1
    simp; omega

/-- The ownership check passes exactly where no composite owns the node. -/
theorem notOwned_ok {s : State} {n : Nid} {x : Unit} : notOwned s n = .ok x ↔ n ∉ s.used := by
  unfold notOwned; split <;> simp [*]

/-- The ownership check fails with NODE_OWNED and nothing else. -/
theorem notOwned_error {s : State} {n : Nid} {e : Status} :
    notOwned s n = .error e ↔ n ∈ s.used ∧ e = .contract .nodeOwned := by
  unfold notOwned; split <;> simp [*, eq_comm]

theorem positiveRate_ok {M : Numerics} {r : RealVal} {x : Unit} :
    positiveRate M r = .ok x ↔ M.pos r = true := by
  unfold positiveRate; split <;> simp [*]

theorem positiveRate_error {M : Numerics} {r : RealVal} {e : Status} :
    positiveRate M r = .error e ↔ M.pos r = false ∧ e = badArgument := by
  unfold positiveRate; split <;> simp [*, eq_comm]

/-- An operand is accepted exactly where it has the stated width. -/
theorem fits_ok {w v : Nat} {x : Unit} : fits w v = .ok x ↔ v < 2 ^ w := by
  unfold fits; split <;> simp [*]

theorem fits_error {w v : Nat} {e : Status} : fits w v = .error e ↔ 2 ^ w ≤ v ∧ e = badOperand := by
  unfold fits; split <;> simp [*, eq_comm]; omega

theorem onlyInstance_ok {inst : Inst} {x : Unit} : onlyInstance inst = .ok x ↔ inst = 0 := by
  unfold onlyInstance
  by_cases h : inst = 0
  · simp [h]
  · rw [if_neg h]
    exact iff_of_false (fun h' => nomatch h') h

theorem codeOf_ok {s : State} {inst : Inst} {c : BchCode} :
    codeOf s inst = .ok c ↔ s.bch[inst.toNat]? = some (.run c) := by
  unfold codeOf
  rw [bind_ok]
  constructor
  · rintro ⟨u, hu, h⟩
    rw [pick_ok] at hu
    cases u <;> simp_all
  · intro h
    exact ⟨_, pick_ok.mpr h, rfl⟩

/-! ### Private memories (rules R70, R71) -/

/-- A write keeps a memory a list of its written elements from the first on: it replaces one, or adds
the next. -/
theorem memWrite_length {α : Type} (m : List α) (i : Nat) (v : α) (h : i ≤ m.length) :
    (memWrite m i v).length = max m.length (i + 1) := by
  unfold memWrite; split <;> simp <;> omega

/-- A read gives what was last written there. -/
theorem memRead_memWrite {α : Type} (m : List α) (i : Nat) (v d : α) (h : i ≤ m.length) :
    memRead (memWrite m i v) i d = v := by
  unfold memRead memWrite
  split
  · simp [*]
  · have : i = m.length := by omega
    subst this; simp

/-- A write leaves every other element alone. -/
theorem memRead_memWrite_ne {α : Type} (m : List α) (i j : Nat) (v d : α) (h : i ≤ m.length)
    (hij : j ≠ i) : memRead (memWrite m i v) j d = memRead m j d := by
  unfold memRead memWrite
  split
  · simp [List.getElem?_set_ne (Ne.symm hij)]
  · have hi : i = m.length := by omega
    subst hi
    rcases Nat.lt_or_gt_of_ne hij with hj | hj
    · simp [List.getElem?_append_left hj]
    · simp [List.getElem?_append_right (Nat.le_of_lt hj), List.getElem?_eq_none (Nat.le_of_lt hj),
        show j - m.length ≠ 0 by omega]

theorem ringNext_lt {wp len : Nat} (h : 0 < len) : ringNext wp len < len := Nat.mod_lt _ h

/-- The newest element of a ring is the one before the write pointer. -/
theorem ringAge_newest {α : Type} (m : List α) (wp : Nat) (v d : α) (h : wp < m.length) :
    ringAge (m.set wp v) (ringNext wp m.length) m.length 0 d = v := by
  have key : (ringNext wp m.length + m.length - 1 - 0) % m.length = wp := by
    unfold ringNext
    rcases Nat.lt_or_ge (wp + 1) m.length with h' | h'
    · rw [Nat.mod_eq_of_lt h', show wp + 1 + m.length - 1 - 0 = wp + m.length by omega,
        Nat.add_mod_right, Nat.mod_eq_of_lt h]
    · have : wp + 1 = m.length := by omega
      rw [this, Nat.mod_self, show 0 + m.length - 1 - 0 = wp by omega, Nat.mod_eq_of_lt h]
  unfold ringAge memRead
  rw [key]
  simp [h]

/-! ### Output -/

/-- A message, if any, joins the buffer; nothing else changes. -/
theorem emitOpt_eq (m : Option Message) (s : State) :
    emitOpt m s = { s with outq := s.outq ++ m.toList } := by
  cases m with
  | none => simp [emitOpt]
  | some m => simp [emitOpt, emit_eq]

/-- A `Real` output is the computed value, or any value, and only the count of free values changes. -/
theorem openReal_cases (anyOut : Bool) (y : RealVal) (s : State) :
    (anyOut = false ∧ openReal anyOut y s = (y, s)) ∨
      (anyOut = true ∧ ∃ v k, openReal anyOut y s = (v, { s with freeIx := k })) := by
  cases anyOut
  · exact .inl ⟨rfl, rfl⟩
  · exact .inr ⟨rfl, _, _, rfl⟩

/-- A `Cplx` output is the computed value, or any value, and only the count of free values changes. -/
theorem openCplx_cases (anyOut : Bool) (y : Cplx) (s : State) :
    (anyOut = false ∧ openCplx anyOut y s = (y, s)) ∨
      (anyOut = true ∧ ∃ v k, openCplx anyOut y s = (v, { s with freeIx := k })) := by
  cases anyOut
  · exact .inl ⟨rfl, rfl⟩
  · exact .inr ⟨rfl, _, _, rfl⟩

/-- A raw answer is read at the declared type. -/
@[simp] theorem rawOut_tag (o : Config.RawOut) (t : Tag) : (o.sample t).tag = t := by
  cases t <;> rfl

/-- The answer of a composite is as evaluated, or any value of its type where there is one, and only the
count of free values changes. -/
theorem openSample_cases (anyOut : Bool) (o : Option Sample) (s : State) :
    (anyOut = false ∧ openSample anyOut o s = (o, s)) ∨
      (anyOut = true ∧ ∃ w k, openSample anyOut o s = (w, { s with freeIx := k }) ∧
        w.map Sample.tag = o.map Sample.tag) := by
  cases anyOut
  · exact .inl ⟨rfl, by cases o <;> rfl⟩
  · cases o with
    | none => exact .inr ⟨rfl, none, s.freeIx, rfl, rfl⟩
    | some v => exact .inr ⟨rfl, _, _, rfl, by simp⟩

/-! ### The source contract -/

@[simp] theorem contract_and_kept (q : Contract) : q.and .kept = q := by cases q <;> rfl

@[simp] theorem contract_kept_and (q : Contract) : Contract.kept.and q = q := by cases q <;> rfl

/-- Two runs of samples keep the source contract exactly where both do. -/
@[simp] theorem contract_and_eq_kept {q q' : Contract} :
    q.and q' = .kept ↔ q = .kept ∧ q' = .kept := by
  cases q <;> cases q' <;> decide

/-- A `Real` sample keeps the source contract exactly where it is a number in `[-1, 1]`. -/
theorem realContract_eq_kept {M : Numerics} {x : RealVal} :
    realContract M x = .kept ↔ M.fin x = true ∧ M.inRange x = true := by
  unfold realContract; cases M.fin x <;> cases M.inRange x <;> simp

/-- After a tick the outputs of a unit are defined exactly where they were before, the operand and the
result are numbers, and the samples since the last INIT are either all in `[-1, 1]`, or all numbers with
no operation rounded (U3, U5). -/
theorem standing_after_closed {w : Standing} {q : Contract} {rounds numbers : Bool} :
    (w.after q rounds numbers).anyOut = false ↔
      w.anyOut = false ∧ numbers = true ∧
        (w.source.and q = .kept ∨
          w.source.and q = .outOfRange ∧ w.rounded = false ∧ rounds = false) := by
  unfold Standing.after
  cases w.anyOut <;> cases numbers <;> cases w.source.and q <;> simp [Contract.opens]

/-- A tick under exact numerics rounds nothing (U3). -/
theorem rounds_exact {M : Numerics} (h : M.exact = true) (a : Arith) : M.rounds a = false := by
  simp [Numerics.rounds, h]

theorem firRounds_exact {M : Numerics} (h : M.exact = true) (taps ring : List RealVal) (wp te : Nat) :
    firRounds M taps ring wp te = false := by
  suffices ∀ (l : List Nat) (y : RealVal), (l.foldl
      (fun (a : Bool × RealVal) i =>
        let t := memRead taps i M.zero
        let z := ringAge ring wp te i M.zero
        let p := M.mul t z
        (a.1 || M.rounds (.mul t z) || M.rounds (.add a.2 p), M.add a.2 p)) (false, y)).1 = false from
    this _ _
  intro l
  induction l with
  | nil => exact fun _ => rfl
  | cons i l ih => intro y; simpa [rounds_exact h] using ih _

theorem fircRounds_exact {M : Numerics} (h : M.exact = true) (taps : List RealVal) (ring : List Cplx)
    (wp te : Nat) : fircRounds M taps ring wp te = false := by
  simp [fircRounds, firRounds_exact h]

theorem maRounds_exact {M : Numerics} (h : M.exact = true) (n : Nat) (r : MaReg) (x : RealVal) :
    maRounds M n r x = false := by
  simp [maRounds, rounds_exact h]

/-! ### Nodes -/

/-- What the descendants of a node have to satisfy, said of its children. -/
theorem descendantsAre_succ (p : Phase → Bool) (s : State) (k : Nat) (n : Nid) :
    descendantsAre p s (k + 1) n = true ↔
      ∀ c ∈ childrenOf s n, phaseIs p s c = true ∧ descendantsAre p s k c = true := by
  simp [descendantsAre]

/-- A leaf has no descendant. -/
theorem descendantsAre_leaf (p : Phase → Bool) (s : State) (k : Nat) (n : Nid) (h : nidUnit n ≠ 0) :
    descendantsAre p s (k + 1) n = true := by
  rw [descendantsAre_succ]
  intro c hc
  unfold childrenOf at hc
  rw [if_neg h] at hc
  exact absurd hc (by simp)

@[simp] theorem answer_hasType (o : Config.RawOut) (t : Tag) : hasType t (o.answer t) = true := by
  unfold Config.RawOut.answer hasType; split <;> simp

/-- The result of a STEP is what the evaluation answered, or, where a node broke its contract, any
value of the declared type; then only the count of free values changes. -/
theorem settled_cases (outT : Tag) (o : Stepped) :
    (o.broke = false ∧ settled outT o = (o.out, o.st)) ∨
      (o.broke = true ∧ ∃ w k, settled outT o = (w, { o.st with freeIx := k }) ∧
        hasType outT w = true) := by
  unfold settled
  cases o.broke
  · exact .inl ⟨rfl, rfl⟩
  · exact .inr ⟨rfl, _, _, rfl, answer_hasType ..⟩

/-- An `init` leaves the identity and the types of an external node as they are, and puts it in RUN
with the state its behaviour gives. -/
theorem extInited_eq (M : Numerics) (e : Ext) (rate r : RealVal) (st : Nat) :
    ∃ l b, extInited M e rate r st = { e with ph := .run, st := st, inits := l, rateBroken := b } := by
  unfold extInited; split <;> exact ⟨_, _, rfl⟩

/-- A node that breaks its contract ends a serial evaluation: the children after it do not count. -/
theorem stepSerial_broke {f : Nid → Sample → State → Ans Stepped} {c : Nid} {cs : List Nid}
    {w : Sample} {s : State} {o : Stepped} (h : f c w s = .ok o) (hb : o.broke = true) :
    stepSerial f (c :: cs) w s = .ok o := by
  simp [stepSerial, h, hb, bind, Except.bind]

/-- A node that breaks its contract ends a parallel evaluation: the children after it do not count. -/
theorem stepParallel_broke {f : Nid → Sample → State → Ans Stepped} {c : Nid} {cs : List Nid}
    {v : Sample} {s : State} {o : Stepped} (h : f c v s = .ok o) (hb : o.broke = true) :
    stepParallel f (c :: cs) v s = .ok ⟨[o.out], o.evs, o.bits, o.st, true⟩ := by
  simp [stepParallel, h, hb, bind, Except.bind]

/-- The node identity's two fields (rule R33). -/
@[simp] theorem nidUnit_nidOf (u : BitVec 4) (i : Inst) : nidUnit (nidOf u i) = u := by
  unfold nidUnit nidOf
  ext k hk
  rw [BitVec.getElem_extractLsb', BitVec.getLsbD_append, if_pos (by omega), Nat.zero_add,
    ← BitVec.getLsbD_eq_getElem]

@[simp] theorem nidInst_nidOf (u : BitVec 4) (i : Inst) : nidInst (nidOf u i) = i := by
  unfold nidInst nidOf
  ext k hk
  rw [BitVec.getElem_extractLsb', BitVec.getLsbD_append, if_neg (by omega),
    show 4 + k - 4 = k by omega, ← BitVec.getLsbD_eq_getElem]

end Machine
end Sys2Proof
end

