-- ==== Sys2Proof/Laws/PerInstr.lean ====
section
/-!
SUPPORT. What holds of every instruction as syntax, one lemma per constructor: the command word of
an instruction names its instance, and its code is the instruction's row of the table (rules R101,
R104).
-/

namespace Sys2Proof
namespace Laws
namespace EncodedWord

/-- The two fields of the command word of an instruction, read back. -/
def Statement (i : Instr) : Prop :=
  wordInst (encode i).word = i.inst ∧ Op.ofCode (wordCode (encode i).word).toNat = some i.op

/-- The instance field of a command word. -/
theorem inst_of_wordOf (inst : Inst) (op : Op) : wordInst (wordOf inst op) = inst := by
  unfold wordInst wordOf
  ext k hk
  rw [BitVec.getElem_extractLsb', BitVec.getLsbD_append, if_neg (by omega),
    show 8 + k - 8 = k by omega, ← BitVec.getLsbD_eq_getElem]

/-- The code field of a command word. -/
theorem code_of_wordOf (inst : Inst) (op : Op) : wordCode (wordOf inst op) = op.code := by
  unfold wordCode wordOf
  ext k hk
  rw [BitVec.getElem_extractLsb', BitVec.getLsbD_append, if_pos (by omega), Nat.zero_add,
    ← BitVec.getLsbD_eq_getElem]

/-- The table is read back: a code stands for its row. -/
theorem ofCode_code (op : Op) : Op.ofCode op.code.toNat = some op := by cases op <;> rfl

/-- Both fields, for any instance and row. -/
theorem of_wordOf (inst : Inst) (op : Op) :
    wordInst (wordOf inst op) = inst ∧ Op.ofCode (wordCode (wordOf inst op)).toNat = some op :=
  ⟨inst_of_wordOf inst op, by rw [code_of_wordOf, ofCode_code]⟩

theorem pipeSerial (inst : Inst) (children : List Nid) : Statement (.pipeSerial inst children) := of_wordOf _ _
theorem pipeParallel (inst : Inst) (children : List Nid) (merge : MergeFn) (outT : Tag) : Statement (.pipeParallel inst children merge outT) := of_wordOf _ _
theorem pipeInit (inst : Inst) (rate : B32) : Statement (.pipeInit inst rate) := of_wordOf _ _
theorem pipeStep (inst : Inst) (v : PortSample) : Statement (.pipeStep inst v) := of_wordOf _ _
theorem gzConfig (inst : Inst) (n : I32) (f : B32) : Statement (.gzConfig inst n f) := of_wordOf _ _
theorem gzInit (inst : Inst) (rate : B32) : Statement (.gzInit inst rate) := of_wordOf _ _
theorem gzStep (inst : Inst) (x : B32) : Statement (.gzStep inst x) := of_wordOf _ _
theorem firConfig (inst : Inst) (window t : I32) (fstart fstop beta : B32) (cx : I32) : Statement (.firConfig inst window t fstart fstop beta cx) := of_wordOf _ _
theorem firInit (inst : Inst) (rate : B32) : Statement (.firInit inst rate) := of_wordOf _ _
theorem firStep (inst : Inst) (x : B32) : Statement (.firStep inst x) := of_wordOf _ _
theorem fircStep (inst : Inst) (re im : B32) : Statement (.fircStep inst re im) := of_wordOf _ _
theorem firSetTaps (inst : Inst) (t : Nat) : Statement (.firSetTaps inst t) := of_wordOf _ _
theorem bqConfig (inst : Inst) (type : I32) (f0 q gainDb : B32) (cx : I32) : Statement (.bqConfig inst type f0 q gainDb cx) := of_wordOf _ _
theorem bqInit (inst : Inst) (rate : B32) : Statement (.bqInit inst rate) := of_wordOf _ _
theorem bqStep (inst : Inst) (x : B32) : Statement (.bqStep inst x) := of_wordOf _ _
theorem bqcStep (inst : Inst) (re im : B32) : Statement (.bqcStep inst re im) := of_wordOf _ _
theorem maConfig (inst : Inst) (n : I32) : Statement (.maConfig inst n) := of_wordOf _ _
theorem maInit (inst : Inst) (rate : B32) : Statement (.maInit inst rate) := of_wordOf _ _
theorem maStep (inst : Inst) (x : B32) : Statement (.maStep inst x) := of_wordOf _ _
theorem bsConfig (inst : Inst) (c : I32) (cand : List B32) (req cap : I32) : Statement (.bsConfig inst c cand req cap) := of_wordOf _ _
theorem bsInit (inst : Inst) (rate : B32) : Statement (.bsInit inst rate) := of_wordOf _ _
theorem bsStep (inst : Inst) (lv : Bool) : Statement (.bsStep inst lv) := of_wordOf _ _
theorem bsWaitForSync (inst : Inst) : Statement (.bsWaitForSync inst) := of_wordOf _ _
theorem bchConfig (inst : Inst) (g : Nat) (n k t : I32) (fp : Nat) : Statement (.bchConfig inst g n k t fp) := of_wordOf _ _
theorem gfExp (inst : Inst) (e : Nat) : Statement (.gfExp inst e) := of_wordOf _ _
theorem gfLog (inst : Inst) (a : Nat) : Statement (.gfLog inst a) := of_wordOf _ _
theorem gfMul (inst : Inst) (a b : Nat) : Statement (.gfMul inst a b) := of_wordOf _ _
theorem gfInv (inst : Inst) (a : Nat) : Statement (.gfInv inst a) := of_wordOf _ _
theorem gfPow (inst : Inst) (a e : Nat) : Statement (.gfPow inst a e) := of_wordOf _ _
theorem bchEncode (inst : Inst) (msg : Nat) : Statement (.bchEncode inst msg) := of_wordOf _ _
theorem bchSyndrome (inst : Inst) (r : Nat) : Statement (.bchSyndrome inst r) := of_wordOf _ _
theorem bchCheck (inst : Inst) (r : Nat) : Statement (.bchCheck inst r) := of_wordOf _ _
theorem bchCorrect (inst : Inst) (r : Nat) : Statement (.bchCorrect inst r) := of_wordOf _ _
theorem bchDecode (inst : Inst) (c : Nat) : Statement (.bchDecode inst c) := of_wordOf _ _
theorem hdReset (inst : Inst) : Statement (.hdReset inst) := of_wordOf _ _
theorem hdStep (inst : Inst) (b : Bool) : Statement (.hdStep inst b) := of_wordOf _ _
theorem pgReset (inst : Inst) : Statement (.pgReset inst) := of_wordOf _ _
theorem pgSync (inst : Inst) (baud : B32) : Statement (.pgSync inst baud) := of_wordOf _ _
theorem pgStep (inst : Inst) (b : Bool) : Statement (.pgStep inst b) := of_wordOf _ _
theorem pgSetFilter (inst : Inst) (f : Nat) : Statement (.pgSetFilter inst f) := of_wordOf _ _
theorem outqDrain (inst : Inst) : Statement (.outqDrain inst) := of_wordOf _ _
theorem coreReset (inst : Inst) : Statement (.coreReset inst) := of_wordOf _ _

end EncodedWord
end Laws
end Sys2Proof
end

