-- ==== Sys2Proof/Laws/Tree.lean ====
section
/-!
SUPPORT. What the operations do to the tree of composites: which of them keep it, and with it the forest
of rule R143 (`State.forest`), and that PIPE.SERIAL and PIPE.PARALLEL extend it.
-/

namespace Sys2Proof
namespace Machine

/-- A node has left `UNCONF`. -/
abbrev leftUnconf : Phase → Bool := (· != .unconf)

/-- `t` has the parameters, the owned nodes and the composites' children of `s`, and a node that is in a
phase that `p` allows in `s` is in one in `t`. -/
structure KeepsTree (p : Phase → Bool) (s t : State) : Prop where
  par : t.par = s.par
  used : t.used = s.used
  children : t.pipe.map Pipe.children = s.pipe.map Pipe.children
  constructed : s.constructed ≤ t.constructed
  phase : ∀ n, phaseIs p s n = true → phaseIs p t n = true

variable {p : Phase → Bool} {s t u : State}

/-! ### Descendants -/

/-- The node identity is its two fields (rule R33). -/
theorem nidOf_eta (n : Nid) : nidOf (nidUnit n) (nidInst n) = n := by
  unfold nidOf nidInst nidUnit
  ext k hk
  rw [BitVec.getElem_append]
  split
  · simp [*, BitVec.getLsbD_eq_getElem]
  · simp [show 4 + (k - 4) = k by omega]; rfl

/-- A larger bound on the depth changes nothing where the smaller one is enough. -/
theorem descendantsAre_mono {k j : Nat} {n : Nid} (h : descendantsAre p s k n = true) (hj : k ≤ j) :
    descendantsAre p s j n = true := by
  induction k generalizing n j with
  | zero => simp [descendantsAre] at h
  | succ k ih =>
    obtain ⟨j, rfl⟩ : ∃ i, j = i + 1 := ⟨j - 1, by omega⟩
    rw [descendantsAre_succ] at *
    exact fun c hc => ⟨(h c hc).1, ih (h c hc).2 (by omega)⟩

/-- In a forest the bound of the evaluation is enough (rule R143). -/
theorem descendantsAre_of_forest {i : Inst} (h : s.forest = true) (hi : i.toNat < s.pipe.length) :
    descendantsAre leftUnconf s (treeDepth s) (nidOf 0 i) = true := by
  unfold State.forest at h
  simp only [Bool.and_eq_true, List.all_eq_true, List.mem_range] at h
  have hd := h.2 i.toNat hi
  rw [BitVec.ofNat_toNat, BitVec.setWidth_eq] at hd
  refine descendantsAre_mono hd ?_
  have : s.constructed ≤ s.pipe.length := List.countP_le_length
  unfold treeDepth
  omega

/-- A phase is looked up in what is known of the node. -/
theorem phaseIs_eq (p : Phase → Bool) (s : State) (n : Nid) :
    phaseIs p s n = (nodeInfo s n).any fun x => p x.ph := by
  unfold phaseIs; cases nodeInfo s n <;> rfl

/-- The children of a composite, and of nothing else, are in its record. -/
theorem childrenOf_eq (s : State) (n : Nid) :
    childrenOf s n =
      if nidUnit n = 0 then ((s.pipe.map Pipe.children)[(nidInst n).toNat]?).getD [] else [] := by
  unfold childrenOf
  cases h : s.pipe[(nidInst n).toNat]? <;> simp [h]

namespace KeepsTree

theorem refl (p : Phase → Bool) (s : State) : KeepsTree p s s :=
  ⟨rfl, rfl, rfl, Nat.le_refl _, fun _ h => h⟩

theorem trans (a : KeepsTree p s t) (b : KeepsTree p t u) : KeepsTree p s u :=
  ⟨b.par.trans a.par, b.used.trans a.used, b.children.trans a.children,
    Nat.le_trans a.constructed b.constructed, fun n h => b.phase n (a.phase n h)⟩

theorem length (a : KeepsTree p s t) : t.pipe.length = s.pipe.length := by
  simpa using congrArg List.length a.children

theorem num (a : KeepsTree p s t) : t.num = s.num := by unfold State.num; rw [a.par]

theorem treeDepth (a : KeepsTree p s t) : treeDepth t = treeDepth s := by
  unfold Machine.treeDepth; rw [a.length]

theorem childrenOf (a : KeepsTree p s t) (n : Nid) : childrenOf t n = childrenOf s n := by
  rw [childrenOf_eq, childrenOf_eq, a.children]

theorem descendantsAre (a : KeepsTree p s t) {k : Nat} {n : Nid}
    (h : descendantsAre p s k n = true) : descendantsAre p t k n = true := by
  induction k generalizing n with
  | zero => simp [Machine.descendantsAre] at h
  | succ k ih =>
    rw [descendantsAre_succ] at *
    intro c hc
    rw [a.childrenOf] at hc
    exact ⟨a.phase c (h c hc).1, ih (h c hc).2⟩

/-- An operation that keeps the tree keeps the forest. -/
theorem forest (a : KeepsTree leftUnconf s t) (h : s.forest = true) : t.forest = true := by
  have hc : t.pipe.flatMap Pipe.children = s.pipe.flatMap Pipe.children := by
    simp only [List.flatMap_def, a.children]
  unfold State.forest at *
  rw [a.used, hc, a.length]
  simp only [Bool.and_eq_true, List.all_eq_true] at *
  refine ⟨h.1, fun i hi => descendantsAre_mono (a.descendantsAre (h.2 i hi)) ?_⟩
  exact Nat.succ_le_succ a.constructed

end KeepsTree

/-! ### The single writes -/

/-- What a write to one instance of a kind does to a phase: nothing, where the instance stays in a phase
that `p` allows. -/
theorem any_phase_set {C R : Type} {l : List (Life C R)} {f : Life C R → NodeInfo} {i j : Nat}
    {u : Life C R} (hf : ∀ v, (f v).ph = v.ph)
    (hu : ∀ v, l[i]? = some v → p v.ph = true → p u.ph = true)
    (h : ((l[j]?).map f).any (fun x => p x.ph) = true) :
    (((l.set i u)[j]?).map f).any (fun x => p x.ph) = true := by
  by_cases hij : i = j
  · subst hij
    cases hv : l[i]? with
    | none => simp [hv] at h
    | some v =>
      have := (List.getElem?_eq_some_iff.mp hv).1
      simp only [hv, Option.map_some, Option.any_some, hf] at h
      simp only [List.getElem?_set_self this, Option.map_some, Option.any_some, hf]
      exact hu v hv h
  · rw [List.getElem?_set_ne hij]; exact h

theorem lifeInfo_ph {C R : Type} (t : C → Tag) (u : Life C R) : (lifeInfo t u).ph = u.ph := by
  cases u <;> rfl

theorem pipeInfo_ph (u : Pipe) : (pipeInfo u).ph = u.ph := by cases u <;> rfl

/-- A state that differs only in the ports, the pending commands, the counter of the free values and the
units that are no nodes. -/
theorem keepsTree_of_same (par : t.par = s.par) (used : t.used = s.used) (pipe : t.pipe = s.pipe)
    (gz : t.gz = s.gz) (fir : t.fir = s.fir) (bq : t.bq = s.bq) (ma : t.ma = s.ma) (bs : t.bs = s.bs)
    (ext : t.ext = s.ext) : KeepsTree p s t := by
  refine ⟨par, used, by rw [pipe], by unfold State.constructed; rw [pipe],
    fun n h => ?_⟩
  rw [phaseIs_eq] at *
  unfold nodeInfo findExt at *
  rw [pipe, gz, fir, bq, ma, bs, ext]
  exact h

theorem keepsTree_putGz {i : Inst} {u : Gz}
    (hu : ∀ v, s.gz[i.toNat]? = some v → p v.ph = true → p u.ph = true) :
    KeepsTree p s (putGz i u s) := by
  refine ⟨rfl, rfl, rfl, Nat.le_refl _, fun n h => ?_⟩
  rw [phaseIs_eq] at *
  unfold nodeInfo at *
  split
  case h_2 h' => simp only [h'] at h; exact any_phase_set (lifeInfo_ph _) hu h
  all_goals simp_all [findExt, putGz]

theorem keepsTree_putFir {i : Inst} {u : Fir}
    (hu : ∀ v, s.fir[i.toNat]? = some v → p v.ph = true → p u.ph = true) :
    KeepsTree p s (putFir i u s) := by
  refine ⟨rfl, rfl, rfl, Nat.le_refl _, fun n h => ?_⟩
  rw [phaseIs_eq] at *
  unfold nodeInfo at *
  split
  case h_3 h' => simp only [h'] at h; exact any_phase_set (lifeInfo_ph _) hu h
  all_goals simp_all [findExt, putFir]

theorem keepsTree_putBq {i : Inst} {u : Bq}
    (hu : ∀ v, s.bq[i.toNat]? = some v → p v.ph = true → p u.ph = true) :
    KeepsTree p s (putBq i u s) := by
  refine ⟨rfl, rfl, rfl, Nat.le_refl _, fun n h => ?_⟩
  rw [phaseIs_eq] at *
  unfold nodeInfo at *
  split
  case h_4 h' => simp only [h'] at h; exact any_phase_set (lifeInfo_ph _) hu h
  all_goals simp_all [findExt, putBq]

theorem keepsTree_putMa {i : Inst} {u : Ma}
    (hu : ∀ v, s.ma[i.toNat]? = some v → p v.ph = true → p u.ph = true) :
    KeepsTree p s (putMa i u s) := by
  refine ⟨rfl, rfl, rfl, Nat.le_refl _, fun n h => ?_⟩
  rw [phaseIs_eq] at *
  unfold nodeInfo at *
  split
  case h_5 h' => simp only [h'] at h; exact any_phase_set (lifeInfo_ph _) hu h
  all_goals simp_all [findExt, putMa]

theorem keepsTree_putBs {i : Inst} {u : Bs}
    (hu : ∀ v, s.bs[i.toNat]? = some v → p v.ph = true → p u.ph = true) :
    KeepsTree p s (putBs i u s) := by
  refine ⟨rfl, rfl, rfl, Nat.le_refl _, fun n h => ?_⟩
  rw [phaseIs_eq] at *
  unfold nodeInfo at *
  split
  case h_6 h' => simp only [h'] at h; exact any_phase_set (lifeInfo_ph _) hu h
  all_goals simp_all [findExt, putBs]

/-- A constructed composite in the place of any: no fewer are constructed. -/
theorem countP_set_le {α : Type} {q : α → Bool} {l : List α} {i : Nat} {u : α} (hu : q u = true) :
    l.countP q ≤ (l.set i u).countP q := by
  induction l generalizing i with
  | nil => simp
  | cons a l ih =>
    cases i with
    | zero => simp only [List.set_cons_zero, List.countP_cons, hu, if_true]; split <;> omega
    | succ i => simp only [List.set_cons_succ, List.countP_cons]; have := @ih i; omega

/-- A composite replaced by one with the same children. -/
theorem keepsTree_putPipe {i : Inst} {u v : Pipe} (hv : s.pipe[i.toNat]? = some v)
    (hc : Pipe.children u = Pipe.children v) (hp : p v.ph = true → p u.ph = true)
    (hu : u.ph ≠ .unconf) : KeepsTree p s (putPipe i u s) := by
  refine ⟨rfl, rfl, ?_, countP_set_le (by simpa using hu), fun n h => ?_⟩
  · have : (s.pipe.map Pipe.children)[i.toNat]? = some (Pipe.children u) := by simp [hv, hc]
    simp only [putPipe, List.map_set]
    refine List.ext_getElem? fun j => ?_
    rw [List.getElem?_set]
    split
    · subst j; rw [if_pos (List.getElem?_eq_some_iff.mp this).1, this]
    · rfl
  · rw [phaseIs_eq] at *
    unfold nodeInfo at *
    split
    case h_1 h' =>
      simp only [h'] at h
      refine any_phase_set pipeInfo_ph (fun w hw => ?_) h
      rw [hv] at hw; cases hw; exact hp
    all_goals simp_all [findExt, putPipe]

/-- What is bound under an identity after a record was replaced. -/
theorem findExt_putExt {n m : Nid} {e : Ext} (he : e.nid = n) :
    findExt (putExt n e s) m = (findExt s m).map fun q => if q.nid == n then e else q := by
  unfold findExt putExt
  induction s.ext with
  | nil => rfl
  | cons a l ih =>
    simp only [List.map_cons, List.find?_cons] at *
    by_cases ha : a.nid = n
    · have : (a.nid == n) = true := beq_iff_eq.mpr ha
      rw [if_pos this, he, ha]
      cases n == m
      · exact ih
      · simp [ha]
    · have : (a.nid == n) = false := beq_eq_false_iff_ne.mpr ha
      rw [if_neg (by simp [this])]
      cases a.nid == m
      · exact ih
      · simp [ha]

/-- The node found under an identity has it. -/
theorem findExt_nid {n : Nid} {e : Ext} (h : findExt s n = some e) : e.nid = n := by
  simpa using List.find?_some h

/-- The record of an external node replaced. -/
theorem keepsTree_putExt {n : Nid} {e e' : Ext} (h : findExt s n = some e) (hn : e'.nid = n)
    (hp : p e.ph = true → p e'.ph = true) : KeepsTree p s (putExt n e' s) := by
  refine ⟨rfl, rfl, rfl, Nat.le_refl _, fun m hm => ?_⟩
  rw [phaseIs_eq] at *
  unfold nodeInfo at *
  split
  case h_7 =>
    simp only at hm
    split at hm <;> simp_all
    rw [findExt_putExt hn]
    cases hq : findExt s m with
    | none => simp [hq] at hm
    | some q =>
      simp only [hq, Option.map_some, Option.any_some] at hm ⊢
      split
      · have := (findExt_nid hq).symm.trans (beq_iff_eq.mp ‹_›)
        subst this
        rw [hq] at h; cases h
        exact hp hm
      · exact hm
  all_goals simp_all [putExt]

/-! ### INIT and STEP of a node -/

/-- A counter of free values that moved on is all that an open output changes. -/
theorem keepsTree_openReal (b : Bool) (y : RealVal) : KeepsTree p s (openReal b y s).2 := by
  unfold openReal; split
  · exact keepsTree_of_same rfl rfl rfl rfl rfl rfl rfl rfl rfl
  · exact .refl p s

theorem keepsTree_openCplx (b : Bool) (y : Cplx) : KeepsTree p s (openCplx b y s).2 := by
  unfold openCplx; split
  · exact keepsTree_of_same rfl rfl rfl rfl rfl rfl rfl rfl rfl
  · exact .refl p s

theorem keepsTree_openSample (b : Bool) (y : Option Sample) : KeepsTree p s (openSample b y s).2 := by
  unfold openSample; split
  · exact keepsTree_of_same rfl rfl rfl rfl rfl rfl rfl rfl rfl
  · exact .refl p s

/-- A composite left in RUN with its registers replaced, after operations that kept the tree. -/
theorem keepsTree_runPipe {i : Inst} {v : Pipe} {c : PipeCfg} (r : PipeReg)
    (hk : KeepsTree leftUnconf s t) (hv : s.pipe[i.toNat]? = some v) (hc : Pipe.children v = c.child) :
    KeepsTree leftUnconf s (putPipe i (.run c r) t) := by
  have h : (t.pipe.map Pipe.children)[i.toNat]? = some c.child := by
    rw [hk.children, List.getElem?_map, hv, ← hc]; rfl
  rw [List.getElem?_map, Option.map_eq_some_iff] at h
  obtain ⟨w, hw, hwc⟩ := h
  exact hk.trans (keepsTree_putPipe hw hwc.symm (fun _ => rfl) (by simp [Life.ph]))

/-- GZ's INIT leaves the instance in RUN. -/
theorem gzInitAt_keeps {i : Inst} {x y : RealVal} (h : gzInitAt i x s = .ok (y, t)) :
    KeepsTree leftUnconf s t := by
  unfold gzInitAt at h
  obtain ⟨v, -, h⟩ := bind_ok.mp h
  obtain ⟨w, hw, h⟩ := bind_ok.mp h
  cases h
  refine keepsTree_putGz fun _ _ _ => ?_
  unfold gzInit at hw
  cases v with
  | unconf => cases hw
  | conf c | run c r =>
    obtain ⟨_, -, hw⟩ := bind_ok.mp hw
    cases hw
    rfl

/-- FIR's INIT leaves the instance in RUN. -/
theorem firInitAt_keeps {i : Inst} {x y : RealVal} (h : firInitAt i x s = .ok (y, t)) :
    KeepsTree leftUnconf s t := by
  unfold firInitAt at h
  obtain ⟨v, -, h⟩ := bind_ok.mp h
  obtain ⟨w, hw, h⟩ := bind_ok.mp h
  cases h
  refine keepsTree_putFir fun _ _ _ => ?_
  unfold firInit at hw
  cases v with
  | unconf => cases hw
  | conf c | run c r =>
    obtain ⟨_, -, hw⟩ := bind_ok.mp hw
    split at hw <;> cases hw
    rfl

/-- BQ's INIT leaves the instance in RUN. -/
theorem bqInitAt_keeps {i : Inst} {x y : RealVal} (h : bqInitAt i x s = .ok (y, t)) :
    KeepsTree leftUnconf s t := by
  unfold bqInitAt at h
  obtain ⟨v, -, h⟩ := bind_ok.mp h
  obtain ⟨w, hw, h⟩ := bind_ok.mp h
  cases h
  refine keepsTree_putBq fun _ _ _ => ?_
  unfold bqInit at hw
  cases v with
  | unconf => cases hw
  | conf c | run c r =>
    obtain ⟨_, -, hw⟩ := bind_ok.mp hw
    cases hw
    rfl

/-- MA's INIT leaves the instance in RUN. -/
theorem maInitAt_keeps {i : Inst} {x y : RealVal} (h : maInitAt i x s = .ok (y, t)) :
    KeepsTree leftUnconf s t := by
  unfold maInitAt at h
  obtain ⟨v, -, h⟩ := bind_ok.mp h
  obtain ⟨w, hw, h⟩ := bind_ok.mp h
  cases h
  refine keepsTree_putMa fun _ _ _ => ?_
  unfold maInit at hw
  cases v with
  | unconf => cases hw
  | conf c | run c r =>
    obtain ⟨_, -, hw⟩ := bind_ok.mp hw
    cases hw
    rfl

/-- BS's INIT leaves the instance in RUN. -/
theorem bsInitAt_keeps {i : Inst} {x y : RealVal} (h : bsInitAt i x s = .ok (y, t)) :
    KeepsTree leftUnconf s t := by
  unfold bsInitAt at h
  obtain ⟨v, -, h⟩ := bind_ok.mp h
  obtain ⟨w, hw, h⟩ := bind_ok.mp h
  cases h
  refine keepsTree_putBs fun _ _ _ => ?_
  unfold bsInit at hw
  cases v with
  | unconf => cases hw
  | conf c | run c r =>
    obtain ⟨_, -, hw⟩ := bind_ok.mp hw
    cases hw
    rfl

theorem extInitAt_keeps {n : Nid} {x y : RealVal} (h : extInitAt n x s = .ok (y, t)) :
    KeepsTree leftUnconf s t := by
  unfold extInitAt at h
  cases hf : findExt s n with
  | none => simp [hf] at h
  | some e =>
    simp only [hf] at h
    obtain ⟨_, -, h⟩ := bind_ok.mp h
    cases h
    obtain ⟨l, b, he⟩ := extInited_eq s.num e x (extInitOf s.num e x).1 (extInitOf s.num e x).2
    refine keepsTree_putExt hf ?_ ?_
    · rw [he]; exact (findExt_nid hf : e.nid = n)
    · rw [he]; exact fun _ => rfl

theorem initLeaf_keeps {n : Nid} {x y : RealVal} (h : initLeaf n x s = .ok (y, t)) :
    KeepsTree leftUnconf s t := by
  unfold initLeaf at h
  split at h
  · exact gzInitAt_keeps h
  · exact firInitAt_keeps h
  · exact bqInitAt_keeps h
  · exact maInitAt_keeps h
  · exact bsInitAt_keeps h
  · exact extInitAt_keeps h

section Children

variable {f : Nid → RealVal → State → Ans (RealVal × State)}
  (hf : ∀ n x s y t, f n x s = .ok (y, t) → KeepsTree leftUnconf s t)
include hf

theorem initSerial_keeps {l : List Nid} {x y : RealVal} {s t : State}
    (h : initSerial f l x s = .ok (y, t)) : KeepsTree leftUnconf s t := by
  induction l generalizing x s with
  | nil => cases h; exact .refl _ _
  | cons c l ih =>
    obtain ⟨⟨z, u⟩, h1, h2⟩ := bind_ok.mp h
    exact (hf _ _ _ _ _ h1).trans (ih h2)

theorem initParallel_keeps {l : List Nid} {x : RealVal} {ys : List RealVal} {s t : State}
    (h : initParallel f l x s = .ok (ys, t)) : KeepsTree leftUnconf s t := by
  induction l generalizing ys s with
  | nil => cases h; exact .refl _ _
  | cons c l ih =>
    obtain ⟨⟨z, u⟩, h1, h2⟩ := bind_ok.mp h
    obtain ⟨⟨zs, v⟩, h3, h4⟩ := bind_ok.mp h2
    cases h4
    exact (hf _ _ _ _ _ h1).trans (ih h3)

theorem pipeInitAt_keeps {i : Inst} {x y : RealVal} {s t : State}
    (h : pipeInitAt f i x s = .ok (y, t)) : KeepsTree leftUnconf s t := by
  obtain ⟨v, hv, h⟩ := bind_ok.mp h
  rw [pick_ok] at hv
  have key : ∀ {c : PipeCfg} {r : RealVal × State}, Pipe.children v = c.child →
      initChildren f c x s = .ok r →
      KeepsTree leftUnconf s (putPipe i (.run c ⟨x, r.1, .start false⟩) r.2) := by
    intro c r hvc hr
    have hk : KeepsTree leftUnconf s r.2 := by
      unfold initChildren at hr
      split at hr
      · exact initSerial_keeps hf hr
      · obtain ⟨⟨ys, u⟩, h1, h2⟩ := bind_ok.mp hr
        obtain ⟨_, -, h2⟩ := bind_ok.mp h2
        cases h2
        exact initParallel_keeps hf h1
    exact keepsTree_runPipe _ hk hv hvc
  split at h
  · cases h
  all_goals
    split at h
    · obtain ⟨_, -, h⟩ := bind_ok.mp h
      obtain ⟨r, hr, h⟩ := bind_ok.mp h
      cases h
      exact key rfl hr
    · cases h

end Children

/-- `init_node` keeps the tree. -/
theorem initNode_keeps {k : Nat} {n : Nid} {x y : RealVal} {s t : State}
    (h : initNode k n x s = .ok (y, t)) : KeepsTree leftUnconf s t := by
  induction k generalizing n x y s t with
  | zero => cases h
  | succ k ih =>
    unfold initNode at h
    split at h
    · exact pipeInitAt_keeps (fun _ _ _ _ _ => ih) h
    · exact initLeaf_keeps h

theorem gzStepAt_keeps {i : Inst} {x y : RealVal} {q : Contract} (h : gzStepAt i x q s = .ok (y, t)) :
    KeepsTree leftUnconf s t := by
  obtain ⟨v, -, h⟩ := bind_ok.mp h
  split at h
  · cases h
    exact (keepsTree_openReal ..).trans (keepsTree_putGz fun _ _ _ => rfl)
  · cases h

theorem maStepAt_keeps {i : Inst} {x y : RealVal} {q : Contract} (h : maStepAt i x q s = .ok (y, t)) :
    KeepsTree leftUnconf s t := by
  obtain ⟨v, -, h⟩ := bind_ok.mp h
  split at h
  · cases h
    exact (keepsTree_openReal ..).trans (keepsTree_putMa fun _ _ _ => rfl)
  · cases h

theorem firStepAt_keeps {i : Inst} {x y : RealVal} {q : Contract} (h : firStepAt i x q s = .ok (y, t)) :
    KeepsTree leftUnconf s t := by
  obtain ⟨v, -, h⟩ := bind_ok.mp h
  split at h
  · split at h
    · cases h
      exact (keepsTree_openReal ..).trans (keepsTree_putFir fun _ _ _ => rfl)
    · cases h
  · cases h

theorem fircStepAt_keeps {i : Inst} {x y : Cplx} {q : Contract} (h : fircStepAt i x q s = .ok (y, t)) :
    KeepsTree leftUnconf s t := by
  obtain ⟨v, -, h⟩ := bind_ok.mp h
  split at h
  · split at h
    · cases h
      exact (keepsTree_openCplx ..).trans (keepsTree_putFir fun _ _ _ => rfl)
    · cases h
  · cases h

theorem bqStepAt_keeps {i : Inst} {x y : RealVal} {q : Contract} (h : bqStepAt i x q s = .ok (y, t)) :
    KeepsTree leftUnconf s t := by
  obtain ⟨v, -, h⟩ := bind_ok.mp h
  split at h
  · split at h
    · cases h
      exact (keepsTree_openReal ..).trans (keepsTree_putBq fun _ _ _ => rfl)
    · cases h
  · cases h

theorem bqcStepAt_keeps {i : Inst} {x y : Cplx} {q : Contract} (h : bqcStepAt i x q s = .ok (y, t)) :
    KeepsTree leftUnconf s t := by
  obtain ⟨v, -, h⟩ := bind_ok.mp h
  split at h
  · split at h
    · cases h
      exact (keepsTree_openCplx ..).trans (keepsTree_putBq fun _ _ _ => rfl)
    · cases h
  · cases h

theorem bsStepAt_keeps {i : Inst} {b : Bool} {r : Option Bool × List Raised × State}
    (h : bsStepAt i b s = .ok r) : KeepsTree leftUnconf s r.2.2 := by
  obtain ⟨v, -, h⟩ := bind_ok.mp h
  split at h
  · cases h
    exact keepsTree_putBs fun _ _ _ => rfl
  · cases h

theorem extStepAt_keeps {n : Nid} {v : Sample} {o : Stepped} (h : extStepAt n v s = .ok o) :
    KeepsTree leftUnconf s o.st := by
  unfold extStepAt at h
  split at h
  · cases h
  · rename_i e he
    split at h
    · cases h
    · split at h
      · cases h
      · cases h
        exact keepsTree_putExt he (findExt_nid he : e.nid = n) fun h => h

/-- A value that a function of a step's answer gives. -/
theorem map_ok {α β : Type} {a : Ans α} {f : α → β} {b : β} :
    a.map f = .ok b ↔ ∃ x, a = .ok x ∧ f x = b := by
  cases a <;> simp [Except.map]

theorem stepLeaf_keeps {q : Contract} {n : Nid} {v : Sample} {o : Stepped}
    (h : stepLeaf q n v s = .ok o) : KeepsTree leftUnconf s o.st := by
  unfold stepLeaf at h
  split at h
  · obtain ⟨⟨y, t⟩, hr, rfl⟩ := map_ok.mp h; exact gzStepAt_keeps hr
  · obtain ⟨⟨y, t⟩, hr, rfl⟩ := map_ok.mp h; exact firStepAt_keeps hr
  · obtain ⟨⟨y, t⟩, hr, rfl⟩ := map_ok.mp h; exact fircStepAt_keeps hr
  · obtain ⟨⟨y, t⟩, hr, rfl⟩ := map_ok.mp h; exact bqStepAt_keeps hr
  · obtain ⟨⟨y, t⟩, hr, rfl⟩ := map_ok.mp h; exact bqcStepAt_keeps hr
  · obtain ⟨⟨y, t⟩, hr, rfl⟩ := map_ok.mp h; exact maStepAt_keeps hr
  · obtain ⟨r, hr, rfl⟩ := map_ok.mp h; exact bsStepAt_keeps hr
  · split at h
    · cases h
    · exact extStepAt_keeps h

section Children

variable {f : Nid → Sample → State → Ans Stepped}
  (hf : ∀ n v s o, f n v s = .ok o → KeepsTree leftUnconf s o.st)
include hf

theorem stepSerial_keeps {l : List Nid} {v : Sample} {s : State} {o : Stepped}
    (h : stepSerial f l v s = .ok o) : KeepsTree leftUnconf s o.st := by
  induction l generalizing v s o with
  | nil => cases h; exact .refl _ _
  | cons c l ih =>
    obtain ⟨q, h1, h2⟩ := bind_ok.mp h
    have hq := hf _ _ _ _ h1
    split at h2
    · cases h2; exact hq
    · split at h2
      · cases h2; exact hq
      · obtain ⟨q', h3, h4⟩ := bind_ok.mp h2
        cases h4
        have hr : KeepsTree leftUnconf q.st q'.st := ih h3
        exact hq.trans hr

theorem stepParallel_keeps {l : List Nid} {v : Sample} {s : State} {b : Branches}
    (h : stepParallel f l v s = .ok b) : KeepsTree leftUnconf s b.st := by
  induction l generalizing s b with
  | nil => cases h; exact .refl _ _
  | cons c l ih =>
    obtain ⟨q, h1, h2⟩ := bind_ok.mp h
    have hq := hf _ _ _ _ h1
    split at h2
    · cases h2; exact hq
    · obtain ⟨q', h3, h4⟩ := bind_ok.mp h2
      cases h4
      have hr : KeepsTree leftUnconf q.st q'.st := ih h3
      exact hq.trans hr

theorem stepChildren_keeps {c : PipeCfg} {v : Sample} {s : State} {o : Stepped × Bool}
    (h : stepChildren f c v s = .ok o) : KeepsTree leftUnconf s o.1.st := by
  unfold stepChildren at h
  split at h
  · obtain ⟨_, h1, rfl⟩ := map_ok.mp h
    exact stepSerial_keeps hf h1
  · obtain ⟨b, h1, h2⟩ := bind_ok.mp h
    cases h2
    exact stepParallel_keeps hf h1

end Children

theorem pipeStepAt_keeps {f : Contract → Nid → Sample → State → Ans Stepped}
    (hf : ∀ q n v s o, f q n v s = .ok o → KeepsTree leftUnconf s o.st) {i : Inst} {v : Sample}
    {q : Contract} {s : State} {o : Stepped} (h : pipeStepAt f i v q s = .ok o) :
    KeepsTree leftUnconf s o.st := by
  obtain ⟨u, hu, h⟩ := bind_ok.mp h
  rw [pick_ok] at hu
  split at h
  · split at h
    · obtain ⟨_, h1, h2⟩ := bind_ok.mp h
      cases h2
      exact (keepsTree_runPipe _ (stepChildren_keeps (hf _) h1) hu rfl).trans (keepsTree_openSample ..)
    · cases h
  · cases h

/-- `step_node` keeps the tree. -/
theorem stepNode_keeps {k : Nat} {q : Contract} {n : Nid} {v : Sample} {s : State} {o : Stepped}
    (h : stepNode k q n v s = .ok o) : KeepsTree leftUnconf s o.st := by
  induction k generalizing q n v s o with
  | zero => cases h
  | succ k ih =>
    unfold stepNode at h
    split at h
    · exact pipeStepAt_keeps (fun _ _ _ _ _ => ih) h
    · exact stepLeaf_keeps h

/-! ### Construction -/

/-- The children of a composite that is constructed now come to those of the others. -/
theorem children_set {l : List Pipe} {i : Nat} {u : Pipe} (h : l[i]? = some .unconf) :
    ((l.set i u).flatMap Pipe.children).Perm (l.flatMap Pipe.children ++ Pipe.children u) := by
  induction l generalizing i with
  | nil => simp at h
  | cons a l ih =>
    cases i with
    | zero =>
      simp only [List.getElem?_cons_zero, Option.some.injEq] at h
      subst h
      exact List.perm_append_comm
    | succ i =>
      simp only [List.set_cons_succ, List.flatMap_cons, List.append_assoc]
      exact (ih (by simpa using h)).append_left _

/-- One composite more is constructed. -/
theorem constructed_set {l : List Pipe} {i : Nat} {u : Pipe} (h : l[i]? = some .unconf)
    (hu : u.ph ≠ .unconf) :
    (l.set i u).countP (fun p => p.ph != .unconf) = l.countP (fun p => p.ph != .unconf) + 1 := by
  induction l generalizing i with
  | nil => simp at h
  | cons a l ih =>
    cases i with
    | zero =>
      simp only [List.getElem?_cons_zero, Option.some.injEq] at h
      subst h
      have h1 : (u.ph != Phase.unconf) = true := by simpa using hu
      have h2 : ((Life.unconf : Pipe).ph != Phase.unconf) = false := rfl
      simp only [List.set_cons_zero, List.countP_cons, h1, h2, if_true]
      simp
    | succ i =>
      have := ih (i := i) (by simpa using h)
      simp only [List.set_cons_succ, List.countP_cons]
      omega

/-- What a construction that completes has checked, and what it leaves (rules R143, R144). -/
theorem construct_ok {i : Inst} {l : List Nid} {typed : List (Tag × Tag) → Bool}
    {cfg : List (Tag × Tag) → PipeCfg} {d : Done} (h : construct i l typed cfg s = .ok d) :
    s.pipe[i.toNat]? = some .unconf ∧ (∀ c ∈ l, phaseIs leftUnconf s c = true) ∧
      (∀ c ∈ l, c ∉ s.used) ∧ l.Nodup ∧ nidOf 0 i ∉ l ∧
      d.st = putPipe i (.conf (cfg (l.map (nodeTypes s)))) { s with used := s.used ++ l } := by
  obtain ⟨v, hv, h⟩ := bind_ok.mp h
  rw [pick_ok] at hv
  split at h
  · split at h; · cases h
    split at h; · cases h
    split at h; · cases h
    rename_i hconf
    split at h; · cases h
    rename_i hdup
    split at h; · cases h
    cases h
    simp only [duplicated, Bool.or_eq_true, not_or, List.any_eq_true, not_exists, not_and,
      Bool.not_eq_true', decide_eq_false_iff_not, Decidable.not_not, List.contains_iff_mem] at hdup
    simp only [childrenConfigured, Bool.not_eq_true', Bool.not_eq_false, List.all_eq_true] at hconf
    exact ⟨hv, hconf, hdup.1.1, hdup.1.2, hdup.2, rfl⟩
  · cases h

/-- A construction extends the forest (rule R143). -/
theorem construct_forest {i : Inst} {l : List Nid} {typed : List (Tag × Tag) → Bool}
    {cfg : List (Tag × Tag) → PipeCfg} {d : Done} (hcfg : ∀ ts, (cfg ts).child = l)
    (h : construct i l typed cfg s = .ok d) (hs : s.forest = true) : d.st.forest = true := by
  obtain ⟨hp, hconf, hused, hnodup, hself, hd⟩ := construct_ok h
  have hlt := (List.getElem?_eq_some_iff.mp hp).1
  rw [hd]
  clear hd h
  generalize hu : cfg (l.map (nodeTypes s)) = c
  have hc : c.child = l := by rw [← hu]; exact hcfg _
  have hforest := hs
  unfold State.forest at hs ⊢
  simp only [Bool.and_eq_true, List.all_eq_true, List.mem_range, decide_eq_true_eq,
    List.isPerm_iff] at hs ⊢
  refine ⟨⟨?_, ?_⟩, ?_⟩
  · refine List.nodup_append.mpr ⟨hs.1.1, hnodup, fun a ha b hb hab => ?_⟩
    exact hused b hb (hab ▸ ha)
  · refine List.Perm.trans ?_ (children_set hp).symm
    exact (hs.1.2.append_right l).trans (by rw [show Pipe.children (.conf c) = l from hc])
  · rw [show (putPipe i (.conf c) { s with used := s.used ++ l }).constructed = s.constructed + 1 from
      constructed_set hp (by simp [Life.ph])]
    generalize ht : putPipe i (.conf c) { s with used := s.used ++ l } = t
    have kids : ∀ n, n ≠ nidOf 0 i → childrenOf t n = childrenOf s n := by
      intro n hn
      rw [childrenOf_eq, childrenOf_eq, ← ht]
      split
      · rename_i h0
        have : i.toNat ≠ (nidInst n).toNat := fun h =>
          hn (by rw [← nidOf_eta n, h0, BitVec.eq_of_toNat_eq h])
        simp only [putPipe, List.map_set, List.getElem?_set_ne this]
      · rfl
    have phase : ∀ n, phaseIs leftUnconf s n = true → phaseIs leftUnconf t n = true := by
      intro n h
      rw [phaseIs_eq, ← ht] at *
      unfold nodeInfo at *
      split
      case h_1 h' => simp only [h'] at h; exact any_phase_set pipeInfo_ph (fun _ _ _ => rfl) h
      all_goals simp_all [findExt, putPipe]
    have self : phaseIs leftUnconf s (nidOf 0 i) = false := by
      rw [phaseIs_eq]; simp [nodeInfo, hp, pipeInfo]
    have old : ∀ k n, n ≠ nidOf 0 i → descendantsAre leftUnconf s k n = true →
        descendantsAre leftUnconf t k n = true := by
      intro k
      induction k with
      | zero => intro n _ h; simp [descendantsAre] at h
      | succ k ih =>
        intro n hn h
        rw [descendantsAre_succ] at *
        rw [kids n hn]
        refine fun d hd => ⟨phase d (h d hd).1, ih d ?_ (h d hd).2⟩
        rintro rfl
        have := (h _ hd).1
        rw [self] at this
        cases this
    intro j hj
    by_cases he : nidOf 0 (BitVec.ofNat 8 j) = nidOf 0 i
    · have hk : childrenOf t (nidOf 0 i) = l := by
        rw [childrenOf_eq, ← ht]; simp [putPipe, hlt, Pipe.children, hc]
      rw [he, descendantsAre_succ, hk]
      refine fun d hd => ⟨phase d (hconf d hd), old _ d (fun h => hself (h ▸ hd)) ?_⟩
      by_cases h0 : nidUnit d = 0
      · have hd' := hconf d hd
        rw [phaseIs_eq, ← nidOf_eta d, h0] at hd'
        have hb : (nidInst d).toNat < s.pipe.length := by
          by_contra hb
          simp [nodeInfo, List.getElem?_eq_none (Nat.le_of_not_lt hb)] at hd'
        have := hs.2 _ hb
        rwa [BitVec.ofNat_toNat, BitVec.setWidth_eq, ← h0, nidOf_eta] at this
      · exact descendantsAre_leaf _ _ _ _ h0
    · refine old _ _ he (descendantsAre_mono (hs.2 j ?_) (Nat.le_succ _))
      rw [← ht] at hj
      simpa [putPipe] using hj

end Machine
end Sys2Proof
end

