-- ==== Sys2Proof/Tests/Slice0.lean ====
section
/-!
SUPPORT. The model's own tests: the well-formedness checks, command words written out from rules R101
and R104, one-step tests with expected results from 95_test_vectors.md, and for every obligation with
hypotheses a state and operands that meet them.
-/

namespace Sys2Proof
namespace Tests

open Sys2Proof.Machine Sys2Proof.Claims

/- The theorems of this file are checked one after the other: many kernel evaluations at once take
more memory than a check allows. -/
set_option Elab.async false

/-! ### Helpers -/

/-- The state right after reset. -/
def base : State := State.reset

/-- Binary32 patterns: 1, 2, 4, 8, 0.5, 0.25, 1200, 8000, -1, and a NaN. -/
def one : B32 := 0x3F800000
def two : B32 := 0x40000000
def four : B32 := 0x40800000
def eight : B32 := 0x41000000
def half : B32 := 0x3F000000
def quarter : B32 := 0x3E800000
def k12 : B32 := 0x44960000
def k8 : B32 := 0x45FA0000
def minus1 : B32 := 0xBF800000
def notNumber : B32 := 0x7FC00000

/-- A binary32 pattern as a `Real`. -/
def re (x : B32) : RealVal := base.num.ofB32 x

/-- The state an operation ends in, or `s` where it ends in none. -/
def after (i : Instr) (s : State) : State :=
  match exec i s with
  | .next t => t
  | _ => s

/-- The status of an operation. -/
def status (i : Instr) (s : State) : Status := (after i s).out.status

/-- The result of an operation. -/
def result (i : Instr) (s : State) : Result := (after i s).out.result

/-- The events of an operation. -/
def events (i : Instr) (s : State) : List Event := (after i s).out.events.map Raised.ev

/-- What a decoded command is, as a value that can be compared. -/
def read (w : CmdWord) (o : Operand) : Option Instr := (decode ⟨w, o⟩).toOption

/-! ### Well-formedness -/

/-- The list of `BS.CONFIG` must have as many rates as `C` says (rule R106). -/
theorem test_wf_candidates :
    Instr.wellFormed (.bsConfig 0 2 [one] 1 1) = false ∧
    Instr.wellFormed (.bsConfig 0 2 [one, two] 1 1) = true := by decide

/-- OUTQ has instance 0 only (rule R101). -/
theorem test_wf_outq :
    Instr.wellFormed (.outqDrain 1) = false ∧ Instr.wellFormed (.outqDrain 0) = true := by decide

/-- The block has instance 0 only (rule R101). -/
theorem test_wf_core :
    Instr.wellFormed (.coreReset 255) = false ∧ Instr.wellFormed (.coreReset 0) = true := by decide

/-! ### Command words, bit by bit: instance, unit, operation (rules R101, R104) -/

theorem test_decode_pipe :
    read 0b00000010_0000_0000 (.nodes [nidOf 4 0] none) = some (.pipeSerial 2 [nidOf 4 0]) ∧
    read 0b00000000_0000_0001 (.nodes [] (some (.sum, .real))) = some (.pipeParallel 0 [] .sum .real) ∧
    read 0b11111111_0000_0010 (.rate k8) = some (.pipeInit 255 k8) ∧
    read 0b00000001_0000_0011 (.sample (.sym 7)) = some (.pipeStep 1 (.sym 7)) := by decide

theorem test_decode_gz :
    read 0b00000011_0001_0000 (.params [.int 110, .real one]) = some (.gzConfig 3 110 one) ∧
    read 0b00000000_0001_0001 (.rate k8) = some (.gzInit 0 k8) ∧
    read 0b00000000_0001_0010 (.sample (.real half)) = some (.gzStep 0 half) := by decide

theorem test_decode_fir :
    read 0b00000000_0010_0000 (.params [.int 4, .int 5, .real one, .real two, .real half, .int 1]) =
      some (.firConfig 0 4 5 one two half 1) ∧
    read 0b00000001_0010_0001 (.rate k8) = some (.firInit 1 k8) ∧
    read 0b00000001_0010_0010 (.sample (.real half)) = some (.firStep 1 half) ∧
    read 0b00000001_0010_0011 (.sample (.cplx half one)) = some (.fircStep 1 half one) ∧
    read 0b00000001_0010_0100 (.word 3) = some (.firSetTaps 1 3) := by decide

theorem test_decode_bq :
    read 0b00000000_0011_0000 (.params [.int 6, .real one, .real two, .real half, .int 0]) =
      some (.bqConfig 0 6 one two half 0) ∧
    read 0b00000010_0011_0001 (.rate k8) = some (.bqInit 2 k8) ∧
    read 0b00000010_0011_0010 (.sample (.real half)) = some (.bqStep 2 half) ∧
    read 0b00000010_0011_0011 (.sample (.cplx half one)) = some (.bqcStep 2 half one) := by decide

theorem test_decode_ma :
    read 0b00000000_0100_0000 (.params [.int 4]) = some (.maConfig 0 4) ∧
    read 0b00000000_0100_0001 (.rate k8) = some (.maInit 0 k8) ∧
    read 0b00000000_0100_0010 (.sample (.real half)) = some (.maStep 0 half) := by decide

theorem test_decode_bs :
    read 0b00000000_0101_0000 (.params [.int 2, .real one, .real two, .int 4, .int 64]) =
      some (.bsConfig 0 2 [one, two] 4 64) ∧
    read 0b00000000_0101_0000 (.params [.int 2, .real one, .int 4, .int 64]) = none ∧
    read 0b00000000_0101_0001 (.rate k8) = some (.bsInit 0 k8) ∧
    read 0b00000000_0101_0010 (.sample (.bit true)) = some (.bsStep 0 true) ∧
    read 0b00000000_0101_0011 .none = some (.bsWaitForSync 0) := by decide

theorem test_decode_bch :
    read 0b00000000_0110_0000 (.params [.bits 0x769, .int 31, .int 21, .int 2, .bits 0]) =
      some (.bchConfig 0 0x769 31 21 2 0) ∧
    read 0b00000000_0110_0001 (.word 5) = some (.gfExp 0 5) ∧
    read 0b00000000_0110_0010 (.word 5) = some (.gfLog 0 5) ∧
    read 0b00000000_0110_0011 (.words 5 6) = some (.gfMul 0 5 6) ∧
    read 0b00000000_0110_0100 (.word 5) = some (.gfInv 0 5) ∧
    read 0b00000000_0110_0101 (.words 5 6) = some (.gfPow 0 5 6) ∧
    read 0b00000000_0110_0110 (.word 5) = some (.bchEncode 0 5) ∧
    read 0b00000000_0110_0111 (.word 5) = some (.bchSyndrome 0 5) ∧
    read 0b00000000_0110_1000 (.word 5) = some (.bchCheck 0 5) ∧
    read 0b00000000_0110_1001 (.word 5) = some (.bchCorrect 0 5) ∧
    read 0b00000000_0110_1010 (.word 5) = some (.bchDecode 0 5) := by decide

theorem test_decode_decoders :
    read 0b00000000_0111_0000 .none = some (.hdReset 0) ∧
    read 0b00000000_0111_0001 (.sample (.bit true)) = some (.hdStep 0 true) ∧
    read 0b00000000_1000_0000 .none = some (.pgReset 0) ∧
    read 0b00000000_1000_0001 (.word 0x44960000) = some (.pgSync 0 k12) ∧
    read 0b00000000_1000_0010 (.sample (.bit false)) = some (.pgStep 0 false) ∧
    read 0b00000000_1000_0011 (.word 2) = some (.pgSetFilter 0 2) := by decide

theorem test_decode_system :
    read 0b00000000_1001_0000 .none = some (.outqDrain 0) ∧
    read 0b00000000_1111_0000 .none = some (.coreReset 0) ∧
    read 0b00000000_1111_0001 .none = none ∧ read 0b00000000_1001_0001 .none = none := by decide

/-! ### PIPE (V-PIPE) -/

/-- MA instances 0 and 1, GZ 0, FIR 0 and BS 0 configured. -/
def configured : State :=
  putMa 0 (.conf ⟨2⟩) (putMa 1 (.conf ⟨4⟩) (putGz 0 (.conf ⟨4, re one⟩)
    (putFir 0 (.conf ⟨.rect, 5, re one, re two, re one, true⟩)
      (putBs 0 (.conf ⟨1, [re k12], 1, 64⟩) base))))

/-- The decimating node of the vectors, unit 10, after `calls` steps. -/
def dec (b : ExtBehav) (ph : Phase) (calls : Nat) : Ext := 
  ⟨nidOf 10 0, .real, .real, ph, b, calls, [], false⟩

def maReg0 : MaReg := ⟨[re half, re 0], 1, re half, 0, .start false⟩

/-- The composite `PIPE@0 [DEC2, MA@0]`, in CONF or in RUN. -/
def tree (k : PipeKind) (b : ExtBehav) (run : Bool) (calls : Nat) : State :=
  let c : PipeCfg := ⟨k, [nidOf 10 0, nidOf 4 0], .real, .real⟩
  { base with
    pipe := [if run then .run c ⟨re k8, re k8, .start false⟩ else .conf c]
    ma := [if run then .run ⟨2⟩ maReg0 else .conf ⟨2⟩]
    ext := [dec b (if run then .run else .conf) calls]
    used := [nidOf 10 0, nidOf 4 0] }

/-- V-PIPE-1: an empty list. -/
theorem test_pipeSerial_empty : status (.pipeSerial 0 []) base = .config .emptyPipeline := by decide

/-- V-PIPE-3: REAL feeds CPLX. -/
theorem test_pipeSerial_types :
    status (.pipeSerial 0 [nidOf 4 0, nidOf 2 0]) configured = .contract .typeMismatch := by decide

/-- V-PIPE-3: branches differ in `IN_T`. -/
theorem test_pipeParallel_types :
    status (.pipeParallel 0 [nidOf 4 0, nidOf 5 0] .sum .real) configured =
      .contract .typeMismatch := by decide

/-- V-PIPE-4: the rate is halved on the way. -/
theorem test_pipeInit_serial :
    result (.pipeInit 0 k8) (tree .serial .dec2 false 0) = .rate (re 0x457A0000) := by decide +kernel

/-- V-PIPE-4: the branches return 4000 and 8000. -/
theorem test_pipeInit_parallel :
    status (.pipeInit 0 k8) (tree (.parallel .sum) .dec2 false 0) = .config .rateMismatch := by
  decide +kernel

/-- V-PIPE-5 (b), tick 1: `1.0 + 0.75`. -/
theorem test_pipeStep_parallel :
    result (.pipeStep 0 (.real one)) (tree (.parallel .sum) .dec2SameRate true 1) =
      .sample (some (.real (re 0x3FE00000))) := by decide +kernel

/-- V-PIPE-5 (a): a `None` ends the evaluation, and MA is not stepped. -/
theorem test_pipeStep_none :
    let t := after (.pipeStep 0 (.real one)) (tree .serial .dec2 true 0)
    t.out.result = .sample none ∧ t.ma = [.run ⟨2⟩ maReg0] := by decide +kernel

/-! ### GZ (V-GZ) -/

/-- V-GZ-4. -/
theorem test_gzConfig : status (.gzConfig 0 0 one) base = .config .badWindowSize := by decide

/-- V-GZ-3: 250 * 10 / 1000 = 2.5 rounds to 3. -/
theorem test_gzInit :
    ((after (.gzInit 0 0x447A0000) (putGz 0 (.conf ⟨10, re 0x437A0000⟩) base)).gz.head?.map fun g =>
      match g with
      | .run _ r => r.k
      | _ => 0) = some 3 := by decide +kernel

/-- V-GZ-3: with COEFF = 2 the magnitude is the sum of the window, 2.0 at the fourth 0.5. -/
theorem test_gzStep :
    result (.gzStep 0 half)
      (putGz 0 (.run ⟨4, re 0⟩ ⟨re four, 0, re two, [re half, re half, re half, re 0], 3, .start false⟩) base) =
      .sample (some (.real (re two))) := by decide +kernel

/-! ### FIR (V-FIR) -/

/-- V-FIR-5: WINDOW is checked before T. -/
theorem test_firConfig : status (.firConfig 0 5 0 0 one 0 0) base = .config .badEnum := by decide

/-- V-FIR-5: the band 9000..1000 clamps to 4000..1000. -/
theorem test_firInit :
    status (.firInit 0 k8)
      (putFir 0 (.conf ⟨.rect, 5, re 0x460CA000, re 0x447A0000, re 0, false⟩) base) =
      .config .badBand := by decide +kernel

/-- The filter of V-FIR-3, real, after the stream 1.0 0.0. -/
def firRun : Fir :=
  .run ⟨.rect, 3, re 0, re one, re 0, false⟩
    ⟨3, re eight, [re half, re quarter, re 0x3E000000], .real [re one, re 0, re 0], 2, .start false⟩

/-- V-FIR-3, tick 2. -/
theorem test_firStep :
    result (.firStep 0 0) (putFir 0 firRun base) = .sample (some (.real (re 0x3E000000))) := by
  decide +kernel

/-- V-FIR-3, complex, tick 3. -/
theorem test_fircStep :
    let z : Cplx := ⟨re 0, re 0⟩
    result (.fircStep 0 two 0)
      (putFir 0 (.run ⟨.rect, 3, re 0, re one, re 0, true⟩
        ⟨3, re eight, [re half, re quarter, re 0x3E000000],
          .cplx [⟨re one, re minus1⟩, ⟨re 0, re half⟩, z], 0, .start false⟩) base) =
      .sample (some (.cplx ⟨re one, re 0x3D800000⟩)) := by decide +kernel

/-- V-FIR-4: no taps. -/
theorem test_firSetTaps : status (.firSetTaps 0 0) (putFir 0 firRun base) = .config .badTapCount := by
  decide +kernel

/-! ### BQ (V-BQ) -/

/-- V-BQ-4. -/
theorem test_bqConfig :
    status (.bqConfig 0 7 one one one 0) base = .config .badEnum ∧
    status (.bqConfig 0 0 one 0 one 0) base = .config .badArgument := by decide +kernel

/-- V-BQ-3: a low-pass at 0 Hz has `B = (0,0,0)`, `A1 = -2`, `A2 = 1`; `F0 = -1` is clamped to 0. -/
theorem test_bqInit :
    ((after (.bqInit 0 k8) (putBq 0 (.conf ⟨.lowpass, re minus1, re one, re 0, false⟩) base)).bq.head?.map
      fun u =>
        match u with
        | .run _ r => some r.co
        | _ => none) =
      some (some ⟨re 0, re 0, re 0, re 0xC0000000, re one⟩) := by decide +kernel

/-- Rule R189 by hand: `0.5 * 1 + 0.25 * 2 + 0 - 0.5 * 4 - 0 = -1`. -/
theorem test_bqStep :
    result (.bqStep 0 one)
      (putBq 0 (.run ⟨.lowpass, re one, re one, re 0, false⟩
        ⟨re k8, ⟨re half, re quarter, re 0, re half, re 0⟩, .real ⟨re two, re 0, re four, re 0⟩, .start false⟩)
        base) = .sample (some (.real (re minus1))) := by decide +kernel

/-- V-BQ-4: a real step of a complex unit. -/
theorem test_bqcStep :
    let z : Cplx := ⟨re 0, re 0⟩
    let s := putBq 0 (.run ⟨.lowpass, re one, re one, re 0, true⟩
      ⟨re k8, ⟨re half, re quarter, re 0, re half, re 0⟩, .cplx ⟨z, z, z, z⟩, .start false⟩) base
    status (.bqStep 0 half) s = .contract .typeMismatch ∧
    result (.bqcStep 0 one half) s = .sample (some (.cplx ⟨re half, re quarter⟩)) := by decide +kernel

/-! ### MA (V-MA) -/

/-- V-MA. -/
theorem test_maConfig : status (.maConfig 0 0) base = .config .badWindowSize := by decide

/-- V-MA: the rate is not positive. -/
theorem test_maInit :
    status (.maInit 0 minus1) (putMa 0 (.conf ⟨4⟩) base) = .config .badArgument := by decide +kernel

/-- V-MA, first stream, tick 4: the 1 leaves as the 5 enters, 14 / 4 = 3.5. The samples are out of range,
and the vector is exact, so that binary64 reproduces it. -/
theorem test_maStep :
    result (.maStep 0 0x40A00000)
      (putMa 0 (.run ⟨4⟩ ⟨[re one, re two, re 0x40400000, re four], 0, re 0x41200000, 0,
        ⟨.outOfRange, false, false⟩⟩) base) = .sample (some (.real (re 0x40600000))) := by decide +kernel

/-- V-MA: the last of N zeros makes the sum exactly 0, whatever rounding left in it. -/
theorem test_maStep_zeros :
    result (.maStep 0 0)
      (putMa 0 (.run ⟨3⟩ ⟨[re 0, re 0, re half], 2, re one, 2, .start false⟩) base) =
      .sample (some (.real (re 0))) := by decide +kernel

/-! ### The source contract (entry U3) -/

/-- The records of the units after one sample: 0.5; 2.0; a NaN. Under binary64 2.0 opens the outputs of GZ
and BQ, and those of MA where the average is rounded, of `N = 3` and not of `N = 4`. -/
theorem test_standing :
    let M := base.num
    let q (b : B32) := realContract M (re b)
    let gz (b : B32) := (gzInsert M ⟨4, re 0⟩ (gzReg M ⟨4, re 0⟩ (re four)) (re b) (q b)).standing
    let bq (b : B32) := (bqTick M
      ⟨re k8, ⟨re half, re 0, re 0, re 0, re 0⟩, .real (Delay.all (re 0)), .start (!M.exact)⟩
      (Delay.all (re 0)) (re b) (q b)).1.standing
    let ma (n : Nat) (b : B32) := (maTick M ⟨n⟩ (maReg M ⟨n⟩) (re b) (q b)).standing
    [gz half, gz two, bq half, bq two, ma 3 half, ma 3 two, ma 4 two, ma 4 notNumber] =
      [⟨.kept, true, false⟩, ⟨.outOfRange, true, true⟩, ⟨.kept, true, false⟩, ⟨.outOfRange, true, true⟩,
        ⟨.kept, true, false⟩, ⟨.outOfRange, true, true⟩, ⟨.outOfRange, false, false⟩,
        ⟨.notNumber, true, true⟩] := by decide +kernel

/-- The sample 2.0 that the decimating node drops: the composite keeps the record, and MA has it with the
next sample, 0.5. -/
theorem test_standing_tree :
    let t := after (.pipeStep 0 (.real two)) (tree .serial .dec2 true 0)
    let u := after (.pipeStep 0 (.real half)) t
    t.ma = [.run ⟨2⟩ maReg0] ∧
    u.pipe = [.run ⟨.serial, [nidOf 10 0, nidOf 4 0], .real, .real⟩
      ⟨re k8, re k8, ⟨.outOfRange, false, false⟩⟩] ∧
    u.ma.map (fun m => match m with
      | .run _ r => r.standing.source
      | _ => .kept) = [.outOfRange] := by decide +kernel

/-! ### BS (V-BS) -/

/-- V-BS-6: the first failing check decides. -/
theorem test_bsConfig : status (.bsConfig 0 0 [] 0 0) base = .config .emptyCandidates := by decide

/-- BS in RUN with `SPB = spb` at the end of a run of `len` samples of level 1. -/
def bsRun (spb : B32) (len mcnt : Nat) : BsReg :=
  { rate := re 0x463B8000, spbc := [re 0x41BB8000, re 0x41200000, re 0x40A00000], spb := re spb,
    lidx := .unwritten, lvalid := true, level := .holds true, run := len, mvalid := decide (0 < mcnt),
    midx := if 0 < mcnt then .holds 1 else .unwritten, mcnt := mcnt, bitbuf := [], head := 0,
    count := 0, last := [] }

def bsCfg (cap : Nat) : BsCfg := ⟨3, [re 0x44000000, re k12, re 0x45160000], 4, cap⟩

def bsAt (spb : B32) (len mcnt cap : Nat) : State :=
  putBs 0 (.run (bsCfg cap) (bsRun spb len mcnt)) base

/-- V-BS-2: a single candidate is locked from INIT, `SPB = 10`. -/
theorem test_bsInit :
    ((after (.bsInit 0 0x463B8000) (putBs 0 (.conf ⟨1, [re k12], 1, 4⟩) base)).bs.head?.map fun u =>
      match u with
      | .run _ r => some r.spb
      | _ => none) = some (some (re 0x41200000)) := by decide +kernel

/-- V-BS-1, tick 40: the fourth run of 10 locks to candidate 1. -/
theorem test_bsStep_lock :
    events (.bsStep 0 false) (bsAt 0 10 3 1024) = [.sync (re k12)] := by decide +kernel

/-- V-BS-4: `CAP = 4` and a run of 60: two bits overflow, one is taken. -/
theorem test_bsStep_overflow :
    let s := bsAt 0x41200000 60 0 4
    events (.bsStep 0 false) s = [.bsOverflow, .bsOverflow] ∧
    result (.bsStep 0 false) s = .sample (some (.bool true)) := by decide +kernel

/-- V-BS-5: three candidates, so BS searches again. -/
theorem test_bsWaitForSync :
    ((after (.bsWaitForSync 0) (bsAt 0x41200000 60 0 4)).bs.head?.map fun u =>
      match u with
      | .run _ r => some (r.spb, r.lvalid, r.run)
      | _ => none) = some (some (re 0, false, 0)) := by decide +kernel

/-! ### BCH (V-GF, V-BCH) -/

/-- BCH instance 0 configured as the paging code. -/
def coded : State := putBch 0 (.run pagingCode) base

/-- V-BCH-1. -/
theorem test_bchConfig :
    after (.bchConfig 0 0x769 31 21 2 0) base = done coded .none := by decide +kernel

/-- V-BCH-1: the polynomial is not the one of the code, or not primitive. -/
theorem test_bchConfig_bad :
    status (.bchConfig 0 0x769 31 21 2 0x29) base = .config .badCode ∧
    status (.bchConfig 0 0x769 31 21 2 0x21) base = .config .badCode := by decide +kernel

/-- V-GF-1. -/
theorem test_gf :
    result (.gfExp 0 36) coded = .word 0x05 ∧ result (.gfLog 0 0x12) coded = .word 30 ∧
    result (.gfMul 0 0x12 0x0B) coded = .word 0x17 ∧ result (.gfInv 0 0x12) coded = .word 0x02 ∧
    result (.gfPow 0 0x03 7) coded = .word 0x04 := by decide +kernel

/-- V-GF-1: the corners. -/
theorem test_gf_zero :
    status (.gfLog 0 0) coded = .contract .badOperand ∧
    status (.gfInv 0 0) coded = .contract .badOperand ∧ result (.gfPow 0 0 0) coded = .word 1 ∧
    result (.gfPow 0 0 5) coded = .word 0 ∧
    status (.gfMul 0 0x20 1) coded = .contract .badOperand := by decide +kernel

/-- V-BCH-2 and V-BCH-3. -/
theorem test_bch_words :
    result (.bchEncode 0 0x155555) coded = .word 0x5555578D ∧
    result (.bchSyndrome 0 0x6AF178D1) coded = .words [0x1B, 0x02, 0x16, 0x04] ∧
    result (.bchCheck 0 0x6AF378D9) coded = .flag true ∧
    result (.bchDecode 0 0x6AF378D9) coded = .word 0x1ABCDE := by decide +kernel

/-- V-BCH-3: two errors, and three that leave no root. -/
theorem test_bchCorrect :
    result (.bchCorrect 0 0x6AF178D1) coded = .corrected 0x6AF378D9 2 ∧
    result (.bchCorrect 0 0x6AB178D1) coded = .uncorrectable := by decide +kernel

/-! ### HD (V-HD) -/

/-- The address bytes of V-HD-4's second row. -/
def addresses : List (BitVec 8) :=
  [0x86, 0xA2, 0x40, 0x40, 0x40, 0x40, 0x60, 0x96, 0x62, 0x82, 0x84, 0x86, 0x40, 0xFF]

/-- HD inside a frame of these bytes, after the flag's first five 1s. -/
def inFrame (bytes : List (BitVec 8)) : Hd :=
  { Hd.reset with
    state := .waitEnd, raw := 0x1F, ones := 5, acc := 0x3E, accn := 6, buf := bytes,
    blen := bytes.length }

/-- V-HD-4: an I frame with the escape; the frame is the result and joins OUTQ. -/
theorem test_hdStep :
    let t := after (.hdStep 0 true) (putHd 0 (inFrame (addresses ++ [0x00, 0xFF, 0xCF, 0x41])) base)
    (match t.out.result with
      | .frame (some f) =>
        decide (f.type = .i ∧ f.pid = some 0xFF ∧ f.pid2 = some 0xCF ∧ f.payload = some [0x41] ∧
          f.src.ssid = 15 ∧ f.src.call = [0x4B, 0x31, 0x41, 0x42, 0x43, 0x20] ∧
          t.outq = [.frame f])
      | _ => false) = true := by decide +kernel

/-- V-HD-4: an I frame with no PID byte, and the address bytes alone. -/
theorem test_hdStep_discarded :
    events (.hdStep 0 true) (putHd 0 (inFrame (addresses ++ [0x00])) base) = [.framing] ∧
    events (.hdStep 0 true) (putHd 0 (inFrame addresses) base) = [.short] := by decide +kernel

/-- V-HD-5. -/
theorem test_hdReset :
    (after (.hdReset 0) (putHd 0 (inFrame addresses) base)).hd = base.hd := by decide +kernel

/-! ### PG (V-PG) -/

/-- PG with an address and the two data codewords of `HELLO` received, and 31 bits of a word. -/
def hello : Pg :=
  { Pg.reset ⟨0⟩ with
    state := .readPocsagBatch, cwidx := 7, nbits := 31, sr := 0x5EA27065,
    msg := appendData (appendData (openMessage PgMsg.empty 0x048D17 4) 0x1344C) 0x99F20 }

/-- V-PG-1: an Idle codeword ends the message, with the text `HELLO`. -/
theorem test_pgStep :
    let t := after (.pgStep 0 true) (putPg 0 hello base)
    (match t.out.result with
      | .page (some p) =>
        decide (p.alpha = [0x48, 0x45, 0x4C, 0x4C, 0x4F] ∧ p.addr18 = 0x12345 ∧ p.func = 3 ∧
          p.pos = 4 ∧ p.ndata = 2 ∧ p.invalid = false ∧ t.outq = [.page p])
      | _ => false) = true := by decide +kernel

/-- Rule R305: the sync word in the tick that ends the preamble. -/
theorem test_pgStep_sync :
    events (.pgStep 0 false)
      (putPg 0 { Pg.reset ⟨0⟩ with
        state := .waitForInitialSyncWord, alt := 16, sr := 0x3E690AEC } base) = [.syncword] := by
  decide +kernel

/-- Rules R300, R301: the message in progress is emitted, and SYNC sets the rate. -/
theorem test_pgReset_pgSync :
    (after (.pgReset 0) (putPg 0 hello base)).outq.length = 1 ∧
    ((after (.pgSync 0 k12) (putPg 0 hello base)).pg.head?.map Pg.baud) = some (re k12) := by
  decide +kernel

/-- Rule R303. -/
theorem test_pgSetFilter :
    status (.pgSetFilter 0 4) base = .config .badEnum ∧ status (.pgSetFilter 0 3) base = .ok := by
  decide

/-! ### OUTQ and the block -/

/-- Rule R344. -/
theorem test_outqDrain :
    let s := after (.pgReset 0) (putPg 0 hello base)
    result (.outqDrain 0) s = .messages s.outq ∧ (after (.outqDrain 0) s).outq = [] := by
  decide +kernel

/-- Rules R340, R341. -/
theorem test_coreReset : after (.coreReset 0) coded = base := by decide +kernel

/-- Rule R363: a SYNC of `BS@0` chained to `PG@1` becomes a PG.SYNC, before every other command. -/
theorem test_chain :
    let s := { bsAt 0 10 3 1024 with
      par := { Params.reference with chains := [⟨0, .pg 1⟩] }, pending := [encode (.bsStep 0 false)] }
    (match step s with
      | .next t => t.pending
      | _ => []) = [encode (.pgSync 1 k12)] := by decide +kernel

/-- Rule R363: a RESYNC_REQ of `PG@0` chained behind `BS@3` becomes a BS.WAIT_FOR_SYNC. -/
theorem test_chain_resync :
    let s := { putPg 0 { hello with state := .waitForImmediateSyncWord } base with
      par := { Params.reference with chains := [⟨3, .pg 0⟩] }, pending := [encode (.pgStep 0 true)] }
    (match step s with
      | .next t => t.pending
      | _ => []) = [encode (.bsWaitForSync 3)] := by decide +kernel

/-! ### Witnesses: a state and operands that meet the hypotheses of each obligation -/

theorem witness_DecodeEncode :
    Instr.wellFormed (.bsConfig 0 2 [one, two] 4 64) = true ∧ Instr.wellFormed (.coreReset 0) = true := by
  decide

theorem witness_EncodeDecode : decode ⟨0x0012, .sample (.real half)⟩ = .ok (.gzStep 0 half) := rfl

theorem witness_StepRunsDecoded :
    (issue (encode (.maConfig 0 4)) base).pending = encode (.maConfig 0 4) :: [] ∧
    decode (encode (.maConfig 0 4)) = .ok (.maConfig 0 4) := ⟨rfl, rfl⟩

/-- The codes next to the ends of the table's units and of the custom space. -/
theorem witness_ReservedCommandRejected_code :
    ∀ w ∈ [0x0004, 0x009F, 0x00F1, 0x00FF], w % 256 ∉ [0x90, 0xF0] ∧ (w % 256 < 0xA0 ∨ 0xF0 ≤ w % 256) := by
  decide

/-- The first and the last code of the custom space, and V-SYS's command word 0x00A2: no node is bound
under the identity they name. -/
theorem witness_ReservedCommandRejected_custom :
    (∀ w ∈ [0x00A0, 0x00A2, 0x00EF, 0xFFEF], 0xA0 ≤ w % 256 ∧ w % 256 < 0xF0) ∧
    (0x00A2 : CmdWord).toNat = 0x00A2 ∧ ∀ n, findExt base n = none :=
  ⟨by decide, by decide, fun _ => rfl⟩

/-- V-SYS: a command to unit 10 with no node. -/
theorem test_custom_unbound :
    step (issue ⟨0x00A2, .sample (.real half)⟩ base) =
      .next (rejected base (.contract .badCommand)) := rfl

/-- A node bound under the identity 0x00A names: free, and owned; in CONF, and in RUN. Which codes are
INIT and STEP is open (log entry 19), so no witness can name one. -/
theorem witness_ReservedCommandRejected_bound :
    BitVec.ofNat 12 (0x00A2 / 256 * 16 + 0x00A2 % 256 / 16) = nidOf 10 0 ∧
    findExt { base with ext := [dec .dec2 .conf 0] } (nidOf 10 0) = some (dec .dec2 .conf 0) ∧
    nidOf 10 0 ∉ base.used ∧
    findExt (tree .serial .dec2 true 0) (nidOf 10 0) = some (dec .dec2 .run 0) ∧
    nidOf 10 0 ∈ (tree .serial .dec2 true 0).used ∧ portTag (.real half) = (dec .dec2 .run 0).inT ∧
    portTag (.bit true) ≠ (dec .dec2 .run 0).inT ∧ base.num.pos (base.num.ofB32 k8) = true ∧
    base.num.pos (base.num.ofB32 0) = false := by decide +kernel

/-- An operand of another shape: no operation is encoded as CORE.RESET with a word. -/
theorem witness_ReservedCommandRejected_shape :
    ∀ i : Instr, i.wellFormed = true → (⟨0x00F0, .word 0⟩ : Command) ≠ encode i := by
  intro i _ h
  have hc : wordCode (encode i).word = 0xF0 := by rw [← h]; decide
  have ho : (encode i).operand = .word 0 := by rw [← h]
  rw [show (encode i).word = wordOf i.inst i.op from rfl, Laws.EncodedWord.code_of_wordOf] at hc
  cases i <;> simp [Instr.op, Op.code, encode, Instr.operand] at hc ho

theorem witness_MissingInstanceRejected :
    instances base (unitOf (.gzInit 4 k8)) ≤ (4 : Inst).toNat ∧
    instances base (unitOf (.outqDrain 1)) ≤ (1 : Inst).toNat ∧
    instances base (unitOf (.coreReset 1)) ≤ (1 : Inst).toNat := by decide

theorem witness_OwnedNodeRefused :
    let s := tree .serial .dec2 true 0
    isStep (.maStep 0 half) = true ∧ isInit (.maInit 0 k8) = true ∧
    (0 : Inst).toNat < instances s (unitOf (.maStep 0 half)) ∧
    operandTyped s (.maStep 0 half) = true ∧ nidOfOp (.maStep 0 half) ∈ s.used ∧
    nidOfOp (.maInit 0 k8) ∈ s.used := by decide +kernel

/-- One for each clause. -/
theorem witness_WrongPhaseRejected :
    nidOfOp (.gzInit 0 k8) ∉ base.used ∧ operandTyped base (.pipeStep 0 (.bit true)) = true ∧
    (isInit (.gzInit 0 k8) = true ∧ phaseOf base (.gzInit 0 k8) = some .unconf) ∧
    (isStep (.pipeStep 0 (.bit true)) = true ∧
      phaseOf base (.pipeStep 0 (.bit true)) = some .unconf) ∧
    (isStep (.maStep 0 half) = true ∧ phaseOf configured (.maStep 0 half) = some .conf) ∧
    (isBchData (.gfExp 0 1) = true ∧ phaseOf base (.gfExp 0 1) = some .unconf) ∧
    phaseOf base (.firSetTaps 0 1) = some .unconf ∧
    phaseOf base (.bsWaitForSync 0) = some .unconf ∧
    phaseOf configured (.bsWaitForSync 0) = some .conf := by decide +kernel

/-- BS 0 in CONF and owned, and MA 0 under PIPE 1 under PIPE 0, re-configured. -/
def disturbed : State :=
  { configured with
    pipe := [.run ⟨.serial, [nidOf 0 1], .real, .real⟩ ⟨re k8, re k8, .start false⟩,
      .run ⟨.serial, [nidOf 4 0], .real, .real⟩ ⟨re k8, re k8, .start false⟩]
    used := [nidOf 0 1, nidOf 4 0, nidOf 5 0] }

/-- A child, a node below a child, and an owned BS. -/
theorem witness_WrongPhaseRejected_below :
    nidOf 0 0 ∉ disturbed.used ∧ Below disturbed (nidOf 0 0) (nidOf 0 1) ∧
    Below disturbed (nidOf 0 0) (nidOf 4 0) ∧
    nodeInfo disturbed (nidOf 4 0) = some ⟨.conf, some (.real, .real)⟩ ∧
    operandTyped disturbed (.pipeStep 0 (.real half)) = true ∧
    (nodeInfo { disturbed with ma := [.unconf] } (nidOf 4 0)) = some ⟨.unconf, none⟩ ∧
    nidOfOp (.bsWaitForSync 0) ∈ disturbed.used ∧
    phaseOf disturbed (.bsWaitForSync 0) = some .conf :=
  ⟨by decide, .child (by decide +kernel),
    .deeper (d := nidOf 0 1) (.child (by decide +kernel)) (by decide +kernel),
    by decide +kernel, by decide +kernel, by decide +kernel, by decide +kernel, by decide +kernel⟩

/-- V-PIPE-6: the composite is turned away before any child is called. -/
theorem test_pipe_wrongPhase :
    status (.pipeStep 0 (.real half)) disturbed = .contract .badPhase ∧
    status (.pipeInit 0 k8) { disturbed with ma := [.unconf] } = .contract .badPhase ∧
    status (.bsWaitForSync 0) disturbed = .contract .badPhase := by decide +kernel

/-- The first and the last of the units it speaks of. -/
theorem witness_UnitsArePrivate :
    (1 ≤ unitOf (.gzConfig 0 4 one) ∧ leads (.gzConfig 0 4 one) base
      (done (putGz 0 (.conf ⟨4, re one⟩) base) .none)) ∧
    (unitOf (.pgSetFilter 0 3) = 8 ∧ leads (.pgSetFilter 0 3) base
      (done base .none)) := ⟨⟨by decide, rfl⟩, by decide, rfl⟩

theorem witness_OutqOnlyGrows :
    (Instr.pgSetFilter 0 3).op ≠ .outqDrain ∧ (Instr.pgSetFilter 0 3).op ≠ .coreReset ∧
    leads (.pgSetFilter 0 3) base (done base .none) := ⟨by decide, by decide, rfl⟩

theorem witness_StepKeepsWellFormed :
    (issue (encode (.maConfig 0 4)) base).wf = true ∧
    step (issue (encode (.maConfig 0 4)) base) = .next (done (putMa 0 (.conf ⟨4⟩) base) .none) :=
  ⟨by decide +kernel, rfl⟩

theorem witness_StepKeepsParameters :
    step (issue (encode (.maConfig 0 4)) base) = .next (done (putMa 0 (.conf ⟨4⟩) base) .none) := rfl

/-- A serial composite of GZ 0 and MA 1. -/
def leaves : State :=
  { configured with
    pipe := [.conf ⟨.serial, [nidOf 1 0, nidOf 4 1], .real, .real⟩], used := [nidOf 1 0, nidOf 4 1] }

/-- A constructed instance; and the lists of the other clauses: empty; no node; a node in UNCONF; a node twice, or owned. -/
theorem witness_SerialChecksInOrder :
    let s := configured
    s.pipe[(0 : Inst).toNat]? = some .unconf ∧ none ∈ [nidOf 4 0, nidOf 7 0].map (nodeInfo s) ∧
    (none ∉ [nidOf 4 0, nidOf 0 0].map (nodeInfo s) ∧
      some ⟨.unconf, none⟩ ∈ [nidOf 4 0, nidOf 0 0].map (nodeInfo s)) ∧
    (none ∉ [nidOf 4 0, nidOf 4 0].map (nodeInfo s) ∧
      ([nidOf 4 0, nidOf 4 0].map (nodeInfo s)).all (fun i => i.all (·.ph != .unconf)) = true ∧
      ¬ [nidOf 4 0, nidOf 4 0].Nodup) ∧
    leaves.pipe[(0 : Inst).toNat]? = some (.conf ⟨.serial, [nidOf 1 0, nidOf 4 1], .real, .real⟩) ∧
    (Life.conf ⟨.serial, [nidOf 1 0, nidOf 4 1], .real, .real⟩ : Pipe).ph ≠ .unconf := by
  decide +kernel

/-- Types that chain, and types that do not. -/
theorem witness_SerialBuilds :
    let s := configured
    let m : Phase × Tag × Tag := (.conf, .real, .real)
    let b : Phase × Tag × Tag := (.conf, .bool, .bool)
    s.pipe[(0 : Inst).toNat]? = some .unconf ∧
    [nidOf 4 0, nidOf 4 1].map (nodeInfo s) = [m, m].map (fun t => some ⟨t.1, some t.2⟩) ∧
    [nidOf 4 0, nidOf 5 0].map (nodeInfo s) = [m, b].map (fun t => some ⟨t.1, some t.2⟩) ∧
    (∀ t ∈ [m, b], t.1 ≠ .unconf) ∧ [nidOf 4 0, nidOf 4 1, nidOf 5 0].all (fun c => !s.used.contains c) = true ∧
    [nidOf 4 0, nidOf 4 1].Nodup ∧ [m, m].head? = some m ∧ [m, m].getLast? = some m ∧
    m.2.2 = m.2.1 ∧ m.2.2 ≠ b.2.1 := by decide +kernel

theorem witness_ParallelBuilds :
    let s := configured
    let m : Phase × Tag × Tag := (.conf, .real, .real)
    let b : Phase × Tag × Tag := (.conf, .bool, .bool)
    s.pipe[(0 : Inst).toNat]? = some .unconf ∧
    [nidOf 4 0, nidOf 1 0].map (nodeInfo s) = [m, m].map (fun t => some ⟨t.1, some t.2⟩) ∧
    [nidOf 4 0, nidOf 5 0].map (nodeInfo s) = [m, b].map (fun t => some ⟨t.1, some t.2⟩) ∧
    (∀ t ∈ [m, b], t.1 ≠ .unconf) ∧ [nidOf 4 0, nidOf 1 0, nidOf 5 0].all (fun c => !s.used.contains c) = true ∧
    [nidOf 4 0, nidOf 1 0].Nodup ∧ [m, b].head? = some m ∧ b.2.1 ≠ m.2.1 := by decide +kernel

/-- A serial and a parallel composite of GZ 0 and MA 1, of which the parallel one is in RUN; and the
node that halves the rate before GZ 0. -/
theorem witness_PipeInitRunsTree :
    let k : PipeCfg := ⟨.parallel .sum, [nidOf 1 0, nidOf 4 1], .real, .real⟩
    let par := { leaves with pipe := [.run k ⟨re k8, re k8, .start false⟩] }
    let d : PipeCfg := ⟨.serial, [nidOf 10 0, nidOf 1 0], .real, .real⟩
    let dec2 := { configured with pipe := [.conf d], ext := [dec .dec2 .conf 0], used := d.child }
    leaves.pipe[(0 : Inst).toNat]? = some (.conf ⟨.serial, [nidOf 1 0, nidOf 4 1], .real, .real⟩) ∧
    par.pipe[(0 : Inst).toNat]? = some (.run k ⟨re k8, re k8, .start false⟩) ∧ k.child ≠ [] ∧
    nidOf 0 0 ∉ leaves.used ∧
    [nidOf 1 0, nidOf 4 1].all (fun n => isRealLeaf n && leafReady leaves n) = true ∧
    leaves.num.pos (leaves.num.ofB32 k8) = true ∧
    leaves.num.eq (leaves.num.ofB32 k8) (leaves.num.ofB32 k8) = true ∧
    leaves.gz[(0 : Inst).toNat]? = some (.conf ⟨4, re one⟩) ∧
    leaves.ma[(1 : Inst).toNat]? = some (.conf ⟨4⟩) ∧
    dec2.pipe[(0 : Inst).toNat]? = some (.conf d) ∧ nidOf 0 0 ∉ dec2.used ∧
    findExt dec2 (nidOf 10 0) = some (dec .dec2 .conf 0) ∧ nidUnit (nidOf 10 0) = 10 ∧
    dec2.gz[(0 : Inst).toNat]? = some (.conf ⟨4, re one⟩) ∧
    dec2.num.pos (dec2.num.div (dec2.num.ofB32 k8) (dec2.num.lit 2 1)) = true := by decide +kernel

/-- `PIPE@0 [GZ@0, PIPE@1]`, `PIPE@1 [FIR@0, BQ@0, MA@0]`, all configured; FIR 0 with a band from 1 to
the given edge. -/
def mixed (fstop : B32) : State :=
  { base with
    pipe := [.conf ⟨.serial, [nidOf 1 0, nidOf 0 1], .real, .real⟩,
      .conf ⟨.serial, [nidOf 2 0, nidOf 3 0, nidOf 4 0], .real, .real⟩]
    gz := [.conf ⟨4, re one⟩]
    fir := [.conf ⟨.rect, 1, re one, re fstop, re 0, false⟩]
    bq := [.conf ⟨.lowpass, re one, re one, re 0, false⟩]
    ma := [.conf ⟨2⟩]
    used := [nidOf 2 0, nidOf 3 0, nidOf 4 0, nidOf 1 0, nidOf 0 1] }

/-- A nested composite, with a FIR whose band is kept; and BS and both branches of a split. -/
theorem witness_PipeInitRunsTree_tree :
    (let s := mixed two
     s.forest = true ∧ nidOf 0 0 ∉ s.used ∧ initOf (nidOf 0 0) k8 = some (.pipeInit 0 k8) ∧
     ∃ y t, Inits s (nidOf 0 0) (s.num.ofB32 k8) y t) ∧
    (let c : PipeCfg := ⟨.parallel .sum, [nidOf 5 0, nidOf 5 1], .bool, .bool⟩
     let s := { base with
       pipe := [.conf c], bs := [.conf (bsCfg 4), .conf (bsCfg 4)], used := c.child }
     s.forest = true ∧ ∃ y t, Inits s (nidOf 0 0) (s.num.ofB32 k8) y t) := by
  have pos : base.num.pos (re k8) = true := by decide +kernel
  refine ⟨⟨by decide +kernel, by decide +kernel, rfl, _, _, .serial (.inl rfl) rfl pos
      (.next (.gz (i := 0) (.inl rfl) pos)
        (.next (.serial (i := 1) (.inl rfl) rfl pos
          (.next (.fir (i := 0) (.inl rfl) pos (by decide +kernel))
            (.next (.bq (i := 0) (.inl rfl) pos)
              (.next (.ma (i := 0) (.inl rfl) pos) .none)))) .none))⟩,
    by decide +kernel, _, _, .parallel (.inl rfl) rfl pos
      (.next (.bs (i := 0) (.inl rfl) pos) (.next (.bs (i := 1) (.inl rfl) pos) .none)) ?_⟩
  decide +kernel

/-- The band of the FIR is reversed, after GZ and inside `PIPE@1`; and a rate that is not positive. -/
theorem witness_PipeInitRunsTree_fails :
    let s := mixed half
    s.forest = true ∧ nidOf 0 0 ∉ s.used ∧ initOf (nidOf 0 0) k8 = some (.pipeInit 0 k8) ∧
    InitFails s (nidOf 0 0) (s.num.ofB32 k8) (.config .badBand) ∧
    InitFails s (nidOf 0 0) (s.num.ofB32 0) (.config .badArgument) := by
  have pos : base.num.pos (re k8) = true := by decide +kernel
  exact ⟨by decide +kernel, by decide +kernel, rfl,
    .inTurn (before := [nidOf 1 0]) (after := []) (.inl rfl) rfl pos rfl
      (.next (.gz (i := 0) (.inl rfl) pos) .none)
      (.inTurn (i := 1) (before := []) (after := [nidOf 3 0, nidOf 4 0]) (.inl rfl) rfl pos rfl .none
        (.band (i := 0) (.inl rfl) pos (by decide +kernel))),
    .rate rfl (by decide) (by decide +kernel)⟩

/-- BAD_BAND of the FIR: GZ, which is initialised before it, has not changed (rule R150). -/
theorem test_pipeInit_badBand :
    let t := after (.pipeInit 0 k8) (mixed half)
    t.out.status = .config .badBand ∧ { t with out := base.out } = mixed half := by decide +kernel

/-- The node that halves the rate first, in CONF, and last, in RUN. -/
theorem witness_RateMismatchRejected :
    let s := tree (.parallel .sum) .dec2 false 0
    let t := tree (.parallel .sum) .dec2 true 0
    let k : PipeCfg := ⟨.parallel .sum, [nidOf 4 0, nidOf 10 0], .real, .real⟩
    let u := { t with pipe := [.run k ⟨re k8, re k8, .start false⟩] }
    let M := s.num
    let x := M.ofB32 k8
    let h := M.div x (M.lit 2 1)
    s.pipe[(0 : Inst).toNat]? =
      some (.conf ⟨.parallel .sum, [nidOf 10 0, nidOf 4 0], .real, .real⟩) ∧
    u.pipe[(0 : Inst).toNat]? = some (.run k ⟨re k8, re k8, .start false⟩) ∧
    nidOf 0 0 ∉ s.used ∧ nidOf 0 0 ∉ u.used ∧
    findExt s (nidOf 10 0) = some (dec .dec2 .conf 0) ∧
    findExt u (nidOf 10 0) = some (dec .dec2 .run 0) ∧ nidUnit (nidOf 10 0) = 10 ∧
    (isRealLeaf (nidOf 4 0) && leafReady s (nidOf 4 0) && leafReady u (nidOf 4 0)) = true ∧
    nidOf 4 0 ≠ nidOf 10 0 ∧ M.pos x = true ∧ M.eq h x = false ∧ M.eq x h = false := by
  decide +kernel

/-- A serial composite of MA 0 and MA 1 in RUN. -/
def chainOfTwo : State :=
  { base with
    pipe := [.run ⟨.serial, [nidOf 4 0, nidOf 4 1], .real, .real⟩ ⟨re k8, re k8, .start false⟩]
    ma := [.run ⟨2⟩ maReg0, .run ⟨2⟩ maReg0]
    used := [nidOf 4 0, nidOf 4 1] }

theorem witness_PipeStepSerial :
    let s := chainOfTwo
    let q := realContract s.num (s.num.ofB32 one)
    let a := maTick s.num ⟨2⟩ maReg0 (s.num.ofB32 one) q
    s.pipe[(0 : Inst).toNat]? =
      some (.run ⟨.serial, [nidOf 4 0, nidOf 4 1], .real, .real⟩ ⟨re k8, re k8, .start false⟩) ∧
    nidOf 0 0 ∉ s.used ∧ (0 : Inst) ≠ 1 ∧ s.ma[(0 : Inst).toNat]? = some (.run ⟨2⟩ maReg0) ∧
    s.ma[(1 : Inst).toNat]? = some (.run ⟨2⟩ maReg0) ∧ a.standing.anyOut = false ∧
    (maTick s.num ⟨2⟩ maReg0 (maOutput s.num ⟨2⟩ a) q).standing.anyOut = false ∧
    ((Standing.start false).after q false true).anyOut = false := by decide +kernel

/-- PROG2: `PIPE@0` chains MA 2 and `PIPE@1`, the difference of MA 0 and MA 1. -/
def prog2Pipe : List PipeCfg :=
  [⟨.serial, [nidOf 4 2, nidOf 0 1], .real, .real⟩,
    ⟨.parallel .difference, [nidOf 4 0, nidOf 4 1], .real, .real⟩]

/-- PROG2 before its PIPE.INIT. -/
def prog2 : State :=
  { base with
    pipe := prog2Pipe.map .conf
    ma := [.conf ⟨2⟩, .conf ⟨4⟩, .conf ⟨2⟩]
    used := [nidOf 4 0, nidOf 4 1, nidOf 4 2, nidOf 0 1] }

/-- PROG2 after its PIPE.INIT. -/
def prog2Run : State :=
  { prog2 with
    pipe := prog2Pipe.map fun c => .run c ⟨re k8, re k8, .start false⟩
    ma := [⟨2⟩, ⟨4⟩, ⟨2⟩].map fun c => .run c (maReg base.num c) }

/-- PROG2: the rate and, at the first two ticks, 0.125 and 0.375; the inner composite is owned. -/
theorem test_prog2 :
    let t := after (.pipeStep 0 (.real one)) prog2Run
    result (.pipeInit 0 k8) prog2 = .rate (re k8) ∧
    { after (.pipeInit 0 k8) prog2 with out := base.out } = prog2Run ∧
    t.out.result = .sample (some (.real (re 0x3E000000))) ∧
    result (.pipeStep 0 (.real one)) t = .sample (some (.real (re 0x3EC00000))) ∧
    status (.pipeInit 1 k8) prog2Run = .contract .nodeOwned := by decide +kernel

/-- The nodes below another are in a list that is closed under children, and all in RUN where that is. -/
theorem below_runs {s : State} {n : Nid} (l : List Nid)
    (h : (n :: l).all (fun d => (childrenOf s d).all l.contains) = true)
    (hl : l.all (phaseIs (· == .run) s) = true) (d : Nid) (hd : Below s n d) :
    phaseIs (· == .run) s d = true := by
  have key : ∀ d ∈ n :: l, ∀ c ∈ childrenOf s d, c ∈ l := by simpa using h
  have mem : d ∈ l := by
    induction hd with
    | child hc => exact key _ (by simp) _ hc
    | deeper _ hc ih => exact key _ (List.mem_cons_of_mem _ ih) _ hc
  exact List.all_eq_true.mp hl d mem

theorem openSample_closed {b : Bool} {o : Option Sample} {s : State} (h : b = false) :
    openSample b o s = (o, s) := by rw [h]; cases o <;> rfl

theorem openReal_closed {b : Bool} {y : RealVal} {s : State} (h : b = false) :
    openReal b y s = (y, s) := by rw [h]; rfl

/-- The tree of PROG2 in RUN: a step of it goes through MA 2, then through both branches of `PIPE@1`. -/
theorem witness_PipeStepSerial_tree :
    prog2Run.forest = true ∧ nidOf 0 0 ∉ prog2Run.used ∧
    (∀ d, Below prog2Run (nidOf 0 0) d → phaseIs (· == .run) prog2Run d = true) ∧
    stepOf (nidOf 0 0) (.real one) = some (.pipeStep 0 (.real one)) ∧
    operandTyped prog2Run (.pipeStep 0 (.real one)) = true ∧
    ∃ o, Steps (sampleContract prog2Run.num (sampleOf prog2Run.num (.real one))) prog2Run (nidOf 0 0)
      (sampleOf prog2Run.num (.real one)) o := by
  refine ⟨by decide +kernel, by decide +kernel,
    below_runs [nidOf 4 2, nidOf 0 1, nidOf 4 0, nidOf 4 1] (by decide +kernel) (by decide +kernel),
    rfl, by decide +kernel, ?_⟩
  exact ⟨_, .serial rfl rfl
    (.next (.ma (i := 2) rfl rfl (openReal_closed (by decide +kernel))) rfl
      (.next (.merged (i := 1) (ws := [_, _]) rfl rfl
          (.next (.ma (i := 0) rfl rfl (openReal_closed (by decide +kernel)))
            (.next (.ma (i := 1) rfl rfl (openReal_closed (by decide +kernel))) .none))
          rfl (openSample_closed (by decide +kernel)))
        rfl .done))
    rfl (openSample_closed (by decide +kernel))⟩

/-- A composite of BS 0 alone in RUN; its next sample ends the run that locks BS. -/
def bsTree : State :=
  { bsAt 0 10 3 1024 with
    pipe := [.run ⟨.serial, [nidOf 5 0], .bool, .bool⟩ ⟨re k8, re k8, .start false⟩], used := [nidOf 5 0] }

/-- A BS child, which answers `None` and raises SYNC; the PIPE.STEP raises it (rule R151). -/
theorem witness_PipeStepSerial_bs :
    bsTree.forest = true ∧ nidOf 0 0 ∉ bsTree.used ∧
    (∀ d, Below bsTree (nidOf 0 0) d → phaseIs (· == .run) bsTree d = true) ∧
    operandTyped bsTree (.pipeStep 0 (.bit false)) = true ∧
    ∃ o, Steps (sampleContract bsTree.num (sampleOf bsTree.num (.bit false))) bsTree (nidOf 0 0)
      (sampleOf bsTree.num (.bit false)) o := by
  refine ⟨by decide +kernel, by decide +kernel,
    below_runs [nidOf 5 0] (by decide +kernel) (by decide +kernel), by decide +kernel, ?_⟩
  exact ⟨_, .serial rfl rfl
    (.stop (.bs (i := 0) (w := none) rfl (Prod.ext rfl (Prod.ext rfl (by decide +kernel)))) rfl)
    rfl (openSample_closed rfl)⟩

/-- V-BS-1, tick 40, inside a composite. -/
theorem test_pipeStep_sync :
    let t := after (.pipeStep 0 (.bit false)) bsTree
    t.out.result = .sample none ∧ t.out.events = [⟨0, .sync (re k12)⟩] := by decide +kernel

/-- A serial and a parallel composite, at a call that answers None and at one that answers. -/
theorem witness_NoneInComposites :
    ∀ k ∈ [PipeKind.serial, .parallel .sum], ∀ b ∈ [ExtBehav.dec2, .dec2SameRate], ∀ n ∈ [0, 1],
      let s := tree k b true n
      let e := dec b .run n
      s.pipe[(0 : Inst).toNat]? =
        some (.run ⟨k, [e.nid, nidOf 4 0], .real, .real⟩ ⟨re k8, re k8, .start false⟩) ∧
      nidOf 0 0 ∉ s.used ∧ findExt s e.nid = some e ∧ nidUnit e.nid = 10 ∧ e.ph = .run ∧
      e.inT = .real ∧ e.outT = .real ∧ e.rateBroken = false ∧ e.st % 2 = n ∧
      s.ma[(0 : Inst).toNat]? = some (.run ⟨2⟩ maReg0) ∧
      (let d := realContract s.num (s.num.ofB32 one)
       (maTick s.num ⟨2⟩ maReg0 (s.num.ofB32 one) d).standing.anyOut = false ∧
       ∀ rounded ∈ [false, true], ((Standing.start false).after d rounded true).anyOut = false) := by
  decide +kernel

/-- The composite `[MA@1, DEC2, MA@0]` in RUN, whose node passes a REAL on and is declared BOOL; and one
whose node has returned another rate. -/
def broken (k : PipeKind) (byRate : Bool) : State :=
  { tree k .dec2 true 1 with
    pipe := [.run ⟨k, [nidOf 4 1, nidOf 10 0, nidOf 4 0], .real, .real⟩ ⟨re k8, re k8, .start false⟩]
    ma := [.run ⟨2⟩ maReg0, .run ⟨2⟩ maReg0]
    ext := [{ dec .dec2 .run 1 with
      outT := if byRate then .real else .bool, rateBroken := byRate }] }

/-- The node's two ways to break the contract, in both kinds of composite. -/
theorem witness_NoneInComposites_broken :
    ∀ k ∈ [PipeKind.serial, .parallel .sum], ∀ b ∈ [true, false],
      let s := broken k b
      (∃ e, findExt s (nidOf 10 0) = some e ∧ e.ph = .run ∧ e.inT = .real ∧ e.behav = .dec2 ∧
        (e.rateBroken = true ∨ (e.st % 2 = 1 ∧ e.outT ≠ .real))) ∧
      s.pipe[(0 : Inst).toNat]? =
        some (.run ⟨k, [nidOf 4 1, nidOf 10 0, nidOf 4 0], .real, .real⟩ ⟨re k8, re k8, .start false⟩) ∧
      nidOf 0 0 ∉ s.used ∧ s.ma[(0 : Inst).toNat]? = some (.run ⟨2⟩ maReg0) ∧
      s.ma[(1 : Inst).toNat]? = some (.run ⟨2⟩ maReg0) ∧
      (maTick s.num ⟨2⟩ maReg0 (s.num.ofB32 one) (realContract s.num (s.num.ofB32 one))).standing.anyOut =
        false := by
  intro k _ b _
  have tick : (maTick base.num ⟨2⟩ maReg0 (base.num.ofB32 one)
      (realContract base.num (base.num.ofB32 one))).standing.anyOut = false := by decide +kernel
  have free : nidOf 0 0 ∉ [nidOf 10 0, nidOf 4 0] := by decide
  exact ⟨⟨_, rfl, by cases b <;> decide⟩, rfl, free, rfl, rfl, tick⟩

/-- U2: the node before has been stepped, the node after has not, and the status is OK. -/
theorem test_pipeStep_broken :
    ∀ k ∈ [PipeKind.serial, .parallel .sum], ∀ b ∈ [true, false],
      let t := after (.pipeStep 0 (.real one)) (broken k b)
      t.out.status = .ok ∧ t.ma[0]? = some (.run ⟨2⟩ maReg0) ∧ t.ma[1]? ≠ some (.run ⟨2⟩ maReg0) ∧
      t.ext.map Ext.st = [2] := by decide +kernel

/-- U2: the first rate a node returns for a rate is kept; another one for the same rate breaks the
contract, until an INIT that returns what was returned before or is given another rate. -/
theorem test_extInited :
    let e0 := dec .dec2 .conf 0
    let e1 := extInited base.num e0 (re k8) (re four) 0
    (e1.rateBroken, (extInited base.num e1 (re k8) (re four) 0).rateBroken,
      (extInited base.num e1 (re k8) (re two) 0).rateBroken,
      (extInited base.num e1 (re k12) (re two) 0).rateBroken) = (false, false, true, false) := by
  decide +kernel

/-- The least size that is accepted and the greatest that is not. -/
theorem witness_WindowSizes :
    (0 : Inst).toNat < base.gz.length ∧ (0 : Inst).toNat < base.ma.length ∧ 1 ≤ (1 : I32).toInt ∧
    (0 : I32).toInt < 1 ∧ (0xFFFFFFFF : I32).toInt < 1 := by decide

theorem witness_GzInit :
    configured.gz[(0 : Inst).toNat]? = some (.conf ⟨4, re one⟩) ∧ nidOf 1 0 ∉ configured.used ∧
    base.num.pos (base.num.ofB32 k8) = true ∧ base.num.pos (base.num.ofB32 0) = false ∧
    base.num.pos (base.num.ofB32 notNumber) = false := by decide +kernel

def gzReg : GzReg := ⟨re four, 0, re two, [re half, re half, re half, re 0], 3, .start false⟩

def gzAt (r : GzReg) : State := putGz 0 (.run ⟨4, re 0⟩ r) base

/-- What opens the outputs of a unit that has kept the source contract: no sample in the range; a NaN; a
number outside it, where something was rounded. -/
theorem opened_cases :
    let M := base.num
    let free (b : B32) := opened (.start false) (M.fin (re b)) (M.inRange (re b))
    (∀ rounded ∈ [false, true], ¬ free half rounded ∧ free notNumber rounded) ∧ free two true ∧
      ¬ free two false := by decide +kernel

/-- A sample in the range; a NaN; a number outside it. -/
theorem witness_GzStep :
    (gzAt gzReg).gz[(0 : Inst).toNat]? = some (.run ⟨4, re 0⟩ gzReg) ∧ nidOf 1 0 ∉ (gzAt gzReg).used ∧
    gzReg.ring.length = 4 ∧ gzReg.wp < 4 ∧ base.num.exact = false ∧
    (let free (b : B32) := opened gzReg.standing (base.num.fin (base.num.ofB32 b))
       (base.num.inRange (base.num.ofB32 b)) (!base.num.exact)
     ¬ free half ∧ free notNumber ∧ free two) := by
  decide +kernel

/-- The operands of each clause, the legal and the illegal ones next to each other. -/
theorem witness_FirConfig :
    (0 : Inst).toNat < base.fir.length ∧ ¬ (0 ≤ (5 : I32).toInt ∧ (5 : I32).toInt ≤ 4) ∧
    (0 ≤ (4 : I32).toInt ∧ (4 : I32).toInt ≤ 4) ∧ (0 : I32).toInt ≤ 0 ∧ 0 < (1 : I32).toInt ∧
    base.num.lt (base.num.ofB32 minus1) base.num.zero = true ∧
    base.num.lt (base.num.ofB32 0) base.num.zero = false ∧
    ¬ (0 ≤ (2 : I32).toInt ∧ (2 : I32).toInt ≤ 1) := by decide +kernel

def firCfg : FirCfg := ⟨.rect, 3, re 0, re one, re 0, false⟩

/-- A band, and a band whose edges change places. -/
theorem witness_FirInit :
    let M := base.num
    (putFir 0 (.conf firCfg) base).fir[(0 : Inst).toNat]? = some (.conf firCfg) ∧
    nidOf 2 0 ∉ base.used ∧ M.pos (M.ofB32 k8) = true ∧ M.pos (M.ofB32 0) = false ∧
    M.lt (re one) (re 0) = false ∧ M.lt (re 0) (re one) = true ∧
    M.lt (M.div (M.ofB32 k8) (M.lit 2 1)) (re one) = false := by decide +kernel

def firReg : FirReg :=
  ⟨3, re eight, [re half, re quarter, re 0x3E000000], .real [re one, re 0, re 0], 2, .start false⟩

theorem witness_FirStep :
    let s := putFir 0 (.run firCfg firReg) base
    let M := s.num
    s.fir[(0 : Inst).toNat]? = some (.run firCfg firReg) ∧ nidOf 2 0 ∉ s.used ∧ firCfg.cx = false ∧
    firReg.ring = .real [re one, re 0, re 0] ∧ firReg.te = 3 ∧ firReg.wp < firReg.te ∧
    result (.firStep 0 0) s = .sample (some (.real (re 0x3E000000))) ∧
    ∀ rounded ∈ [false, true],
      ¬ opened firReg.standing (M.fin (M.ofB32 0) && M.fin (re 0x3E000000)) (M.inRange (M.ofB32 0)) rounded ∧
      ∀ y ∈ [false, true], opened firReg.standing (M.fin (M.ofB32 notNumber) && y)
        (M.inRange (M.ofB32 notNumber)) rounded := by decide +kernel

theorem witness_FircStep :
    let c : FirCfg := { firCfg with cx := true }
    let z : Cplx := ⟨re 0, re 0⟩
    let r : FirReg := { firReg with ring := .cplx [z, z, z] }
    let s := putFir 0 (.run c r) base
    s.fir[(0 : Inst).toNat]? = some (.run c r) ∧ nidOf 2 0 ∉ s.used ∧ c.cx = true ∧ r.te = 3 ∧
    r.wp < r.te ∧ s.num.finC ⟨re one, re half⟩ = true ∧
    s.num.inRange (re one) = true ∧ s.num.inRange (re half) = true ∧
    ∀ rounded ∈ [false, true], ¬ opened r.standing true true rounded ∧
      opened r.standing (s.num.finC ⟨re notNumber, re half⟩) true rounded := by decide +kernel

def bqCfg : BqCfg := ⟨.lowpass, re one, re one, re 0, false⟩

def bqReg : BqReg :=
  ⟨re k8, ⟨re half, re quarter, re 0, re half, re 0⟩, .real ⟨re two, re 0, re four, re 0⟩, .start false⟩

/-- A filter of either type; and a BOOL sample for a composite of REAL, in CONF and in RUN. -/
theorem witness_WrongSampleType :
    (putFir 0 (.run firCfg firReg) base).fir[(0 : Inst).toNat]? = some (.run firCfg firReg) ∧
    (putBq 0 (.run bqCfg bqReg) base).bq[(0 : Inst).toNat]? = some (.run bqCfg bqReg) ∧
    nidOf 2 0 ∉ base.used ∧ nidOf 3 0 ∉ base.used ∧ firCfg.cx = false ∧ bqCfg.cx = false ∧
    (let c := { firCfg with cx := true }
     (putFir 0 (.run c firReg) base).fir[(0 : Inst).toNat]? = some (.run c firReg) ∧ c.cx = true) ∧
    (let c := { bqCfg with cx := true }
     (putBq 0 (.run c bqReg) base).bq[(0 : Inst).toNat]? = some (.run c bqReg) ∧ c.cx = true) ∧
    (let c : PipeCfg := ⟨.serial, [nidOf 10 0, nidOf 4 0], .real, .real⟩
     (tree .serial .dec2 false 0).pipe[(0 : Inst).toNat]? = some (.conf c) ∧
     (tree .serial .dec2 true 0).pipe[(0 : Inst).toNat]? = some (.run c ⟨re k8, re k8, .start false⟩) ∧
     portTag (.bit true) ≠ c.inT) := by
  decide +kernel

/-- Rule R107: of an owned composite too, and before its phase is looked at. -/
theorem test_pipeStep_type :
    let s := tree .serial .dec2 true 0
    status (.pipeStep 0 (.bit true)) s = .contract .badCommand ∧
    status (.pipeStep 0 (.bit true)) (tree .serial .dec2 false 0) = .contract .badCommand ∧
    status (.pipeStep 0 (.bit true)) { s with used := nidOf 0 0 :: s.used } =
      .contract .badCommand := by decide +kernel

theorem witness_FirSetTaps :
    (putFir 0 (.conf firCfg) base).fir[(0 : Inst).toNat]? = some (.conf firCfg) ∧
    (putFir 0 (.run firCfg firReg) base).fir[(0 : Inst).toNat]? = some (.run firCfg firReg) ∧
    1 ≠ 0 := by decide +kernel

theorem witness_BqConfig :
    (0 : Inst).toNat < base.bq.length ∧ ¬ (0 ≤ (7 : I32).toInt ∧ (7 : I32).toInt ≤ 6) ∧
    (0 ≤ (6 : I32).toInt ∧ (6 : I32).toInt ≤ 6) ∧ base.num.pos (base.num.ofB32 0) = false ∧
    base.num.pos (base.num.ofB32 half) = true ∧ ¬ (0 ≤ (2 : I32).toInt ∧ (2 : I32).toInt ≤ 1) := by
  decide +kernel

theorem witness_BqInit :
    (putBq 0 (.conf bqCfg) base).bq[(0 : Inst).toNat]? = some (.conf bqCfg) ∧ nidOf 3 0 ∉ base.used ∧
    base.num.pos (base.num.ofB32 0) = false ∧ base.num.pos (base.num.ofB32 k8) = true := by
  decide +kernel

/-- The real and the complex step. -/
theorem witness_BqSteps :
    let s := putBq 0 (.run bqCfg bqReg) base
    let z : Cplx := ⟨re 0, re 0⟩
    let c : BqCfg := { bqCfg with cx := true }
    let r : BqReg := { bqReg with mem := .cplx ⟨z, z, z, z⟩ }
    s.bq[(0 : Inst).toNat]? = some (.run bqCfg bqReg) ∧ nidOf 3 0 ∉ s.used ∧ bqCfg.cx = false ∧
    (let free (numbers : Bool) (b : B32) :=
       opened bqReg.standing (s.num.fin (re b) && numbers) (s.num.inRange (re b)) (!s.num.exact)
     ¬ free (s.num.fin (re minus1)) one ∧ free true two ∧ free true notNumber) ∧
    (putBq 0 (.run c r) base).bq[(0 : Inst).toNat]? = some (.run c r) ∧ c.cx = true ∧
    (let free (z : Cplx) := opened r.standing (s.num.finC z && s.num.finC ⟨re half, re quarter⟩)
       (s.num.inRange z.re && s.num.inRange z.im) (!s.num.exact)
     ¬ free ⟨re one, re half⟩ ∧ free ⟨re one, re two⟩) := by decide +kernel

theorem witness_MaInit :
    configured.ma[(0 : Inst).toNat]? = some (.conf ⟨2⟩) ∧ nidOf 4 0 ∉ configured.used ∧
    base.num.pos (base.num.ofB32 k8) = true ∧ base.num.pos (base.num.ofB32 0) = false := by
  decide +kernel

theorem witness_MaStep :
    let s := putMa 0 (.run ⟨2⟩ maReg0) base
    s.ma[(0 : Inst).toNat]? = some (.run ⟨2⟩ maReg0) ∧ nidOf 4 0 ∉ s.used ∧
    maReg0.ring.length = 2 ∧ maReg0.wp < 2 ∧
    s.num.fin (s.num.add (re half) (s.num.sub (re one) (re 0))) = true ∧
    ∀ rounded ∈ [false, true],
      ¬ opened maReg0.standing (s.num.fin (re one) && true) (s.num.inRange (re one)) rounded ∧
      ∀ y ∈ [false, true], opened maReg0.standing (s.num.fin (re notNumber) && y)
        (s.num.inRange (re notNumber)) rounded := by decide +kernel

theorem witness_BsConfig :
    (0 : Inst).toNat < base.bs.length ∧ (0 : I32).toInt < 1 ∧ 1 ≤ (1 : I32).toInt ∧
    base.num.le (base.num.ofB32 0) base.num.zero = true ∧
    base.num.le (base.num.ofB32 k12) base.num.zero = false := by decide +kernel

theorem witness_BsInitAndWait :
    (bsAt 0 10 3 64).bs[(0 : Inst).toNat]? = some (.run (bsCfg 64) (bsRun 0 10 3)) ∧
    nidOf 5 0 ∉ base.used ∧ base.num.pos (base.num.ofB32 k12) = true ∧
    base.num.pos (base.num.ofB32 minus1) = false := by decide +kernel

/-- No run ends; one ends while BS is locked. -/
theorem witness_BsStep :
    let r := bsRun 0x41200000 60 0
    (bsAt 0x41200000 60 0 4).bs[(0 : Inst).toNat]? = some (.run (bsCfg 4) r) ∧
    nidOf 5 0 ∉ base.used ∧ r.wf (bsCfg 4) = true ∧ r.lvalid = true ∧ r.level = .holds true ∧
    base.num.eq r.spb base.num.zero = false := by decide +kernel

/-- A run of 10 matches candidate 1 and no earlier one; a run of 7 matches none. -/
theorem witness_BsSearch :
    let r := bsRun 0 10 3
    let M := base.num
    let near (len i : Nat) := M.le (M.abs (M.sub (M.ofNat len) (r.spbc.getD i M.zero)))
      (M.mul (M.lit 2 10) (r.spbc.getD i M.zero))
    (bsAt 0 10 3 4).bs[(0 : Inst).toNat]? = some (.run (bsCfg 4) r) ∧ nidOf 5 0 ∉ base.used ∧
    r.lvalid = true ∧ r.level = .holds true ∧ M.eq r.spb M.zero = true ∧ r.count = 0 ∧
    r.spbc.length = (bsCfg 4).c ∧ (bsCfg 4).cand.length = (bsCfg 4).c ∧
    near 10 0 = false ∧ near 10 1 = true ∧ r.mvalid = true ∧ r.midx = .holds 1 ∧
    r.mcnt + 1 = (bsCfg 4).req ∧ near 7 0 = false ∧ near 7 1 = false ∧ near 7 2 = false := by
  decide +kernel

/-- The code (3, 1) with the default polynomial of `M = 2`, and one with an even generator. -/
theorem witness_BchConfig :
    (0 : Inst).toNat < base.bch.length ∧ (∀ M : Nat, 2 ≤ M ↔ (3 : I32).toInt + 1 ≤ 2 ^ M) ∧
    validCode 7 3 1 1 2 7 ∧ ¬ validCode 6 3 1 1 2 7 := by
  refine ⟨by decide, fun M => ?_, ?_, fun h => absurd h.2.2.2.2.2.2.1 (by decide)⟩
  · have h4 : (3 : I32).toInt + 1 = ((2 ^ 2 : Nat) : Int) := by decide
    rw [h4]
    constructor
    · intro h; exact_mod_cast Nat.pow_le_pow_right (by decide) h
    · intro h
      have h' : 2 ^ 2 ≤ 2 ^ M := by exact_mod_cast h
      exact (Nat.pow_le_pow_iff_right (by decide)).mp h'
  · refine ⟨by decide, by decide, by decide, by decide, by decide, by decide, by decide, by decide, ?_, ?_⟩
    · intro v h1 h2
      interval_cases v <;> decide
    · intro i h1 h2
      have : i ≤ 2 := by omega
      interval_cases i <;> decide

theorem witness_GfResults :
    coded.bch[(0 : Inst).toNat]? = some (.run pagingCode) ∧ 1 ≠ 0 ∧ 31 < 2 ^ pagingCode.m ∧
    2 ^ pagingCode.m ≤ 32 := by decide +kernel

theorem witness_GfLaws : pagingCode.wf = true ∧ 31 < 2 ^ pagingCode.m := by decide +kernel

theorem witness_BchCodeResults :
    coded.bch[(0 : Inst).toNat]? = some (.run pagingCode) ∧ pagingCode.wf = true ∧
    0x1FFFFF < 2 ^ pagingCode.k ∧ 2 ^ pagingCode.k ≤ 0x200000 ∧ 0x7FFFFFFF < 2 ^ pagingCode.n ∧
    2 ^ pagingCode.n ≤ 0x80000000 := by decide +kernel

theorem witness_BchCorrectSound :
    coded.bch[(0 : Inst).toNat]? = some (.run pagingCode) ∧ pagingCode.wf = true ∧
    0x7FFFFFFF < 2 ^ pagingCode.n := by decide +kernel

theorem witness_PagingCodeCorrects :
    (3 : Inst).toNat < base.bch.length ∧ 0x1FFFFF < 2 ^ 21 ∧ 0 < 31 ∧ 30 < 31 ∧ 0 ≠ 30 := by decide

/-- A state of HD for each clause; of the last, an octet with six 1s, one with a stuffed 0, and one
of eight bits that stand for themselves. -/
theorem witness_HdStep :
    base.hd[(0 : Inst).toNat]? = some Hd.reset ∧ Hd.reset.state = .waitFlag ∧
    ((0x3F : BitVec 8) <<< 1) ||| 0 = 0x7E ∧ (Hd.reset.raw <<< 1) ||| 0 ≠ 0x7E ∧
    ({ Hd.reset with state := .countFlag, nflag := 1, cnt8 := 6 } : Hd).cnt8 < 7 ∧
    (∀ r ∈ [(0x3F : BitVec 8), 0x3E, 0x40], (r <<< 1) ||| 1 ≠ 0x7E) ∧
    ({ Hd.reset with state := .waitData, cnt8 := 7 } : Hd).cnt8 = 7 ∧
    unstuff 0 [false, true, true, true, true, true, true, true] = none ∧
    (unstuff 0 [false, true, true, true, true, true, false, true]).map (·.1.length) = some 7 ∧
    (unstuff 0 [true, false, false, false, false, false, false, true]).map (·.1.length) = some 8 := by
  decide

/-- V-HD-4: six 1s in the octet that starts a frame; and a stuffed 0 taken out of one. -/
theorem test_hdStep_octet :
    let h (r : BitVec 8) : Hd := { Hd.reset with state := .waitData, nflag := 1, cnt8 := 7, raw := r }
    (hdTick (h 0x3F) true).2.1 = [.short] ∧ (hdTick (h 0x3F) true).1.state = .waitFlag ∧
    (hdTick (h 0x3E) true).1.accn = 7 ∧ (hdTick (h 0x3E) true).1.acc = 0x7E ∧
    (hdTick (h 0x3E) true).1.ones = 1 := by decide

/-- The five clauses: `ones`, `accn` and `blen` at the values where they meet. -/
theorem witness_HdInFrame :
    (inFrame addresses).state = .waitEnd ∧ (inFrame addresses).ones = 5 ∧
    ((0x1F : BitVec 8) <<< 1) ||| 0 ≠ 0x7E ∧ ({ inFrame addresses with ones := 4 } : Hd).ones < 5 ∧
    (inFrame addresses).accn < 7 ∧ ({ inFrame addresses with accn := 7 } : Hd).accn = 7 ∧
    (inFrame addresses).blen ≤ (inFrame addresses).buf.length ∧ 511 < 512 ∧ 512 ≤ 512 := by decide

/-- No repeater and one, a frame of each kind; eight repeaters that end nothing, and a tail of six
bytes. -/
theorem witness_ParseOfLayout :
    let a (e : Bool) : Addr := ⟨[0x41, 0x42, 0x43, 0x44, 0x20, 0x20], 3, true, 3, e⟩
    (∀ x ∈ [a false, a true], x.call.length = 6) ∧
    ([a true].map Addr.ext = List.replicate 0 false ++ [true]) ∧
    ([a false, a true].map Addr.ext = List.replicate 1 false ++ [true]) ∧
    (0x03 : BitVec 8) &&& 0xEF = 0x03 ∧ (0x13 : BitVec 8) &&& 0xEF = 0x03 ∧
    (0x2F : BitVec 8) &&& 0xEF ≠ 0x03 ∧
    (∀ x ∈ a false :: List.replicate 8 (a false), x.ext = false) ∧
    (List.replicate 8 (a false)).length = 8 ∧ [a false].length < 8 ∧
    (List.replicate 5 (0 : BitVec 8)).length + 1 < 7 := by decide

/-- The bytes of the layout, with the low bits of the characters set: they are ignored (rule R112);
and a ninth repeater block (rule R284). -/
theorem test_parse_layout :
    let chars : List (BitVec 8) := [0x83, 0x85, 0x87, 0x89, 0x41, 0x41]
    let block (e : BitVec 8) := chars ++ [0x60 ||| e]
    ((parseFrame (block 0 ++ block 1 ++ [0x01])).map fun f => f.src.call) =
      some [0x41, 0x42, 0x43, 0x44, 0x20, 0x20] ∧
    ((parseFrame ((List.replicate 9 (block 0)).flatten ++ block 1 ++ [0x01])).map fun f => f.reps.length)
      = some 8 ∧
    parseFrame ((List.replicate 10 (block 0)).flatten ++ block 1 ++ [0x01]) = none := by
  decide +kernel

theorem witness_FrameReproduced :
    1 ≤ 1 ∧ 15 ≤ (addresses ++ [0x01]).length ∧ (List.replicate 512 (0 : BitVec 8)).length ≤ 512 := by
  decide +kernel

theorem witness_DecoderCommands :
    base.hd[(0 : Inst).toNat]? = some Hd.reset ∧ base.pg[(0 : Inst).toNat]? = some (Pg.reset ⟨0⟩) ∧
    [Filter.addressOnly, .numeric, .alpha, .both][3]? = some .both ∧ 3 < 4 := by decide

theorem witness_PgStep :
    base.pg[(0 : Inst).toNat]? = some (Pg.reset ⟨0⟩) ∧
    (Pg.reset ⟨0⟩).state = .firstBitSinceSync ∧
    ({ hello with nbits := 30 } : Pg).nbits < 31 ∧ hello.state = .readPocsagBatch := by decide +kernel

/-- PG in its search, with a bound of each clause met just and just missed. -/
def searching (alt search : Nat) (predone : Bool) (sr : BitVec 32) : Pg :=
  { Pg.reset ⟨0⟩ with
    state := .waitForInitialSyncWord, alt := alt, search := search, predone := predone, sr := sr }

theorem witness_PgAcquisition :
    let par := Params.reference
    (searching 15 0 false 0).state = .waitForInitialSyncWord ∧
    (searching 1023 0 false 0).alt < par.pgPreMax ∧ par.pgPreMax ≤ (searching 1024 0 false 0).alt ∧
    (searching 15 0 false 0).alt < par.pgPreMin ∧ par.pgPreMin ≤ (searching 16 0 false 0).alt ∧
    (0x3E690AEC : BitVec 32) <<< 1 ||| 0 = par.pgSync ∧
    (0x4196F513 : BitVec 32) <<< 1 ||| 1 = ~~~ par.pgSync ∧
    (searching 16 31 true 0).search < 32 ∧ 32 ≤ (searching 16 32 true 0).search ∧
    (0 : BitVec 32) <<< 1 ||| 0 ≠ par.pgSync ∧ (0 : BitVec 32) <<< 1 ||| 0 ≠ ~~~ par.pgSync := by
  decide

theorem witness_PgWords :
    hello.nbits = 31 ∧ hello.state = .readPocsagBatch ∧
    (({ hello with state := .waitForImmediateSyncWord, sr := 0x3E690AEC } : Pg).sr <<< 1) ||| 0 =
      Params.reference.pgSync ∧ (hello.sr <<< 1) ||| 1 ≠ Params.reference.pgSync := by decide +kernel

/-- Three bits flipped that leave no root; Idle; an address; data (V-BCH-3, V-PG). -/
theorem witness_PgCodeword :
    let par := Params.reference
    hello.msg.sr7n ≤ 6 ∧ dataWord par 0x6AB178D1 = none ∧ dataWord par 0xBD44E0CB = some par.pgIdle ∧
    dataWord par 0x12345E4D = some 0x048D17 ∧ (0x048D17 : BitVec 21) ≠ par.pgIdle ∧
    (0x048D17 : BitVec 21).getLsbD 20 = false ∧ dataWord par 0xC4D131A6 = some 0x11344C ∧
    (0x11344C : BitVec 21) ≠ par.pgIdle ∧ (0x11344C : BitVec 21).getLsbD 20 = true := by decide +kernel

/-- The page `HELLO` (V-PG-1), closed by the next address. -/
theorem witness_PageSegmentation :
    let par := Params.reference
    let ws : List (BitVec 32 × Nat) := [(0xC4D131A6, 5), (0x667C82EF, 6)]
    let ds : List (BitVec 21) := [0x11344C, 0x199F20]
    dataWord par 0x12345E4D = some 0x048D17 ∧ dataWord par 0x00001376 = some 0x000004 ∧
    (0x048D17 : BitVec 21) ≠ par.pgIdle ∧ (0x000004 : BitVec 21) ≠ par.pgIdle ∧
    (0x048D17 : BitVec 21).getLsbD 20 = false ∧ (0x000004 : BitVec 21).getLsbD 20 = false ∧
    ws.map (fun w => dataWord par w.1) = ds.map some ∧
    ds.all (fun d => d != par.pgIdle && d.getLsbD 20) = true ∧ ds.length < 2 ^ 32 := by
  decide +kernel

end Tests
end Sys2Proof
end

section
/-!
SUPPORT. The checks in front of an operation: what is left of its rule once they pass, how the operation
is answered where its rule raises, and what INIT and STEP of each unit come to in each phase (rules R16,
R152, R342).
-/

namespace Sys2Proof
namespace Machine

open Sys2Proof.Claims

/-! ### The checks of an operation -/

/-- A unit that is there is handed on. -/
theorem pick_bind {α β : Type} {l : List α} {inst : Inst} {u : α} (h : l[inst.toNat]? = some u)
    (f : α → Ans β) : (pick l inst >>= f) = f u := by
  rw [pick_ok.mpr h]; rfl

/-- A node that no composite owns passes the ownership check. -/
theorem notOwned_bind {β : Type} {s : State} {n : Nid} (h : n ∉ s.used) (f : Unit → Ans β) :
    (notOwned s n >>= f) = f () := by
  rw [notOwned_ok (x := ()).mpr h]; rfl

/-- The two checks of a direct INIT or STEP, passed (rules R152, R342). -/
theorem unowned_bind {α β : Type} {l : List α} {inst : Inst} {u : α} {s : State} {n : Nid}
    (hl : l[inst.toNat]? = some u) (hn : n ∉ s.used) (rule : Ans β) :
    (pick l inst >>= fun _ => notOwned s n >>= fun _ => rule) = rule := by
  rw [pick_bind hl, notOwned_bind hn]

/-- A rule raises what its first part raises (rule R359). -/
theorem error_bind {α β : Type} {a : Ans α} {e : Status} (h : a = .error e) (f : α → Ans β) :
    (a >>= f) = .error e := bind_error.mpr (.inl h)

/-- A direct INIT or STEP raises what its body raises, where the unit has a phase and no composite
owns it. -/
theorem unowned_error {C R β γ : Type} {l : List (Life C R)} {inst : Inst} {ph : Phase} {s : State}
    {n : Nid} {body : Ans β} {e : Status} (hl : l[inst.toNat]?.map Life.ph = some ph)
    (hn : n ∉ s.used) (h : body = .error e) (f : β → Ans γ) :
    (pick l inst >>= fun _ => notOwned s n >>= fun _ => body >>= f) = .error e := by
  obtain ⟨u, hu, -⟩ := Option.map_eq_some_iff.mp hl
  rw [unowned_bind hu hn, error_bind h]

/-! ### Rejections -/

theorem conclude_rejected {s : State} {a : Ans Done} {e : Status} (h : a = .error e) :
    conclude s a = .next (rejected s e) := by
  rw [h]; rfl

theorem concludeBits_rejected {s : State} {a : Ans (Done × List Delivered)} {e : Status}
    (h : a = .error e) : concludeBits s a = .next (rejected s e) := by
  rw [h]; rfl

/-! ### INIT of a unit in CONF or in RUN -/

/-- A direct GZ.INIT of a node that no composite owns is the body of INIT. -/
theorem execGzInit_unowned {s : State} {inst : Inst} {u : Gz} (hu : s.gz[inst.toNat]? = some u)
    (hn : nidOf 1 inst ∉ s.used) (rate : B32) :
    execGzInit inst rate s = conclude s ((gzInit s.num u (s.num.ofB32 rate)).map fun u' =>
      ⟨putGz inst u' s, .rate (s.num.ofB32 rate), []⟩) := by
  unfold execGzInit gzInitAt
  rw [unowned_bind hu hn, pick_bind hu]
  cases gzInit s.num u (s.num.ofB32 rate) <;> rfl

/-- A direct FIR.INIT of a node that no composite owns is the body of INIT. -/
theorem execFirInit_unowned {s : State} {inst : Inst} {u : Fir} (hu : s.fir[inst.toNat]? = some u)
    (hn : nidOf 2 inst ∉ s.used) (rate : B32) :
    execFirInit inst rate s = conclude s ((firInit s.num s.par.tone u (s.num.ofB32 rate)).map
      fun u' => ⟨putFir inst u' s, .rate (s.num.ofB32 rate), []⟩) := by
  unfold execFirInit firInitAt
  rw [unowned_bind hu hn, pick_bind hu]
  cases firInit s.num s.par.tone u (s.num.ofB32 rate) <;> rfl

/-- A direct BQ.INIT of a node that no composite owns is the body of INIT. -/
theorem execBqInit_unowned {s : State} {inst : Inst} {u : Bq} (hu : s.bq[inst.toNat]? = some u)
    (hn : nidOf 3 inst ∉ s.used) (rate : B32) :
    execBqInit inst rate s = conclude s ((bqInit s.num u (s.num.ofB32 rate)).map fun u' =>
      ⟨putBq inst u' s, .rate (s.num.ofB32 rate), []⟩) := by
  unfold execBqInit bqInitAt
  rw [unowned_bind hu hn, pick_bind hu]
  cases bqInit s.num u (s.num.ofB32 rate) <;> rfl

/-- GZ.INIT checks the rate and nothing else (rule R161). -/
theorem gzInit_configured {M : Numerics} {u : Gz} {c : GzCfg} (hu : u = .conf c ∨ ∃ r, u = .run c r)
    (x : RealVal) :
    gzInit M u x = if M.pos x then .ok (.run c (gzReg M c x)) else .error badArgument := by
  obtain rfl | ⟨r, rfl⟩ := hu
  all_goals
    unfold gzInit positiveRate
    cases M.pos x <;> rfl

/-- FIR.INIT checks the rate, then the clamped band (rule R171). -/
theorem firInit_configured {M : Numerics} {u : Fir} {c : FirCfg}
    (hu : u = .conf c ∨ ∃ r, u = .run c r) (tone : ToneSel) (x : RealVal) :
    firInit M tone u x =
      if M.pos x then
        if M.lt (M.clampf x c.fstop) (M.clampf x c.fstart) then .error (.config .badBand)
        else .ok (.run c (firReg M tone c x))
      else .error badArgument := by
  obtain rfl | ⟨r, rfl⟩ := hu
  all_goals
    unfold firInit positiveRate
    cases M.pos x <;> rfl

/-- BQ.INIT checks the rate and nothing else (rule R186). -/
theorem bqInit_configured {M : Numerics} {u : Bq} {c : BqCfg} (hu : u = .conf c ∨ ∃ r, u = .run c r)
    (x : RealVal) :
    bqInit M u x = if M.pos x then .ok (.run c (bqReg M c x)) else .error badArgument := by
  obtain rfl | ⟨r, rfl⟩ := hu
  all_goals
    unfold bqInit positiveRate
    cases M.pos x <;> rfl

/-! ### INIT and STEP of a leaf in the wrong phase (rule R16) -/

/-- A rule that looks up a unit in UNCONF and raises there. -/
theorem pick_unconf_error {C R β : Type} {l : List (Life C R)} {inst : Inst}
    {f : Life C R → Ans β} {e : Status} (hp : l[inst.toNat]?.map Life.ph = some .unconf)
    (h0 : f .unconf = .error e) : (pick l inst >>= f) = .error e := by
  obtain ⟨u, hu, hph⟩ := Option.map_eq_some_iff.mp hp
  rw [pick_bind hu]
  cases u with
  | unconf => exact h0
  | conf c => cases hph
  | run c r => cases hph

/-- A rule that looks up a unit that is not in RUN, and raises in UNCONF and in CONF. -/
theorem pick_notRun_error {C R β : Type} {l : List (Life C R)} {inst : Inst}
    {f : Life C R → Ans β} {ph : Phase} {e : Status} (hp : l[inst.toNat]?.map Life.ph = some ph)
    (hr : ph ≠ .run) (h0 : f .unconf = .error e) (h1 : ∀ c, f (.conf c) = .error e) :
    (pick l inst >>= f) = .error e := by
  obtain ⟨u, hu, rfl⟩ := Option.map_eq_some_iff.mp hp
  rw [pick_bind hu]
  cases u with
  | unconf => exact h0
  | conf c => exact h1 c
  | run c r => exact absurd rfl hr

section Leaves

variable {s : State} {inst : Inst} {ph : Phase}

theorem gzInitAt_unconf (h : s.gz[inst.toNat]?.map Life.ph = some .unconf) (x : RealVal) :
    gzInitAt inst x s = .error badPhase := pick_unconf_error h rfl

theorem firInitAt_unconf (h : s.fir[inst.toNat]?.map Life.ph = some .unconf) (x : RealVal) :
    firInitAt inst x s = .error badPhase := pick_unconf_error h rfl

theorem bqInitAt_unconf (h : s.bq[inst.toNat]?.map Life.ph = some .unconf) (x : RealVal) :
    bqInitAt inst x s = .error badPhase := pick_unconf_error h rfl

theorem maInitAt_unconf (h : s.ma[inst.toNat]?.map Life.ph = some .unconf) (x : RealVal) :
    maInitAt inst x s = .error badPhase := pick_unconf_error h rfl

theorem bsInitAt_unconf (h : s.bs[inst.toNat]?.map Life.ph = some .unconf) (x : RealVal) :
    bsInitAt inst x s = .error badPhase := pick_unconf_error h rfl

theorem gzStepAt_notRun (h : s.gz[inst.toNat]?.map Life.ph = some ph) (hr : ph ≠ .run) (x : RealVal)
    (q : Contract) : gzStepAt inst x q s = .error badPhase :=
  pick_notRun_error h hr rfl fun _ => rfl

theorem firStepAt_notRun (h : s.fir[inst.toNat]?.map Life.ph = some ph) (hr : ph ≠ .run) (x : RealVal)
    (q : Contract) : firStepAt inst x q s = .error badPhase :=
  pick_notRun_error h hr rfl fun _ => rfl

theorem fircStepAt_notRun (h : s.fir[inst.toNat]?.map Life.ph = some ph) (hr : ph ≠ .run) (z : Cplx)
    (q : Contract) : fircStepAt inst z q s = .error badPhase :=
  pick_notRun_error h hr rfl fun _ => rfl

theorem bqStepAt_notRun (h : s.bq[inst.toNat]?.map Life.ph = some ph) (hr : ph ≠ .run) (x : RealVal)
    (q : Contract) : bqStepAt inst x q s = .error badPhase :=
  pick_notRun_error h hr rfl fun _ => rfl

theorem bqcStepAt_notRun (h : s.bq[inst.toNat]?.map Life.ph = some ph) (hr : ph ≠ .run) (z : Cplx)
    (q : Contract) : bqcStepAt inst z q s = .error badPhase :=
  pick_notRun_error h hr rfl fun _ => rfl

theorem maStepAt_notRun (h : s.ma[inst.toNat]?.map Life.ph = some ph) (hr : ph ≠ .run) (x : RealVal)
    (q : Contract) : maStepAt inst x q s = .error badPhase :=
  pick_notRun_error h hr rfl fun _ => rfl

theorem bsStepAt_notRun (h : s.bs[inst.toNat]?.map Life.ph = some ph) (hr : ph ≠ .run) (lv : Bool) :
    bsStepAt inst lv s = .error badPhase :=
  pick_notRun_error h hr rfl fun _ => rfl

/-! ### INIT and STEP of a composite (rules R150, R151) -/

/-- INIT of a composite in UNCONF, or above a node in UNCONF, calls no child. -/
theorem pipeInitAt_error {u : Pipe} (hu : s.pipe[inst.toNat]? = some u)
    (h : u.ph = .unconf ∨ descendantsAre leftUnconf s (treeDepth s) (nidOf 0 inst) = false)
    (f : Nid → RealVal → State → Ans (RealVal × State)) (x : RealVal) :
    pipeInitAt f inst x s = .error badPhase := by
  unfold pipeInitAt
  rw [pick_bind hu]
  cases u with
  | unconf => rfl
  | conf c | run c r =>
    have hd := h.resolve_left (by simp [Life.ph])
    exact if_neg (Bool.eq_false_iff.mp hd)

/-- STEP of a composite that is not in RUN, or above a node that is not, calls no child. -/
theorem pipeStepAt_error {u : Pipe} (hu : s.pipe[inst.toNat]? = some u)
    (h : u.ph ≠ .run ∨ descendantsAre (· == .run) s (treeDepth s) (nidOf 0 inst) = false)
    (f : Contract → Nid → Sample → State → Ans Stepped) (v : Sample) (q : Contract) :
    pipeStepAt f inst v q s = .error badPhase := by
  unfold pipeStepAt
  rw [pick_bind hu]
  cases u with
  | unconf | conf c => rfl
  | run c r =>
    have hd := h.resolve_left (by simp [Life.ph])
    exact if_neg (Bool.eq_false_iff.mp hd)

/-- `init_node` of a composite of the block is its INIT. -/
theorem initNode_pipe (s : State) (inst : Inst) (x : RealVal) :
    initNode (treeDepth s) (nidOf 0 inst) x s = pipeInitAt (initNode s.pipe.length) inst x s := by
  unfold treeDepth
  rw [initNode, nidUnit_nidOf, nidInst_nidOf, if_pos rfl]

/-- `step_node` of a composite of the block is its STEP. -/
theorem stepNode_pipe (s : State) (inst : Inst) (q : Contract) (v : Sample) :
    stepNode (treeDepth s) q (nidOf 0 inst) v s = pipeStepAt (stepNode s.pipe.length) inst v q s := by
  unfold treeDepth
  rw [stepNode, nidUnit_nidOf, nidInst_nidOf, if_pos rfl]

/-- The operand of a PIPE.STEP is accepted exactly where it has the composite's type. -/
theorem pipeOperandFits_ok {u : Pipe} (hu : s.pipe[inst.toNat]? = some u) {v : PortSample} :
    pipeOperandFits u v = .ok () ↔ operandTyped s (.pipeStep inst v) = true := by
  unfold operandTyped pipeOperandFits
  simp only [hu]
  cases u with
  | unconf => simp [pipeInfo]
  | conf c | run c r => simp [pipeInfo]

/-- PIPE.INIT where the composite or a node below it is in UNCONF. -/
theorem execPipeInit_rejected {u : Pipe} (hu : s.pipe[inst.toNat]? = some u)
    (hn : nidOf 0 inst ∉ s.used)
    (h : u.ph = .unconf ∨ descendantsAre leftUnconf s (treeDepth s) (nidOf 0 inst) = false)
    (rate : B32) : execPipeInit inst rate s = .next (rejected s badPhase) :=
  conclude_rejected ((unowned_bind hu hn _).trans
    (error_bind ((initNode_pipe s inst _).trans (pipeInitAt_error hu h _ _)) _))

/-- PIPE.STEP where the composite or a node below it is not in RUN. -/
theorem execPipeStep_rejected {u : Pipe} {v : PortSample} (hu : s.pipe[inst.toNat]? = some u)
    (hv : operandTyped s (.pipeStep inst v) = true) (hn : nidOf 0 inst ∉ s.used)
    (h : u.ph ≠ .run ∨ descendantsAre (· == .run) s (treeDepth s) (nidOf 0 inst) = false) :
    execPipeStep inst v s = .next (rejected s badPhase) := by
  refine concludeBits_rejected ?_
  rw [pick_bind hu, (pipeOperandFits_ok hu).mpr hv]
  show (notOwned s (nidOf 0 inst) >>= _) = _
  rw [notOwned_bind hn]
  exact error_bind ((stepNode_pipe s inst _ _).trans (pipeStepAt_error hu h _ _ _)) _

end Leaves

/-! ### Nodes below a composite -/

/-- Where every descendant of a node has a phase, each node below it has. -/
theorem phaseIs_of_below {p : Phase → Bool} {s : State} {k : Nat} {n d : Nid} (hd : Below s n d)
    (h : descendantsAre p s k n = true) :
    phaseIs p s d = true ∧ ∃ j, descendantsAre p s j d = true := by
  have child : ∀ {k n c}, descendantsAre p s k n = true → c ∈ childrenOf s n →
      phaseIs p s c = true ∧ ∃ j, descendantsAre p s j c = true := by
    intro k n c h hc
    cases k with
    | zero => cases h
    | succ k =>
      have ⟨hph, hdesc⟩ := (descendantsAre_succ p s k n).mp h c hc
      exact ⟨hph, k, hdesc⟩
  induction hd with
  | child hc => exact child h hc
  | deeper _ hc ih =>
    obtain ⟨-, j, hj⟩ := ih
    exact child hj hc

/-- One node below with another phase is enough to fail the check of rules R150 and R151, at any bound
on the depth. -/
theorem descendantsAre_false {p : Phase → Bool} {s : State} {n d : Nid} {i : NodeInfo}
    (hd : Below s n d) (hi : nodeInfo s d = some i) (hp : p i.ph = false) (k : Nat) :
    descendantsAre p s k n = false := by
  refine Bool.eq_false_iff.mpr fun h => ?_
  have hph := (phaseIs_of_below hd h).1
  rw [phaseIs_eq, hi, Option.any_some, hp] at hph
  cases hph

/-- Only a composite has nodes below it. -/
theorem pipe_of_below {s : State} {inst : Inst} {d : Nid} (hd : Below s (nidOf 0 inst) d) :
    ∃ u, s.pipe[inst.toNat]? = some u := by
  induction hd with
  | child hc =>
    rw [childrenOf_eq, nidUnit_nidOf, nidInst_nidOf, if_pos rfl, List.getElem?_map] at hc
    cases hu : s.pipe[inst.toNat]? with
    | none => simp [hu] at hc
    | some u => exact ⟨u, rfl⟩
  | deeper _ _ ih => exact ih

/-! ### Operations that are neither INIT nor STEP -/

/-- A code that is not configured is a BAD_PHASE for every data operation. -/
theorem codeOf_unconf {s : State} {inst : Inst} (h : s.bch[inst.toNat]?.map Bch.ph = some .unconf) :
    codeOf s inst = .error badPhase := by
  obtain ⟨u, hu, hph⟩ := Option.map_eq_some_iff.mp h
  unfold codeOf
  rw [pick_bind hu]
  cases u with
  | unconf => rfl
  | run c => cases hph

/-- Every GF and BCH data operation looks up the configured code first. -/
theorem exec_bchData {i : Instr} (h : isBchData i = true) (s : State) :
    ∃ f, exec i s = conclude s (codeOf s i.inst >>= f) := by
  cases i
  case gfExp | gfLog | gfMul | gfInv | gfPow | bchEncode | bchSyndrome | bchCheck | bchCorrect
      | bchDecode => exact ⟨_, rfl⟩
  all_goals cases h

/-- The rule of BS.WAIT_FOR_SYNC is legal in RUN only, ownership aside (rules R152, R219). -/
theorem execBsWaitForSync_rejected {s : State} {inst : Inst} {ph : Phase}
    (h : s.bs[inst.toNat]?.map Life.ph = some ph) (hr : ph ≠ .run) :
    execBsWaitForSync inst s = .next (rejected s badPhase) :=
  conclude_rejected (pick_notRun_error h hr rfl fun _ => rfl)

/-- FIR.SET_TAPS is not legal in UNCONF (rule R177). -/
theorem execFirSetTaps_rejected {s : State} {inst : Inst}
    (h : s.fir[inst.toNat]?.map Life.ph = some .unconf) (t : Nat) :
    execFirSetTaps inst t s = .next (rejected s badPhase) :=
  conclude_rejected (pick_unconf_error h rfl)

/-! ### The wrong phase, by the class of the operation (rule R16) -/

/-- The unit number of an operation by its constructor: the rows of rule R104. -/
def unitRow : Instr → Nat
  | .pipeSerial .. | .pipeParallel .. | .pipeInit .. | .pipeStep .. => 0
  | .gzConfig .. | .gzInit .. | .gzStep .. => 1
  | .firConfig .. | .firInit .. | .firStep .. | .fircStep .. | .firSetTaps .. => 2
  | .bqConfig .. | .bqInit .. | .bqStep .. | .bqcStep .. => 3
  | .maConfig .. | .maInit .. | .maStep .. => 4
  | .bsConfig .. | .bsInit .. | .bsStep .. | .bsWaitForSync .. => 5
  | .bchConfig .. | .gfExp .. | .gfLog .. | .gfMul .. | .gfInv .. | .gfPow .. | .bchEncode ..
  | .bchSyndrome .. | .bchCheck .. | .bchCorrect .. | .bchDecode .. => 6
  | .hdReset .. | .hdStep .. => 7
  | .pgReset .. | .pgSync .. | .pgStep .. | .pgSetFilter .. => 8
  | .outqDrain .. => 9
  | .coreReset .. => 15

/-- Bits 7:4 of the command word are the unit number of the row (rules R101, R104). -/
theorem unitOf_eq (i : Instr) : unitOf i = unitRow i := by
  unfold unitOf
  cases i <;> simp [Instr.op, Op.code, unitRow]

/-- A direct INIT of a node in UNCONF that no composite owns. -/
theorem exec_init_rejected {i : Instr} {s : State} (hi : isInit i = true) (hn : nidOfOp i ∉ s.used)
    (hp : phaseOf s i = some .unconf) : exec i s = .next (rejected s badPhase) := by
  rw [phaseOf, unitOf_eq] at hp
  rw [nidOfOp, unitOf_eq] at hn
  cases i
  case pipeInit inst rate =>
    obtain ⟨u, hu, hph⟩ := Option.map_eq_some_iff.mp hp
    exact execPipeInit_rejected hu hn (.inl hph) rate
  case gzInit => exact conclude_rejected (unowned_error hp hn (gzInitAt_unconf hp _) _)
  case firInit => exact conclude_rejected (unowned_error hp hn (firInitAt_unconf hp _) _)
  case bqInit => exact conclude_rejected (unowned_error hp hn (bqInitAt_unconf hp _) _)
  case maInit => exact conclude_rejected (unowned_error hp hn (maInitAt_unconf hp _) _)
  case bsInit => exact conclude_rejected (unowned_error hp hn (bsInitAt_unconf hp _) _)
  all_goals cases hi

/-- A direct STEP of a node that is not in RUN and that no composite owns. -/
theorem exec_step_rejected {i : Instr} {s : State} {ph : Phase} (hi : isStep i = true)
    (ht : operandTyped s i = true) (hn : nidOfOp i ∉ s.used) (hp : phaseOf s i = some ph)
    (hr : ph ≠ .run) : exec i s = .next (rejected s badPhase) := by
  rw [phaseOf, unitOf_eq] at hp
  rw [nidOfOp, unitOf_eq] at hn
  cases i
  case pipeStep inst v =>
    obtain ⟨u, hu, rfl⟩ := Option.map_eq_some_iff.mp hp
    exact execPipeStep_rejected hu ht hn (.inl hr)
  case gzStep => exact conclude_rejected (unowned_error hp hn (gzStepAt_notRun hp hr _ _) _)
  case firStep => exact conclude_rejected (unowned_error hp hn (firStepAt_notRun hp hr _ _) _)
  case fircStep => exact conclude_rejected (unowned_error hp hn (fircStepAt_notRun hp hr _ _) _)
  case bqStep => exact conclude_rejected (unowned_error hp hn (bqStepAt_notRun hp hr _ _) _)
  case bqcStep => exact conclude_rejected (unowned_error hp hn (bqcStepAt_notRun hp hr _ _) _)
  case maStep => exact conclude_rejected (unowned_error hp hn (maStepAt_notRun hp hr _ _) _)
  case bsStep => exact concludeBits_rejected (unowned_error hp hn (bsStepAt_notRun hp hr _) _)
  all_goals cases hi

/-- The phase of a GF or BCH data operation is that of the code it names. -/
theorem phaseOf_bchData {i : Instr} (hi : isBchData i = true) (s : State) :
    phaseOf s i = s.bch[i.inst.toNat]?.map Bch.ph := by
  rw [phaseOf, unitOf_eq]
  cases i
  case gfExp | gfLog | gfMul | gfInv | gfPow | bchEncode | bchSyndrome | bchCheck | bchCorrect
      | bchDecode => rfl
  all_goals cases hi

/-- A GF or BCH data operation of a code that is not configured. -/
theorem exec_bchData_rejected {i : Instr} {s : State} (hi : isBchData i = true)
    (hp : phaseOf s i = some .unconf) : exec i s = .next (rejected s badPhase) := by
  have hc : codeOf s i.inst = .error badPhase := codeOf_unconf ((phaseOf_bchData hi s).symm.trans hp)
  obtain ⟨f, hf⟩ := exec_bchData hi s
  rw [hf]
  exact conclude_rejected (error_bind hc f)

/-- `BS.WAIT_FOR_SYNC` before RUN. -/
theorem exec_waitForSync_rejected {i : Instr} {s : State} {ph : Phase} (hi : i.op = .bsWaitForSync)
    (hp : phaseOf s i = some ph) (hr : ph ≠ .run) : exec i s = .next (rejected s badPhase) := by
  rw [phaseOf, unitOf_eq] at hp
  cases i
  case bsWaitForSync => exact execBsWaitForSync_rejected hp hr
  all_goals cases hi

/-- `FIR.SET_TAPS` in UNCONF. -/
theorem exec_firSetTaps_rejected {i : Instr} {s : State} (hi : i.op = .firSetTaps)
    (hp : phaseOf s i = some .unconf) : exec i s = .next (rejected s badPhase) := by
  rw [phaseOf, unitOf_eq] at hp
  cases i
  case firSetTaps => exact execFirSetTaps_rejected hp _
  all_goals cases hi

end Machine

namespace Settled

open Sys2Proof.Machine Sys2Proof.Claims

/-- Settles O26: the registers that rule R161 spells out are `gzReg`. -/
theorem gzInit : Obligations.GzInit := by
  unfold Obligations.GzInit
  intro s inst rate g c hg hc hn M x
  have hexec : exec (.gzInit inst rate) s = _ := execGzInit_unowned hg hn rate
  rw [gzInit_configured hc] at hexec
  refine ⟨fun hx => ?_, fun hx => ?_⟩
  · rw [if_pos hx] at hexec
    exact hexec
  · rw [if_neg (Bool.eq_false_iff.mp hx)] at hexec
    exact hexec

/-- Settles O29: the statement's `clamp` is `clampf`, and the registers that rule R171 spells out are
`firReg`. -/
theorem firInit : Obligations.FirInit := by
  unfold Obligations.FirInit
  intro s inst rate u c hu hc hn M x nyq clamp te
  have hclamp : clamp = M.clampf x := rfl
  have hexec : exec (.firInit inst rate) s = _ := execFirInit_unowned hu hn rate
  rw [firInit_configured hc] at hexec
  refine ⟨fun hx => ?_, fun hx hband => ?_, fun hx hband => ?_⟩
  · rw [if_neg (Bool.eq_false_iff.mp hx)] at hexec
    exact hexec
  · rw [hclamp] at hband
    rw [if_pos hx, if_pos hband] at hexec
    exact hexec
  · rw [hclamp] at hband
    rw [if_pos hx, if_neg (Bool.eq_false_iff.mp hband)] at hexec
    exact hexec

/-- Settles O36: the registers that rule R186 spells out are `bqReg`. -/
theorem bqInit : Obligations.BqInit := by
  unfold Obligations.BqInit
  intro s inst rate u c hu hc hn M x nyq f0 k o
  have hexec : exec (.bqInit inst rate) s = _ := execBqInit_unowned hu hn rate
  rw [bqInit_configured hc] at hexec
  refine ⟨fun hx => ?_, fun hx => ?_⟩
  · rw [if_neg (Bool.eq_false_iff.mp hx)] at hexec
    exact hexec
  · rw [if_pos hx] at hexec
    exact hexec

/-- Settles O8: by the class of the operation; and for a composite, because one node below it in
another phase fails its check of the whole tree. -/
theorem wrongPhaseRejected : Obligations.WrongPhaseRejected := by
  unfold Obligations.WrongPhaseRejected
  have notRun : ∀ {s : State} {i : Instr},
      phaseOf s i = some .unconf ∨ phaseOf s i = some .conf →
        ∃ ph, phaseOf s i = some ph ∧ ph ≠ .run := by
    rintro s i (h | h)
    · exact ⟨_, h, by decide⟩
    · exact ⟨_, h, by decide⟩
  refine ⟨fun i s h => ?_, fun s inst rate v d info hn hd hinfo => ⟨fun hph => ?_, fun hph ht => ?_⟩⟩
  · rcases h with ⟨hi, hp⟩ | ⟨hi, hp⟩ | ⟨hi, hp⟩ | ⟨hn, ht, ⟨hi, hp⟩ | ⟨hi, hp⟩⟩
    · exact exec_bchData_rejected hi hp
    · exact exec_firSetTaps_rejected hi hp
    · obtain ⟨ph, hp, hr⟩ := notRun hp
      exact exec_waitForSync_rejected hi hp hr
    · exact exec_init_rejected hi hn hp
    · obtain ⟨ph, hp, hr⟩ := notRun hp
      exact exec_step_rejected hi ht hn hp hr
  · obtain ⟨u, hu⟩ := pipe_of_below hd
    have hbelow := descendantsAre_false (p := leftUnconf) hd hinfo (by simp [hph]) (treeDepth s)
    exact execPipeInit_rejected hu hn (.inr hbelow) rate
  · obtain ⟨u, hu⟩ := pipe_of_below hd
    have hbelow := descendantsAre_false (p := (· == .run)) hd hinfo (by simp [hph]) (treeDepth s)
    exact execPipeStep_rejected hu ht hn (.inr hbelow)

end Settled
end Sys2Proof
end

section
/-!
SUPPORT. What INIT and STEP of the nodes, and every operation, leave unchanged. A function of the state
stands for what is looked at; one that sees no write to a node sees nothing of `init_node` and
`step_node`, whatever the tree.
-/

namespace Sys2Proof
namespace Machine

open Sys2Proof.Claims

/-! ### What holds of the value of a rule -/

/-- Where the rule of an operation comes to a value, `P` holds of it. -/
def Yields {α : Type} (P : α → Prop) (a : Ans α) : Prop := ∀ x, a = .ok x → P x

section Yields

variable {α β : Type} {P : α → Prop} {Q : β → Prop}

theorem yields_ok {x : α} (h : P x) : Yields P (.ok x) := fun _ hx => Except.ok.inj hx ▸ h

theorem yields_error {e : Status} : Yields P (.error e) := fun _ hx => nomatch hx

/-- A check in front of a rule can only keep it from a value. -/
theorem yields_bind {a : Ans α} {f : α → Ans β} (h : ∀ x, Yields Q (f x)) : Yields Q (a >>= f) := by
  intro y hy
  obtain ⟨x, -, hx⟩ := bind_ok.mp hy
  exact h x y hx

/-- What holds of the value of the first part is known in the rest. -/
theorem yields_then {a : Ans α} {f : α → Ans β} (ha : Yields P a) (h : ∀ x, P x → Yields Q (f x)) :
    Yields Q (a >>= f) := by
  intro y hy
  obtain ⟨x, hx, hxy⟩ := bind_ok.mp hy
  exact h x (ha x hx) y hxy

theorem yields_map {a : Ans α} {f : α → β} (ha : Yields P a) (h : ∀ x, P x → Q (f x)) :
    Yields Q (a.map f) := by
  intro y hy
  obtain ⟨x, hx, rfl⟩ := map_ok.mp hy
  exact h x (ha x hx)

theorem yields_ite {c : Prop} [Decidable c] {a b : Ans α} (ha : Yields P a) (hb : Yields P b) :
    Yields P (if c then a else b) := by
  split
  · exact ha
  · exact hb

end Yields

/-! ### INIT and STEP of the nodes -/

/-- `obs` sees no write to a node: to a unit with a life cycle, to an external node, or to the count
of free values. -/
structure NodeBlind {α : Type} (obs : State → α) : Prop where
  pipe : ∀ i u s, obs (putPipe i u s) = obs s
  gz : ∀ i u s, obs (putGz i u s) = obs s
  fir : ∀ i u s, obs (putFir i u s) = obs s
  bq : ∀ i u s, obs (putBq i u s) = obs s
  ma : ∀ i u s, obs (putMa i u s) = obs s
  bs : ∀ i u s, obs (putBs i u s) = obs s
  ext : ∀ n e s, obs (putExt n e s) = obs s
  free : ∀ k s, obs { s with freeIx := k } = obs s

namespace NodeBlind

variable {α : Type} {obs : State → α} (hb : NodeBlind obs)
include hb

theorem openReal (b : Bool) (y : RealVal) (s : State) : obs (openReal b y s).2 = obs s := by
  obtain ⟨-, h⟩ | ⟨-, v, k, h⟩ := openReal_cases b y s
  · rw [h]
  · rw [h]; exact hb.free k s

theorem openCplx (b : Bool) (y : Cplx) (s : State) : obs (openCplx b y s).2 = obs s := by
  obtain ⟨-, h⟩ | ⟨-, v, k, h⟩ := openCplx_cases b y s
  · rw [h]
  · rw [h]; exact hb.free k s

theorem openSample (b : Bool) (o : Option Sample) (s : State) : obs (openSample b o s).2 = obs s := by
  obtain ⟨-, h⟩ | ⟨-, w, k, h, -⟩ := openSample_cases b o s
  · rw [h]
  · rw [h]; exact hb.free k s

theorem settled (t : Tag) (o : Stepped) : obs (settled t o).2 = obs o.st := by
  obtain ⟨-, h⟩ | ⟨-, w, k, h, -⟩ := settled_cases t o
  · rw [h]
  · rw [h]; exact hb.free k o.st

/-! #### INIT -/

theorem gzInitAt (i : Inst) (x : RealVal) (s : State) :
    Yields (fun r => obs r.2 = obs s) (gzInitAt i x s) :=
  yields_bind fun _ => yields_bind fun _ => yields_ok (hb.gz ..)

theorem firInitAt (i : Inst) (x : RealVal) (s : State) :
    Yields (fun r => obs r.2 = obs s) (firInitAt i x s) :=
  yields_bind fun _ => yields_bind fun _ => yields_ok (hb.fir ..)

theorem bqInitAt (i : Inst) (x : RealVal) (s : State) :
    Yields (fun r => obs r.2 = obs s) (bqInitAt i x s) :=
  yields_bind fun _ => yields_bind fun _ => yields_ok (hb.bq ..)

theorem maInitAt (i : Inst) (x : RealVal) (s : State) :
    Yields (fun r => obs r.2 = obs s) (maInitAt i x s) :=
  yields_bind fun _ => yields_bind fun _ => yields_ok (hb.ma ..)

theorem bsInitAt (i : Inst) (x : RealVal) (s : State) :
    Yields (fun r => obs r.2 = obs s) (bsInitAt i x s) :=
  yields_bind fun _ => yields_bind fun _ => yields_ok (hb.bs ..)

theorem extInitAt (n : Nid) (x : RealVal) (s : State) :
    Yields (fun r => obs r.2 = obs s) (extInitAt n x s) := by
  unfold Machine.extInitAt
  split
  · exact yields_error
  · exact yields_bind fun _ => yields_ok (hb.ext ..)

theorem initLeaf (n : Nid) (x : RealVal) (s : State) :
    Yields (fun r => obs r.2 = obs s) (initLeaf n x s) := by
  unfold Machine.initLeaf
  split
  · exact hb.gzInitAt _ _ _
  · exact hb.firInitAt _ _ _
  · exact hb.bqInitAt _ _ _
  · exact hb.maInitAt _ _ _
  · exact hb.bsInitAt _ _ _
  · exact hb.extInitAt _ _ _

omit hb in
theorem initSerial {f : Nid → RealVal → State → Ans (RealVal × State)}
    (hf : ∀ n x s, Yields (fun r => obs r.2 = obs s) (f n x s)) (l : List Nid) (x : RealVal)
    (s : State) : Yields (fun r => obs r.2 = obs s) (initSerial f l x s) := by
  induction l generalizing x s with
  | nil => exact yields_ok rfl
  | cons c l ih => exact yields_then (hf c x s) fun ⟨y, t⟩ ht => ht ▸ ih y t

omit hb in
theorem initParallel {f : Nid → RealVal → State → Ans (RealVal × State)}
    (hf : ∀ n x s, Yields (fun r => obs r.2 = obs s) (f n x s)) (l : List Nid) (x : RealVal)
    (s : State) : Yields (fun r => obs r.2 = obs s) (initParallel f l x s) := by
  induction l generalizing s with
  | nil => exact yields_ok rfl
  | cons c l ih =>
    exact yields_then (hf c x s) fun ⟨y, t⟩ ht => yields_then (ih t) fun ⟨ys, u⟩ hu =>
      yields_ok (hu.trans ht)

theorem pipeInitAt {f : Nid → RealVal → State → Ans (RealVal × State)}
    (hf : ∀ n x s, Yields (fun r => obs r.2 = obs s) (f n x s)) (i : Inst) (x : RealVal)
    (s : State) : Yields (fun r => obs r.2 = obs s) (pipeInitAt f i x s) := by
  have children : ∀ c, Yields (fun r => obs r.2 = obs s) (initChildren f c x s) := by
    intro c
    unfold initChildren
    split
    · exact initSerial hf _ _ _
    · exact yields_then (initParallel hf c.child x s) fun ⟨ys, t⟩ ht =>
        yields_bind fun _ => yields_ok ht
  refine yields_bind fun u => ?_
  cases u with
  | unconf => exact yields_error
  | conf c | run c r =>
    exact yields_ite (yields_bind fun _ => yields_then (children c) fun ⟨y, t⟩ ht =>
      yields_ok ((hb.pipe ..).trans ht)) yields_error

/-- `init_node` writes nothing but nodes (rule R142). -/
theorem initNode (k : Nat) (n : Nid) (x : RealVal) (s : State) :
    Yields (fun r => obs r.2 = obs s) (initNode k n x s) := by
  induction k generalizing n x s with
  | zero => exact yields_error
  | succ k ih => exact yields_ite (hb.pipeInitAt ih _ _ _) (hb.initLeaf _ _ _)

/-! #### STEP -/

theorem gzStepAt (i : Inst) (x : RealVal) (q : Contract) (s : State) :
    Yields (fun r => obs r.2 = obs s) (gzStepAt i x q s) := by
  refine yields_bind fun u => ?_
  split
  · exact yields_ok ((hb.gz ..).trans (hb.openReal ..))
  · exact yields_error

theorem maStepAt (i : Inst) (x : RealVal) (q : Contract) (s : State) :
    Yields (fun r => obs r.2 = obs s) (maStepAt i x q s) := by
  refine yields_bind fun u => ?_
  split
  · exact yields_ok ((hb.ma ..).trans (hb.openReal ..))
  · exact yields_error

theorem firStepAt (i : Inst) (x : RealVal) (q : Contract) (s : State) :
    Yields (fun r => obs r.2 = obs s) (firStepAt i x q s) := by
  refine yields_bind fun u => ?_
  split
  · split
    · exact yields_ok ((hb.fir ..).trans (hb.openReal ..))
    · exact yields_error
  · exact yields_error

theorem fircStepAt (i : Inst) (z : Cplx) (q : Contract) (s : State) :
    Yields (fun r => obs r.2 = obs s) (fircStepAt i z q s) := by
  refine yields_bind fun u => ?_
  split
  · split
    · exact yields_ok ((hb.fir ..).trans (hb.openCplx ..))
    · exact yields_error
  · exact yields_error

theorem bqStepAt (i : Inst) (x : RealVal) (q : Contract) (s : State) :
    Yields (fun r => obs r.2 = obs s) (bqStepAt i x q s) := by
  refine yields_bind fun u => ?_
  split
  · split
    · exact yields_ok ((hb.bq ..).trans (hb.openReal ..))
    · exact yields_error
  · exact yields_error

theorem bqcStepAt (i : Inst) (z : Cplx) (q : Contract) (s : State) :
    Yields (fun r => obs r.2 = obs s) (bqcStepAt i z q s) := by
  refine yields_bind fun u => ?_
  split
  · split
    · exact yields_ok ((hb.bq ..).trans (hb.openCplx ..))
    · exact yields_error
  · exact yields_error

theorem bsStepAt (i : Inst) (lv : Bool) (s : State) :
    Yields (fun r => obs r.2.2 = obs s) (bsStepAt i lv s) := by
  refine yields_bind fun u => ?_
  split
  · exact yields_ok (hb.bs ..)
  · exact yields_error

theorem extStepAt (n : Nid) (v : Sample) (s : State) :
    Yields (fun o => obs o.st = obs s) (extStepAt n v s) := by
  unfold Machine.extStepAt
  split
  · exact yields_error
  · exact yields_ite yields_error (yields_ite yields_error (yields_ok (hb.ext ..)))

theorem stepLeaf (q : Contract) (n : Nid) (v : Sample) (s : State) :
    Yields (fun o => obs o.st = obs s) (stepLeaf q n v s) := by
  unfold Machine.stepLeaf
  split
  · exact yields_map (hb.gzStepAt _ _ _ _) fun _ h => h
  · exact yields_map (hb.firStepAt _ _ _ _) fun _ h => h
  · exact yields_map (hb.fircStepAt _ _ _ _) fun _ h => h
  · exact yields_map (hb.bqStepAt _ _ _ _) fun _ h => h
  · exact yields_map (hb.bqcStepAt _ _ _ _) fun _ h => h
  · exact yields_map (hb.maStepAt _ _ _ _) fun _ h => h
  · exact yields_map (hb.bsStepAt _ _ _) fun _ h => h
  · exact yields_ite yields_error (hb.extStepAt _ _ _)

omit hb in
theorem stepSerial {f : Nid → Sample → State → Ans Stepped}
    (hf : ∀ n v s, Yields (fun o => obs o.st = obs s) (f n v s)) (l : List Nid) (v : Sample)
    (s : State) : Yields (fun o => obs o.st = obs s) (stepSerial f l v s) := by
  induction l generalizing v s with
  | nil => exact yields_ok rfl
  | cons c l ih =>
    refine yields_then (hf c v s) fun o ho => yields_ite (yields_ok ho) ?_
    split
    · exact yields_ok ho
    · exact yields_then (ih _ o.st) fun o' ho' => yields_ok (ho'.trans ho)

omit hb in
theorem stepParallel {f : Nid → Sample → State → Ans Stepped}
    (hf : ∀ n v s, Yields (fun o => obs o.st = obs s) (f n v s)) (l : List Nid) (v : Sample)
    (s : State) : Yields (fun b => obs b.st = obs s) (stepParallel f l v s) := by
  induction l generalizing s with
  | nil => exact yields_ok rfl
  | cons c l ih =>
    refine yields_then (hf c v s) fun o ho => yields_ite (yields_ok ho) ?_
    exact yields_then (ih o.st) fun o' ho' => yields_ok (ho'.trans ho)

omit hb in
theorem stepChildren {f : Nid → Sample → State → Ans Stepped}
    (hf : ∀ n v s, Yields (fun o => obs o.st = obs s) (f n v s)) (c : PipeCfg) (v : Sample)
    (s : State) : Yields (fun o => obs o.1.st = obs s) (stepChildren f c v s) := by
  unfold Machine.stepChildren
  split
  · exact yields_map (stepSerial hf _ _ _) fun _ h => h
  · exact yields_then (stepParallel hf c.child v s) fun _ h => yields_ok h

theorem pipeStepAt {f : Contract → Nid → Sample → State → Ans Stepped}
    (hf : ∀ q n v s, Yields (fun o => obs o.st = obs s) (f q n v s)) (i : Inst) (v : Sample)
    (q : Contract) (s : State) : Yields (fun o => obs o.st = obs s) (pipeStepAt f i v q s) := by
  refine yields_bind fun u => ?_
  split
  · refine yields_ite (yields_then (stepChildren (hf _) _ v s) fun ⟨o, _⟩ ho => ?_) yields_error
    exact yields_ok ((hb.openSample ..).trans ((hb.pipe ..).trans ho))
  · exact yields_error

/-- `step_node` writes nothing but nodes (rule R142). -/
theorem stepNode (k : Nat) (q : Contract) (n : Nid) (v : Sample) (s : State) :
    Yields (fun o => obs o.st = obs s) (stepNode k q n v s) := by
  induction k generalizing q n v s with
  | zero => exact yields_error
  | succ k ih => exact yields_ite (hb.pipeStepAt ih _ _ _ _) (hb.stepLeaf _ _ _ _)

end NodeBlind

end Machine
end Sys2Proof
end

section
/-!
SUPPORT. What every step keeps: a function of the state that no single write of an operation changes is
changed by no step. The parameters of the block and the numbers of its units are one (rules R7, R20,
R101).
-/

namespace Sys2Proof
namespace Machine

open Sys2Proof.Claims

/-- `obs` sees no write of an operation: to a node or another unit, to the owned nodes, to the hand-off
buffer and the ports; and not the reset of the block. -/
structure OpBlind {α : Type} (obs : State → α) : Prop extends NodeBlind obs where
  bch : ∀ i u s, obs (putBch i u s) = obs s
  hd : ∀ i u s, obs (putHd i u s) = obs s
  pg : ∀ i u s, obs (putPg i u s) = obs s
  used : ∀ l s, obs { s with used := l } = obs s
  outq : ∀ l s, obs { s with outq := l } = obs s
  out : ∀ o s, obs { s with out := o } = obs s
  reset : ∀ s, obs (coreReset s) = obs s

namespace OpBlind

variable {α : Type} {obs : State → α} (hb : OpBlind obs) {s t : State}
include hb

/-- An operation that answers is blind where its rule is. -/
theorem conclude {a : Ans Done} (h : conclude s a = .next t)
    (ha : Yields (fun d => obs d.st = obs s) a) : obs t = obs s := by
  obtain ⟨e, -, rfl⟩ | ⟨d, hd, rfl⟩ := conclude_next.mp h
  · exact hb.out _ s
  · exact (hb.out _ d.st).trans (ha d hd)

theorem concludeBits {a : Ans (Done × List Delivered)} (h : concludeBits s a = .next t)
    (ha : Yields (fun r => obs r.1.st = obs s) a) : obs t = obs s := by
  obtain ⟨e, -, rfl⟩ | ⟨d, bits, hd, rfl⟩ := concludeBits_next.mp h
  · exact hb.out _ s
  · exact (hb.out _ d.st).trans (ha _ hd)

theorem emitOpt (m : Option Message) (s : State) : obs (emitOpt m s) = obs s := by
  rw [emitOpt_eq]; exact hb.outq _ s

theorem construct (i : Inst) (l : List Nid) (typed : List (Tag × Tag) → Bool)
    (cfg : List (Tag × Tag) → PipeCfg) (s : State) :
    Yields (fun d => obs d.st = obs s) (construct i l typed cfg s) := by
  intro d hd
  obtain ⟨-, -, -, -, -, hst⟩ := construct_ok hd
  rw [hst]
  exact (hb.pipe ..).trans (hb.used _ s)

theorem pgDone (i : Inst) (o : PgOut) (r : Result) (s : State) :
    obs (pgDone i o r s).st = obs s :=
  (hb.emitOpt ..).trans (hb.pg ..)

/-- A GF or BCH data operation writes nothing. -/
theorem exec_bchData {i : Instr} (hi : isBchData i = true) (h : exec i s = .next t) :
    obs t = obs s := by
  cases i
  case gfExp => exact hb.conclude h (yields_bind fun _ => yields_ok rfl)
  case gfPow | bchEncode | bchSyndrome | bchCheck | bchCorrect | bchDecode =>
    exact hb.conclude h (yields_bind fun _ => yields_bind fun _ => yields_ok rfl)
  case gfMul =>
    exact hb.conclude h (yields_bind fun _ => yields_bind fun _ => yields_bind fun _ => yields_ok rfl)
  case gfLog | gfInv =>
    exact hb.conclude h (yields_bind fun _ => yields_bind fun _ =>
      yields_ite yields_error (yields_ok rfl))
  all_goals cases hi

omit hb in
/-- A direct INIT or STEP writes what its body writes. -/
theorem direct {C β : Type} {l : List C} {inst : Inst} {n : Nid} {body : Ans (β × State)}
    (res : β → Result) (hbody : Yields (fun r => obs r.2 = obs s) body) :
    Yields (fun d : Done => obs d.st = obs s) (do
      let _ ← pick l inst
      notOwned s n
      let (y, t) ← body
      .ok ⟨t, res y, []⟩) :=
  yields_bind fun _ => yields_bind fun _ => yields_then hbody fun _ hr => yields_ok hr

/-- An INIT writes nothing but nodes. -/
theorem exec_init {i : Instr} (hi : isInit i = true) (h : exec i s = .next t) : obs t = obs s := by
  cases i
  case pipeInit => exact hb.conclude h (direct .rate (hb.initNode _ _ _ _))
  case gzInit => exact hb.conclude h (direct .rate (hb.gzInitAt _ _ _))
  case firInit => exact hb.conclude h (direct .rate (hb.firInitAt _ _ _))
  case bqInit => exact hb.conclude h (direct .rate (hb.bqInitAt _ _ _))
  case maInit => exact hb.conclude h (direct .rate (hb.maInitAt _ _ _))
  case bsInit => exact hb.conclude h (direct .rate (hb.bsInitAt _ _ _))
  all_goals cases hi

/-- A STEP of a node writes nothing but nodes. -/
theorem exec_step {i : Instr} (hi : isStep i = true) (h : exec i s = .next t) : obs t = obs s := by
  cases i
  case pipeStep =>
    refine hb.concludeBits h (yields_bind fun _ => yields_bind fun _ => yields_bind fun _ => ?_)
    exact yields_then (hb.stepNode _ _ _ _ _) fun o ho => yields_ok ((hb.settled ..).trans ho)
  case gzStep => exact hb.conclude h (direct (.sample <| some <| .real ·) (hb.gzStepAt _ _ _ _))
  case firStep => exact hb.conclude h (direct (.sample <| some <| .real ·) (hb.firStepAt _ _ _ _))
  case fircStep => exact hb.conclude h (direct (.sample <| some <| .cplx ·) (hb.fircStepAt _ _ _ _))
  case bqStep => exact hb.conclude h (direct (.sample <| some <| .real ·) (hb.bqStepAt _ _ _ _))
  case bqcStep => exact hb.conclude h (direct (.sample <| some <| .cplx ·) (hb.bqcStepAt _ _ _ _))
  case maStep => exact hb.conclude h (direct (.sample <| some <| .real ·) (hb.maStepAt _ _ _ _))
  case bsStep =>
    refine hb.concludeBits h (yields_bind fun _ => yields_bind fun _ => ?_)
    exact yields_then (hb.bsStepAt _ _ _) fun _ hr => yields_ok hr
  all_goals cases hi

/-- No operation writes what `obs` sees. -/
theorem exec {i : Instr} (h : exec i s = .next t) : obs t = obs s := by
  cases i
  case pipeInit | gzInit | firInit | bqInit | maInit | bsInit => exact hb.exec_init rfl h
  case pipeStep | gzStep | firStep | fircStep | bqStep | bqcStep | maStep | bsStep =>
    exact hb.exec_step rfl h
  case gfExp | gfLog | gfMul | gfInv | gfPow | bchEncode | bchSyndrome | bchCheck | bchCorrect
      | bchDecode => exact hb.exec_bchData rfl h
  case pipeSerial | pipeParallel => exact hb.conclude h (hb.construct _ _ _ _ s)
  case gzConfig =>
    exact hb.conclude h (yields_bind fun _ => yields_bind fun _ => yields_ok (by simp [hb.gz]))
  case firConfig | firSetTaps =>
    exact hb.conclude h (yields_bind fun _ => yields_bind fun _ => yields_ok (by simp [hb.fir]))
  case bqConfig =>
    exact hb.conclude h (yields_bind fun _ => yields_bind fun _ => yields_ok (by simp [hb.bq]))
  case maConfig =>
    exact hb.conclude h (yields_bind fun _ => yields_bind fun _ => yields_ok (by simp [hb.ma]))
  case bsConfig =>
    exact hb.conclude h (yields_bind fun _ => yields_bind fun _ => yields_ok (by simp [hb.bs]))
  case bsWaitForSync =>
    refine hb.conclude h (yields_bind fun u => ?_)
    cases u with
    | run c r => exact yields_ok (hb.bs ..)
    | unconf | conf c => exact yields_error
  case bchConfig =>
    exact hb.conclude h (yields_bind fun _ => yields_bind fun _ => yields_ok (hb.bch ..))
  case hdReset => exact hb.conclude h (yields_bind fun _ => yields_ok (hb.hd ..))
  case hdStep =>
    exact hb.conclude h (yields_bind fun _ => yields_ok ((hb.emitOpt ..).trans (hb.hd ..)))
  case pgReset | pgSync | pgStep =>
    exact hb.conclude h (yields_bind fun _ => yields_ok (hb.pgDone ..))
  case pgSetFilter =>
    refine hb.conclude h (yields_bind fun _ => ?_)
    split
    · exact yields_error
    · exact yields_ok (hb.pg ..)
  case outqDrain =>
    refine hb.conclude h (yields_bind fun _ => yields_ok ?_)
    rw [drain_eq]
    exact hb.outq _ s
  case coreReset => exact hb.conclude h (yields_bind fun _ => yields_ok (hb.reset s))

/-- An INIT or STEP routed to an external node writes nothing but that node. -/
theorem execExternal {n : Nid} {op : BitVec 4} {o : Operand} (h : execExternal n op o s = .next t) :
    obs t = obs s := by
  refine hb.conclude h ?_
  split
  · exact yields_bind fun _ => yields_then (hb.extInitAt _ _ _) fun _ hr => yields_ok hr
  · refine yields_ite (yields_bind fun _ => ?_) yields_error
    exact yields_then (hb.extStepAt _ _ _) fun o ho => yields_ok ((hb.settled ..).trans ho)
  · exact yields_error

/-- No command writes what `obs` sees. -/
theorem runCommand {c : Command} (h : runCommand c s = .next t) : obs t = obs s := by
  unfold Machine.runCommand at h
  split at h
  · exact hb.exec h
  · exact hb.execExternal h
  · cases h
    exact hb.out _ s

end OpBlind

/-- A step takes no command and leaves the state, or takes the first one, runs it, and puts in front of
the rest what the chains issue. -/
theorem step_next {s t : State} (h : step s = .next t) :
    (s.pending = [] ∧ t = s) ∨
      ∃ c rest u, s.pending = c :: rest ∧ runCommand c { s with pending := rest } = .next u ∧
        t = routed u := by
  unfold step takeCommand at h
  cases hp : s.pending with
  | nil =>
    rw [hp] at h
    cases h
    exact .inl ⟨rfl, rfl⟩
  | cons c rest =>
    rw [hp] at h
    cases hr : runCommand c { s with pending := rest } with
    | next u =>
      simp only [hr] at h
      cases h
      exact .inr ⟨c, rest, u, rfl, hr, rfl⟩
    | fault r => simp only [hr] at h; cases h
    | refused r => simp only [hr] at h; cases h

/-- What no operation writes and what is no pending command is kept by every step. -/
theorem OpBlind.step {α : Type} {obs : State → α} (hb : OpBlind obs)
    (hp : ∀ l s, obs { s with pending := l } = obs s) {s t : State} (h : step s = .next t) :
    obs t = obs s := by
  obtain ⟨-, rfl⟩ | ⟨c, rest, u, -, hu, rfl⟩ := step_next h
  · rfl
  · calc obs (routed u) = obs u := hp _ u
      _ = obs { s with pending := rest } := hb.runCommand hu
      _ = obs s := hp rest s

/-! ### The parameters -/

/-- What the rules call parameters: the OPEN parameters and the number of units of every kind
(rules R7, R20, R101). -/
def parameters (s : State) : Params × List Nat :=
  (s.par, [s.pipe.length, s.gz.length, s.fir.length, s.bq.length, s.ma.length, s.bs.length,
    s.bch.length, s.hd.length, s.pg.length])

/-- No operation writes a parameter; a write to a unit is a write in place. -/
theorem parameters_opBlind : OpBlind parameters where
  pipe _ _ _ := by simp [parameters]
  gz _ _ _ := by simp [parameters]
  fir _ _ _ := by simp [parameters]
  bq _ _ _ := by simp [parameters]
  ma _ _ _ := by simp [parameters]
  bs _ _ _ := by simp [parameters]
  ext _ _ _ := rfl
  free _ _ := rfl
  bch _ _ _ := by simp [parameters]
  hd _ _ _ := by simp [parameters]
  pg _ _ _ := by simp [parameters]
  used _ _ := rfl
  outq _ _ := rfl
  out _ _ := rfl
  reset _ := by simp [parameters, resetAll]

end Machine

namespace Settled

open Sys2Proof.Machine

/-- Settles O14: the parameters are what no operation writes. -/
theorem stepKeepsParameters : Obligations.StepKeepsParameters := by
  unfold Obligations.StepKeepsParameters
  intro s t h
  have hkeep : parameters t = parameters s := parameters_opBlind.step (fun _ _ => rfl) h
  simpa [parameters] using hkeep

end Settled
end Sys2Proof
end

section
/-!
SUPPORT. The ranges of the units' registers (rules R34 to R42), unit by unit: every CONFIG, INIT and
tick leaves registers that are in their ranges where it found such.
-/

namespace Sys2Proof
namespace Machine

/-- `v` is what an operation may leave in the place of a unit with a life cycle: it has left `UNCONF`,
and where `G` holds its registers are in their ranges. -/
structure Renewed {C R : Type} (wf : Life C R → Bool) (G : Prop) (v : Life C R) : Prop where
  wf : G → wf v = true
  left : v.ph ≠ .unconf

/-! ### Rings (rule R71) -/

theorem ringOk_iff {α : Type} {l : List α} {wp n : Nat} :
    ringOk l wp n = true ↔ 1 ≤ n ∧ l.length = n ∧ wp < n := by
  simp [ringOk, and_assoc]

theorem ringOk_replicate {α : Type} {n : Nat} (a : α) (h : 1 ≤ n) :
    ringOk (List.replicate n a) 0 n = true :=
  ringOk_iff.mpr ⟨h, List.length_replicate, h⟩

/-- An insertion overwrites the oldest element of a ring and moves the write pointer on. -/
theorem ringOk_insert {α : Type} {l : List α} {wp n : Nat} (a : α) (h : ringOk l wp n = true) :
    ringOk (memWrite l wp a) (ringNext wp n) n = true := by
  obtain ⟨hn, hl, hwp⟩ := ringOk_iff.mp h
  refine ringOk_iff.mpr ⟨hn, ?_, ringNext_lt hn⟩
  rw [memWrite_length _ _ _ (by omega)]
  omega

/-! ### GZ (rule R34) -/

theorem gzConfig_renewed {G : Prop} (M : Numerics) (n : I32) (f : B32) :
    Yields (Renewed Gz.wf G) (gzConfig M n f) := by
  intro v hv
  unfold gzConfig at hv
  split at hv <;> cases hv
  exact ⟨fun _ => by simp [Gz.wf]; omega, nofun⟩

theorem gzInit_renewed {G : Prop} {u : Gz} (hu : G → u.wf = true) (M : Numerics) (x : RealVal) :
    Yields (Renewed Gz.wf G) (gzInit M u x) := by
  have key : ∀ c : GzCfg, (G → 1 ≤ c.n) → Renewed Gz.wf G (.run c (gzReg M c x)) := fun c hc =>
    ⟨fun h => ringOk_replicate _ (hc h), nofun⟩
  cases u with
  | unconf => exact yields_error
  | conf c => exact yields_bind fun _ => yields_ok (key c fun h => by simpa [Gz.wf] using hu h)
  | run c r => exact yields_bind fun _ => yields_ok (key c fun h => (ringOk_iff.mp (hu h)).1)

theorem gzInsert_wf {M : Numerics} {c : GzCfg} {r : GzReg} {x : RealVal} {q : Contract}
    (h : Gz.wf (.run c r) = true) : Gz.wf (.run c (gzInsert M c r x q)) = true :=
  ringOk_insert x h

/-! ### FIR (rule R35) -/

/-- An odd number of taps, and so at least one (rule R172). -/
theorem effectiveTaps_pos {t : Nat} (h : 1 ≤ t) : 1 ≤ effectiveTaps t := by
  unfold effectiveTaps; split <;> omega

theorem firZeros_wf (M : Numerics) (cx : Bool) {te : Nat} (h : 1 ≤ te) :
    (firZeros M cx te).wf cx 0 te = true := by
  cases cx <;> simp [firZeros, FirRing.wf, ringOk_replicate _ h]

theorem fir_conf_wf {c : FirCfg} : Fir.wf (.conf c) = true ↔ 1 ≤ c.t := by simp [Fir.wf]

theorem fir_run_wf {c : FirCfg} {r : FirReg} :
    Fir.wf (.run c r) = true ↔ 1 ≤ c.t ∧ r.te = effectiveTaps c.t ∧ r.taps.length = r.te ∧
      r.ring.wf c.cx r.wp r.te = true := by
  simp [Fir.wf, and_assoc]

theorem firTaps_length (M : Numerics) (tone : ToneSel) (c : FirCfg) (rate : RealVal) (te : Nat) :
    (firTaps M tone c rate te).length = te := by simp [firTaps]

theorem firConfig_renewed {G : Prop} (M : Numerics) (w t : I32) (f1 f2 b : B32) (cx : I32) :
    Yields (Renewed Fir.wf G) (firConfig M w t f1 f2 b cx) := by
  intro v hv
  unfold firConfig at hv
  split at hv
  · cases hv
  · split at hv; · cases hv
    split at hv; · cases hv
    split at hv <;> cases hv
    exact ⟨fun _ => fir_conf_wf.mpr (by simp only; omega), nofun⟩

theorem firInit_renewed {G : Prop} {u : Fir} (hu : G → u.wf = true) (M : Numerics) (tone : ToneSel)
    (x : RealVal) : Yields (Renewed Fir.wf G) (firInit M tone u x) := by
  have key : ∀ c : FirCfg, (G → 1 ≤ c.t) → Renewed Fir.wf G (.run c (firReg M tone c x)) :=
    fun c hc => ⟨fun h => fir_run_wf.mpr ⟨hc h, rfl, firTaps_length .., firZeros_wf M _
      (effectiveTaps_pos (hc h))⟩, nofun⟩
  cases u with
  | unconf => exact yields_error
  | conf c =>
    exact yields_bind fun _ => yields_ite yields_error
      (yields_ok (key c fun h => fir_conf_wf.mp (hu h)))
  | run c r =>
    exact yields_bind fun _ => yields_ite yields_error
      (yields_ok (key c fun h => (fir_run_wf.mp (hu h)).1))

theorem firSetTaps_renewed {G : Prop} (u : Fir) (M : Numerics) (tone : ToneSel) (t : Nat) :
    Yields (Renewed Fir.wf G) (firSetTaps M tone u t) := by
  intro v hv
  unfold firSetTaps at hv
  split at hv
  · cases hv
  · split at hv <;> cases hv
    exact ⟨fun _ => fir_conf_wf.mpr (by simp only; omega), nofun⟩
  · split at hv <;> cases hv
    have ht : 1 ≤ t := by omega
    exact ⟨fun _ => fir_run_wf.mpr ⟨ht, rfl, firTaps_length .., firZeros_wf M _
      (effectiveTaps_pos ht)⟩, nofun⟩

theorem firTick_wf {M : Numerics} {c : FirCfg} {r : FirReg} {ring : List RealVal} {x : RealVal}
    {q : Contract} (hr : r.ring = .real ring) (h : Fir.wf (.run c r) = true) :
    Fir.wf (.run c (firTick M r ring x q).1) = true := by
  obtain ⟨ht, hte, htaps, hring⟩ := fir_run_wf.mp h
  simp only [hr, FirRing.wf, Bool.and_eq_true] at hring
  refine fir_run_wf.mpr ⟨ht, hte, htaps, ?_⟩
  simp only [firTick, FirRing.wf, Bool.and_eq_true]
  exact ⟨hring.1, ringOk_insert x hring.2⟩

theorem fircTick_wf {M : Numerics} {c : FirCfg} {r : FirReg} {ring : List Cplx} {z : Cplx}
    {q : Contract} (hr : r.ring = .cplx ring) (h : Fir.wf (.run c r) = true) :
    Fir.wf (.run c (fircTick M r ring z q).1) = true := by
  obtain ⟨ht, hte, htaps, hring⟩ := fir_run_wf.mp h
  simp only [hr, FirRing.wf, Bool.and_eq_true] at hring
  refine fir_run_wf.mpr ⟨ht, hte, htaps, ?_⟩
  simp only [fircTick, FirRing.wf, Bool.and_eq_true]
  exact ⟨hring.1, ringOk_insert z hring.2⟩

/-! ### BQ (rule R36) -/

theorem bqConfig_renewed {G : Prop} (M : Numerics) (ty : I32) (f0 q g : B32) (cx : I32) :
    Yields (Renewed Bq.wf G) (bqConfig M ty f0 q g cx) := by
  intro v hv
  unfold bqConfig at hv
  split at hv
  · cases hv
  · split at hv
    · split at hv <;> cases hv
      exact ⟨fun _ => rfl, nofun⟩
    · cases hv

theorem bqInit_renewed {G : Prop} (u : Bq) (M : Numerics) (x : RealVal) :
    Yields (Renewed Bq.wf G) (bqInit M u x) := by
  have key : ∀ c : BqCfg, Renewed Bq.wf G (.run c (bqReg M c x)) := by
    refine fun c => ⟨fun _ => ?_, nofun⟩
    cases hc : c.cx <;> simp [Bq.wf, bqReg, BqMem.wf, hc]
  cases u with
  | unconf => exact yields_error
  | conf c | run c r => exact yields_bind fun _ => yields_ok (key c)

theorem bqTick_wf {M : Numerics} {c : BqCfg} {r : BqReg} {d : Delay RealVal} {x : RealVal}
    {q : Contract} (hc : c.cx = false) : Bq.wf (.run c (bqTick M r d x q).1) = true := by
  simp [Bq.wf, bqTick, BqMem.wf, hc]

theorem bqcTick_wf {M : Numerics} {c : BqCfg} {r : BqReg} {d : Delay Cplx} {z : Cplx}
    {q : Contract} (hc : c.cx = true) : Bq.wf (.run c (bqcTick M r d z q).1) = true := by
  simp [Bq.wf, bqcTick, BqMem.wf, hc]

/-! ### MA (rule R37) -/

theorem ma_run_wf {c : MaCfg} {r : MaReg} :
    Ma.wf (.run c r) = true ↔ ringOk r.ring r.wp c.n = true ∧ r.zrun ≤ c.n := by
  simp [Ma.wf]

theorem maConfig_renewed {G : Prop} (n : I32) : Yields (Renewed Ma.wf G) (maConfig n) := by
  intro v hv
  unfold maConfig at hv
  split at hv <;> cases hv
  exact ⟨fun _ => by simp [Ma.wf]; omega, nofun⟩

theorem maInit_renewed {G : Prop} {u : Ma} (hu : G → u.wf = true) (M : Numerics) (x : RealVal) :
    Yields (Renewed Ma.wf G) (maInit M u x) := by
  have key : ∀ c : MaCfg, (G → 1 ≤ c.n) → Renewed Ma.wf G (.run c (maReg M c)) := fun c hc =>
    ⟨fun h => ma_run_wf.mpr ⟨ringOk_replicate _ (hc h), Nat.zero_le _⟩, nofun⟩
  cases u with
  | unconf => exact yields_error
  | conf c => exact yields_bind fun _ => yields_ok (key c fun h => by simpa [Ma.wf] using hu h)
  | run c r =>
    exact yields_bind fun _ => yields_ok (key c fun h => (ringOk_iff.mp (ma_run_wf.mp (hu h)).1).1)

theorem maTick_wf {M : Numerics} {c : MaCfg} {r : MaReg} {x : RealVal} {q : Contract}
    (h : Ma.wf (.run c r) = true) : Ma.wf (.run c (maTick M c r x q)) = true := by
  refine ma_run_wf.mpr ⟨ringOk_insert x (ma_run_wf.mp h).1, ?_⟩
  simp only [maTick, maZrun]
  split <;> omega

/-! ### BS (rule R38) -/

theorem satInc32_le (n : Nat) : satInc32 n ≤ Config.u32Max := Nat.min_le_right _ _

theorem bsCfg_wf_iff {c : BsCfg} :
    c.wf = true ↔ 1 ≤ c.c ∧ c.cand.length = c.c ∧ 1 ≤ c.req ∧ 1 ≤ c.cap := by
  simp [BsCfg.wf, and_assoc]

/-- The ranges of rule R38, one by one. -/
structure BsBounds (c : BsCfg) (r : BsReg) : Prop where
  spbc : r.spbc.length = c.c
  lidx : r.lidx.below c.c = true
  midx : r.midx.below c.c = true
  level : r.lvalid = true → r.level.isHeld = true
  matching : r.mvalid = true → r.midx.isHeld = true
  run : r.run ≤ Config.u32Max
  mcnt : r.mcnt ≤ Config.u32Max
  head : r.head < c.cap
  count : r.count ≤ c.cap
  room : r.bitbuf.length ≤ c.cap
  queue : r.bitbuf.length = c.cap ∨ r.head + r.count = r.bitbuf.length

theorem bsReg_wf_iff {c : BsCfg} {r : BsReg} : r.wf c = true ↔ BsBounds c r := by
  simp only [BsReg.wf, Bool.and_eq_true, decide_eq_true_eq, Bool.or_eq_true, Bool.not_eq_true',
    ← Bool.not_eq_true, ← imp_iff_not_or, and_assoc]
  exact ⟨fun ⟨h1, h2, h3, h4, h5, h6, h7, h8, h9, h10, h11⟩ =>
      ⟨h1, h2, h3, h4, h5, h6, h7, h8, h9, h10, h11⟩,
    fun ⟨h1, h2, h3, h4, h5, h6, h7, h8, h9, h10, h11⟩ =>
      ⟨h1, h2, h3, h4, h5, h6, h7, h8, h9, h10, h11⟩⟩

theorem bs_run_wf {c : BsCfg} {r : BsReg} : Bs.wf (.run c r) = true ↔ c.wf = true ∧ BsBounds c r := by
  simp [Bs.wf, bsReg_wf_iff]

/-- The registers that rule R212 clears; what is kept is the list of samples per bit. -/
theorem clearSync_bounds {M : Numerics} {c : BsCfg} {r : BsReg} (hc : c.wf = true)
    (hr : r.spbc.length = c.c) : BsBounds c (clearSync M c r) := by
  obtain ⟨hpos, -, -, hcap⟩ := bsCfg_wf_iff.mp hc
  have hlidx : (clearSync M c r).lidx.below c.c = true := by
    unfold clearSync
    split <;> simp [Slot.below]; omega
  exact ⟨hr, hlidx, rfl, nofun, nofun, Nat.zero_le _, Nat.zero_le _, hcap, Nat.zero_le _,
    Nat.zero_le _, .inr rfl⟩

/-- BS.CONFIG relies on the list of candidates that the decoder took apart (rule R106). -/
theorem bsConfig_renewed {G : Prop} {c : I32} {cand : List B32}
    (hc : G → candidatesMatch c cand = true) (M : Numerics) (req cap : I32) :
    Yields (Renewed Bs.wf G) (bsConfig M c cand req cap) := by
  intro v hv
  unfold bsConfig at hv
  simp only at hv
  split at hv; · cases hv
  split at hv; · cases hv
  split at hv; · cases hv
  split at hv <;> cases hv
  refine ⟨fun h => bsCfg_wf_iff.mpr ⟨?_, ?_, ?_, ?_⟩, nofun⟩
  · simp only; omega
  · simpa [candidatesMatch] using hc h
  · simp only; omega
  · simp only; omega

theorem bsInit_renewed {G : Prop} {u : Bs} (hu : G → u.wf = true) (M : Numerics) (x : RealVal) :
    Yields (Renewed Bs.wf G) (bsInit M u x) := by
  have key : ∀ c : BsCfg, (G → c.wf = true) → Renewed Bs.wf G (.run c (bsReg M c x)) := by
    refine fun c hc => ⟨fun h => bs_run_wf.mpr ⟨hc h, clearSync_bounds (hc h) ?_⟩, nofun⟩
    obtain ⟨-, hcand, -, -⟩ := bsCfg_wf_iff.mp (hc h)
    rw [List.length_map, hcand]
  cases u with
  | unconf => exact yields_error
  | conf c => exact yields_bind fun _ => yields_ok (key c hu)
  | run c r => exact yields_bind fun _ => yields_ok (key c fun h => (bs_run_wf.mp (hu h)).1)

theorem one_le_u32Max : 1 ≤ Config.u32Max := by decide

section Tick

variable {M : Numerics} {c : BsCfg} {r : BsReg}

theorem bsSearch_bounds {len : Nat} (h : BsBounds c r) : BsBounds c (bsSearch M c r len).1 := by
  unfold bsSearch
  split
  · exact { h with matching := nofun, mcnt := Nat.zero_le _ }
  · rename_i i hi
    have hlt : (Slot.holds i).below c.c = true := by
      have hfound := (List.findIdx?_eq_some_iff_getElem.mp hi).1
      rw [h.spbc] at hfound
      exact decide_eq_true hfound
    have hsat : (if r.mvalid = true ∧ r.midx = .holds i then satInc32 r.mcnt else 1) ≤
        Config.u32Max := by
      split
      · exact satInc32_le _
      · exact one_le_u32Max
    dsimp only
    generalize (if r.mvalid = true ∧ r.midx = .holds i then satInc32 r.mcnt else 1) = mcnt at hsat ⊢
    split
    · exact { h with lidx := hlt, midx := hlt, matching := nofun, mcnt := Nat.zero_le _ }
    · exact { h with midx := hlt, matching := fun _ => rfl, mcnt := hsat }

/-- A buffer that has not been written to its end holds no bits but those in the queue and those
before it. -/
theorem BsBounds.linear (h : BsBounds c r) (hlt : r.bitbuf.length < c.cap) :
    r.head + r.count = r.bitbuf.length :=
  h.queue.resolve_left hlt.ne

/-- A bit that is pushed goes to the place after the last one, or over one that was taken. -/
theorem pushBit_bounds {b : Bool} (h : BsBounds c r) : BsBounds c (pushBit c.cap r b).1 := by
  unfold pushBit
  split
  · rename_i hlt
    have hmod := Nat.mod_lt (r.head + r.count) (Nat.zero_lt_of_lt hlt)
    obtain hroom | hfull := Nat.lt_or_eq_of_le h.room
    · have hlin := h.linear hroom
      have hlen : (memWrite r.bitbuf ((r.head + r.count) % c.cap) b).length = r.bitbuf.length + 1 := by
        rw [hlin, Nat.mod_eq_of_lt hroom, memWrite_length _ _ _ le_rfl]
        omega
      exact { h with
        count := hlt
        room := hlen.trans_le hroom
        queue := .inr (by simp only [hlen]; omega) }
    · have hlen : (memWrite r.bitbuf ((r.head + r.count) % c.cap) b).length = c.cap := by
        rw [memWrite_length _ _ _ (by omega)]
        omega
      exact { h with count := hlt, room := hlen.le, queue := .inl hlen }
  · exact h

theorem pushBits_bounds {b : Bool} (k : Nat) (h : BsBounds c r) :
    BsBounds c (pushBits c.cap b k r).1 := by
  induction k generalizing r with
  | zero => exact h
  | succ k ih => exact ih (pushBit_bounds h)

theorem processRun_bounds {len : Nat} {old : Bool} (h : BsBounds c r) :
    BsBounds c (processRun M c r len old).1 := by
  unfold processRun
  split
  · unfold bsConvert
    dsimp only
    split
    · exact h
    · exact pushBits_bounds _ h
  · exact bsSearch_bounds h

theorem bsMeasure_bounds {lv : Bool} (h : BsBounds c r) : BsBounds c (bsMeasure M c r lv).1 := by
  unfold bsMeasure
  split
  · split
    · exact { h with run := satInc32_le _ }
    · exact processRun_bounds { h with level := fun _ => rfl, run := one_le_u32Max }
  · exact { h with level := fun _ => rfl, run := one_le_u32Max }

/-- A bit that is taken leaves the rest of the queue where it is. -/
theorem takeBit_bounds (h : BsBounds c r) : BsBounds c (takeBit c r).1 := by
  unfold takeBit
  split
  · exact h
  · rename_i hne
    refine { h with
      head := Nat.mod_lt _ (Nat.zero_lt_of_lt h.head)
      count := (Nat.sub_le _ _).trans h.count
      queue := ?_ }
    obtain hroom | hfull := Nat.lt_or_eq_of_le h.room
    · have hlin := h.linear hroom
      right
      simp only [Nat.mod_eq_of_lt (show r.head + 1 < c.cap by omega)]
      omega
    · exact .inl hfull

theorem bsTick_bounds {lv : Bool} (h : BsBounds c r) : BsBounds c (bsTick M c r lv).1 :=
  { takeBit_bounds (bsMeasure_bounds (M := M) (lv := lv) h) with }

end Tick

/-! ### BCH (rule R39) -/

/-- A code that is built is well formed where the checks of rule R231 pass. -/
theorem buildCode_wf {g n k t fp : Nat} (hk : 1 ≤ k) (hkn : k < n) (ht : 1 ≤ t)
    (hm : 2 ≤ fieldExponent n ∧ fieldExponent n ≤ Config.bchMaxM) (hg : Nat.log2 g = n - k)
    (hfp : Nat.log2 fp = fieldExponent n)
    (hbuilt : (primitive (buildCode g n k t fp).exp &&
      rootsFrom (buildCode g n k t fp) (2 * (buildCode g n k t fp).t) 1) = true) :
    (buildCode g n k t fp).wf = true := by
  rw [Bool.and_eq_true] at hbuilt
  simp only [BchCode.wf, hbuilt.1, hbuilt.2, Bool.and_true]
  simp [buildCode, hk, hkn, ht, hm, hg, hfp]

/-- The checks of rule R231 are those that a configured code satisfies. -/
theorem bchConfig_wf (g : Nat) (n k t : I32) (fp : Nat) :
    Yields (fun c => c.wf = true) (bchConfig g n k t fp) := by
  intro c hc
  unfold bchConfig at hc
  simp only at hc
  split at hc
  · rename_i hparams
    split at hc
    · rename_i hfield
      obtain ⟨hm2, hm, -, hg, -⟩ := hfield
      split at hc
      · cases hc
      · split at hc
        · rename_i hfp
          split at hc <;> cases hc
          rename_i hbuilt
          exact buildCode_wf (by omega) (by omega) (by omega) ⟨hm2, hm⟩ hg hfp hbuilt
        · cases hc
    · cases hc
  · cases hc

/-! ### HD (rule R40) -/

/-- The ranges of rule R40, one by one. -/
structure HdBounds (h : Hd) : Prop where
  cnt8 : h.cnt8 ≤ 7
  nflag : h.nflag ≤ 255
  ones : h.ones ≤ 5
  accn : h.accn ≤ 7
  blen : h.blen ≤ h.buf.length
  room : h.buf.length ≤ Config.hdMaxBytes

theorem hd_wf_iff {h : Hd} : h.wf = true ↔ HdBounds h := by
  simp only [Hd.wf, Bool.and_eq_true, decide_eq_true_eq, and_assoc]
  exact ⟨fun ⟨h1, h2, h3, h4, h5, h6⟩ => ⟨h1, h2, h3, h4, h5, h6⟩,
    fun ⟨h1, h2, h3, h4, h5, h6⟩ => ⟨h1, h2, h3, h4, h5, h6⟩⟩

theorem hdReset_bounds : HdBounds Hd.reset :=
  ⟨Nat.zero_le _, Nat.zero_le _, Nat.zero_le _, Nat.zero_le _, Nat.zero_le _, Nat.zero_le _⟩

section Tick

variable {h : Hd}

theorem clearDatapath_bounds (hb : HdBounds h) : HdBounds (clearDatapath h) :=
  { hb with ones := Nat.zero_le _, accn := Nat.zero_le _, blen := Nat.zero_le _ }

theorem hdFinalize_bounds (hb : HdBounds h) : HdBounds (hdFinalize h).1 :=
  clearDatapath_bounds { hb with cnt8 := Nat.zero_le _, nflag := Nat.zero_le _ }

theorem storeBit_bounds {b : Bool} (hb : HdBounds h) : HdBounds (storeBit h b) := by
  unfold storeBit
  dsimp only
  split
  · split
    · rename_i hroom
      have hlen := memWrite_length h.buf h.blen (h.acc ||| BitVec.ofNat 8 b.toNat <<< h.accn) hb.blen
      have hmax := hb.room
      exact { hb with
        accn := Nat.zero_le _
        blen := by simp only [hlen]; omega
        room := by simp only [hlen]; omega }
    · exact { hb with accn := Nat.zero_le _ }
  · have := hb.accn
    exact { hb with accn := by simp only; omega }

theorem destuffStore_bounds {b : Bool} (hb : HdBounds h) : HdBounds (destuffStore h b).1 := by
  unfold destuffStore
  have hones := hb.ones
  split
  · split
    · exact hb
    · exact { hb with ones := Nat.zero_le _ }
  · refine { storeBit_bounds (b := b) hb with ones := ?_ }
    dsimp only
    split <;> omega

theorem replay_bounds {bs : List Bool} (hb : HdBounds h) : HdBounds (replay bs h).1 := by
  induction bs generalizing h with
  | nil => exact hb
  | cons b bs ih =>
    have hd := destuffStore_bounds (b := b) hb
    unfold replay
    split
    · rename_i h' heq
      rw [heq] at hd
      exact hdFinalize_bounds hd
    · rename_i h' _ _ heq
      rw [heq] at hd
      exact ih hd

theorem moreFlags_le (n : Nat) : moreFlags n ≤ 255 := Nat.min_le_right _ _

theorem hdWaitData_bounds (hb : HdBounds h) : HdBounds (hdWaitData h).1 := by
  unfold hdWaitData
  split
  · split
    · exact { hb with cnt8 := Nat.zero_le _, nflag := moreFlags_le _ }
    · exact replay_bounds (clearDatapath_bounds { hb with cnt8 := Nat.zero_le _ })
  · have := hb.cnt8
    exact { hb with cnt8 := by simp only; omega }

theorem hdCountFlag_bounds (hb : HdBounds h) : HdBounds (hdCountFlag h).1 := by
  unfold hdCountFlag
  split
  · exact hdWaitData_bounds { hb with }
  · split
    · split
      · exact { hb with cnt8 := Nat.zero_le _, nflag := moreFlags_le _ }
      · exact { hb with cnt8 := Nat.zero_le _, nflag := Nat.zero_le _ }
    · have := hb.cnt8
      exact { hb with cnt8 := by simp only; omega }

theorem hdWaitFlag_bounds (hb : HdBounds h) : HdBounds (hdWaitFlag h).1 := by
  unfold hdWaitFlag
  split
  · exact { hb with cnt8 := Nat.zero_le _, nflag := by simp }
  · exact hb

theorem hdWaitEnd_bounds {b : Bool} (hb : HdBounds h) : HdBounds (hdWaitEnd h b).1 := by
  have hd := destuffStore_bounds (b := b) hb
  unfold hdWaitEnd
  split
  · rename_i h' heq
    rw [heq] at hd
    exact hdFinalize_bounds hd
  · rename_i h' _ _ heq
    rw [heq] at hd
    split
    · exact hdFinalize_bounds hd
    · exact hd

theorem hdTick_bounds {b : Bool} (hb : HdBounds h) : HdBounds (hdTick h b).1 := by
  have hraw : HdBounds { h with raw := shiftIn h.raw b } := { hb with }
  have hdisp : HdBounds (hdDispatch { h with raw := shiftIn h.raw b } b).1 := by
    unfold hdDispatch
    split
    · exact hdWaitFlag_bounds hraw
    · exact hdCountFlag_bounds hraw
    · exact hdWaitData_bounds hraw
    · exact hdWaitEnd_bounds hraw
  exact { hdisp with }

end Tick

/-! ### PG (rules R41, R42) -/

/-- The ranges of rules R41 and R42, one by one. -/
structure PgBounds (par : Params) (p : Pg) : Prop where
  alt : p.alt ≤ par.pgPreMax + 1
  search : p.search ≤ Config.pgSearchMax + 1
  nbits : p.nbits ≤ 31
  cwidx : p.cwidx ≤ 15
  parerr : p.parerr ≤ Config.u32Max
  ndata : p.msg.ndata ≤ Config.u32Max
  sr7n : p.msg.sr7n ≤ 6

theorem pg_wf_iff {par : Params} {p : Pg} : p.wf par = true ↔ PgBounds par p := by
  simp only [Pg.wf, Bool.and_eq_true, decide_eq_true_eq, and_assoc]
  exact ⟨fun ⟨h1, h2, h3, h4, h5, h6, h7⟩ => ⟨h1, h2, h3, h4, h5, h6, h7⟩,
    fun ⟨h1, h2, h3, h4, h5, h6, h7⟩ => ⟨h1, h2, h3, h4, h5, h6, h7⟩⟩

theorem pgResetColumn_bounds (par : Params) (zero : RealVal) : PgBounds par (Pg.reset zero) :=
  ⟨Nat.zero_le _, Nat.zero_le _, Nat.zero_le _, Nat.zero_le _, Nat.zero_le _, Nat.zero_le _,
    Nat.zero_le _⟩

/-- `finalize()` leaves a new message and nothing else, whatever it emits (rule R314). -/
theorem pgFinalize_pg (p : Pg) : (pgFinalize p).pg = newMsg p := by
  unfold pgFinalize; split <;> rfl

section Tick

variable {par : Params} {p : Pg}

theorem newMsg_bounds (h : PgBounds par p) : PgBounds par (newMsg p) :=
  { h with ndata := Nat.zero_le _, sr7n := Nat.zero_le _ }

/-- `pg_reset()` keeps the count of parity errors and clears the rest (rule R317). -/
theorem pgReset_bounds (h : p.parerr ≤ Config.u32Max) : PgBounds par (pgReset p) :=
  ⟨Nat.zero_le _, Nat.zero_le _, Nat.zero_le _, Nat.zero_le _, h, Nat.zero_le _, Nat.zero_le _⟩

theorem loseSync_bounds {why : Event} (h : p.parerr ≤ Config.u32Max) :
    PgBounds par (loseSync why p).pg :=
  pgReset_bounds (by rw [pgFinalize_pg]; exact h)

theorem pgSearch_bounds {b : Bool} (h : PgBounds par p) : PgBounds par (pgSearch par p b).pg := by
  unfold pgSearch
  split
  · split
    · exact { h with nbits := Nat.zero_le _, cwidx := Nat.zero_le _ }
    · split
      · exact { h with nbits := Nat.zero_le _, cwidx := Nat.zero_le _ }
      · split
        · exact loseSync_bounds h.parerr
        · exact { h with search := by simp only [PgOut.quiet]; omega }
  · exact { h with }

theorem pgPreamble_bounds {b : Bool} (h : PgBounds par p) : PgBounds par (pgPreamble par p b).pg := by
  unfold pgPreamble
  split
  · exact pgSearch_bounds h
  · split
    · split
      · exact loseSync_bounds h.parerr
      · exact pgSearch_bounds { h with alt := by simp only; omega }
    · split
      · exact pgSearch_bounds { h with search := Nat.zero_le _ }
      · exact loseSync_bounds h.parerr

/-- Seven bits of text leave the character register, so that it never holds seven (rule R315). -/
theorem foldl_pushTextBit_bounds (bits : List Bool) {m : PgMsg} (h : m.sr7n ≤ 6) :
    (bits.foldl pushTextBit m).sr7n ≤ 6 ∧ (bits.foldl pushTextBit m).ndata = m.ndata := by
  induction bits generalizing m with
  | nil => exact ⟨h, rfl⟩
  | cons b bits ih =>
    have hm : (pushTextBit m b).sr7n ≤ 6 ∧ (pushTextBit m b).ndata = m.ndata := by
      unfold pushTextBit
      dsimp only
      split
      · exact ⟨Nat.zero_le _, rfl⟩
      · exact ⟨by simp only; omega, rfl⟩
    obtain ⟨hn, hd⟩ := ih hm.1
    exact ⟨hn, hd.trans hm.2⟩

theorem appendData_counts {m : PgMsg} (d : BitVec 20) (h : m.sr7n ≤ 6) :
    (appendData m d).ndata ≤ Config.u32Max ∧ (appendData m d).sr7n ≤ 6 := by
  unfold appendData
  dsimp only
  generalize payloadBits d = bits
  obtain ⟨hn, hd⟩ := foldl_pushTextBit_bounds bits (m := { m with ndata := satInc32 m.ndata }) h
  exact ⟨hd.trans_le (satInc32_le _), hn⟩

theorem PgBounds.withMsg {m : PgMsg} (h : PgBounds par p) (hd : m.ndata ≤ Config.u32Max)
    (hn : m.sr7n ≤ 6) : PgBounds par { p with msg := m } :=
  { h with ndata := hd, sr7n := hn }

theorem pgClassify_bounds {d : BitVec 21} {idx : Nat} (h : PgBounds par p) :
    PgBounds par (pgClassify par p d idx).pg := by
  unfold pgClassify
  split
  · rw [pgFinalize_pg]; exact newMsg_bounds h
  · split
    · dsimp only
      rw [pgFinalize_pg]
      exact (newMsg_bounds h).withMsg (Nat.zero_le _) (Nat.zero_le _)
    · obtain ⟨hd, hn⟩ := appendData_counts (d.extractLsb' 0 20) h.sr7n
      unfold PgOut.quiet
      dsimp only
      exact h.withMsg hd hn

theorem pgDecodeWord_bounds {w : BitVec 31} {idx : Nat} (h : PgBounds par p) :
    PgBounds par (pgDecodeWord par p w idx).pg := by
  unfold pgDecodeWord
  split
  · exact h.withMsg h.ndata h.sr7n
  · exact pgClassify_bounds h

theorem pgCodeword_bounds {cw : BitVec 32} {idx : Nat} (h : PgBounds par p) :
    PgBounds par (pgCodeword par p cw idx).pg := by
  have hpar : PgBounds par (pgParity p cw idx).1 := by
    unfold pgParity
    split
    · exact { h with parerr := satInc32_le _ }
    · exact h
  exact pgDecodeWord_bounds hpar

theorem pgShift_bounds {b : Bool} (h : PgBounds par p) : PgBounds par (pgShift p b).1 := by
  unfold pgShift
  dsimp only
  split
  · exact { h with nbits := by simp only; omega }
  · exact { h with nbits := Nat.zero_le _ }

theorem pgNextWord_bounds (h : PgBounds par p) : PgBounds par (pgNextWord p) := by
  have hle := h.cwidx
  unfold pgNextWord
  split
  · exact { h with cwidx := Nat.zero_le _ }
  · rename_i hne
    have : p.cwidx + 1 ≠ 16 := hne
    exact { h with cwidx := by simp only; omega }

theorem pgBatch_bounds {b : Bool} (h : PgBounds par p) : PgBounds par (pgBatch par p b).pg := by
  have hs := pgShift_bounds (b := b) h
  unfold pgBatch
  dsimp only
  split
  · exact pgNextWord_bounds (pgCodeword_bounds hs)
  · exact hs

theorem pgImmediate_bounds {b : Bool} (h : PgBounds par p) : PgBounds par (pgImmediate par p b).pg := by
  have hs := pgShift_bounds (b := b) h
  unfold pgImmediate
  dsimp only
  split
  · split
    · exact { hs with }
    · exact loseSync_bounds hs.parerr
  · exact hs

theorem pgTick_bounds {b : Bool} (h : PgBounds par p) : PgBounds par (pgTick par p b).pg := by
  have hdisp : PgBounds par (pgDispatch par p b).pg := by
    unfold pgDispatch
    split
    · exact { h with alt := Nat.zero_le _ }
    · exact pgPreamble_bounds { h with }
    · exact pgBatch_bounds h
    · exact pgImmediate_bounds h
  exact { hdisp with }

theorem pgRestart_bounds (h : PgBounds par p) : PgBounds par (pgRestart p).pg := by
  have hreset : PgBounds par (pgReset (pgFinalize p).pg) :=
    pgReset_bounds (by rw [pgFinalize_pg]; exact h.parerr)
  exact { hreset with }

theorem pgSync_bounds {baud : RealVal} (h : PgBounds par p) : PgBounds par (pgSync p baud).pg :=
  { pgRestart_bounds h with }

theorem pgSetFilter_bounds {f : Filter} (h : PgBounds par p) :
    PgBounds par { p with filter := f, last := [] } :=
  { h with }

end Tick

end Machine
end Sys2Proof
end

section
/-!
SUPPORT. What an operation of a leaf, codec or decoder writes: the unit it names, the ports, the
hand-off buffer and the count of free values (rule R30), and registers in their ranges.
-/

namespace Sys2Proof
namespace Machine

open Sys2Proof.Claims

/-- The registers of the block are in the ranges of rules R33 to R42, `PIPE.USED` holds the children of
every composite, no lock is held and no external node is in `UNCONF`. -/
structure InRange (s : State) : Prop where
  pipe : ∀ u ∈ s.pipe, Pipe.wf s.used u = true
  gz : ∀ u ∈ s.gz, u.wf = true
  fir : ∀ u ∈ s.fir, u.wf = true
  bq : ∀ u ∈ s.bq, u.wf = true
  ma : ∀ u ∈ s.ma, u.wf = true
  bs : ∀ u ∈ s.bs, u.wf = true
  bch : ∀ u ∈ s.bch, u.wf = true
  hd : ∀ u ∈ s.hd, HdBounds u
  pg : ∀ u ∈ s.pg, PgBounds s.par u
  locks : s.locks = []
  ext : ∀ e ∈ s.ext, e.ph ≠ .unconf

/-- What is asked of a well-formed state beside the parameters, the numbers of units and the forest. -/
theorem wf_iff {s : State} :
    s.wf = true ↔ s.par.wf = true ∧ s.counts = true ∧ s.forest = true ∧ InRange s := by
  simp only [State.wf, State.units, Bool.and_eq_true, List.all_eq_true, List.isEmpty_iff,
    hd_wf_iff, pg_wf_iff, bne_iff_ne, and_assoc]
  exact ⟨fun ⟨hpar, hcounts, h1, h2, h3, h4, h5, h6, h7, h8, h9, hlocks, hforest, hext⟩ =>
      ⟨hpar, hcounts, hforest, h1, h2, h3, h4, h5, h6, h7, h8, h9, hlocks, hext⟩,
    fun ⟨hpar, hcounts, hforest, h1, h2, h3, h4, h5, h6, h7, h8, h9, hlocks, hext⟩ =>
      ⟨hpar, hcounts, h1, h2, h3, h4, h5, h6, h7, h8, h9, hlocks, hforest, hext⟩⟩

/-- `s` with at most one unit of kind 1 to 8 replaced, that of the number given: by one that has left
`UNCONF`, and, where `G` holds, with its registers in their ranges. -/
inductive UnitWrite (G : Prop) (s : State) : Nat → Inst → State → Prop
  | nothing (k i) : UnitWrite G s k i s
  | gz (i) {v} (h : Renewed Gz.wf G v) : UnitWrite G s 1 i (putGz i v s)
  | fir (i) {v} (h : Renewed Fir.wf G v) : UnitWrite G s 2 i (putFir i v s)
  | bq (i) {v} (h : Renewed Bq.wf G v) : UnitWrite G s 3 i (putBq i v s)
  | ma (i) {v} (h : Renewed Ma.wf G v) : UnitWrite G s 4 i (putMa i v s)
  | bs (i) {v} (h : Renewed Bs.wf G v) : UnitWrite G s 5 i (putBs i v s)
  | bch (i) {v} (h : G → v.wf = true) : UnitWrite G s 6 i (putBch i v s)
  | hd (i) {v} (h : G → HdBounds v) : UnitWrite G s 7 i (putHd i v s)
  | pg (i) {v} (h : G → PgBounds s.par v) : UnitWrite G s 8 i (putPg i v s)

/-- `t` is `s` after an operation of the unit given: beside that unit, only the count of free values,
the hand-off buffer and the ports may differ. -/
def UnitOp (G : Prop) (s : State) (k : Nat) (i : Inst) (t : State) : Prop :=
  ∃ w n q o, UnitWrite G s k i w ∧ t = { w with freeIx := n, outq := q, out := o }

section Rules

variable {G : Prop} {s t : State} {k : Nat} {i : Inst}

theorem UnitWrite.op (h : UnitWrite G s k i t) : UnitOp G s k i t := ⟨t, _, _, _, h, rfl⟩

theorem UnitOp.emitOpt (h : UnitOp G s k i t) (m : Option Message) :
    UnitOp G s k i (emitOpt m t) := by
  obtain ⟨w, n, q, o, hw, rfl⟩ := h
  exact ⟨w, n, _, o, hw, emitOpt_eq _ _⟩

/-- An operation that answers is one of its unit where its rule is. -/
theorem UnitOp.conclude {a : Ans Done} (h : conclude s a = .next t)
    (ha : Yields (fun d => UnitOp G s k i d.st) a) : UnitOp G s k i t := by
  obtain ⟨e, -, rfl⟩ | ⟨d, hd, rfl⟩ := conclude_next.mp h
  · exact ⟨s, _, _, _, .nothing k i, rfl⟩
  · obtain ⟨w, n, q, o, hw, hst⟩ := ha d hd
    exact ⟨w, n, q, _, hw, congrArg (fun u => { u with out := ⟨.ok, d.res, d.evs, []⟩ }) hst⟩

theorem UnitOp.concludeBits {a : Ans (Done × List Delivered)} (h : concludeBits s a = .next t)
    (ha : Yields (fun r => UnitOp G s k i r.1.st) a) : UnitOp G s k i t := by
  obtain ⟨e, -, rfl⟩ | ⟨d, bits, hd, rfl⟩ := concludeBits_next.mp h
  · exact ⟨s, _, _, _, .nothing k i, rfl⟩
  · obtain ⟨w, n, q, o, hw, hst⟩ := ha _ hd
    exact ⟨w, n, q, _, hw, congrArg (fun u => { u with out := ⟨.ok, d.res, d.evs, bits⟩ }) hst⟩

/-- A unit that is handed on is one of the block, and so in its ranges where all are. -/
theorem yields_pick {α β : Type} {P : α → Prop} {Q : β → Prop} {l : List α}
    {f : α → Ans β} (hl : G → ∀ u ∈ l, P u) (hf : ∀ u, (G → P u) → Yields Q (f u)) :
    Yields Q (pick l i >>= f) := by
  intro y hy
  obtain ⟨u, hu, hy⟩ := bind_ok.mp hy
  exact hf u (fun h => hl h u (List.mem_of_getElem? (pick_ok.mp hu))) y hy

/-- The count of free values may have moved on before the unit is written. -/
theorem UnitOp.of_free {n : Nat} (h : UnitOp G { s with freeIx := n } k i t) : UnitOp G s k i t := by
  obtain ⟨w, n', q, o, hw, rfl⟩ := h
  cases hw with
  | nothing => exact ⟨_, n', q, o, .nothing k i, rfl⟩
  | gz _ h => exact ⟨_, n', q, o, .gz i h, rfl⟩
  | fir _ h => exact ⟨_, n', q, o, .fir i h, rfl⟩
  | bq _ h => exact ⟨_, n', q, o, .bq i h, rfl⟩
  | ma _ h => exact ⟨_, n', q, o, .ma i h, rfl⟩
  | bs _ h => exact ⟨_, n', q, o, .bs i h, rfl⟩
  | bch _ h => exact ⟨_, n', q, o, .bch i h, rfl⟩
  | hd _ h => exact ⟨_, n', q, o, .hd i h, rfl⟩
  | pg _ h => exact ⟨_, n', q, o, .pg i h, rfl⟩

theorem UnitOp.after_openReal {b : Bool} {y : RealVal} (h : UnitOp G (openReal b y s).2 k i t) :
    UnitOp G s k i t := by
  obtain ⟨-, hs⟩ | ⟨-, v, n, hs⟩ := openReal_cases b y s
  · rwa [hs] at h
  · rw [hs] at h; exact h.of_free

theorem UnitOp.after_openCplx {b : Bool} {y : Cplx} (h : UnitOp G (openCplx b y s).2 k i t) :
    UnitOp G s k i t := by
  obtain ⟨-, hs⟩ | ⟨-, v, n, hs⟩ := openCplx_cases b y s
  · rwa [hs] at h
  · rw [hs] at h; exact h.of_free

/-- The registers after a tick of a unit in RUN. -/
theorem renewed_run {C R : Type} {wf : Life C R → Bool} {c : C} {r r' : R}
    (hu : G → wf (.run c r) = true) (h : wf (.run c r) = true → wf (.run c r') = true) :
    Renewed wf G (.run c r') :=
  ⟨fun hg => h (hu hg), nofun⟩

/-! ### INIT and STEP of the leaves -/

section Leaves

variable (hG : G → InRange s)
include hG

theorem gzInitAt_op (i : Inst) (x : RealVal) :
    Yields (fun r => UnitOp G s 1 i r.2) (gzInitAt i x s) :=
  yields_pick (fun h => (hG h).gz) fun _ hu =>
    yields_then (gzInit_renewed hu _ x) fun _ hv => yields_ok (UnitWrite.gz i hv).op

theorem firInitAt_op (i : Inst) (x : RealVal) :
    Yields (fun r => UnitOp G s 2 i r.2) (firInitAt i x s) :=
  yields_pick (fun h => (hG h).fir) fun _ hu =>
    yields_then (firInit_renewed hu _ _ x) fun _ hv => yields_ok (UnitWrite.fir i hv).op

omit hG in
theorem bqInitAt_op (i : Inst) (x : RealVal) :
    Yields (fun r => UnitOp G s 3 i r.2) (bqInitAt i x s) :=
  yields_bind fun u =>
    yields_then (bqInit_renewed u _ x) fun _ hv => yields_ok (UnitWrite.bq i hv).op

theorem maInitAt_op (i : Inst) (x : RealVal) :
    Yields (fun r => UnitOp G s 4 i r.2) (maInitAt i x s) :=
  yields_pick (fun h => (hG h).ma) fun _ hu =>
    yields_then (maInit_renewed hu _ x) fun _ hv => yields_ok (UnitWrite.ma i hv).op

theorem bsInitAt_op (i : Inst) (x : RealVal) :
    Yields (fun r => UnitOp G s 5 i r.2) (bsInitAt i x s) :=
  yields_pick (fun h => (hG h).bs) fun _ hu =>
    yields_then (bsInit_renewed hu _ x) fun _ hv => yields_ok (UnitWrite.bs i hv).op

theorem gzStepAt_op (i : Inst) (x : RealVal) (q : Contract) :
    Yields (fun r => UnitOp G s 1 i r.2) (gzStepAt i x q s) := by
  refine yields_pick (fun h => (hG h).gz) fun u hu => ?_
  split
  · exact yields_ok (UnitWrite.gz i (renewed_run hu gzInsert_wf)).op.after_openReal
  · exact yields_error

theorem maStepAt_op (i : Inst) (x : RealVal) (q : Contract) :
    Yields (fun r => UnitOp G s 4 i r.2) (maStepAt i x q s) := by
  refine yields_pick (fun h => (hG h).ma) fun u hu => ?_
  split
  · exact yields_ok (UnitWrite.ma i (renewed_run hu maTick_wf)).op.after_openReal
  · exact yields_error

theorem firStepAt_op (i : Inst) (x : RealVal) (q : Contract) :
    Yields (fun r => UnitOp G s 2 i r.2) (firStepAt i x q s) := by
  refine yields_pick (fun h => (hG h).fir) fun u hu => ?_
  split
  · split
    · rename_i hring
      exact yields_ok (UnitWrite.fir i (renewed_run hu (firTick_wf hring))).op.after_openReal
    · exact yields_error
  · exact yields_error

theorem fircStepAt_op (i : Inst) (z : Cplx) (q : Contract) :
    Yields (fun r => UnitOp G s 2 i r.2) (fircStepAt i z q s) := by
  refine yields_pick (fun h => (hG h).fir) fun u hu => ?_
  split
  · split
    · rename_i hring
      exact yields_ok (UnitWrite.fir i (renewed_run hu (fircTick_wf hring))).op.after_openCplx
    · exact yields_error
  · exact yields_error

omit hG in
theorem bqStepAt_op (i : Inst) (x : RealVal) (q : Contract) :
    Yields (fun r => UnitOp G s 3 i r.2) (bqStepAt i x q s) := by
  refine yields_bind fun u => ?_
  split
  · split
    · rename_i hcx _
      exact yields_ok (UnitWrite.bq i ⟨fun _ => bqTick_wf hcx, nofun⟩).op.after_openReal
    · exact yields_error
  · exact yields_error

omit hG in
theorem bqcStepAt_op (i : Inst) (z : Cplx) (q : Contract) :
    Yields (fun r => UnitOp G s 3 i r.2) (bqcStepAt i z q s) := by
  refine yields_bind fun u => ?_
  split
  · split
    · rename_i hcx _
      exact yields_ok (UnitWrite.bq i ⟨fun _ => bqcTick_wf hcx, nofun⟩).op.after_openCplx
    · exact yields_error
  · exact yields_error

theorem bsStepAt_op (i : Inst) (lv : Bool) :
    Yields (fun r => UnitOp G s 5 i r.2.2) (bsStepAt i lv s) := by
  refine yields_pick (fun h => (hG h).bs) fun u hu => ?_
  split
  · refine yields_ok (UnitWrite.bs i (renewed_run hu fun h => ?_)).op
    obtain ⟨hc, hr⟩ := bs_run_wf.mp h
    exact bs_run_wf.mpr ⟨hc, bsTick_bounds hr⟩
  · exact yields_error

end Leaves

/-! ### The operations of units 1 to 8 -/

/-- A direct INIT or STEP is what its body is. -/
theorem direct_op {C β : Type} {l : List C} {inst : Inst} {n : Nid} {body : Ans (β × State)}
    (res : β → Result) (hbody : Yields (fun r => UnitOp G s k i r.2) body) :
    Yields (fun d : Done => UnitOp G s k i d.st) (do
      let _ ← pick l inst
      notOwned s n
      let (y, t) ← body
      .ok ⟨t, res y, []⟩) :=
  yields_bind fun _ => yields_bind fun _ => yields_then hbody fun _ hr => yields_ok hr

/-- A CONFIG replaces the registers under the lock of the node, which changes nothing else (rule R80). -/
theorem config_op {C U : Type} {l : List C} {inst : Inst} {a : Ans U} {wf : U → Prop} {put : U → State}
    (ha : Yields wf a) (h : ∀ u, wf u → UnitOp G s k i (put u)) :
    Yields (fun d : Done => UnitOp G s k i d.st) (do
      let _ ← pick l inst
      let u ← a
      .ok ⟨put u, .none, []⟩) :=
  yields_bind fun _ => yields_then ha fun u hu => yields_ok (h u hu)

/-- A GF or BCH data operation writes nothing. -/
theorem exec_bchData_op {i : Instr} (hi : isBchData i = true) (h : exec i s = .next t) :
    UnitOp G s 6 i.inst t := by
  have same : UnitOp G s 6 i.inst s := (UnitWrite.nothing 6 i.inst).op
  cases i
  case gfExp => exact UnitOp.conclude h (yields_bind fun _ => yields_ok same)
  case gfPow | bchEncode | bchSyndrome | bchCheck | bchCorrect | bchDecode =>
    exact UnitOp.conclude h (yields_bind fun _ => yields_bind fun _ => yields_ok same)
  case gfMul =>
    exact UnitOp.conclude h
      (yields_bind fun _ => yields_bind fun _ => yields_bind fun _ => yields_ok same)
  case gfLog | gfInv =>
    exact UnitOp.conclude h (yields_bind fun _ => yields_bind fun _ =>
      yields_ite yields_error (yields_ok same))
  all_goals cases hi

variable (hG : G → InRange s)
include hG

/-- A direct INIT of a leaf is an operation of its unit. -/
theorem exec_init_op {i : Instr} (hi : isInit i = true) (hk : unitRow i ≠ 0)
    (h : exec i s = .next t) : UnitOp G s (unitRow i) i.inst t := by
  cases i
  case pipeInit => exact absurd rfl hk
  case gzInit => exact UnitOp.conclude h (direct_op .rate (gzInitAt_op hG _ _))
  case firInit => exact UnitOp.conclude h (direct_op .rate (firInitAt_op hG _ _))
  case bqInit => exact UnitOp.conclude h (direct_op .rate (bqInitAt_op _ _))
  case maInit => exact UnitOp.conclude h (direct_op .rate (maInitAt_op hG _ _))
  case bsInit => exact UnitOp.conclude h (direct_op .rate (bsInitAt_op hG _ _))
  all_goals cases hi

/-- A direct STEP of a leaf is an operation of its unit. -/
theorem exec_step_op {i : Instr} (hi : isStep i = true) (hk : unitRow i ≠ 0)
    (h : exec i s = .next t) : UnitOp G s (unitRow i) i.inst t := by
  cases i
  case pipeStep => exact absurd rfl hk
  case gzStep => exact UnitOp.conclude h (direct_op (.sample <| some <| .real ·) (gzStepAt_op hG _ _ _))
  case firStep =>
    exact UnitOp.conclude h (direct_op (.sample <| some <| .real ·) (firStepAt_op hG _ _ _))
  case fircStep =>
    exact UnitOp.conclude h (direct_op (.sample <| some <| .cplx ·) (fircStepAt_op hG _ _ _))
  case bqStep => exact UnitOp.conclude h (direct_op (.sample <| some <| .real ·) (bqStepAt_op _ _ _))
  case bqcStep => exact UnitOp.conclude h (direct_op (.sample <| some <| .cplx ·) (bqcStepAt_op _ _ _))
  case maStep => exact UnitOp.conclude h (direct_op (.sample <| some <| .real ·) (maStepAt_op hG _ _ _))
  case bsStep =>
    refine UnitOp.concludeBits h (yields_bind fun _ => yields_bind fun _ => ?_)
    exact yields_then (bsStepAt_op hG _ _) fun _ hr => yields_ok hr
  all_goals cases hi

/-- An operation of a leaf, codec or decoder writes the unit it names, in its ranges where the block
was in them and the operation is one that the decoder gives. -/
theorem exec_unitOp {i : Instr} (hwf : G → i.wellFormed = true) (hk : 1 ≤ unitRow i ∧ unitRow i ≤ 8)
    (h : exec i s = .next t) : UnitOp G s (unitRow i) i.inst t := by
  have hnode : unitRow i ≠ 0 := by omega
  cases i
  case gzInit | firInit | bqInit | maInit | bsInit => exact exec_init_op hG rfl hnode h
  case gzStep | firStep | fircStep | bqStep | bqcStep | maStep | bsStep =>
    exact exec_step_op hG rfl hnode h
  case gfExp | gfLog | gfMul | gfInv | gfPow | bchEncode | bchSyndrome | bchCheck | bchCorrect
      | bchDecode => exact exec_bchData_op rfl h
  case gzConfig =>
    exact UnitOp.conclude h (config_op (gzConfig_renewed _ _ _) fun v hv => by
      rw [underLock_putGz]; exact (UnitWrite.gz _ hv).op)
  case firConfig =>
    exact UnitOp.conclude h (config_op (firConfig_renewed _ _ _ _ _ _ _) fun v hv => by
      rw [underLock_putFir]; exact (UnitWrite.fir _ hv).op)
  case firSetTaps =>
    exact UnitOp.conclude h (yields_bind fun u => yields_then (firSetTaps_renewed u _ _ _) fun v hv =>
      yields_ok (by rw [underLock_putFir]; exact (UnitWrite.fir _ hv).op))
  case bqConfig =>
    exact UnitOp.conclude h (config_op (bqConfig_renewed _ _ _ _ _ _) fun v hv => by
      rw [underLock_putBq]; exact (UnitWrite.bq _ hv).op)
  case maConfig =>
    exact UnitOp.conclude h (config_op (maConfig_renewed _) fun v hv => by
      rw [underLock_putMa]; exact (UnitWrite.ma _ hv).op)
  case bsConfig =>
    exact UnitOp.conclude h (config_op (bsConfig_renewed hwf _ _ _) fun v hv => by
      rw [underLock_putBs]; exact (UnitWrite.bs _ hv).op)
  case bsWaitForSync =>
    refine UnitOp.conclude h (yields_pick (fun h => (hG h).bs) fun u hu => ?_)
    split
    · refine yields_ok (UnitWrite.bs _ (renewed_run hu fun h => ?_)).op
      obtain ⟨hc, hr⟩ := bs_run_wf.mp h
      exact bs_run_wf.mpr ⟨hc, clearSync_bounds hc hr.spbc⟩
    · exact yields_error
  case bchConfig =>
    exact UnitOp.conclude h (config_op (bchConfig_wf _ _ _ _ _) fun c hc =>
      (UnitWrite.bch (v := .run c) _ fun _ => hc).op)
  case hdReset =>
    exact UnitOp.conclude h (yields_bind fun _ => yields_ok (UnitWrite.hd _ fun _ => hdReset_bounds).op)
  case hdStep =>
    refine UnitOp.conclude h (yields_pick (fun h => (hG h).hd) fun u hu => yields_ok ?_)
    exact (UnitWrite.hd _ fun h => hdTick_bounds (hu h)).op.emitOpt _
  case pgReset =>
    refine UnitOp.conclude h (yields_pick (fun h => (hG h).pg) fun u hu => yields_ok ?_)
    exact (UnitWrite.pg _ fun h => pgRestart_bounds (hu h)).op.emitOpt _
  case pgSync =>
    refine UnitOp.conclude h (yields_pick (fun h => (hG h).pg) fun u hu => yields_ok ?_)
    exact (UnitWrite.pg _ fun h => pgSync_bounds (hu h)).op.emitOpt _
  case pgStep =>
    refine UnitOp.conclude h (yields_pick (fun h => (hG h).pg) fun u hu => yields_ok ?_)
    exact (UnitWrite.pg _ fun h => pgTick_bounds (hu h)).op.emitOpt _
  case pgSetFilter =>
    refine UnitOp.conclude h (yields_pick (fun h => (hG h).pg) fun u hu => ?_)
    split
    · exact yields_error
    · exact yields_ok (UnitWrite.pg _ fun h => pgSetFilter_bounds (hu h)).op
  case pipeSerial | pipeParallel | pipeInit | pipeStep => exact absurd hk.1 (Nat.not_succ_le_zero 0)
  case outqDrain | coreReset => simp [unitRow] at hk

end Rules

end Machine

namespace Settled

open Sys2Proof.Machine Sys2Proof.Claims

/-- Settles O10: by what such an operation writes. -/
theorem unitsArePrivate : Obligations.UnitsArePrivate := by
  unfold Obligations.UnitsArePrivate
  intro i s t hlo hhi h
  rw [unitOf_eq] at *
  obtain ⟨w, n, q, o, hw, rfl⟩ :=
    exec_unitOp (G := False) False.elim False.elim ⟨hlo, hhi⟩ h
  generalize unitRow i = k at hw
  generalize i.inst = j at hw
  cases hw
  case nothing => simp
  all_goals simp [except, List.eraseIdx_set_eq]

end Settled
end Sys2Proof
end

section
/-!
SUPPORT. The invariant of the block (rule R377): what every operation keeps in its ranges, and the state
after reset.
-/

namespace Sys2Proof
namespace Machine

open Sys2Proof.Claims

/-- `t` has the owned nodes of `s`, and is in its ranges where `s` is. -/
structure KeepsRange (s t : State) : Prop where
  used : t.used = s.used
  inRange : InRange s → InRange t

namespace KeepsRange

variable {s t u : State}

theorem refl (s : State) : KeepsRange s s := ⟨rfl, id⟩

theorem trans (a : KeepsRange s t) (b : KeepsRange t u) : KeepsRange s u :=
  ⟨b.used.trans a.used, fun h => b.inRange (a.inRange h)⟩

end KeepsRange

section Writes

variable {G : Prop} {s t : State} {k : Nat} {i : Inst}

/-! ### The single writes -/

/-- A write in place: what holds of the elements of a list and of the new one holds of all. -/
theorem forall_mem_set {α : Type} {P : α → Prop} {l : List α} {u : α} (hl : ∀ v ∈ l, P v) (hu : P u)
    (j : Nat) : ∀ v ∈ l.set j u, P v := by
  intro v hv
  obtain hv | rfl := List.mem_or_eq_of_mem_set hv
  · exact hl v hv
  · exact hu

/-- The ports, the pending commands, the hand-off buffer and the count of free values have no range. -/
theorem InRange.ports (h : InRange s) (p : List Command) (o : Output) (n : Nat) (q : List Message) :
    InRange { s with pending := p, out := o, freeIx := n, outq := q } :=
  { h with }

theorem UnitWrite.inRange (hw : UnitWrite G s k i t) (hg : G) (h : InRange s) : InRange t := by
  cases hw with
  | nothing => exact h
  | gz _ hv => exact { h with gz := forall_mem_set h.gz (hv.wf hg) _ }
  | fir _ hv => exact { h with fir := forall_mem_set h.fir (hv.wf hg) _ }
  | bq _ hv => exact { h with bq := forall_mem_set h.bq (hv.wf hg) _ }
  | ma _ hv => exact { h with ma := forall_mem_set h.ma (hv.wf hg) _ }
  | bs _ hv => exact { h with bs := forall_mem_set h.bs (hv.wf hg) _ }
  | bch _ hv => exact { h with bch := forall_mem_set h.bch (hv hg) _ }
  | hd _ hv => exact { h with hd := forall_mem_set h.hd (hv hg) _ }
  | pg _ hv => exact { h with pg := forall_mem_set h.pg (hv hg) _ }

theorem UnitWrite.keepsTree (hw : UnitWrite G s k i t) : KeepsTree leftUnconf s t := by
  cases hw with
  | nothing => exact .refl _ s
  | gz _ hv => exact keepsTree_putGz fun _ _ _ => bne_iff_ne.mpr hv.left
  | fir _ hv => exact keepsTree_putFir fun _ _ _ => bne_iff_ne.mpr hv.left
  | bq _ hv => exact keepsTree_putBq fun _ _ _ => bne_iff_ne.mpr hv.left
  | ma _ hv => exact keepsTree_putMa fun _ _ _ => bne_iff_ne.mpr hv.left
  | bs _ hv => exact keepsTree_putBs fun _ _ _ => bne_iff_ne.mpr hv.left
  | bch | hd | pg => exact keepsTree_of_same rfl rfl rfl rfl rfl rfl rfl rfl rfl

theorem UnitOp.inRange (h : UnitOp G s k i t) (hg : G) (hs : InRange s) : InRange t := by
  obtain ⟨w, n, q, o, hw, rfl⟩ := h
  exact (hw.inRange hg hs).ports _ o n q

theorem UnitOp.keepsTree (h : UnitOp G s k i t) : KeepsTree leftUnconf s t := by
  obtain ⟨w, n, q, o, hw, rfl⟩ := h
  exact hw.keepsTree.trans (keepsTree_of_same rfl rfl rfl rfl rfl rfl rfl rfl rfl)

theorem UnitOp.keepsRange (h : UnitOp (InRange s) s k i t) : KeepsRange s t :=
  ⟨h.keepsTree.used, fun hs => h.inRange hs hs⟩

/-- The record of an external node is replaced by one that is not in `UNCONF`. -/
theorem keepsRange_putExt {n : Nid} {e : Ext} (he : InRange s → e.ph ≠ .unconf) :
    KeepsRange s (putExt n e s) := by
  refine ⟨rfl, fun h => { h with ext := fun x hx => ?_ }⟩
  obtain ⟨y, hy, rfl⟩ := List.mem_map.mp hx
  split
  · exact he h
  · exact h.ext y hy

theorem keepsRange_openSample (b : Bool) (o : Option Sample) : KeepsRange s (openSample b o s).2 := by
  obtain ⟨-, h⟩ | ⟨-, w, n, h, -⟩ := openSample_cases b o s
  · rw [h]; exact .refl s
  · rw [h]; exact ⟨rfl, fun hs => { hs with }⟩

/-- A composite that is put into RUN keeps its children, and they stay in `PIPE.USED`. -/
theorem keepsRange_runPipe {v : Pipe} {c : PipeCfg} (r : PipeReg) (hk : KeepsRange s t)
    (hv : s.pipe[i.toNat]? = some v) (hc : ∀ used, Pipe.wf used v = c.wf used) :
    KeepsRange s (putPipe i (.run c r) t) := by
  refine ⟨hk.used, fun h => ?_⟩
  have hwf : Pipe.wf t.used (.run c r) = true := by
    rw [hk.used]
    exact (hc _).symm.trans (h.pipe v (List.mem_of_getElem? hv))
  have ht := hk.inRange h
  exact { ht with pipe := forall_mem_set ht.pipe hwf _ }

end Writes

/-! ### INIT of a node -/

theorem extInitAt_keepsRange (n : Nid) (x : RealVal) (s : State) :
    Yields (fun r => KeepsRange s r.2) (extInitAt n x s) := by
  unfold extInitAt
  split
  · exact yields_error
  · rename_i e _
    have hleft : ∀ r st, (extInited s.num e x r st).ph ≠ .unconf := fun r st => by
      obtain ⟨l, b, he⟩ := extInited_eq s.num e x r st
      simp [he]
    exact yields_bind fun _ => yields_ok (keepsRange_putExt fun _ => hleft _ _)

theorem initLeaf_keepsRange (n : Nid) (x : RealVal) (s : State) :
    Yields (fun r => KeepsRange s r.2) (initLeaf n x s) := by
  unfold initLeaf
  split
  · exact fun r hr => (gzInitAt_op id _ _ r hr).keepsRange
  · exact fun r hr => (firInitAt_op id _ _ r hr).keepsRange
  · exact fun r hr => (bqInitAt_op _ _ r hr).keepsRange
  · exact fun r hr => (maInitAt_op id _ _ r hr).keepsRange
  · exact fun r hr => (bsInitAt_op id _ _ r hr).keepsRange
  · exact extInitAt_keepsRange _ _ _

section Children

variable {f : Nid → RealVal → State → Ans (RealVal × State)}
  (hf : ∀ n x s, Yields (fun r => KeepsRange s r.2) (f n x s))
include hf

theorem initSerial_keepsRange (l : List Nid) (x : RealVal) (s : State) :
    Yields (fun r => KeepsRange s r.2) (initSerial f l x s) := by
  induction l generalizing x s with
  | nil => exact yields_ok (.refl s)
  | cons c l ih =>
    exact yields_then (hf c x s) fun ⟨y, t⟩ ht => fun r hr => ht.trans (ih y t r hr)

theorem initParallel_keepsRange (l : List Nid) (x : RealVal) (s : State) :
    Yields (fun r => KeepsRange s r.2) (initParallel f l x s) := by
  induction l generalizing s with
  | nil => exact yields_ok (.refl s)
  | cons c l ih =>
    exact yields_then (hf c x s) fun ⟨y, t⟩ ht => yields_then (ih t) fun ⟨ys, u⟩ hu =>
      yields_ok (ht.trans hu)

theorem initChildren_keepsRange (c : PipeCfg) (x : RealVal) (s : State) :
    Yields (fun r => KeepsRange s r.2) (initChildren f c x s) := by
  unfold initChildren
  split
  · exact initSerial_keepsRange hf _ _ _
  · exact yields_then (initParallel_keepsRange hf c.child x s) fun ⟨ys, t⟩ ht =>
      yields_bind fun _ => yields_ok ht

theorem pipeInitAt_keepsRange (i : Inst) (x : RealVal) (s : State) :
    Yields (fun r => KeepsRange s r.2) (pipeInitAt f i x s) := by
  intro r hr
  obtain ⟨v, hv, hr⟩ := bind_ok.mp hr
  rw [pick_ok] at hv
  have key : ∀ c : PipeCfg, (∀ used, Pipe.wf used v = c.wf used) →
      Yields (fun r => KeepsRange s r.2) (do
        positiveRate s.num x
        let (y, t) ← initChildren f c x s
        .ok (y, putPipe i (.run c ⟨x, y, .start false⟩) t)) := fun c hc =>
    yields_bind fun _ => yields_then (initChildren_keepsRange hf c x s) fun ⟨y, t⟩ ht =>
      yields_ok (keepsRange_runPipe _ ht hv hc)
  cases v with
  | unconf => cases hr
  | conf c | run c _ => exact yields_ite (key c fun _ => rfl) yields_error r hr

end Children

/-- `init_node` keeps the block in its ranges (rule R142). -/
theorem initNode_keepsRange (k : Nat) (n : Nid) (x : RealVal) (s : State) :
    Yields (fun r => KeepsRange s r.2) (initNode k n x s) := by
  induction k generalizing n x s with
  | zero => exact yields_error
  | succ k ih => exact yields_ite (pipeInitAt_keepsRange ih _ _ _) (initLeaf_keepsRange _ _ _)

/-! ### STEP of a node -/

theorem extStepAt_keepsRange (n : Nid) (v : Sample) (s : State) :
    Yields (fun o => KeepsRange s o.st) (extStepAt n v s) := by
  unfold extStepAt
  split
  · exact yields_error
  · rename_i e he
    have hmem : e ∈ s.ext := List.mem_of_find?_eq_some he
    exact yields_ite yields_error (yields_ite yields_error
      (yields_ok (keepsRange_putExt fun h => (h.ext e hmem : e.ph ≠ .unconf))))

theorem stepLeaf_keepsRange (q : Contract) (n : Nid) (v : Sample) (s : State) :
    Yields (fun o => KeepsRange s o.st) (stepLeaf q n v s) := by
  unfold stepLeaf
  split
  · exact yields_map (gzStepAt_op id _ _ _) fun _ h => h.keepsRange
  · exact yields_map (firStepAt_op id _ _ _) fun _ h => h.keepsRange
  · exact yields_map (fircStepAt_op id _ _ _) fun _ h => h.keepsRange
  · exact yields_map (bqStepAt_op _ _ _) fun _ h => h.keepsRange
  · exact yields_map (bqcStepAt_op _ _ _) fun _ h => h.keepsRange
  · exact yields_map (maStepAt_op id _ _ _) fun _ h => h.keepsRange
  · exact yields_map (bsStepAt_op id _ _) fun _ h => h.keepsRange
  · exact yields_ite yields_error (extStepAt_keepsRange _ _ _)

section Children

variable {f : Nid → Sample → State → Ans Stepped}
  (hf : ∀ n v s, Yields (fun o => KeepsRange s o.st) (f n v s))
include hf

theorem stepSerial_keepsRange (l : List Nid) (v : Sample) (s : State) :
    Yields (fun o => KeepsRange s o.st) (stepSerial f l v s) := by
  induction l generalizing v s with
  | nil => exact yields_ok (.refl s)
  | cons c l ih =>
    refine yields_then (hf c v s) fun o ho => yields_ite (yields_ok ho) ?_
    split
    · exact yields_ok ho
    · exact yields_then (ih _ o.st) fun o' ho' => yields_ok (ho.trans ho')

theorem stepParallel_keepsRange (l : List Nid) (v : Sample) (s : State) :
    Yields (fun b => KeepsRange s b.st) (stepParallel f l v s) := by
  induction l generalizing s with
  | nil => exact yields_ok (.refl s)
  | cons c l ih =>
    refine yields_then (hf c v s) fun o ho => yields_ite (yields_ok ho) ?_
    exact yields_then (ih o.st) fun o' ho' => yields_ok (ho.trans ho')

theorem stepChildren_keepsRange (c : PipeCfg) (v : Sample) (s : State) :
    Yields (fun o => KeepsRange s o.1.st) (stepChildren f c v s) := by
  unfold stepChildren
  split
  · exact yields_map (stepSerial_keepsRange hf _ _ _) fun _ h => h
  · exact yields_then (stepParallel_keepsRange hf c.child v s) fun _ h => yields_ok h

end Children

theorem pipeStepAt_keepsRange {f : Contract → Nid → Sample → State → Ans Stepped}
    (hf : ∀ q n v s, Yields (fun o => KeepsRange s o.st) (f q n v s)) (i : Inst) (v : Sample)
    (q : Contract) (s : State) : Yields (fun o => KeepsRange s o.st) (pipeStepAt f i v q s) := by
  intro o ho
  obtain ⟨u, hu, ho⟩ := bind_ok.mp ho
  rw [pick_ok] at hu
  cases u with
  | unconf | conf c => cases ho
  | run c r =>
    refine yields_ite (P := fun o => KeepsRange s o.st)
      (yields_then (stepChildren_keepsRange (hf _) c v s) fun ⟨p, _⟩ hp => ?_) yields_error o ho
    exact yields_ok ((keepsRange_runPipe _ hp hu fun _ => rfl).trans (keepsRange_openSample _ _))

/-- `step_node` keeps the block in its ranges (rule R142). -/
theorem stepNode_keepsRange (k : Nat) (q : Contract) (n : Nid) (v : Sample) (s : State) :
    Yields (fun o => KeepsRange s o.st) (stepNode k q n v s) := by
  induction k generalizing q n v s with
  | zero => exact yields_error
  | succ k ih => exact yields_ite (pipeStepAt_keepsRange ih _ _ _ _) (stepLeaf_keepsRange _ _ _ _)

/-! ### Construction and reset -/

theorem pipe_wf_iff {used : List Nid} {u : Pipe} :
    Pipe.wf used u = true ↔
      u.ph ≠ .unconf → Pipe.children u ≠ [] ∧ ∀ n ∈ Pipe.children u, n ∈ used := by
  cases u <;> simp [Pipe.wf, PipeCfg.wf, Life.ph, Pipe.children]

/-- An empty list of children is no composite (rule R144). -/
theorem construct_nonempty {s : State} {i : Inst} {l : List Nid} {typed : List (Tag × Tag) → Bool}
    {cfg : List (Tag × Tag) → PipeCfg} {d : Done} (h : construct i l typed cfg s = .ok d) : l ≠ [] := by
  rintro rfl
  obtain ⟨v, -, h⟩ := bind_ok.mp h
  cases v <;> cases h

/-- The children of a new composite come to `PIPE.USED`, which loses none (rule R143). -/
theorem construct_inRange {s : State} {i : Inst} {l : List Nid} {typed : List (Tag × Tag) → Bool}
    {cfg : List (Tag × Tag) → PipeCfg} {d : Done} (hcfg : ∀ ts, (cfg ts).child = l)
    (h : construct i l typed cfg s = .ok d) (hs : InRange s) : InRange d.st := by
  have hne := construct_nonempty h
  obtain ⟨-, -, -, -, -, hst⟩ := construct_ok h
  rw [hst]
  refine { hs with pipe := forall_mem_set (fun u hu => ?_) ?_ _ }
  · refine pipe_wf_iff.mpr fun hph => ?_
    obtain ⟨hkids, hused⟩ := pipe_wf_iff.mp (hs.pipe u hu) hph
    exact ⟨hkids, fun n hn => List.mem_append_left l (hused n hn)⟩
  · refine pipe_wf_iff.mpr fun _ => ?_
    simp only [Pipe.children, hcfg]
    exact ⟨hne, fun n hn => List.mem_append_right s.used hn⟩

theorem forall_mem_resetAll {α : Type} {P : α → Prop} {u : α} (hu : P u) (l : List α) :
    ∀ v ∈ resetAll u l, P v := by
  intro v hv
  obtain ⟨_, -, rfl⟩ := List.mem_map.mp hv
  exact hu

/-- The reset column is in the ranges, whatever the registers were (rule R340). -/
theorem coreReset_inRange (s : State) : InRange (coreReset s) where
  pipe := forall_mem_resetAll (by rfl) _
  gz := forall_mem_resetAll (by rfl) _
  fir := forall_mem_resetAll (by rfl) _
  bq := forall_mem_resetAll (by rfl) _
  ma := forall_mem_resetAll (by rfl) _
  bs := forall_mem_resetAll (by rfl) _
  bch := forall_mem_resetAll (by rfl) _
  hd := forall_mem_resetAll hdReset_bounds _
  pg := forall_mem_resetAll (pgResetColumn_bounds _ _) _
  locks := rfl
  ext e he := by
    obtain ⟨x, -, rfl⟩ := List.mem_map.mp he
    simp [resetExt]

/-- No composite is constructed after reset, so that nothing is below any node. -/
theorem coreReset_forest (s : State) : (coreReset s).forest = true := by
  have kids : (coreReset s).pipe.map Pipe.children = s.pipe.map fun _ => [] := by
    simp [resetAll, Pipe.children]
  have below : ∀ k n, descendantsAre leftUnconf (coreReset s) (k + 1) n = true := by
    intro k n
    rw [descendantsAre_succ, childrenOf_eq, kids]
    rw [List.getElem?_map]
    cases s.pipe[(nidInst n).toNat]? <;> simp
  have none : (coreReset s).pipe.flatMap Pipe.children = [] := by
    rw [List.flatMap_def, kids]
    simp
  unfold State.forest
  rw [none]
  simp only [Bool.and_eq_true, List.all_eq_true]
  exact ⟨⟨rfl, rfl⟩, fun i _ => below _ _⟩

/-! ### Every operation -/

/-- `t` is well formed where `s` is, the parameters aside, which no operation writes. -/
structure Preserves (s t : State) : Prop where
  forest : s.forest = true → t.forest = true
  inRange : InRange s → InRange t

namespace Preserves

variable {s t u : State}

theorem of_keeps (hr : KeepsRange s t) (ht : KeepsTree leftUnconf s t) : Preserves s t :=
  ⟨ht.forest, hr.inRange⟩

theorem of_unitOp {k : Nat} {i : Inst} (h : UnitOp (InRange s) s k i t) : Preserves s t :=
  .of_keeps h.keepsRange h.keepsTree

theorem trans (a : Preserves s t) (b : Preserves t u) : Preserves s u :=
  ⟨fun h => b.forest (a.forest h), fun h => b.inRange (a.inRange h)⟩

/-- The ports, the pending commands, the hand-off buffer and the count of free values are in no range and
in no tree. -/
theorem ports (s : State) (p : List Command) (o : Output) (n : Nat) (q : List Message) :
    Preserves s { s with pending := p, out := o, freeIx := n, outq := q } :=
  ⟨KeepsTree.forest (keepsTree_of_same rfl rfl rfl rfl rfl rfl rfl rfl rfl), fun h => h.ports p o n q⟩

theorem conclude {a : Ans Done} (h : conclude s a = .next t)
    (ha : Yields (fun d => Preserves s d.st) a) : Preserves s t := by
  obtain ⟨e, -, rfl⟩ | ⟨d, hd, rfl⟩ := conclude_next.mp h
  · exact ports s _ _ _ _
  · exact (ha d hd).trans (ports d.st _ _ _ _)

theorem concludeBits {a : Ans (Done × List Delivered)} (h : concludeBits s a = .next t)
    (ha : Yields (fun r => Preserves s r.1.st) a) : Preserves s t := by
  obtain ⟨e, -, rfl⟩ | ⟨d, bits, hd, rfl⟩ := concludeBits_next.mp h
  · exact ports s _ _ _ _
  · exact (ha _ hd).trans (ports d.st _ _ _ _)

theorem settled (outT : Tag) (o : Stepped) : Preserves o.st (settled outT o).2 := by
  obtain ⟨-, h⟩ | ⟨-, w, n, h, -⟩ := settled_cases outT o
  · rw [h]; exact ⟨id, id⟩
  · rw [h]; exact ports o.st _ _ _ _

theorem construct {i : Inst} {l : List Nid} {typed : List (Tag × Tag) → Bool}
    {cfg : List (Tag × Tag) → PipeCfg} (hcfg : ∀ ts, (cfg ts).child = l) :
    Yields (fun d => Preserves s d.st) (construct i l typed cfg s) := fun _ hd =>
  ⟨construct_forest hcfg hd, construct_inRange hcfg hd⟩

/-- Every operation that the decoder gives (rule R377). -/
theorem exec {i : Instr} (hwf : unitRow i ≤ 8 → i.wellFormed = true) (h : exec i s = .next t) :
    Preserves s t := by
  by_cases hk : 1 ≤ unitRow i ∧ unitRow i ≤ 8
  · exact .of_unitOp (exec_unitOp id (fun _ => hwf hk.2) hk h)
  cases i
  case pipeSerial => exact conclude h (construct fun _ => rfl)
  case pipeParallel => exact conclude h (construct fun _ => rfl)
  case pipeInit =>
    refine conclude h (yields_bind fun _ => yields_bind fun _ => fun d hd => ?_)
    obtain ⟨⟨y, u⟩, hu, hd⟩ := bind_ok.mp hd
    cases hd
    exact .of_keeps (initNode_keepsRange _ _ _ _ _ hu) (initNode_keeps hu)
  case pipeStep =>
    refine concludeBits h (yields_bind fun _ => yields_bind fun _ => yields_bind fun _ => fun r hr => ?_)
    obtain ⟨o, ho, hr⟩ := bind_ok.mp hr
    cases hr
    exact (of_keeps (stepNode_keepsRange _ _ _ _ _ _ ho) (stepNode_keeps ho)).trans (settled _ o)
  case outqDrain =>
    refine conclude h (yields_bind fun _ => yields_ok ?_)
    rw [drain_eq]
    exact ports s _ _ _ _
  case coreReset =>
    exact conclude h (yields_bind fun _ => yields_ok
      ⟨fun _ => coreReset_forest s, fun _ => coreReset_inRange s⟩)
  all_goals exact absurd ⟨by simp [unitRow], by simp [unitRow]⟩ hk

/-- An INIT or STEP of an external node (rule R107). -/
theorem execExternal {n : Nid} {op : BitVec 4} {o : Operand} (h : execExternal n op o s = .next t) :
    Preserves s t := by
  refine conclude h ?_
  split
  · refine yields_bind fun _ => fun d hd => ?_
    obtain ⟨⟨y, u⟩, hu, hd⟩ := bind_ok.mp hd
    cases hd
    exact .of_keeps (extInitAt_keepsRange _ _ _ _ hu) (extInitAt_keeps hu)
  · refine yields_ite (yields_bind fun _ => fun d hd => ?_) yields_error
    obtain ⟨o, ho, hd⟩ := bind_ok.mp hd
    cases hd
    exact (of_keeps (extStepAt_keepsRange _ _ _ _ ho) (extStepAt_keeps ho)).trans (settled _ o)
  · exact yields_error

end Preserves

/-! ### The decoder -/

/-- The decoder takes as many rates as it was asked for. -/
theorem takeReals_length {n : Nat} {fs rest : List Field} {xs : List B32}
    (h : takeReals n fs = some (xs, rest)) : xs.length = n := by
  induction n generalizing fs xs with
  | zero => cases h; rfl
  | succ n ih =>
    unfold takeReals at h
    split at h
    case h_1 h0 => cases h0
    case h_2 h1 =>
      cases h1
      split at h <;> cases h
      rename_i htail
      exact congrArg (· + 1) (ih htail)
    case h_3 => cases h

/-- Only the fields of a parameter block give a BS.CONFIG (rules R102, R104). -/
theorem shaped_bsConfig {op : Op} {inst inst' : Inst} {o : Operand} {n : I32} {cand : List B32}
    {req cap : I32} (h : shaped op inst o = some (.bsConfig inst' n cand req cap)) :
    ∃ fs, bsFields inst fs = some (.bsConfig inst' n cand req cap) := by
  cases op <;> cases o
  case bsConfig.params fs => exact ⟨fs, h⟩
  case pipeSerial.nodes l m | pipeParallel.nodes l m => cases m <;> cases h
  case gzStep.sample v | firStep.sample v | fircStep.sample v | bqStep.sample v | bqcStep.sample v
      | maStep.sample v | bsStep.sample v | hdStep.sample v | pgStep.sample v => cases v <;> cases h
  case pgSync.word w =>
    by_cases hw : w < 2 ^ 32
    · cases (if_pos hw).symm.trans h
    · cases (if_neg hw).symm.trans h
  case gzConfig.params fs | firConfig.params fs | bqConfig.params fs | maConfig.params fs
      | bchConfig.params fs =>
    -- the fields are taken one by one; each must be of the kind the operation asks for
    repeat (rcases fs with _ | ⟨_ | _ | _, fs⟩ <;> try cases h)
  all_goals cases h

/-- A BS.CONFIG that the decoder gives has as many candidates as `C` says (rule R106). -/
theorem bsFields_candidates {inst inst' : Inst} {fs : List Field} {n : I32} {cand : List B32}
    {req cap : I32} (h : bsFields inst fs = some (.bsConfig inst' n cand req cap)) :
    candidatesMatch n cand = true := by
  unfold bsFields at h
  split at h
  · split at h <;> cases h
    rename_i htake
    exact beq_iff_eq.mpr (takeReals_length htake)
  · cases h

/-- What the decoder gives is well formed, the number of OUTQ and of the block aside, which is the
first check of the operation (rules R101, R106). -/
theorem decode_wellFormed {c : Command} {i : Instr} (h : decode c = .ok i) (hk : unitRow i ≤ 8) :
    i.wellFormed = true := by
  cases i
  case bsConfig =>
    unfold decode at h
    split at h
    · split at h <;> cases h
      rename_i hshaped
      obtain ⟨fs, hfs⟩ := shaped_bsConfig hshaped
      exact bsFields_candidates hfs
    · split at h <;> cases h
  case outqDrain | coreReset => simp [unitRow] at hk
  all_goals rfl

/-! ### Every step -/

theorem Preserves.runCommand {s t : State} {c : Command} (h : runCommand c s = .next t) :
    Preserves s t := by
  unfold Machine.runCommand at h
  split at h
  · rename_i hdec
    exact .exec (decode_wellFormed hdec) h
  · exact .execExternal h
  · cases h
    exact .ports s _ _ _ _

theorem Preserves.step {s t : State} (h : step s = .next t) : Preserves s t := by
  obtain ⟨-, rfl⟩ | ⟨c, rest, u, -, hu, rfl⟩ := step_next h
  · exact ⟨id, id⟩
  · exact (ports s rest _ _ _).trans ((runCommand hu).trans (ports u _ _ _ _))

/-- The numbers of units are parameters of the block (rule R101). -/
theorem counts_eq_of_parameters {s t : State} (h : parameters t = parameters s) :
    t.counts = s.counts := by
  simp only [parameters, Prod.mk.injEq, List.cons.injEq] at h
  simp [State.counts, countOk, h]

/-- The state after reset is the one that CORE.RESET leaves there (rule R341). -/
theorem coreReset_reset : coreReset State.reset = State.reset := rfl

end Machine

namespace Settled

open Sys2Proof.Machine Sys2Proof.Claims

/-- Settles O12: a step writes no parameter, keeps the forest, and leaves every register it writes in its
range. -/
theorem stepKeepsWellFormed : Obligations.StepKeepsWellFormed := by
  unfold Obligations.StepKeepsWellFormed
  intro s t hs h
  obtain ⟨hpar, hcounts, hforest, hrange⟩ := wf_iff.mp hs
  have hparams : parameters t = parameters s := parameters_opBlind.step (fun _ _ => rfl) h
  have hkeeps := Preserves.step h
  refine wf_iff.mpr ⟨?_, ?_, hkeeps.forest hforest, hkeeps.inRange hrange⟩
  · rwa [show t.par = s.par from congrArg Prod.fst hparams]
  · rwa [counts_eq_of_parameters hparams]

/-- Settles O13: the state after reset is one that CORE.RESET leaves. -/
theorem resetWellFormed : Obligations.ResetWellFormed := by
  unfold Obligations.ResetWellFormed
  rw [← coreReset_reset]
  exact wf_iff.mpr ⟨by decide, by decide, coreReset_forest _, coreReset_inRange _⟩

/-- Settles O15: every unit is a copy of its reset column. -/
theorem resetState : Obligations.ResetState := by
  unfold Obligations.ResetState
  have all : ∀ {α : Type} {P : α → Prop} {a : α}, P a → ∀ u ∈ List.replicate resetInstances a, P u :=
    fun h _ hu => List.eq_of_mem_replicate hu ▸ h
  refine ⟨all rfl, all rfl, all rfl, all rfl, all rfl, all rfl, all rfl, all ?_, all ?_,
    rfl, rfl, rfl, rfl, rfl⟩
  · exact ⟨rfl, rfl, rfl, rfl, rfl, rfl, rfl, rfl, rfl, rfl, rfl⟩
  · exact ⟨rfl, rfl, rfl, rfl, rfl, rfl, rfl, rfl, rfl, rfl, rfl, rfl, rfl, rfl, rfl, rfl, rfl, rfl,
      rfl, rfl, rfl, rfl, rfl⟩

end Settled
end Sys2Proof
end

section
/-!
SUPPORT. The STEP of the window units GZ and FIR (rules R162, R175, R176): a tick in the terms of rule
R71, where a sample is named by its age; what the tick rounds; and where its output is any value (U3,
U5).
-/

namespace Sys2Proof
namespace Machine

open Sys2Proof.Claims

/-! ### Rings (rule R71) -/

/-- A write below the end of a memory replaces an element. -/
theorem memWrite_of_lt {α : Type} {m : List α} {i : Nat} (h : i < m.length) (v : α) :
    memWrite m i v = m.set i v := if_pos h

/-- The age of a sample is counted back from the write pointer, around the ring. -/
theorem ringAge_eq_ringAt {α : Type} {m : List α} {len a : Nat} (hm : m.length = len) (ha : a < len)
    (wp : Nat) (d : α) : ringAge m wp len a d = ringAt m ((wp : Int) - 1 - (a : Int)) d := by
  have hidx : ((wp : Int) - 1 - (a : Int)) % (m.length : Int) = ((wp + len - 1 - a) % len : Nat) := by
    rw [hm, ← Int.add_emod_right]
    push_cast
    congr 1
    omega
  rw [ringAt, hidx, Int.toNat_natCast]
  rfl

/-- A part of the sample of an age is the sample of that age in the ring of the parts. -/
theorem ringAge_map {α β : Type} (f : α → β) (m : List α) (wp len a : Nat) (d : α) :
    ringAge (m.map f) wp len a (f d) = f (ringAge m wp len a d) := List.getD_map ..

theorem range_reverse (n : Nat) :
    (List.range n).reverse = (List.range n).map fun j => n - 1 - j := by
  apply List.ext_getElem <;> simp

/-- The recurrence of rule R162 over the window runs through the ages, the oldest sample first. -/
theorem gzScan_ringWindow {M : Numerics} {ring : List RealVal} {n : Nat} (hring : ring.length = n)
    (coeff : RealVal) (wp : Nat) (d : RealVal) :
    gzScan M coeff (ringWindow ring wp n d) =
      (List.range n).reverse.foldl
        (fun v (a : Nat) =>
          (M.add (M.sub (M.mul coeff v.1) v.2) (ringAt ring ((wp : Int) - 1 - (a : Int)) d), v.1))
        (M.zero, M.zero) := by
  rw [gzScan, ringWindow, List.foldl_map, range_reverse, List.foldl_map]
  refine List.foldl_ext _ _ _ fun v j hj => ?_
  rw [ringAge_eq_ringAt hring (by have := List.mem_range.mp hj; omega)]

/-- The registers after the insertion (rule R162). -/
theorem gzInsert_eq {c : GzCfg} {r : GzReg} (hring : r.ring.length = c.n) (hwp : r.wp < c.n)
    (M : Numerics) (x : RealVal) (q : Contract) :
    gzInsert M c r x q =
      { r with
        ring := r.ring.set r.wp x, wp := (r.wp + 1) % c.n
        standing := r.standing.after q (!M.exact) (M.fin x) } := by
  unfold gzInsert
  rw [memWrite_of_lt (hring ▸ hwp)]
  rfl

/-- The output of a tick, the samples named by their age (rule R162). -/
theorem gzOutput_eq {c : GzCfg} {r : GzReg} (hring : r.ring.length = c.n) (M : Numerics) :
    gzOutput M c r = gzMagnitude M r.coeff
      ((List.range c.n).reverse.foldl
        (fun v (a : Nat) =>
          (M.add (M.sub (M.mul r.coeff v.1) v.2)
            (ringAt r.ring ((r.wp : Int) - 1 - (a : Int)) M.zero), v.1))
        (M.zero, M.zero)) := by
  rw [gzOutput, gzScan_ringWindow hring]

/-! ### Sums of taps times samples (rules R175, R176) -/

/-- The sum of tap `i` times the sample of age `i`, for the first `n` taps, from `i = 0`. -/
def tapSum (M : Numerics) (tap old : Nat → RealVal) (n : Nat) : RealVal :=
  (List.range n).foldl (fun y i => M.add y (M.mul (tap i) (old i))) M.zero

/-- A product or a sum on the way to `tapSum` is rounded. -/
def tapRounds (M : Numerics) (tap old : Nat → RealVal) (n : Nat) : Bool :=
  (List.range n).any fun i =>
    M.rounds (.mul (tap i) (old i)) || M.rounds (.add (tapSum M tap old i) (M.mul (tap i) (old i)))

section Sums

variable {M : Numerics} {tap old old' : Nat → RealVal} {n : Nat}

theorem tapSum_succ (M : Numerics) (tap old : Nat → RealVal) (n : Nat) :
    tapSum M tap old (n + 1) = M.add (tapSum M tap old n) (M.mul (tap n) (old n)) := by
  simp [tapSum, List.range_succ]

theorem tapRounds_succ (M : Numerics) (tap old : Nat → RealVal) (n : Nat) :
    tapRounds M tap old (n + 1) = (tapRounds M tap old n ||
      (M.rounds (.mul (tap n) (old n)) ||
        M.rounds (.add (tapSum M tap old n) (M.mul (tap n) (old n))))) := by
  simp [tapRounds, List.range_succ]

theorem tapSum_congr (h : ∀ i < n, old i = old' i) : tapSum M tap old n = tapSum M tap old' n :=
  List.foldl_ext _ _ _ fun y i hi => by rw [h i (List.mem_range.mp hi)]

theorem tapRounds_congr (h : ∀ i < n, old i = old' i) :
    tapRounds M tap old n = tapRounds M tap old' n := by
  induction n with
  | zero => rfl
  | succ n ih =>
    have hlt : ∀ i < n, old i = old' i := fun i hi => h i (by omega)
    rw [tapRounds_succ, tapRounds_succ, ih hlt, tapSum_congr hlt, h n (by omega)]

/-- The tick carries its sum and whether it has been rounded through one pass over the taps. -/
theorem foldl_tapRounds (M : Numerics) (tap old : Nat → RealVal) (n : Nat) :
    (List.range n).foldl
        (fun (a : Bool × RealVal) i =>
          (a.1 || M.rounds (.mul (tap i) (old i)) || M.rounds (.add a.2 (M.mul (tap i) (old i))),
            M.add a.2 (M.mul (tap i) (old i))))
        (false, M.zero) = (tapRounds M tap old n, tapSum M tap old n) := by
  induction n with
  | zero => rfl
  | succ n ih =>
    rw [List.range_succ, List.foldl_append, ih, tapSum_succ, tapRounds_succ, ← Bool.or_assoc]
    rfl

/-- A complex sum is the sum of the real parts and the sum of the imaginary parts. -/
theorem tapSum_parts (M : Numerics) (tap : Nat → RealVal) (old : Nat → Cplx) (n : Nat) :
    (List.range n).foldl
        (fun (y : Cplx) i =>
          ⟨M.add y.re (M.mul (tap i) (old i).re), M.add y.im (M.mul (tap i) (old i).im)⟩)
        ⟨M.zero, M.zero⟩ =
      ⟨tapSum M tap (fun i => (old i).re) n, tapSum M tap (fun i => (old i).im) n⟩ := by
  induction n with
  | zero => rfl
  | succ n ih => simp [List.range_succ, ih, tapSum_succ]

end Sums

section Ring

variable (M : Numerics) (taps : List RealVal) (wp te : Nat)

theorem firRounds_eq_tapRounds (ring : List RealVal) :
    firRounds M taps ring wp te =
      tapRounds M (memRead taps · M.zero) (ringAge ring wp te · M.zero) te :=
  congrArg Prod.fst (foldl_tapRounds M _ _ te)

variable {M taps wp te}

/-- The convolution of rule R175, the samples named by their age. -/
theorem firSum_eq_tapSum {ring : List RealVal} (hring : ring.length = te) :
    firSum M taps ring wp te =
      tapSum M (fun i => taps.getD i M.zero)
        (fun (i : Nat) => ringAt ring ((wp : Int) - 1 - (i : Int)) M.zero) te :=
  tapSum_congr fun _ hi => ringAge_eq_ringAt hring hi wp M.zero

theorem firRounds_eq {ring : List RealVal} (hring : ring.length = te) :
    firRounds M taps ring wp te =
      tapRounds M (fun i => taps.getD i M.zero)
        (fun (i : Nat) => ringAt ring ((wp : Int) - 1 - (i : Int)) M.zero) te :=
  (firRounds_eq_tapRounds M taps wp te ring).trans
    (tapRounds_congr fun _ hi => ringAge_eq_ringAt hring hi wp M.zero)

/-- The convolution of rule R176, by parts. -/
theorem fircSum_eq {ring : List Cplx} (hring : ring.length = te) :
    fircSum M taps ring wp te =
      (List.range te).foldl
        (fun (y : Cplx) (i : Nat) =>
          let z := ringAt ring ((wp : Int) - 1 - (i : Int)) ⟨M.zero, M.zero⟩
          ⟨M.add y.re (M.mul (taps.getD i M.zero) z.re), M.add y.im (M.mul (taps.getD i M.zero) z.im)⟩)
        ⟨M.zero, M.zero⟩ := by
  refine List.foldl_ext _ _ _ fun y i hi => ?_
  rw [ringAge_eq_ringAt hring (List.mem_range.mp hi)]
  rfl

/-- The convolution of one part of complex samples rounds what that of the part's ring does. -/
theorem firRounds_map {ring : List Cplx} (hring : ring.length = te) {part : Cplx → RealVal}
    (hpart : part ⟨M.zero, M.zero⟩ = M.zero) :
    firRounds M taps (ring.map part) wp te =
      tapRounds M (fun i => taps.getD i M.zero)
        (fun (i : Nat) => part (ringAt ring ((wp : Int) - 1 - (i : Int)) ⟨M.zero, M.zero⟩)) te := by
  rw [firRounds_eq_tapRounds]
  refine tapRounds_congr fun i hi => ?_
  have hage := ringAge_map part ring wp te i ⟨M.zero, M.zero⟩
  rw [hpart] at hage
  rw [← ringAge_eq_ringAt hring hi]
  exact hage

end Ring

/-! ### Open outputs (U3, U5) -/

/-- `q` says of a sample what the tests of the statements say of it: whether it is a number, and if so
whether it is in `[-1, 1]`. -/
structure Judges (q : Contract) (number inside : Bool) : Prop where
  notNumber : q = .notNumber → number = false
  outside : q ≠ .notNumber → (q = .outOfRange ↔ inside = false)

theorem realContract_judges (M : Numerics) (x : RealVal) :
    Judges (realContract M x) (M.fin x) (M.inRange x) := by
  unfold realContract
  cases M.fin x <;> cases M.inRange x <;> exact ⟨by simp, by simp⟩

theorem cplxContract_judges (M : Numerics) (z : Cplx) :
    Judges (cplxContract M z) (M.finC z) (M.inRange z.re && M.inRange z.im) := by
  obtain ⟨hre, hre'⟩ := realContract_judges M z.re
  obtain ⟨him, him'⟩ := realContract_judges M z.im
  unfold cplxContract Numerics.finC
  generalize realContract M z.re = p at *
  generalize realContract M z.im = q at *
  cases p <;> cases q <;> exact ⟨by simp_all [Contract.and], by simp_all [Contract.and]⟩

/-- Numbers open the outputs after a value that was none, or where one is outside `[-1, 1]` and an
operation was rounded. -/
theorem opens_and {p q : Contract} {rounded : Bool} (hq : q ≠ .notNumber) :
    (p.and q).opens rounded = true ↔
      p = .notNumber ∨ (p = .outOfRange ∨ q = .outOfRange) ∧ rounded = true := by
  cases q with
  | notNumber => exact absurd rfl hq
  | kept | outOfRange => cases p <;> simp [Contract.and, Contract.opens]

/-- The outputs are open after a tick where the statements say so. -/
theorem opened_iff {w : Standing} {q : Contract} {number inside rounded numbers : Bool}
    (hq : Judges q number inside) (hn : number = false → numbers = false) :
    opened w numbers inside rounded ↔ (w.after q rounded numbers).anyOut = true := by
  cases numbers with
  | false => simp [opened, Standing.after]
  | true =>
    have hnumber : q ≠ .notNumber := fun h => Bool.noConfusion (hn (hq.notNumber h))
    simp [opened, Standing.after, opens_and hnumber, hq.outside hnumber]

/-! ### STEP of a unit whose output may be open -/

/-- A STEP that answers with the computed value where its outputs are defined, and else with any value
and another count of free values. -/
theorem leads_opened {α : Type} {i : Instr} {s : State} {free : Prop} {anyOut : Bool} {y : α}
    {o : α × State} {wrap : α → Sample} {put : State → State} (hfree : free ↔ anyOut = true)
    (ho : (anyOut = false ∧ o = (y, s)) ∨
      (anyOut = true ∧ ∃ v k, o = (v, { s with freeIx := k })))
    (h : leads i s (done (put o.2) (.sample (some (wrap o.1))))) :
    (¬ free → leads i s (done (put s) (.sample (some (wrap y))))) ∧
      (free → ∃ v k, leads i s (done (put { s with freeIx := k }) (.sample (some (wrap v))))) := by
  obtain ⟨hclosed, rfl⟩ | ⟨hopen, v, k, rfl⟩ := ho
  · exact ⟨fun _ => h, fun hf => absurd (hfree.mp hf) (by simp [hclosed])⟩
  · exact ⟨fun hf => absurd (hfree.mpr hopen) hf, fun _ => ⟨v, k, h⟩⟩

section Step

variable {s : State} {inst : Inst}

theorem gzStepAt_run {c : GzCfg} {r r' : GzReg} {x : RealVal} {q : Contract}
    (hu : s.gz[inst.toNat]? = some (.run c r)) (hr : gzInsert s.num c r x q = r') :
    gzStepAt inst x q s =
      .ok ((openReal r'.standing.anyOut (gzOutput s.num c r') s).1,
        putGz inst (.run c r') (openReal r'.standing.anyOut (gzOutput s.num c r') s).2) := by
  subst hr
  unfold gzStepAt
  rw [pick_bind hu]

theorem firStepAt_run {c : FirCfg} {r r' : FirReg} {l : List RealVal} {x y : RealVal} {q : Contract}
    (hu : s.fir[inst.toNat]? = some (.run c r)) (hcx : c.cx = false) (hl : r.ring = .real l)
    (hr : firTick s.num r l x q = (r', y)) :
    firStepAt inst x q s =
      .ok ((openReal r'.standing.anyOut y s).1,
        putFir inst (.run c r') (openReal r'.standing.anyOut y s).2) := by
  unfold firStepAt
  rw [pick_bind hu]
  simp only [hcx, hl, hr]

theorem fircStepAt_run {c : FirCfg} {r r' : FirReg} {l : List Cplx} {z y : Cplx} {q : Contract}
    (hu : s.fir[inst.toNat]? = some (.run c r)) (hcx : c.cx = true) (hl : r.ring = .cplx l)
    (hr : fircTick s.num r l z q = (r', y)) :
    fircStepAt inst z q s =
      .ok ((openCplx r'.standing.anyOut y s).1,
        putFir inst (.run c r') (openCplx r'.standing.anyOut y s).2) := by
  unfold fircStepAt
  rw [pick_bind hu]
  simp only [hcx, hl, hr]

/-- A direct STEP of a node that no composite owns is the body of STEP. -/
theorem conclude_direct {C β : Type} {l : List C} {u : C} {n : Nid} {body : Ans (β × State)} {y : β}
    {t : State} (res : β → Result) (hu : l[inst.toNat]? = some u) (hn : n ∉ s.used)
    (h : body = .ok (y, t)) :
    conclude s (do
      let _ ← pick l inst
      notOwned s n
      let (y, t) ← body
      .ok ⟨t, res y, []⟩) = .next (done t (res y)) := by
  rw [unowned_bind hu hn, h]
  rfl

end Step

end Machine

namespace Settled

open Sys2Proof.Machine Sys2Proof.Claims

/-- Settles O27: the window of the tick is the ring read by age, and its outputs are open where its
standing says so. -/
theorem gzStep : Obligations.GzStep := by
  unfold Obligations.GzStep
  intro s inst x c r hu hn hlen hwp M v ring wp scan y u free
  have hlength : ring.length = c.n := by rw [List.length_set, hlen]
  have hreg := gzInsert_eq hlen hwp M v (realContract M v)
  have hy : gzOutput M c (gzInsert M c r v (realContract M v)) = y := by
    rw [hreg]
    exact gzOutput_eq hlength M
  have hstep := gzStepAt_run (x := v) (q := realContract M v) hu rfl
  rw [hy, hreg] at hstep
  exact leads_opened (put := putGz inst u) (opened_iff (realContract_judges M v) id)
    (openReal_cases ..) (conclude_direct (.sample <| some <| .real ·) hu hn hstep)

/-- Settles O31: the convolution by age is that of the tick, and its outputs are open where its standing
says so. -/
theorem firStep : Obligations.FirStep := by
  unfold Obligations.FirStep
  intro s inst x c r l hu hn hcx hl hlen hwp M v ring wp tap old sum y rounded u free
  have hring : memWrite l r.wp v = ring := memWrite_of_lt (hlen ▸ hwp) v
  have hlength : ring.length = r.te := by rw [List.length_set, hlen]
  have hsum : firSum M r.taps ring wp r.te = y := firSum_eq_tapSum hlength
  have hrounded : firRounds M r.taps ring wp r.te = rounded := firRounds_eq hlength
  have htick : firTick M r l v (realContract M v) =
      ({ r with
        ring := .real ring, wp := wp
        standing := r.standing.after (realContract M v) rounded (M.fin v && M.fin y) }, y) := by
    unfold firTick
    dsimp only
    rw [hring, show ringNext r.wp r.te = wp from rfl, hsum, hrounded]
  exact leads_opened (put := putFir inst u)
    (opened_iff (realContract_judges M v) fun h => by rw [h, Bool.false_and])
    (openReal_cases ..)
    (conclude_direct (.sample <| some <| .real ·) hu hn (firStepAt_run hu hcx hl htick))

/-- Settles O32: part by part, the convolution of the tick is that of a real filter. -/
theorem fircStep : Obligations.FircStep := by
  unfold Obligations.FircStep
  intro s inst re im c r l hu hn hcx hl hlen hwp M z ring wp o tap old sum y rounded numbers any u free
  have hring : memWrite l r.wp z = ring := memWrite_of_lt (hlen ▸ hwp) z
  have hlength : ring.length = r.te := by rw [List.length_set, hlen]
  have hsum : fircSum M r.taps ring wp r.te = y := fircSum_eq hlength
  have hparts : ∀ n, sum n =
      ⟨tapSum M tap (fun i => (old i).re) n, tapSum M tap (fun i => (old i).im) n⟩ :=
    tapSum_parts M tap old
  have hpart : ∀ part : Cplx → RealVal, part o = M.zero →
      (∀ n, part (sum n) = tapSum M tap (fun i => part (old i)) n) →
      firRounds M r.taps (ring.map part) wp r.te = rounded part := by
    intro part hzero hpartSum
    rw [firRounds_map hlength hzero]
    simp only [rounded, hpartSum]
    rfl
  have hre := hpart Cplx.re rfl fun n => congrArg Cplx.re (hparts n)
  have him := hpart Cplx.im rfl fun n => congrArg Cplx.im (hparts n)
  have hrounded : fircRounds M r.taps ring wp r.te = any := by rw [fircRounds, hre, him]
  have htick : fircTick M r l z (cplxContract M z) =
      ({ r with
        ring := .cplx ring, wp := wp
        standing := r.standing.after (cplxContract M z) any numbers }, y) := by
    unfold fircTick
    dsimp only
    rw [hring, show ringNext r.wp r.te = wp from rfl, hsum, hrounded]
  exact leads_opened (put := putFir inst u)
    (opened_iff (cplxContract_judges M z) fun h => by simp only [numbers, h, Bool.false_and])
    (openCplx_cases ..)
    (conclude_direct (.sample <| some <| .cplx ·) hu hn (fircStepAt_run hu hcx hl htick))

end Settled
end Sys2Proof
end

section
/-!
SUPPORT. The events that the units raise (rules R287, R314, R360), and with them what an operation passes
to the hand-off buffer (rules R85, R343, R404): a page for each MSG event of a PG, the frame of an
HD.STEP, and nothing else.
-/

namespace Sys2Proof
namespace Machine

open Sys2Proof.Claims

/-! ### The messages of an output -/

/-- The page of an event, if it is a MSG. -/
def pageIn : Event → Option Page
  | .msg p => some p
  | _ => none

/-- The frame of a result, if it has one. -/
def frameIn : Result → Option Frame
  | .frame f => f
  | _ => none

/-- The pages of the MSG events, in order. -/
def pagesIn (evs : List Event) : List Page := evs.filterMap pageIn

@[simp] theorem pagesIn_nil : pagesIn [] = [] := rfl

@[simp] theorem pagesIn_cons (e : Event) (evs : List Event) :
    pagesIn (e :: evs) = (pageIn e).toList ++ pagesIn evs := by
  unfold pagesIn
  rw [List.filterMap_cons]
  cases pageIn e <;> rfl

@[simp] theorem pagesIn_append (l l' : List Event) : pagesIn (l ++ l') = pagesIn l ++ pagesIn l' :=
  List.filterMap_append ..

/-- What an operation passes to the buffer: its frame, then its pages. -/
theorem emitted_eq (o : Output) :
    emitted o = (frameIn o.result).toList.map .frame ++ (pagesIn (o.events.map (·.ev))).map .page := by
  have hframe : (frameIn o.result).toList.map Message.frame =
      match o.result with
      | .frame (some f) => [.frame f]
      | _ => [] := by
    cases o.result with
    | frame f => cases f <;> rfl
    | _ => rfl
  have hpages : ∀ evs : List Raised, (pagesIn (evs.map (·.ev))).map Message.page =
      evs.filterMap fun e =>
        match e.ev with
        | .msg p => some (.page p)
        | _ => none := by
    intro evs
    induction evs with
    | nil => rfl
    | cons e evs ih =>
      rw [List.map_cons, pagesIn_cons, List.map_append, ih, List.filterMap_cons]
      cases e.ev <;> rfl
  rw [hframe, hpages]
  rfl

/-! ### Events of BS -/

/-- The events that a BS raises (rule R360). -/
def bsRaises : Event → Bool
  | .sync _ | .noise _ | .bsOverflow => true
  | _ => false

section Bs

variable {M : Numerics} {c : BsCfg} {e : Event}

theorem pushBit_events {cap : Nat} {b : Bool} {r : BsReg} (h : e ∈ (pushBit cap r b).2) :
    bsRaises e = true := by
  unfold pushBit at h
  split at h
  · cases h
  · cases List.mem_singleton.mp h; rfl

theorem pushBits_events {cap k : Nat} {b : Bool} {r : BsReg} (h : e ∈ (pushBits cap b k r).2) :
    bsRaises e = true := by
  induction k generalizing r with
  | zero => cases h
  | succ k ih => exact (List.mem_append.mp h).elim pushBit_events ih

theorem bsConvert_events {r : BsReg} {len : Nat} {old : Bool}
    (h : e ∈ (bsConvert M c r len old).2) : bsRaises e = true := by
  unfold bsConvert at h
  dsimp only at h
  split at h
  · cases List.mem_singleton.mp h; rfl
  · exact pushBits_events h

theorem bsSearch_events {r : BsReg} {len : Nat} (h : e ∈ (bsSearch M c r len).2) :
    bsRaises e = true := by
  unfold bsSearch at h
  split at h
  · cases h
  · rename_i i _
    dsimp only at h
    generalize (if r.mvalid = true ∧ r.midx = .holds i then satInc32 r.mcnt else 1) = mcnt at h
    split at h
    · cases List.mem_singleton.mp h; rfl
    · cases h

theorem processRun_events {r : BsReg} {len : Nat} {old : Bool}
    (h : e ∈ (processRun M c r len old).2) : bsRaises e = true := by
  unfold processRun at h
  split at h
  · exact bsConvert_events h
  · exact bsSearch_events h

/-- A tick of BS raises events of BS only. -/
theorem bsTick_events {r : BsReg} {lv : Bool} (h : e ∈ (bsTick M c r lv).2.1) :
    bsRaises e = true := by
  have h : e ∈ (bsMeasure M c r lv).2 := h
  unfold bsMeasure at h
  split at h
  · split at h
    · cases h
    · exact processRun_events h
  · cases h

/-- An event of BS has no page. -/
theorem pageIn_of_bsRaises (h : bsRaises e = true) : pageIn e = none := by
  cases e with
  | sync | noise | bsOverflow => rfl
  | _ => cases h

end Bs

/-! ### Events of HD -/

/-- The end of a frame raises an error, or completes a frame and raises nothing. -/
theorem verdict_pages (h : Hd) : pagesIn (verdict h).1 = [] := by
  unfold verdict
  split
  · rfl
  · split
    · rfl
    · split <;> rfl

theorem hdFinalize_pages (h : Hd) : pagesIn (hdFinalize h).2.1 = [] := verdict_pages h

theorem replay_pages (bs : List Bool) (h : Hd) : pagesIn (replay bs h).2.1 = [] := by
  induction bs generalizing h with
  | nil => rfl
  | cons b bs ih =>
    unfold replay
    split
    · exact hdFinalize_pages _
    · exact ih _

theorem hdWaitFlag_pages (h : Hd) : pagesIn (hdWaitFlag h).2.1 = [] := by
  unfold hdWaitFlag
  split <;> rfl

theorem hdWaitData_pages (h : Hd) : pagesIn (hdWaitData h).2.1 = [] := by
  unfold hdWaitData
  split
  · split
    · rfl
    · exact replay_pages _ _
  · rfl

theorem hdCountFlag_pages (h : Hd) : pagesIn (hdCountFlag h).2.1 = [] := by
  unfold hdCountFlag
  split
  · exact hdWaitData_pages _
  · split
    · split <;> rfl
    · rfl

theorem hdWaitEnd_pages (h : Hd) (b : Bool) : pagesIn (hdWaitEnd h b).2.1 = [] := by
  unfold hdWaitEnd
  split
  · exact hdFinalize_pages _
  · split
    · exact hdFinalize_pages _
    · rfl

/-- HD raises no MSG (rule R360). -/
theorem hdTick_pages (h : Hd) (b : Bool) : pagesIn (hdTick h b).2.1 = [] := by
  show pagesIn (hdDispatch { h with raw := shiftIn h.raw b } b).2.1 = []
  unfold hdDispatch
  split
  · exact hdWaitFlag_pages _
  · exact hdCountFlag_pages _
  · exact hdWaitData_pages _
  · exact hdWaitEnd_pages _ _

/-! ### Events of PG -/

/-- The page that a rule of PG emits is the one that its MSG event carries (rule R314). -/
def PgOut.Told (o : PgOut) : Prop := pagesIn o.evs = o.page.toList

section Pg

variable {par : Params} {p : Pg} {b : Bool}

theorem pgFinalize_told (p : Pg) : (pgFinalize p).Told := by
  unfold pgFinalize
  split <;> rfl

theorem loseSync_told {why : Event} (h : pageIn why = none) (p : Pg) : (loseSync why p).Told := by
  have hf : pagesIn (pgFinalize p).evs = (pgFinalize p).page.toList := pgFinalize_told p
  show pagesIn (why :: ((pgFinalize p).evs ++ [.resyncReq])) = (pgFinalize p).page.toList
  rw [pagesIn_cons, h, pagesIn_append, hf]
  exact List.append_nil _

theorem pgSearch_told : (pgSearch par p b).Told := by
  unfold pgSearch
  split
  · split
    · rfl
    · split
      · rfl
      · split
        · exact loseSync_told rfl _
        · rfl
  · rfl

theorem pgInitial_told : (pgInitial par p b).Told := by
  unfold pgInitial pgPreamble
  split
  · exact pgSearch_told
  · split
    · split
      · exact loseSync_told rfl _
      · exact pgSearch_told
    · split
      · exact pgSearch_told
      · exact loseSync_told rfl _

theorem pgDecodeWord_told {w : BitVec 31} {idx : Nat} : (pgDecodeWord par p w idx).Told := by
  unfold pgDecodeWord pgClassify
  split
  · rfl
  · split
    · exact pgFinalize_told p
    · split
      · exact pgFinalize_told p
      · rfl

theorem pgCodeword_told {cw : BitVec 32} {idx : Nat} : (pgCodeword par p cw idx).Told := by
  have hparity : pagesIn (pgParity p cw idx).2 = [] := by
    unfold pgParity
    split <;> rfl
  have hword : PgOut.Told (pgDecodeWord par (pgParity p cw idx).1 (bchWord par.pgParityPos cw) idx) :=
    pgDecodeWord_told
  show pagesIn ((pgParity p cw idx).2 ++ _) = _
  rw [pagesIn_append, hparity]
  exact hword

theorem pgBatch_told : (pgBatch par p b).Told := by
  unfold pgBatch
  dsimp only
  split
  · exact pgCodeword_told
  · rfl

theorem pgImmediate_told : (pgImmediate par p b).Told := by
  unfold pgImmediate
  dsimp only
  split
  · split
    · rfl
    · exact loseSync_told rfl _
  · rfl

theorem pgTick_told : (pgTick par p b).Told := by
  show (pgDispatch par p b).Told
  unfold pgDispatch
  split
  · rfl
  · exact pgInitial_told
  · exact pgBatch_told
  · exact pgImmediate_told

theorem pgRestart_told (p : Pg) : (pgRestart p).Told := pgFinalize_told p

theorem pgSync_told (p : Pg) (baud : RealVal) : (pgSync p baud).Told := pgFinalize_told p

end Pg

/-! ### Events of a tree of nodes -/

/-- The events are events of BS. -/
def BsRaised (evs : List Raised) : Prop := ∀ e ∈ evs, bsRaises e.ev = true

theorem bsRaised_nil : BsRaised [] := nofun

theorem BsRaised.append {l l' : List Raised} (h : BsRaised l) (h' : BsRaised l') :
    BsRaised (l ++ l') := fun e he => (List.mem_append.mp he).elim (h e) (h' e)

theorem BsRaised.pages {evs : List Raised} (h : BsRaised evs) : pagesIn (evs.map (·.ev)) = [] := by
  refine List.filterMap_eq_nil_iff.mpr fun e he => ?_
  obtain ⟨r, hr, rfl⟩ := List.mem_map.mp he
  exact pageIn_of_bsRaises (h r hr)

theorem bsStepAt_raised (i : Inst) (lv : Bool) (s : State) :
    Yields (fun r => BsRaised r.2.1) (bsStepAt i lv s) := by
  refine yields_bind fun u => ?_
  split
  · refine yields_ok fun e he => ?_
    obtain ⟨v, hv, rfl⟩ := List.mem_map.mp he
    exact bsTick_events hv
  · exact yields_error

theorem extStepAt_raised (n : Nid) (v : Sample) (s : State) :
    Yields (fun o => BsRaised o.evs) (extStepAt n v s) := by
  unfold extStepAt
  split
  · exact yields_error
  · exact yields_ite yields_error (yields_ite yields_error (yields_ok bsRaised_nil))

theorem stepLeaf_raised (q : Contract) (n : Nid) (v : Sample) (s : State) :
    Yields (fun o => BsRaised o.evs) (stepLeaf q n v s) := by
  have quiet : ∀ {α : Type} (a : Ans α) (f : α → Stepped), (∀ x, (f x).evs = []) →
      Yields (fun o => BsRaised o.evs) (a.map f) := fun a f hf =>
    yields_map (P := fun _ => True) (fun _ _ => trivial) fun x _ => hf x ▸ bsRaised_nil
  unfold stepLeaf
  split
  case h_7 => exact yields_map (bsStepAt_raised _ _ _) fun _ h => h
  case h_8 => exact yields_ite yields_error (extStepAt_raised _ _ _)
  all_goals exact quiet _ _ fun _ => rfl

section Trees

variable {f : Nid → Sample → State → Ans Stepped}
  (hf : ∀ n v s, Yields (fun o => BsRaised o.evs) (f n v s))
include hf

theorem stepSerial_raised (l : List Nid) (v : Sample) (s : State) :
    Yields (fun o => BsRaised o.evs) (stepSerial f l v s) := by
  induction l generalizing v s with
  | nil => exact yields_ok bsRaised_nil
  | cons c l ih =>
    refine yields_then (hf c v s) fun o ho => yields_ite (yields_ok ho) ?_
    split
    · exact yields_ok ho
    · exact yields_then (ih _ o.st) fun o' ho' => yields_ok (ho.append ho')

theorem stepParallel_raised (l : List Nid) (v : Sample) (s : State) :
    Yields (fun o => BsRaised o.evs) (stepParallel f l v s) := by
  induction l generalizing s with
  | nil => exact yields_ok bsRaised_nil
  | cons c l ih =>
    refine yields_then (hf c v s) fun o ho => yields_ite (yields_ok ho) ?_
    exact yields_then (ih o.st) fun o' ho' => yields_ok (ho.append ho')

theorem stepChildren_raised (c : PipeCfg) (v : Sample) (s : State) :
    Yields (fun o => BsRaised o.1.evs) (stepChildren f c v s) := by
  unfold stepChildren
  split
  · exact yields_map (stepSerial_raised hf _ _ _) fun _ h => h
  · exact yields_then (stepParallel_raised hf c.child v s) fun _ h => yields_ok h

end Trees

theorem pipeStepAt_raised {f : Contract → Nid → Sample → State → Ans Stepped}
    (hf : ∀ q n v s, Yields (fun o => BsRaised o.evs) (f q n v s)) (i : Inst) (v : Sample)
    (q : Contract) (s : State) : Yields (fun o => BsRaised o.evs) (pipeStepAt f i v q s) := by
  refine yields_bind fun u => ?_
  split
  · refine yields_ite (yields_then (stepChildren_raised (hf _) _ v s) fun ⟨o, _⟩ ho => ?_) yields_error
    exact yields_ok ho
  · exact yields_error

/-- In a tree only BS leaves raise events. -/
theorem stepNode_raised (k : Nat) (q : Contract) (n : Nid) (v : Sample) (s : State) :
    Yields (fun o => BsRaised o.evs) (stepNode k q n v s) := by
  induction k generalizing q n v s with
  | zero => exact yields_error
  | succ k ih => exact yields_ite (pipeStepAt_raised ih _ _ _ _) (stepLeaf_raised _ _ _ _)

/-! ### The hand-off buffer (rules R85, R343) -/

theorem yields_and {α : Type} {P Q : α → Prop} {a : Ans α} (hp : Yields P a) (hq : Yields Q a) :
    Yields (fun x => P x ∧ Q x) a := fun x hx => ⟨hp x hx, hq x hx⟩

/-- What an operation leaves has the messages of `s`, and behind them those that it emitted. -/
def Accounted (s : State) (d : Done) : Prop := d.st.outq = s.outq ++ emitted (accept d []).out

section Accounts

variable {s t : State}

/-- An operation without a frame and without a MSG leaves the buffer as it is. -/
theorem accounted_quiet {d : Done} (hst : d.st.outq = s.outq) (hres : frameIn d.res = none)
    (hevs : pagesIn (d.evs.map (·.ev)) = []) : Accounted s d := by
  unfold Accounted
  rw [emitted_eq]
  simp [accept, hst, hres, hevs]

theorem outq_conclude {a : Ans Done} (h : conclude s a = .next t) (ha : Yields (Accounted s) a) :
    t.outq = s.outq ++ emitted t.out := by
  obtain ⟨e, -, rfl⟩ | ⟨d, hd, rfl⟩ := conclude_next.mp h
  · exact (List.append_nil _).symm
  · exact ha d hd

theorem outq_concludeBits {a : Ans (Done × List Delivered)} (h : concludeBits s a = .next t)
    (ha : Yields (fun r => Accounted s r.1) a) : t.outq = s.outq ++ emitted t.out := by
  obtain ⟨e, -, rfl⟩ | ⟨d, bits, hd, rfl⟩ := concludeBits_next.mp h
  · exact (List.append_nil _).symm
  · exact ha _ hd

/-- A write to a node is none to the buffer. -/
theorem outq_nodeBlind : NodeBlind State.outq where
  pipe _ _ _ := rfl
  gz _ _ _ := rfl
  fir _ _ _ := rfl
  bq _ _ _ := rfl
  ma _ _ _ := rfl
  bs _ _ _ := rfl
  ext _ _ _ := rfl
  free _ _ := rfl

theorem raisedBy_map_ev (i : Inst) (evs : List Event) : (raisedBy i evs).map (·.ev) = evs := by
  unfold raisedBy
  rw [List.map_map]
  exact List.map_id evs

theorem pgDone_accounted {o : PgOut} {res : Result} (ho : o.Told) (hres : frameIn res = none)
    (i : Inst) (s : State) : Accounted s (pgDone i o res s) := by
  have hpages : pagesIn o.evs = o.page.toList := ho
  unfold Accounted pgDone
  rw [emitted_eq, emitOpt_eq]
  simp only [accept, hres, raisedBy_map_ev, hpages, putPg_outq]
  cases o.page <;> rfl

theorem hdStep_accounted (i : Inst) (h : Hd) (b : Bool) (s : State) :
    Accounted s ⟨emitOpt ((hdTick h b).2.2.map .frame) (putHd i (hdTick h b).1 s),
      .frame (hdTick h b).2.2, raisedBy i (hdTick h b).2.1⟩ := by
  unfold Accounted
  rw [emitted_eq, emitOpt_eq]
  simp only [accept, raisedBy_map_ev, hdTick_pages, putHd_outq, frameIn]
  cases (hdTick h b).2.2 <;> rfl

/-- An INIT or STEP without events that writes nothing but nodes. -/
theorem direct_accounted {C β : Type} {l : List C} {inst : Inst} {n : Nid} {body : Ans (β × State)}
    (res : β → Result) (hres : ∀ y, frameIn (res y) = none)
    (hbody : Yields (fun r => r.2.outq = s.outq) body) :
    Yields (Accounted s) (do
      let _ ← pick l inst
      notOwned s n
      let (y, t) ← body
      .ok ⟨t, res y, []⟩) :=
  yields_bind fun _ => yields_bind fun _ => yields_then hbody fun _ hr =>
    yields_ok (accounted_quiet hr (hres _) rfl)

theorem exec_init_outq {i : Instr} (hi : isInit i = true) (h : exec i s = .next t) :
    t.outq = s.outq ++ emitted t.out := by
  have hb := outq_nodeBlind
  cases i
  case pipeInit => exact outq_conclude h (direct_accounted .rate (fun _ => rfl) (hb.initNode _ _ _ _))
  case gzInit => exact outq_conclude h (direct_accounted .rate (fun _ => rfl) (hb.gzInitAt _ _ _))
  case firInit => exact outq_conclude h (direct_accounted .rate (fun _ => rfl) (hb.firInitAt _ _ _))
  case bqInit => exact outq_conclude h (direct_accounted .rate (fun _ => rfl) (hb.bqInitAt _ _ _))
  case maInit => exact outq_conclude h (direct_accounted .rate (fun _ => rfl) (hb.maInitAt _ _ _))
  case bsInit => exact outq_conclude h (direct_accounted .rate (fun _ => rfl) (hb.bsInitAt _ _ _))
  all_goals cases hi

theorem exec_step_outq {i : Instr} (hi : isStep i = true) (h : exec i s = .next t) :
    t.outq = s.outq ++ emitted t.out := by
  have hb := outq_nodeBlind
  cases i
  case pipeStep =>
    refine outq_concludeBits h (yields_bind fun _ => yields_bind fun _ => yields_bind fun _ => ?_)
    refine yields_then (yields_and (hb.stepNode _ _ _ _ _) (stepNode_raised _ _ _ _ _)) fun o ho => ?_
    obtain ⟨hst, hevs⟩ := ho
    exact yields_ok (accounted_quiet ((hb.settled ..).trans hst) rfl hevs.pages)
  case gzStep => exact outq_conclude h (direct_accounted (.sample <| some <| .real ·) (fun _ => rfl)
      (hb.gzStepAt _ _ _ _))
  case firStep => exact outq_conclude h (direct_accounted (.sample <| some <| .real ·) (fun _ => rfl)
      (hb.firStepAt _ _ _ _))
  case fircStep => exact outq_conclude h (direct_accounted (.sample <| some <| .cplx ·) (fun _ => rfl)
      (hb.fircStepAt _ _ _ _))
  case bqStep => exact outq_conclude h (direct_accounted (.sample <| some <| .real ·) (fun _ => rfl)
      (hb.bqStepAt _ _ _ _))
  case bqcStep => exact outq_conclude h (direct_accounted (.sample <| some <| .cplx ·) (fun _ => rfl)
      (hb.bqcStepAt _ _ _ _))
  case maStep => exact outq_conclude h (direct_accounted (.sample <| some <| .real ·) (fun _ => rfl)
      (hb.maStepAt _ _ _ _))
  case bsStep =>
    refine outq_concludeBits h (yields_bind fun _ => yields_bind fun _ => ?_)
    refine yields_then (yields_and (hb.bsStepAt _ _ _) (bsStepAt_raised _ _ _)) fun r hr => ?_
    obtain ⟨hst, hevs⟩ := hr
    exact yields_ok (accounted_quiet hst rfl hevs.pages)
  all_goals cases hi

theorem correctionResult_frame (o : Correction) : frameIn (correctionResult o) = none := by
  cases o <;> rfl

theorem exec_bchData_outq {i : Instr} (hi : isBchData i = true) (h : exec i s = .next t) :
    t.outq = s.outq ++ emitted t.out := by
  cases i
  case gfExp => exact outq_conclude h (yields_bind fun _ => yields_ok (accounted_quiet rfl rfl rfl))
  case gfPow | bchEncode | bchSyndrome | bchCheck | bchDecode =>
    exact outq_conclude h (yields_bind fun _ => yields_bind fun _ =>
      yields_ok (accounted_quiet rfl rfl rfl))
  case bchCorrect =>
    exact outq_conclude h (yields_bind fun c => yields_bind fun _ =>
      yields_ok (accounted_quiet rfl (correctionResult_frame _) rfl))
  case gfMul =>
    exact outq_conclude h (yields_bind fun _ => yields_bind fun _ => yields_bind fun _ =>
      yields_ok (accounted_quiet rfl rfl rfl))
  case gfLog | gfInv =>
    exact outq_conclude h (yields_bind fun _ => yields_bind fun _ =>
      yields_ite yields_error (yields_ok (accounted_quiet rfl rfl rfl)))
  all_goals cases hi

/-- A CONFIG, which replaces the registers of a unit and raises nothing. -/
theorem config_accounted {C U : Type} {l : List C} {inst : Inst} {a : Ans U} {put : U → State}
    (h : ∀ u, (put u).outq = s.outq) :
    Yields (Accounted s) (do
      let _ ← pick l inst
      let u ← a
      .ok ⟨put u, .none, []⟩) :=
  yields_bind fun _ => yields_bind fun u => yields_ok (accounted_quiet (h u) rfl rfl)

theorem construct_accounted (i : Inst) (l : List Nid) (typed : List (Tag × Tag) → Bool)
    (cfg : List (Tag × Tag) → PipeCfg) : Yields (Accounted s) (construct i l typed cfg s) := by
  refine yields_bind fun u => ?_
  cases u with
  | conf | run => exact yields_error
  | unconf =>
    exact yields_ite yields_error <| yields_ite yields_error <| yields_ite yields_error <|
      yields_ite yields_error <| yields_ite yields_error <| yields_ok (accounted_quiet rfl rfl rfl)

/-- Every operation but OUTQ.DRAIN and CORE.RESET, by what it writes and raises. -/
theorem exec_outq {i : Instr} (hdrain : i.op ≠ .outqDrain) (hreset : i.op ≠ .coreReset)
    (h : exec i s = .next t) : t.outq = s.outq ++ emitted t.out := by
  cases i
  case pipeInit | gzInit | firInit | bqInit | maInit | bsInit => exact exec_init_outq rfl h
  case pipeStep | gzStep | firStep | fircStep | bqStep | bqcStep | maStep | bsStep =>
    exact exec_step_outq rfl h
  case gfExp | gfLog | gfMul | gfInv | gfPow | bchEncode | bchSyndrome | bchCheck | bchCorrect
      | bchDecode => exact exec_bchData_outq rfl h
  case pipeSerial | pipeParallel =>
    exact outq_conclude h (construct_accounted _ _ _ _)
  case gzConfig | firConfig | bqConfig | maConfig | bsConfig | bchConfig =>
    exact outq_conclude h (config_accounted fun _ => rfl)
  case firSetTaps =>
    exact outq_conclude h (yields_bind fun _ => yields_bind fun _ =>
      yields_ok (accounted_quiet rfl rfl rfl))
  case bsWaitForSync =>
    refine outq_conclude h (yields_bind fun u => ?_)
    cases u with
    | run c r => exact yields_ok (accounted_quiet rfl rfl rfl)
    | unconf | conf c => exact yields_error
  case hdReset => exact outq_conclude h (yields_bind fun _ => yields_ok (accounted_quiet rfl rfl rfl))
  case hdStep => exact outq_conclude h (yields_bind fun _ => yields_ok (hdStep_accounted _ _ _ s))
  case pgReset =>
    exact outq_conclude h (yields_bind fun p =>
      yields_ok (pgDone_accounted (pgRestart_told p) rfl _ s))
  case pgSync =>
    exact outq_conclude h (yields_bind fun p =>
      yields_ok (pgDone_accounted (pgSync_told p _) rfl _ s))
  case pgStep =>
    exact outq_conclude h (yields_bind fun _ => yields_ok (pgDone_accounted pgTick_told rfl _ s))
  case pgSetFilter =>
    refine outq_conclude h (yields_bind fun _ => ?_)
    split
    · exact yields_error
    · exact yields_ok (accounted_quiet rfl rfl rfl)
  case outqDrain => exact absurd rfl hdrain
  case coreReset => exact absurd rfl hreset

end Accounts

end Machine

namespace Settled

open Sys2Proof.Machine Sys2Proof.Claims

/-- Settles O11: each operation passes to the buffer the frame of its result and the pages of its events,
and writes nothing else there. -/
theorem outqOnlyGrows : Obligations.OutqOnlyGrows := by
  unfold Obligations.OutqOnlyGrows
  intro i s t hdrain hreset h
  exact exec_outq hdrain hreset h

end Settled
end Sys2Proof
end

section
/-!
SUPPORT. The bit queue of BS (rules R72, R213 to R218): what a push and a take do to the list of the bits
it holds, oldest first, and with that the tick of BS where no run ends or BS is locked.
-/

namespace Sys2Proof
namespace Machine

open Sys2Proof.Claims

/-! ### The queue -/

section Queue

variable {c : BsCfg} {r : BsReg}

@[simp] theorem queue_length (c : BsCfg) (r : BsReg) : (queue c r).length = r.count := by
  simp [queue]

theorem queue_eq_nil_iff : queue c r = [] ↔ r.count = 0 := by
  rw [← List.length_eq_zero_iff, queue_length]

/-- The place of the next bit is written already, or is the next one to write. -/
theorem BsBounds.next_le (h : BsBounds c r) : (r.head + r.count) % c.cap ≤ r.bitbuf.length := by
  have hmod : (r.head + r.count) % c.cap < c.cap := Nat.mod_lt _ (Nat.zero_lt_of_lt h.head)
  obtain hfull | hlin := h.queue
  · omega
  · exact hlin ▸ Nat.mod_le _ _

/-- Places of the ring that are less than one turn apart are not the same. -/
theorem add_mod_ne {a k n cap : Nat} (hk : k < n) (hn : n < cap) : (a + k) % cap ≠ (a + n) % cap := by
  intro h
  have hsame : k % cap = n % cap := Nat.ModEq.add_left_cancel' a h
  rw [Nat.mod_eq_of_lt hn, Nat.mod_eq_of_lt (hk.trans hn)] at hsame
  omega

/-- A bit that finds room becomes the newest one. -/
theorem queue_pushBit (h : BsBounds c r) (b : Bool) :
    queue c (pushBit c.cap r b).1 = queue c r ++ [b].take (c.cap - r.count) := by
  unfold pushBit
  split
  · rename_i hlt
    have hold : ∀ k ∈ List.range r.count,
        (memWrite r.bitbuf ((r.head + r.count) % c.cap) b).getD ((r.head + k) % c.cap) false =
          r.bitbuf.getD ((r.head + k) % c.cap) false := fun k hk =>
      memRead_memWrite_ne _ _ _ _ _ h.next_le (add_mod_ne (List.mem_range.mp hk) hlt)
    have hnew : (memWrite r.bitbuf ((r.head + r.count) % c.cap) b).getD
        ((r.head + r.count) % c.cap) false = b := memRead_memWrite _ _ _ _ h.next_le
    rw [List.take_of_length_le (by simp; omega)]
    simp only [queue, List.range_succ, List.map_append, List.map_cons, List.map_nil, hnew,
      List.map_congr_left hold]
  · rw [show c.cap - r.count = 0 by omega]
    simp

/-- `r'` is `r` but for `BITBUF` and `COUNT`. -/
def OnlyPushed (r r' : BsReg) : Prop := r' = { r with bitbuf := r'.bitbuf, count := r'.count }

theorem OnlyPushed.trans {r r' r'' : BsReg} (h : OnlyPushed r r') (h' : OnlyPushed r' r'') :
    OnlyPushed r r'' := by
  unfold OnlyPushed at h h' ⊢
  rw [h', h]

theorem pushBit_frame (cap : Nat) (r : BsReg) (b : Bool) : OnlyPushed r (pushBit cap r b).1 := by
  unfold pushBit
  split <;> rfl

theorem pushBits_frame (cap k : Nat) (r : BsReg) (b : Bool) :
    OnlyPushed r (pushBits cap b k r).1 := by
  induction k generalizing r with
  | zero => rfl
  | succ k ih => exact (pushBit_frame cap r b).trans (ih (pushBit cap r b).1)

theorem pushBit_count (cap : Nat) (r : BsReg) (b : Bool) :
    cap - (pushBit cap r b).1.count = cap - r.count - 1 := by
  unfold pushBit
  split
  · simp only; omega
  · simp only; omega

/-- The bits of a run join the queue as far as there is room. -/
theorem queue_pushBits (k : Nat) (h : BsBounds c r) (b : Bool) :
    queue c (pushBits c.cap b k r).1 = queue c r ++ (List.replicate k b).take (c.cap - r.count) := by
  induction k generalizing r with
  | zero => simp [pushBits]
  | succ k ih =>
    show queue c (pushBits c.cap b k (pushBit c.cap r b).1).1 = _
    rw [ih (pushBit_bounds h), queue_pushBit h, pushBit_count, List.append_assoc,
      List.replicate_succ]
    cases c.cap - r.count <;> simp

/-- Each bit that finds no room is a BS_OVERFLOW. -/
theorem pushBits_overflows (cap k : Nat) (r : BsReg) (b : Bool) :
    (pushBits cap b k r).2 = List.replicate (k - (cap - r.count)) .bsOverflow := by
  induction k generalizing r with
  | zero => simp [pushBits]
  | succ k ih =>
    show (pushBit cap r b).2 ++ (pushBits cap b k (pushBit cap r b).1).2 = _
    rw [ih, pushBit_count]
    unfold pushBit
    split
    · rw [show k + 1 - (cap - r.count) = k - (cap - r.count - 1) by omega]
      rfl
    · rw [show k + 1 - (cap - r.count) = k - (cap - r.count - 1) + 1 by omega]
      rfl

/-- The oldest bit, if any, is the one taken. -/
theorem takeBit_head (h : BsBounds c r) : (takeBit c r).2 = (queue c r).head? := by
  unfold takeBit
  split
  · rw [queue_eq_nil_iff.mpr ‹_›]
    rfl
  · rename_i hne
    obtain ⟨n, hn⟩ := Nat.exists_eq_succ_of_ne_zero hne
    simp [queue, hn, List.range_succ_eq_map, Nat.mod_eq_of_lt h.head, memRead]

/-- The bits behind the oldest one stay. -/
theorem queue_takeBit : queue c (takeBit c r).1 = (queue c r).tail := by
  unfold takeBit
  split
  · rw [queue_eq_nil_iff.mpr ‹_›]
    rfl
  · rename_i hne
    obtain ⟨n, hn⟩ := Nat.exists_eq_succ_of_ne_zero hne
    have hstep : ∀ k, ((r.head + 1) % c.cap + k) % c.cap = (r.head + (k + 1)) % c.cap := fun k => by
      rw [Nat.mod_add_mod, Nat.add_assoc, Nat.add_comm 1 k]
    simp [queue, hn, List.range_succ_eq_map, hstep, Function.comp_def]

/-- A take moves `HEAD` on where there is a bit. -/
theorem takeBit_frame (c : BsCfg) (r : BsReg) :
    (takeBit c r).1 =
      { r with
        head := if queue c r = [] then r.head else (r.head + 1) % c.cap
        count := (takeBit c r).1.count } := by
  unfold takeBit
  simp only [queue_eq_nil_iff]
  split <;> rfl

end Queue

/-! ### The tick -/

section Tick

variable {M : Numerics} {c : BsCfg} {r : BsReg} {lv old : Bool}

/-- The run that a tick ends: its level, where the level changes. -/
def endedRun (r : BsReg) (lv : Bool) : Option Bool :=
  match r.lvalid, r.level with
  | true, .holds old => if lv = old then none else some old
  | _, _ => none

/-- `RUN` after a tick: one more where the run goes on, and else 1. -/
def nextRun (r : BsReg) (lv : Bool) : Nat :=
  if r.lvalid = true ∧ endedRun r lv = none then satInc32 r.run else 1

/-- The registers of the run-length measurement after a tick (rule R214). -/
def measured (r : BsReg) (lv : Bool) : BsReg :=
  { r with level := .holds lv, lvalid := true, run := nextRun r lv }

theorem measured_bounds (h : BsBounds c r) : BsBounds c (measured r lv) := by
  have hrun : nextRun r lv ≤ Config.u32Max := by
    unfold nextRun
    split
    · exact satInc32_le _
    · exact one_le_u32Max
  exact { h with level := fun _ => rfl, run := hrun }

theorem level_of_endedRun (he : endedRun r lv = some old) :
    r.lvalid = true ∧ r.level = .holds old ∧ lv ≠ old := by
  unfold endedRun at he
  split at he
  · rename_i o hv hl
    split at he
    · cases he
    · rename_i hne
      cases he
      exact ⟨hv, hl, hne⟩
  · cases he

/-- `measure` where no run ends (rule R214). -/
theorem bsMeasure_going (h : BsBounds c r) (he : endedRun r lv = none) :
    bsMeasure M c r lv = (measured r lv, []) := by
  cases hv : r.lvalid with
  | false => simp [bsMeasure, measured, nextRun, hv]
  | true =>
    cases hl : r.level with
    | unwritten => exact absurd (h.level hv) (by simp [hl, Slot.isHeld])
    | holds o =>
      have hlv : lv = o := by simpa [endedRun, hv, hl] using he
      subst hlv
      simp [bsMeasure, measured, nextRun, he, hv, hl]

/-- `measure` where a run ends (rule R214). -/
theorem bsMeasure_ended (he : endedRun r lv = some old) :
    bsMeasure M c r lv = processRun M c (measured r lv) r.run old := by
  obtain ⟨hv, hl, hne⟩ := level_of_endedRun he
  simp [bsMeasure, measured, nextRun, he, hv, hl, hne]

/-- The number of bits of the run that ends (rule R217). -/
def runLength (M : Numerics) (r : BsReg) : Nat := M.round (M.div (M.ofNat r.run) r.spb)

/-- The bits of the run that ends, if one does and is not too long (rule R217). -/
def runBits (M : Numerics) (r : BsReg) (lv : Bool) : List Bool :=
  if runLength M r ≤ 512 then (endedRun r lv).toList.flatMap (List.replicate (runLength M r)) else []

/-- The events of the run that ends: a BS_OVERFLOW for each bit without room, or a NOISE (rule
R217). -/
def runEvents (M : Numerics) (r : BsReg) (lv : Bool) (room : Nat) : List Event :=
  if endedRun r lv = none then []
  else if runLength M r ≤ 512 then List.replicate (runLength M r - room) .bsOverflow
  else [.noise r.run]

/-- `measure` has queued the bits of the run that ended as far as there was room. -/
structure Queued (M : Numerics) (c : BsCfg) (r : BsReg) (lv : Bool) (m : BsReg × List Event) :
    Prop where
  queue : queue c m.1 = queue c r ++ (runBits M r lv).take (c.cap - r.count)
  events : m.2 = runEvents M r lv (c.cap - r.count)
  frame : OnlyPushed (measured r lv) m.1

/-- The rule of a locked BS (rule R217). -/
theorem bsConvert_queued (h : BsBounds c r) (he : endedRun r lv = some old) :
    Queued M c r lv (bsConvert M c (measured r lv) r.run old) := by
  have hconvert : bsConvert M c (measured r lv) r.run old =
      if 512 < runLength M r then (measured r lv, [.noise r.run])
      else pushBits c.cap old (runLength M r) (measured r lv) := rfl
  have hqueue : queue c (measured r lv) = queue c r := rfl
  have hcount : (measured r lv).count = r.count := rfl
  rw [hconvert]
  by_cases hlong : runLength M r ≤ 512
  · rw [if_neg (Nat.not_lt.mpr hlong)]
    refine ⟨?_, ?_, pushBits_frame ..⟩
    · rw [queue_pushBits _ (measured_bounds h), hqueue, hcount, runBits, if_pos hlong, he]
      simp
    · rw [pushBits_overflows, hcount, runEvents, he, if_neg (by simp), if_pos hlong]
  · rw [if_pos (Nat.not_le.mp hlong)]
    refine ⟨?_, ?_, rfl⟩
    · rw [hqueue, runBits, if_neg hlong, List.take_nil, List.append_nil]
    · rw [runEvents, he, if_neg (by simp), if_neg hlong]

theorem bsMeasure_queued (h : BsBounds c r)
    (he : endedRun r lv = none ∨ M.eq r.spb M.zero = false) :
    Queued M c r lv (bsMeasure M c r lv) := by
  cases hrun : endedRun r lv with
  | none =>
    rw [bsMeasure_going h hrun]
    refine ⟨?_, ?_, rfl⟩
    · have hbits : runBits M r lv = [] := by simp [runBits, hrun]
      rw [hbits, List.take_nil, List.append_nil]
      rfl
    · rw [runEvents, if_pos hrun]
  | some old =>
    have hlocked : r.locked M = true := by simp [BsReg.locked, he.resolve_left (by simp [hrun])]
    rw [bsMeasure_ended hrun, processRun]
    exact (if_pos hlocked).symm ▸ bsConvert_queued h hrun

/-- The tick of BS where no run ends, or one while BS is locked: bits join the queue, then the oldest
leaves (rule R213). -/
theorem bsTick_queued {bits : List Bool} {evs : List Event} (h : BsBounds c r)
    (he : endedRun r lv = none ∨ M.eq r.spb M.zero = false)
    (hbits : queue c r ++ (runBits M r lv).take (c.cap - r.count) = bits)
    (hevs : runEvents M r lv (c.cap - r.count) = evs) :
    ∃ r', bsTick M c r lv = (r', evs, bits.head?) ∧ queue c r' = bits.tail ∧
      r' = { r with
        level := .holds lv, lvalid := true, run := nextRun r lv, last := evs, bitbuf := r'.bitbuf
        head := if bits = [] then r.head else (r.head + 1) % c.cap
        count := r'.count } := by
  obtain ⟨hqueue, hev, hframe⟩ := bsMeasure_queued h he
  have hm : BsBounds c (bsMeasure M c r lv).1 := bsMeasure_bounds h
  rw [hbits] at hqueue
  rw [hevs] at hev
  refine ⟨{ (takeBit c (bsMeasure M c r lv).1).1 with last := evs }, ?_, ?_, ?_⟩
  · rw [← hqueue, ← takeBit_head hm, ← hev]
    rfl
  · exact queue_takeBit.trans (by rw [hqueue])
  · rw [takeBit_frame, hqueue, hframe]
    rfl

theorem isError_of_bsRaises {e : Event} (h : bsRaises e = true) : e.isError = bsError e := by
  cases e with
  | sync | noise | bsOverflow => rfl
  | _ => cases h

/-- A tick of BS drives its indicator by what it raised (rule R346). -/
theorem indBs_bsTick (M : Numerics) (c : BsCfg) (r : BsReg) (lv : Bool) :
    indBs M (.run c (bsTick M c r lv).1) =
      if (bsTick M c r lv).2.1.any bsError then .error
      else if M.eq (bsTick M c r lv).1.spb M.zero then .syncing else .receiving := by
  have herror : (bsTick M c r lv).2.1.any Event.isError = (bsTick M c r lv).2.1.any bsError := by
    rw [Bool.eq_iff_iff, List.any_eq_true, List.any_eq_true]
    exact exists_congr fun e => and_congr_right fun he => by
      rw [isError_of_bsRaises (bsTick_events he)]
  show indicate (bsTick M c r lv).2.1 (!M.eq (bsTick M c r lv).1.spb M.zero) = _
  rw [indicate, herror]
  cases M.eq (bsTick M c r lv).1.spb M.zero <;> rfl

/-- A direct BS.STEP of a node in RUN that no composite owns. -/
theorem bsStep_leads {s : State} {inst : Inst} {r' : BsReg} {evs : List Event} {b : Option Bool}
    (hu : s.bs[inst.toNat]? = some (.run c r)) (hn : nidOf 5 inst ∉ s.used)
    (ht : bsTick s.num c r lv = (r', evs, b)) :
    leads (.bsStep inst lv) s
      { s with
        bs := s.bs.set inst.toNat (.run c r')
        out := ⟨.ok, .sample (b.map .bool), evs.map fun e => ⟨inst, e⟩,
          b.toList.map fun b => ⟨inst, b⟩⟩ } := by
  have hstep : bsStepAt inst lv s = .ok (b, raisedBy inst evs, putBs inst (.run c r') s) := by
    unfold bsStepAt
    rw [pick_bind hu]
    simp only [ht]
  show execBsStep inst lv s = _
  unfold execBsStep
  rw [unowned_bind hu hn, hstep]
  cases b <;> rfl

end Tick

end Machine

namespace Settled

open Sys2Proof.Machine Sys2Proof.Claims

/-- Settles O43: the tick queues the bits of the run that ended, then takes the oldest bit; in a state in
its ranges a bit that joins overwrites none that waits. -/
theorem bsStep : Obligations.BsStep := by
  unfold Obligations.BsStep
  intro s inst lv c r hu hn hwf M any
  have hb : BsBounds c r := bsReg_wf_iff.mp hwf
  refine ⟨indBs_bsTick M c r lv, ?_⟩
  intro ended he run nb room pushed evs bits
  have hroom : c.cap - r.count = room := by simp only [room, queue_length]
  have hbits : queue c r ++ (runBits M r lv).take (c.cap - r.count) = bits := by rw [hroom]; rfl
  have hevs : runEvents M r lv (c.cap - r.count) = evs := by rw [hroom]; rfl
  obtain ⟨r', htick, hqueue, hframe⟩ := bsTick_queued hb he hbits hevs
  have hwf' : r'.wf c = true := by
    have hb' := bsTick_bounds (M := M) (lv := lv) hb
    rw [htick] at hb'
    exact bsReg_wf_iff.mpr hb'
  exact ⟨r', hqueue, hwf', hframe, bsStep_leads hu hn htick⟩

end Settled
end Sys2Proof
end

section
/-!
SUPPORT. The command as it is read back (rules R100 to R106): the operation of a code, the shape of an
operand, and the two fields of the command word.
-/

namespace Sys2Proof

open Sys2Proof.Laws.EncodedWord

/-! ### The rates of a parameter block (rule R106) -/

/-- The rates of a parameter block are read back, with the fields after them. -/
theorem takeReals_append (cand : List B32) (rest : List Field) :
    takeReals cand.length (cand.map .real ++ rest) = some (cand, rest) := by
  induction cand with
  | nil => rfl
  | cons x cand ih => simp [takeReals, ih]

/-- What is read as rates stood in the block as rates, as many as were asked for. -/
theorem eq_append_of_takeReals {n : Nat} {fs rest : List Field} {cand : List B32}
    (h : takeReals n fs = some (cand, rest)) : cand.length = n ∧ fs = cand.map .real ++ rest := by
  fun_induction takeReals n fs generalizing cand with
  | case1 fs =>
    cases h
    exact ⟨rfl, rfl⟩
  | case2 n x fs xs r hr ih =>
    cases h
    obtain ⟨hlen, hfs⟩ := ih hr
    simp [hlen, hfs]
  | case3 | case4 => cases h

/-! ### The operand shape of an operation (rule R102) -/

/-- The parameter block of a BS.CONFIG is read back where its list has the length it says. -/
theorem bsFields_operand {c : I32} {cand : List B32} (h : candidatesMatch c cand = true) (inst : Inst)
    (req cap : I32) :
    bsFields inst (.int c :: (cand.map .real ++ [.int req, .int cap])) =
      some (.bsConfig inst c cand req cap) := by
  have hlen : c.toInt.toNat = cand.length := (beq_iff_eq.mp h).symm
  simp [bsFields, hlen, takeReals_append]

/-- A rate travels as a word of 32 bits. -/
theorem shaped_pgSync (inst : Inst) (baud : B32) :
    shaped .pgSync inst (.word baud.toNat) = some (.pgSync inst baud) := by
  show (if baud.toNat < 2 ^ 32 then some (Instr.pgSync inst (BitVec.ofNat 32 baud.toNat)) else none) = _
  rw [if_pos baud.isLt, BitVec.ofNat_toNat, BitVec.setWidth_eq]

/-- The operand of a well-formed instruction has the shape of its operation. -/
theorem shaped_operand (i : Instr) (h : i.wellFormed = true) :
    shaped i.op i.inst i.operand = some i := by
  cases i
  case bsConfig => exact bsFields_operand h ..
  case pgSync inst baud => exact shaped_pgSync inst baud
  all_goals rfl

/-- An instruction that a parameter block of BS.CONFIG stands for has this block as its operand. -/
theorem operand_of_bsFields {inst : Inst} {fs : List Field} {i : Instr}
    (h : bsFields inst fs = some i) : i.op = .bsConfig ∧ i.inst = inst ∧ i.operand = .params fs := by
  unfold bsFields at h
  split at h
  · split at h
    · rename_i c fs _ cand req cap hreals
      cases h
      rw [(eq_append_of_takeReals hreals).2]
      exact ⟨rfl, rfl, rfl⟩
    · cases h
  · cases h

/-- A word that a PG.SYNC accepts is the rate it carries. -/
theorem operand_of_pgSync {inst : Inst} {w : Nat} {i : Instr}
    (h : shaped .pgSync inst (.word w) = some i) :
    i.op = .pgSync ∧ i.inst = inst ∧ i.operand = .word w := by
  have h : (if w < 2 ^ 32 then some (Instr.pgSync inst (BitVec.ofNat 32 w)) else none) = some i := h
  split at h
  · rename_i hw
    cases h
    exact ⟨rfl, rfl, congrArg Operand.word (Nat.mod_eq_of_lt hw)⟩
  · cases h

/-- What an operand of the operation's shape stands for has this operation, unit number and operand. -/
theorem fields_of_shaped {op : Op} {inst : Inst} {o : Operand} {i : Instr}
    (h : shaped op inst o = some i) : i.op = op ∧ i.inst = inst ∧ i.operand = o := by
  cases op
  case bsConfig => match o, h with | .params fs, h => exact operand_of_bsFields h
  case pgSync => match o, h with | .word w, h => exact operand_of_pgSync h
  case pipeSerial => match o, h with | .nodes l none, rfl => exact ⟨rfl, rfl, rfl⟩
  case pipeParallel => match o, h with | .nodes l (some (f, t)), rfl => exact ⟨rfl, rfl, rfl⟩
  case pipeInit | gzInit | firInit | bqInit | maInit | bsInit =>
    match o, h with | .rate r, rfl => exact ⟨rfl, rfl, rfl⟩
  case pipeStep => match o, h with | .sample v, rfl => exact ⟨rfl, rfl, rfl⟩
  case gzStep | firStep | bqStep | maStep =>
    match o, h with | .sample (.real x), rfl => exact ⟨rfl, rfl, rfl⟩
  case fircStep | bqcStep =>
    match o, h with | .sample (.cplx re im), rfl => exact ⟨rfl, rfl, rfl⟩
  case bsStep | hdStep | pgStep =>
    match o, h with | .sample (.bit b), rfl => exact ⟨rfl, rfl, rfl⟩
  case gzConfig => match o, h with | .params [.int n, .real f], rfl => exact ⟨rfl, rfl, rfl⟩
  case firConfig =>
    match o, h with
    | .params [.int w, .int t, .real f1, .real f2, .real b, .int cx], rfl => exact ⟨rfl, rfl, rfl⟩
  case bqConfig =>
    match o, h with
    | .params [.int ty, .real f0, .real q, .real g, .int cx], rfl => exact ⟨rfl, rfl, rfl⟩
  case maConfig => match o, h with | .params [.int n], rfl => exact ⟨rfl, rfl, rfl⟩
  case bchConfig =>
    match o, h with
    | .params [.bits g, .int n, .int k, .int t, .bits fp], rfl => exact ⟨rfl, rfl, rfl⟩
  case gfMul | gfPow => match o, h with | .words a b, rfl => exact ⟨rfl, rfl, rfl⟩
  case firSetTaps | gfExp | gfLog | gfInv | bchEncode | bchSyndrome | bchCheck | bchCorrect | bchDecode
      | pgSetFilter =>
    match o, h with | .word w, rfl => exact ⟨rfl, rfl, rfl⟩
  case bsWaitForSync | hdReset | pgReset | outqDrain | coreReset =>
    match o, h with | .none, rfl => exact ⟨rfl, rfl, rfl⟩

/-! ### The command word (rules R101, R104) -/

/-- A code that stands for an operation is the code of its row. -/
theorem code_of_ofCode {c : Nat} {op : Op} (h : Op.ofCode c = some op) : op.code.toNat = c := by
  unfold Op.ofCode at h
  split at h
  all_goals cases h
  all_goals rfl

/-- A command word is its two fields. -/
theorem wordInst_append_wordCode (w : CmdWord) : wordInst w ++ wordCode w = w := by
  unfold wordInst wordCode
  ext k hk
  rw [BitVec.getElem_append]
  split
  · simp; rfl
  · simp [show 8 + (k - 8) = k by omega]; rfl

/-- A command decodes to what its code and its operand stand for, and to nothing else. -/
theorem decode_ok_iff {c : Command} {i : Instr} :
    decode c = .ok i ↔
      ∃ op, Op.ofCode (wordCode c.word).toNat = some op ∧
        shaped op (wordInst c.word) c.operand = some i := by
  unfold decode
  split
  · rename_i op hop
    split
    · rename_i j hj
      simp [hop, hj]
    · rename_i hj
      simp [hop, hj]
  · rename_i hop
    split <;> simp [hop]

end Sys2Proof

namespace Sys2Proof
namespace Settled

open Sys2Proof.Laws.EncodedWord

/-- Settles O1: the two fields of the word give the operation and the number, and the operand has
the shape of the operation. -/
theorem decodeEncode : Obligations.DecodeEncode := by
  unfold Obligations.DecodeEncode
  intro i hi
  obtain ⟨hinst, hop⟩ := of_wordOf i.inst i.op
  refine decode_ok_iff.mpr ⟨i.op, hop, ?_⟩
  rw [show wordInst (encode i).word = i.inst from hinst]
  exact shaped_operand i hi

/-- Settles O2: the row that was found has the code of the word, and every operand that is accepted is
read whole. -/
theorem encodeDecode : Obligations.EncodeDecode := by
  unfold Obligations.EncodeDecode
  intro c i h
  obtain ⟨op, hop, hshape⟩ := decode_ok_iff.mp h
  obtain ⟨rfl, hinst, hoperand⟩ := fields_of_shaped hshape
  have hcode : i.op.code = wordCode c.word := BitVec.eq_of_toNat_eq (code_of_ofCode hop)
  have hword : wordOf i.inst i.op = c.word := by
    unfold wordOf
    rw [hinst, hcode, wordInst_append_wordCode]
  unfold encode
  rw [hword, hoperand]

/-- Settles O3, row by row: each is a closed computation of the decoder or of a table of codes. -/
theorem tableWordsDecode : Obligations.TableWordsDecode := by
  unfold Obligations.TableWordsDecode
  refine ⟨by decide, by decide, by decide, by decide, by decide, by decide, by decide, by decide,
    by decide, by decide, by decide, by decide, by decide, rfl, rfl, rfl, fun _ _ _ _ => rfl, rfl⟩

end Settled
end Sys2Proof
end

section
/-!
SUPPORT. What a step does with a command (rules R101, R107, R152, R342, R363): the operations that a chain
issues, the operations of a unit the block does not have, and the commands that are no
operation of the table.
-/

namespace Sys2Proof
namespace Machine

open Sys2Proof.Claims

/-! ### What a chain issues (rules R109, R363) -/

/-- The operations that are issued for the elements of which `f` gives something. -/
theorem filterMap_eq_map_flatMap {α β γ : Type} {l : List α} {f : α → Option γ} {g : α → List β}
    {i : β → γ} (h : ∀ a, (f a).toList = (g a).map i) : l.filterMap f = (l.flatMap g).map i := by
  rw [List.filterMap_eq_flatMap_toList, List.map_flatMap]
  exact congrArg (l.flatMap ·) (funext h)

/-- The bits of a chained BS, each as a STEP of the decoder. -/
theorem bits_issue {bs : Inst} {o : Output} (step : Bool → Instr) :
    (o.bits.filterMap fun b => if b.inst = bs then some (step b.bit) else none) =
      (bitsOf bs o).map step :=
  filterMap_eq_map_flatMap fun b => by split <;> rfl

/-- What goes into PG: the rates as PG.SYNC, then the bits as PG.STEP. -/
theorem toPg_eq (M : Numerics) (bs pg : Inst) (o : Output) :
    toPg M bs pg o =
      (baudsOf bs o).map (fun baud => .pgSync pg (M.toB32 baud)) ++ (bitsOf bs o).map (.pgStep pg) := by
  unfold toPg
  rw [bits_issue]
  congr 1
  refine filterMap_eq_map_flatMap fun e => ?_
  obtain ⟨i, e⟩ := e
  cases e with
  | sync baud => dsimp only; split <;> rfl
  | _ => rfl

/-- What comes back from PG: as many BS.WAIT_FOR_SYNC as it asked for. -/
theorem toBs_eq (pg bs : Inst) (o : Output) :
    toBs pg bs o = List.replicate (o.events.count ⟨pg, .resyncReq⟩) (.bsWaitForSync bs) := by
  unfold toBs
  induction o.events with
  | nil => rfl
  | cons e l ih =>
    obtain ⟨i, e⟩ := e
    rw [List.filterMap_cons, List.count_cons, ih]
    by_cases h : e = .resyncReq ∧ i = pg
    · obtain ⟨rfl, rfl⟩ := h
      simp [List.replicate_succ]
    · have hne : (⟨i, e⟩ : Raised) ≠ ⟨pg, .resyncReq⟩ := fun he => h (by cases he; exact ⟨rfl, rfl⟩)
      simp [h, hne]

/-- The operations of a chain are those that the statements spell out. -/
theorem chainOps_eq (M : Numerics) (o : Output) (c : Chain) : chainOps M o c = chainIssues M o c := by
  obtain ⟨bs, target⟩ := c
  cases target with
  | hd hd => exact bits_issue (.hdStep hd)
  | pg pg =>
    show toPg M bs pg o ++ toBs pg bs o = _
    rw [toPg_eq, toBs_eq]
    rfl

/-- The pending commands after the chains have issued theirs. -/
theorem routed_eq (t : State) :
    routed t =
      { t with pending := (t.par.chains.flatMap (chainIssues t.num t.out)).map encode ++ t.pending } := by
  unfold routed followUps
  rw [show chainOps t.num t.out = chainIssues t.num t.out from funext (chainOps_eq t.num t.out)]

/-- An operation without an event and without a bit causes no other. -/
theorem routed_quiet {t : State} (hevents : t.out.events = []) (hbits : t.out.bits = []) :
    routed t = t := by
  have hnone : ∀ c, chainIssues t.num t.out c = [] := by
    rintro ⟨bs, hd | pg⟩
    · simp [chainIssues, bitsOf, hbits]
    · simp [chainIssues, bitsOf, baudsOf, hbits, hevents]
  rw [routed_eq, List.flatMap_eq_nil_iff.mpr fun c _ => hnone c]
  rfl

/-- A step takes the first command and runs it. -/
theorem step_pending {s : State} {c : Command} {rest : List Command} (h : s.pending = c :: rest) :
    step s = routedOutcome (runCommand c { s with pending := rest }) := by
  unfold step takeCommand
  rw [h]

/-- A step whose command is rejected. -/
theorem step_rejected {s : State} {c : Command} {rest : List Command} {e : Status}
    (h : s.pending = c :: rest)
    (hc : runCommand c { s with pending := rest } = .next (rejected { s with pending := rest } e)) :
    step s = .next (rejected { s with pending := rest } e) := by
  rw [step_pending h, hc]
  exact congrArg Host.Outcome.next (routed_quiet rfl rfl)

/-- A step whose command is executed without an event and without a bit. -/
theorem step_done {s t : State} {c : Command} {rest : List Command} {r : Result}
    (h : s.pending = c :: rest)
    (hc : runCommand c { s with pending := rest } = .next (done t r)) :
    step s = .next (done t r) := by
  rw [step_pending h, hc]
  exact congrArg Host.Outcome.next (routed_quiet rfl rfl)

/-! ### Units that the block does not have (rules R101, R107) -/

section Missing

variable {s : State} {inst : Inst}

/-- A rule that looks up a unit the block does not have. -/
theorem pick_missing {α β : Type} {l : List α} (h : l.length ≤ inst.toNat) (f : α → Ans β) :
    (pick l inst >>= f) = .error badCommand :=
  error_bind (pick_error.mpr ⟨h, rfl⟩) f

/-- A data operation of a code that is not there. -/
theorem codeOf_missing (h : s.bch.length ≤ inst.toNat) : codeOf s inst = .error badCommand :=
  pick_missing h _

/-- Another number than 0, where 0 is the only one. -/
theorem onlyInstance_missing {β : Type} (h : 1 ≤ inst.toNat) (f : Unit → Ans β) :
    (onlyInstance inst >>= f) = .error badCommand := by
  have hne : inst ≠ 0 := by
    rintro rfl
    exact absurd h (by decide)
  refine error_bind ?_ f
  unfold onlyInstance
  rw [if_neg hne]

/-- The look-up of the unit is the first check of every operation (rule R359). -/
theorem exec_missing {i : Instr} (h : instances s (unitOf i) ≤ i.inst.toNat) :
    exec i s = .next (rejected s badCommand) := by
  rw [unitOf_eq] at h
  cases i
  case gfExp | gfLog | gfMul | gfInv | gfPow | bchEncode | bchSyndrome | bchCheck | bchCorrect
      | bchDecode =>
    exact conclude_rejected (error_bind (codeOf_missing h) _)
  case outqDrain | coreReset => exact conclude_rejected (onlyInstance_missing h _)
  case pipeStep | bsStep => exact concludeBits_rejected (pick_missing h _)
  all_goals exact conclude_rejected (pick_missing h _)

end Missing

/-- What the decoder gives is well formed, or names OUTQ or the block by another number than 0. -/
theorem decode_wellFormed_or_missing {c : Command} {i : Instr} (h : decode c = .ok i) (s : State) :
    i.wellFormed = true ∨ instances s (unitOf i) ≤ i.inst.toNat := by
  have number : ∀ inst : Inst, (inst == 0) = true ∨ 1 ≤ inst.toNat := fun inst => by
    rcases Nat.eq_zero_or_pos inst.toNat with h0 | hpos
    · exact .inl (beq_iff_eq.mpr (BitVec.eq_of_toNat_eq h0))
    · exact .inr hpos
  rw [unitOf_eq]
  cases i
  case outqDrain inst => exact number inst
  case coreReset inst => exact number inst
  all_goals exact .inl (decode_wellFormed h (by simp [unitRow]))

end Machine
end Sys2Proof

namespace Sys2Proof
namespace Settled

open Sys2Proof.Machine Sys2Proof.Claims

/-- Settles O4: the step runs the command it takes, and what the chains issue is `routed`. -/
theorem stepRunsDecoded : Obligations.StepRunsDecoded := by
  unfold Obligations.StepRunsDecoded
  intro s c rest i hs hc
  have hrun : runCommand c { s with pending := rest } = exec i { s with pending := rest } := by
    unfold runCommand
    rw [hc]
  rw [step_pending hs, hrun]
  cases exec i { s with pending := rest } with
  | next t => exact congrArg Host.Outcome.next (routed_eq t)
  | fault r => rfl
  | refused r => rfl

/-- Settles O6: the look-up of the named unit is the first check of every operation. -/
theorem missingInstanceRejected : Obligations.MissingInstanceRejected := by
  unfold Obligations.MissingInstanceRejected
  exact fun i s h => exec_missing h

end Settled
end Sys2Proof
end

section
/-!
SUPPORT. The commands of the custom space (rules R107, R140, R152): the fields of their words, and what
INIT and STEP of a bound node come to.
-/

namespace Sys2Proof
namespace Machine

open Sys2Proof.Claims

/-! ### The fields of a command word as numbers (rule R101) -/

theorem wordCode_toNat (w : CmdWord) : (wordCode w).toNat = w.toNat % 256 := by
  simp [wordCode]

theorem wordUnit_eq (w : CmdWord) : wordUnit w = BitVec.ofNat 4 (w.toNat % 256 / 16) := by
  refine BitVec.eq_of_toNat_eq ?_
  simp [wordUnit, Nat.shiftRight_eq_div_pow]
  omega

theorem wordOp_eq (w : CmdWord) : wordOp w = BitVec.ofNat 4 (w.toNat % 256) := by
  refine BitVec.eq_of_toNat_eq ?_
  simp [wordOp]

/-- The identity that a command word names: bits 15:4. -/
theorem nidOf_word (w : CmdWord) :
    nidOf (wordUnit w) (wordInst w) =
      BitVec.ofNat 12 (w.toNat / 256 * 16 + w.toNat % 256 / 16) := by
  have hbits : nidOf (wordUnit w) (wordInst w) = w.extractLsb' 4 12 :=
    BitVec.extractLsb'_append_extractLsb'_eq_extractLsb' rfl
  rw [hbits]
  refine BitVec.eq_of_toNat_eq ?_
  simp [Nat.shiftRight_eq_div_pow]
  omega

/-! ### Commands that are no operation (rule R107) -/

section Decode

variable {c : Command}

/-- No operation of the table has a code of the custom space. -/
theorem ofCode_custom {n : Nat} (hlo : 0xA0 ≤ n) (hhi : n < 0xF0) : Op.ofCode n = none := by
  cases h : Op.ofCode n with
  | none => rfl
  | some op =>
    have hcode := code_of_ofCode h
    cases op
    all_goals
      simp [Op.code] at hcode
      omega

theorem decode_custom (hlo : 0xA0 ≤ (wordCode c.word).toNat) (hhi : (wordCode c.word).toNat < 0xF0) :
    decode c = .error .customUnit := by
  unfold decode
  rw [ofCode_custom hlo hhi]
  exact if_pos ⟨hlo, hhi⟩

/-- A command of the custom space is routed to the node it names. -/
theorem runCommand_custom (hlo : 0xA0 ≤ (wordCode c.word).toNat)
    (hhi : (wordCode c.word).toNat < 0xF0) (s : State) :
    runCommand c s =
      execExternal (nidOf (wordUnit c.word) (wordInst c.word)) (wordOp c.word) c.operand s := by
  unfold runCommand
  rw [decode_custom hlo hhi]

/-- Outside the custom space a command that is no operation is not routed. -/
theorem decode_not_custom
    (h : ¬ (0xA0 ≤ (wordCode c.word).toNat ∧ (wordCode c.word).toNat < 0xF0)) :
    decode c ≠ .error .customUnit := by
  unfold decode
  split
  · split <;> exact nofun
  · rw [if_neg h]
    exact nofun

/-- A command outside the custom space that is no operation, or one of a unit the block does not
have. -/
theorem runCommand_rejected {s : State}
    (hcustom : ¬ (0xA0 ≤ (wordCode c.word).toNat ∧ (wordCode c.word).toNat < 0xF0))
    (h : ∀ i, decode c = .ok i → instances s (unitOf i) ≤ i.inst.toNat) :
    runCommand c s = .next (rejected s badCommand) := by
  unfold runCommand
  split
  · rename_i i hi
    exact exec_missing (h i hi)
  · rename_i hi
    exact absurd hi (decode_not_custom hcustom)
  · rfl

end Decode

/-! ### INIT and STEP of a bound node (rules R140, R152) -/

/-- An answer has a type where the statements say so. -/
theorem hasType_iff_typed {t : Tag} {w : Option Sample} : hasType t w = true ↔ typed t w := by
  cases w <;> simp [hasType, typed]

/-- The record of a node after an INIT is the one that the statements spell out. -/
theorem extInited_eq_initialised (M : Numerics) (e : Ext) (x r : RealVal) (st : Nat) :
    extInited M e x r st = initialised M e x r st := by
  unfold extInited initialised
  cases e.inits.find? fun p => p.1 == x <;> rfl

section External

variable {s : State} {n : Nid} {e : Ext} {op : BitVec 4}

/-- The bound nodes after the record of one is replaced. -/
theorem putExt_eq (n : Nid) (e : Ext) (s : State) :
    putExt n e s = { s with ext := s.ext.map fun x => if x.nid = n then e else x } := by
  simp only [putExt, beq_iff_eq]

theorem execExternal_unbound (h : findExt s n = none) (o : Operand) :
    execExternal n op o s = .next (rejected s badCommand) := by
  unfold execExternal
  rw [h]
  rfl

/-- Another code, or an operand that is not of the code's shape. -/
theorem execExternal_neither {o : Operand}
    (hinit : ∀ r, Config.extOpCode (nidUnit n) op = some .init → o ≠ .rate r)
    (hstep : ∀ v, Config.extOpCode (nidUnit n) op = some .step → o ≠ .sample v) :
    execExternal n op o s = .next (rejected s badCommand) := by
  refine conclude_rejected ?_
  split
  · rename_i hop
    exact absurd rfl (hinit _ hop)
  · rename_i hop
    exact absurd rfl (hstep _ hop)
  · rfl

/-- A rule that checks the owner first, on an owned node (rule R152). -/
theorem owned_rejected (hn : n ∈ s.used) (f : Unit → Ans Done) :
    conclude s (notOwned s n >>= f) = .next (rejected s (.contract .nodeOwned)) :=
  conclude_rejected (error_bind (notOwned_error.mpr ⟨hn, rfl⟩) f)

/-- `init` of a bound node checks the rate and nothing else. -/
theorem extInitAt_bound (h : findExt s n = some e) (x : RealVal) :
    extInitAt n x s = positiveRate s.num x >>= fun _ =>
      .ok ((extInitOf s.num e x).1, putExt n
        (initialised s.num e x (extInitOf s.num e x).1 (extInitOf s.num e x).2) s) := by
  unfold extInitAt
  rw [h]
  dsimp only
  rw [← extInited_eq_initialised]

/-- INIT of a bound node at the command port: the owner, then the rate, then the node. -/
theorem execExternal_init (h : findExt s n = some e)
    (hop : Config.extOpCode (nidUnit n) op = some .init) (r : B32) :
    (n ∈ s.used → execExternal n op (.rate r) s = .next (rejected s (.contract .nodeOwned))) ∧
    (n ∉ s.used → s.num.pos (s.num.ofB32 r) = false →
      execExternal n op (.rate r) s = .next (rejected s badArgument)) ∧
    (n ∉ s.used → s.num.pos (s.num.ofB32 r) = true → ∃ v st, execExternal n op (.rate r) s = .next
      (done { s with ext := s.ext.map fun x =>
        if x.nid = n then initialised s.num e (s.num.ofB32 r) v st else x } (.rate v))) := by
  have hexec : execExternal n op (.rate r) s = conclude s (do
      notOwned s n
      let p ← extInitAt n (s.num.ofB32 r) s
      .ok ⟨p.2, .rate p.1, []⟩) := by
    unfold execExternal
    rw [h, hop]
  rw [hexec]
  refine ⟨fun hn => owned_rejected hn _, fun hn hx => ?_, fun hn hx => ?_⟩
  · rw [notOwned_bind hn, extInitAt_bound h]
    exact conclude_rejected (error_bind (error_bind (positiveRate_error.mpr ⟨hx, rfl⟩) _) _)
  · rw [notOwned_bind hn, extInitAt_bound h, positiveRate_ok (x := ()).mpr hx, putExt_eq]
    exact ⟨_, _, rfl⟩

/-- A sample has the type that its form on the port says (rule R103). -/
theorem sampleOf_tag (M : Numerics) (v : PortSample) : (sampleOf M v).tag = portTag v := by
  cases v <;> rfl

/-- `step` of a bound node that is not in RUN. -/
theorem extStepAt_notRun (h : findExt s n = some e) (hr : e.ph ≠ .run) (x : Sample) :
    extStepAt n x s = .error badPhase := by
  unfold extStepAt
  rw [h]
  exact if_pos (bne_iff_ne.mpr hr)

/-- `step` of a bound node in RUN: only its record is written, and an answer of another type breaks the
contract. -/
theorem extStepAt_run {x : Sample} (h : findExt s n = some e) (hr : e.ph = .run)
    (hx : x.tag = e.inT) :
    ∃ o st, extStepAt n x s = .ok o ∧ o.evs = [] ∧ o.st = putExt n { e with st := st } s ∧
      (o.broke = false → hasType e.outT o.out = true) := by
  unfold extStepAt
  rw [h]
  dsimp only
  rw [if_neg (by simp [hr]), if_neg (by simp [hx])]
  refine ⟨_, _, rfl, rfl, rfl, fun hb => ?_⟩
  simpa [Stepped.quiet] using (Bool.or_eq_false_iff.mp hb).2

/-- What the command port answers to a step of a node is of the declared type. -/
theorem settled_typed {t : Tag} {o : Stepped} (h : o.broke = false → hasType t o.out = true) :
    ∃ w k, settled t o = (w, { o.st with freeIx := k }) ∧ typed t w := by
  obtain ⟨hb, hs⟩ | ⟨-, w, k, hs, hw⟩ := settled_cases t o
  · exact ⟨o.out, o.st.freeIx, hs, hasType_iff_typed.mp (h hb)⟩
  · exact ⟨w, k, hs, hasType_iff_typed.mp hw⟩

/-- STEP of a bound node at the command port: the type of the sample, the owner, the phase, then the
node. -/
theorem execExternal_step (h : findExt s n = some e)
    (hop : Config.extOpCode (nidUnit n) op = some .step) (v : PortSample) :
    (portTag v ≠ e.inT → execExternal n op (.sample v) s = .next (rejected s badCommand)) ∧
    (portTag v = e.inT → n ∈ s.used →
      execExternal n op (.sample v) s = .next (rejected s (.contract .nodeOwned))) ∧
    (portTag v = e.inT → n ∉ s.used → e.ph ≠ .run →
      execExternal n op (.sample v) s = .next (rejected s badPhase)) ∧
    (portTag v = e.inT → n ∉ s.used → e.ph = .run → ∃ w st k, typed e.outT w ∧
      execExternal n op (.sample v) s = .next (done
        { s with ext := s.ext.map (fun x => if x.nid = n then { e with st := st } else x), freeIx := k }
        (.sample w))) := by
  have hexec : execExternal n op (.sample v) s = conclude s (if portTag v = e.inT then (do
      notOwned s n
      let o ← extStepAt n (sampleOf s.num v) s
      .ok ⟨(settled e.outT o).2, .sample (settled e.outT o).1, o.evs⟩) else .error badCommand) := by
    unfold execExternal
    rw [h, hop]
  rw [hexec]
  refine ⟨fun hv => ?_, fun hv hn => ?_, fun hv hn hr => ?_, fun hv hn hr => ?_⟩
  · exact conclude_rejected (if_neg hv)
  all_goals rw [if_pos hv]
  · exact owned_rejected hn _
  · rw [notOwned_bind hn]
    exact conclude_rejected (error_bind (extStepAt_notRun h hr _) _)
  · obtain ⟨o, st, ho, hevs, hst, htype⟩ := extStepAt_run h hr ((sampleOf_tag s.num v).trans hv)
    obtain ⟨w, k, hs, hw⟩ := settled_typed htype
    rw [putExt_eq] at hst
    rw [notOwned_bind hn, ho]
    refine ⟨w, st, k, hw, ?_⟩
    show Host.Outcome.next (accept ⟨(settled e.outT o).2, .sample (settled e.outT o).1, o.evs⟩ []) = _
    rw [hs, hevs, hst]
    rfl

end External

end Machine
end Sys2Proof

namespace Sys2Proof
namespace Settled

open Sys2Proof.Machine Sys2Proof.Claims

/-- Settles O5. Outside the custom space: the code of a command that decodes is in the table, and what it
decodes to is well formed or names no unit. In the custom space: the command is routed, by the code
and the shape of its operand. -/
theorem reservedCommandRejected : Obligations.ReservedCommandRejected := by
  unfold Obligations.ReservedCommandRejected
  intro s c rest hs code custom s' bad
  have hcode : (wordCode c.word).toNat = code := wordCode_toNat c.word
  refine ⟨fun h => ?_, ?_⟩
  · have hcustom : ¬ custom := h.elim And.right And.left
    refine step_rejected hs (runCommand_rejected (by rwa [hcode]) fun i hi => ?_)
    obtain ⟨hreserved, -⟩ | ⟨-, hnone⟩ := h
    · obtain ⟨op, hop, -⟩ := decode_ok_iff.mp hi
      refine absurd ?_ hreserved
      rw [← hcode, ← code_of_ofCode hop]
      cases op <;> decide
    · obtain hwf | hmissing := decode_wellFormed_or_missing hi s'
      · exact absurd (encodeDecode c i hi).symm (hnone i hwf)
      · exact hmissing
  · rintro ⟨hlo, hhi⟩ n bound
    have hrun : runCommand c s' = execExternal n (BitVec.ofNat 4 code) c.operand s' := by
      rw [runCommand_custom (hcode ▸ hlo) (hcode ▸ hhi), nidOf_word, wordOp_eq]
    have hunit : nidUnit n = BitVec.ofNat 4 (code / 16) := by
      rw [← wordUnit_eq, ← nidUnit_nidOf (wordUnit c.word) (wordInst c.word), nidOf_word]
    refine ⟨fun hf => ?_, fun e hf => ?_⟩
    · exact step_rejected hs (hrun.trans (execExternal_unbound (s := s') hf _))
    · rw [← hunit]
      split
      · rename_i r hop hoperand
        obtain ⟨howned, hrate, hinit⟩ := execExternal_init (s := s') hf hop r
        rw [hoperand] at hrun
        refine ⟨fun hn => step_rejected hs (hrun.trans (howned hn)),
          fun hn hx => step_rejected hs (hrun.trans (hrate hn hx)), fun hn hx => ?_⟩
        obtain ⟨v, st, hdone⟩ := hinit hn hx
        exact ⟨v, st, step_done hs (hrun.trans hdone)⟩
      · rename_i v hop hoperand
        obtain ⟨htype, howned, hphase, hstep⟩ := execExternal_step (s := s') hf hop v
        rw [hoperand] at hrun
        refine ⟨fun hv => step_rejected hs (hrun.trans (htype hv)),
          fun hv hn => step_rejected hs (hrun.trans (howned hv hn)),
          fun hv hn hr => step_rejected hs (hrun.trans (hphase hv hn hr)), fun hv hn hr => ?_⟩
        obtain ⟨w, st, k, hw, hdone⟩ := hstep hv hn hr
        exact ⟨w, st, k, hw, step_done hs (hrun.trans hdone)⟩
      · rename_i hinit hstep
        refine step_rejected hs (hrun.trans (execExternal_neither ?_ ?_))
        · exact fun r hop ho => hinit r hop ho
        · exact fun v hop ho => hstep v hop ho

end Settled
end Sys2Proof
end

section
/-!
SUPPORT. The STEP of the recursive units BQ and MA (rules R189, R190, R202, R203), and the STEP of a unit
with a sample of another type (rules R107, R175, R176, R189, R190).
-/

namespace Sys2Proof
namespace Machine

open Sys2Proof.Claims

section Step

variable {s : State} {inst : Inst}

/-! ### A sample of another type -/

theorem firStepAt_mistyped {c : FirCfg} {r : FirReg} (hu : s.fir[inst.toNat]? = some (.run c r))
    (hcx : c.cx = true) (x : RealVal) (q : Contract) :
    firStepAt inst x q s = .error (.contract .typeMismatch) := by
  unfold firStepAt
  rw [pick_bind hu]
  simp only [hcx]

theorem fircStepAt_mistyped {c : FirCfg} {r : FirReg} (hu : s.fir[inst.toNat]? = some (.run c r))
    (hcx : c.cx = false) (z : Cplx) (q : Contract) :
    fircStepAt inst z q s = .error (.contract .typeMismatch) := by
  unfold fircStepAt
  rw [pick_bind hu]
  simp only [hcx]

theorem bqStepAt_mistyped {c : BqCfg} {r : BqReg} (hu : s.bq[inst.toNat]? = some (.run c r))
    (hcx : c.cx = true) (x : RealVal) (q : Contract) :
    bqStepAt inst x q s = .error (.contract .typeMismatch) := by
  unfold bqStepAt
  rw [pick_bind hu]
  simp only [hcx]

theorem bqcStepAt_mistyped {c : BqCfg} {r : BqReg} (hu : s.bq[inst.toNat]? = some (.run c r))
    (hcx : c.cx = false) (z : Cplx) (q : Contract) :
    bqcStepAt inst z q s = .error (.contract .typeMismatch) := by
  unfold bqcStepAt
  rw [pick_bind hu]
  simp only [hcx]

/-- A direct STEP of a unit in RUN that no composite owns raises what its body raises. -/
theorem direct_rejected {C R β : Type} {l : List (Life C R)} {c : C} {r : R} {n : Nid} {e : Status}
    {body : Ans β} (hu : l[inst.toNat]? = some (.run c r)) (hn : n ∉ s.used) (h : body = .error e)
    (f : β → Ans Done) :
    conclude s (pick l inst >>= fun _ => notOwned s n >>= fun _ => body >>= f) =
      .next (rejected s e) :=
  conclude_rejected (unowned_error (by rw [hu]; rfl) hn h f)

/-- The operand of a PIPE.STEP is checked against the type of the composite before anything else. -/
theorem execPipeStep_mistyped {c : PipeCfg} {v : PortSample}
    (hc : isConfigured s.pipe[inst.toNat]? c) (hv : portTag v ≠ c.inT) :
    execPipeStep inst v s = .next (rejected s badCommand) := by
  have hfits : ∀ u : Pipe, u = .conf c ∨ (∃ r, u = .run c r) → pipeOperandFits u v = .error badCommand := by
    rintro u (rfl | ⟨r, rfl⟩)
    all_goals exact if_neg hv
  refine concludeBits_rejected ?_
  obtain hu | ⟨r, hu⟩ := hc
  · rw [pick_bind hu]
    exact error_bind (hfits _ (.inl rfl)) _
  · rw [pick_bind hu]
    exact error_bind (hfits _ (.inr ⟨r, rfl⟩)) _

/-! ### The ticks -/

theorem bqStepAt_run {c : BqCfg} {r r' : BqReg} {d : Delay RealVal} {x y : RealVal} {q : Contract}
    (hu : s.bq[inst.toNat]? = some (.run c r)) (hcx : c.cx = false) (hd : r.mem = .real d)
    (hr : bqTick s.num r d x q = (r', y)) :
    bqStepAt inst x q s =
      .ok ((openReal r'.standing.anyOut y s).1,
        putBq inst (.run c r') (openReal r'.standing.anyOut y s).2) := by
  unfold bqStepAt
  rw [pick_bind hu]
  simp only [hcx, hd, hr]

theorem bqcStepAt_run {c : BqCfg} {r r' : BqReg} {d : Delay Cplx} {z y : Cplx} {q : Contract}
    (hu : s.bq[inst.toNat]? = some (.run c r)) (hcx : c.cx = true) (hd : r.mem = .cplx d)
    (hr : bqcTick s.num r d z q = (r', y)) :
    bqcStepAt inst z q s =
      .ok ((openCplx r'.standing.anyOut y s).1,
        putBq inst (.run c r') (openCplx r'.standing.anyOut y s).2) := by
  unfold bqcStepAt
  rw [pick_bind hu]
  simp only [hcx, hd, hr]

theorem maStepAt_run {c : MaCfg} {r r' : MaReg} {x : RealVal} {q : Contract}
    (hu : s.ma[inst.toNat]? = some (.run c r)) (hr : maTick s.num c r x q = r') :
    maStepAt inst x q s =
      .ok ((openReal r'.standing.anyOut (maOutput s.num c r') s).1,
        putMa inst (.run c r') (openReal r'.standing.anyOut (maOutput s.num c r') s).2) := by
  subst hr
  unfold maStepAt
  rw [pick_bind hu]

end Step

/-- The sum of MA, with the condition of the rule as a proposition (rules R202, R203). -/
theorem maSum_eq (M : Numerics) (n : Nat) (r : MaReg) (x : RealVal) :
    maSum M n r x =
      if M.eq x M.zero ∧ n ≤ maZrun M n r.zrun x then M.zero
      else M.add r.sum (M.sub x (r.ring.getD r.wp M.zero)) := by
  unfold maSum
  simp only [Bool.and_eq_true, decide_eq_true_eq]
  rfl

end Machine
end Sys2Proof

namespace Sys2Proof
namespace Settled

open Sys2Proof.Machine Sys2Proof.Claims

/-- Settles O33: STEP checks the type of the sample against the configuration before anything else. -/
theorem wrongSampleType : Obligations.WrongSampleType := by
  unfold Obligations.WrongSampleType
  refine ⟨fun s inst x y cf rf cb rb => ⟨fun hu hn => ⟨fun hcx => ?_, fun hcx => ?_⟩,
    fun hu hn => ⟨fun hcx => ?_, fun hcx => ?_⟩⟩, fun s inst v c hc hv => execPipeStep_mistyped hc hv⟩
  · exact direct_rejected hu hn (firStepAt_mistyped hu hcx _ _) _
  · exact direct_rejected hu hn (fircStepAt_mistyped hu hcx _ _) _
  · exact direct_rejected hu hn (bqStepAt_mistyped hu hcx _ _) _
  · exact direct_rejected hu hn (bqcStepAt_mistyped hu hcx _ _) _

/-- Settles O38: the recurrence spelled out is `bqOutput`, for a complex sample on both parts, and the
outputs are open where the standing of the tick says so. -/
theorem bqSteps : Obligations.BqSteps := by
  unfold Obligations.BqSteps
  intro s inst a b c r hu hn M k out u
  refine ⟨fun d hcx hd => ?_, fun d hcx hd => ?_⟩
  · intro x y numbers bq free
    exact leads_opened (put := putBq inst (.run c (bqTick M r d x (realContract M x)).1))
      (opened_iff (realContract_judges M x) fun h => by simp only [numbers, h, Bool.false_and])
      (openReal_cases ..)
      (conclude_direct (.sample <| some <| .real ·) hu hn (bqStepAt_run hu hcx hd rfl))
  · intro z y numbers bq free
    exact leads_opened (put := putBq inst (.run c (bqcTick M r d z (cplxContract M z)).1))
      (opened_iff (cplxContract_judges M z) fun h => by simp only [numbers, h, Bool.false_and])
      (openCplx_cases ..)
      (conclude_direct (.sample <| some <| .cplx ·) hu hn (bqcStepAt_run hu hcx hd rfl))

/-- Settles O40: the registers spelled out are those of the tick, and the outputs are open where its
standing says so. -/
theorem maStep : Obligations.MaStep := by
  unfold Obligations.MaStep
  intro s inst x c r hu hn hlen hwp M v evicted zrun sum n rounded numbers u free
  have hsum : maSum M c.n r v = sum := maSum_eq M c.n r v
  have hrounded : maRounds M c.n r v = rounded := by
    unfold maRounds
    rw [hsum]
    rfl
  have htick : maTick M c r v (realContract M v) =
      { ring := r.ring.set r.wp v, wp := (r.wp + 1) % c.n, sum := sum, zrun := zrun
        standing := r.standing.after (realContract M v) rounded numbers } := by
    unfold maTick
    rw [memWrite_of_lt (hlen ▸ hwp), hsum, hrounded]
    rfl
  exact leads_opened (put := putMa inst u)
    (opened_iff (realContract_judges M v) fun h => by simp only [numbers, h, Bool.false_and])
    (openReal_cases ..)
    (conclude_direct (.sample <| some <| .real ·) hu hn (maStepAt_run hu htick))

end Settled
end Sys2Proof
end

section
/-!
SUPPORT. The text of a page (rules R120, R121, R315, R316): the bits that the rolling character register
holds, the characters of a stream of payload bits, and what data words append to a message.
-/

namespace Sys2Proof
namespace Machine

open Sys2Proof.Claims

/-! ### Characters of a stream of bits (rule R120) -/

section Chars

variable {w l : List Bool}

/-- A character is made of its own seven bits. -/
theorem charAt_congr {w l : List Bool} {k i : Nat}
    (h : ∀ j < 7, w.getD (7 * k + j) false = l.getD (7 * i + j) false) : charAt w k = charAt l i := by
  unfold charAt
  congr 1
  exact List.foldl_ext _ _ _ fun a j hj => by rw [h j (List.mem_range.mp hj)]

/-- Bits that make up whole characters are followed by the characters of the rest. -/
theorem chars_append {k : Nat} (hw : w.length = 7 * k) (l : List Bool) :
    chars (w ++ l) = chars w ++ chars l := by
  unfold chars
  have hlen : (w ++ l).length / 7 = k + l.length / 7 := by
    rw [List.length_append, hw]
    omega
  rw [hlen, hw, Nat.mul_div_cancel_left k (by decide), List.range_add, List.map_append, List.map_map]
  congr 1
  · refine List.map_congr_left fun i hi => charAt_congr fun j hj => ?_
    have := List.mem_range.mp hi
    rw [List.getD_append _ _ _ _ (by omega)]
  · refine List.map_congr_left fun i hi => ?_
    show charAt (w ++ l) (k + i) = charAt l i
    refine charAt_congr fun j hj => ?_
    rw [List.getD_append_right _ _ _ _ (by omega)]
    congr 1
    omega

/-- What is left over after the last whole character of a stream. -/
def leftOver (l : List Bool) : List Bool := l.drop (7 * (l.length / 7))

theorem leftOver_append {k : Nat} (hw : w.length = 7 * k) (l : List Bool) :
    leftOver (w ++ l) = leftOver l := by
  unfold leftOver
  have hlen : 7 * ((w ++ l).length / 7) = w.length + 7 * (l.length / 7) := by
    rw [List.length_append, hw]
    omega
  rw [hlen, List.drop_append]
  simp

theorem leftOver_of_lt (h : l.length < 7) : leftOver l = l := by
  unfold leftOver
  rw [Nat.div_eq_of_lt h]
  rfl

theorem chars_of_lt (h : l.length < 7) : chars l = [] := by
  unfold chars
  rw [Nat.div_eq_of_lt h]
  rfl

theorem chars_of_seven (h : l.length = 7) : chars l = [charAt l 0] := by
  unfold chars
  rw [h]
  rfl

theorem leftOver_of_seven (h : l.length = 7) : leftOver l = [] := by
  unfold leftOver
  exact List.drop_eq_nil_of_le (by omega)

/-- The characters of two streams in a row: what the first leaves over goes before the second. -/
theorem chars_leftOver_append (w l : List Bool) :
    chars w ++ chars (leftOver w ++ l) = chars (w ++ l) ∧
      leftOver (leftOver w ++ l) = leftOver (w ++ l) := by
  have hk : (w.take (7 * (w.length / 7))).length = 7 * (w.length / 7) := by
    rw [List.length_take]
    omega
  have hsplit : w = w.take (7 * (w.length / 7)) ++ leftOver w := (List.take_append_drop _ w).symm
  have hlt : (leftOver w).length < 7 := by
    unfold leftOver
    rw [List.length_drop]
    omega
  generalize w.take (7 * (w.length / 7)) = v at *
  generalize leftOver w = u at *
  subst hsplit
  rw [List.append_assoc, chars_append hk, chars_append hk, leftOver_append hk, chars_of_lt hlt,
    List.append_nil]
  exact ⟨rfl, rfl⟩

end Chars

/-! ### The rolling character register (rules R75, R315) -/

theorem shiftIn_getLsbD_zero {w : Nat} (hw : 0 < w) (v : BitVec w) (b : Bool) :
    (shiftIn v b).getLsbD 0 = b := by
  cases b <;> simp [shiftIn, hw]

theorem shiftIn_getLsbD_succ {w : Nat} (v : BitVec w) (b : Bool) {k : Nat} (hk : k + 1 < w) :
    (shiftIn v b).getLsbD (k + 1) = v.getLsbD k := by
  cases b
  all_goals
    simp [shiftIn, hk]
    rfl

/-- The bits of a register of which the newest `n` count, in order of arrival. -/
def heldBits {w : Nat} (v : BitVec w) (n : Nat) : List Bool :=
  (List.range n).map fun i => v.getLsbD (n - 1 - i)

theorem carried_eq (m : PgMsg) : carried m = heldBits m.sr7 m.sr7n := rfl

/-- A register of seven bits, read in order of arrival, is a character. -/
theorem rev_eq_charAt : ∀ v : BitVec 7, rev v = charAt (heldBits v 7) 0 := by decide

theorem heldBits_shiftIn {w : Nat} (v : BitVec w) (b : Bool) {n : Nat} (hn : n + 1 ≤ w) :
    heldBits (shiftIn v b) (n + 1) = heldBits v n ++ [b] := by
  unfold heldBits
  rw [List.range_succ, List.map_append, List.map_singleton]
  congr 1
  · refine List.map_congr_left fun i hi => ?_
    have := List.mem_range.mp hi
    rw [show n + 1 - 1 - i = (n - 1 - i) + 1 by omega, shiftIn_getLsbD_succ _ _ (by omega)]
  · rw [show n + 1 - 1 - n = 0 by omega, shiftIn_getLsbD_zero (by omega)]

/-- What data words do to the message in progress: their payload bits, each word's left-over bits carried
on, and their numerals are appended, and the words are counted. -/
structure Appends (m m' : PgMsg) (bits : List Bool) (nums : List (BitVec 4)) (words : Nat) : Prop where
  hasAddr : m'.hasAddr = m.hasAddr
  addr18 : m'.addr18 = m.addr18
  func : m'.func = m.func
  pos : m'.pos = m.pos
  invalid : m'.invalid = m.invalid
  ndata : m'.ndata = min (m.ndata + words) Config.u32Max
  numt : m'.numt = m.numt ++ nums
  alpha : m'.alpha = m.alpha ++ chars (carried m ++ bits)
  carry : carried m' = leftOver (carried m ++ bits)
  room : m'.sr7n ≤ 6

theorem carried_length (m : PgMsg) : (carried m).length = m.sr7n := by simp [carried]

theorem Appends.ndata_le {m m' : PgMsg} {bits : List Bool} {nums : List (BitVec 4)} {k : Nat}
    (h : Appends m m' bits nums k) : m'.ndata ≤ Config.u32Max := by
  rw [h.ndata]
  exact Nat.min_le_right _ _

/-- The message itself, before any data word. -/
theorem Appends.refl {m : PgMsg} (hn : m.sr7n ≤ 6) (hd : m.ndata ≤ Config.u32Max) :
    Appends m m [] [] 0 := by
  have hlt : (carried m ++ []).length < 7 := by
    rw [List.append_nil, carried_length]
    omega
  exact
    { hasAddr := rfl, addr18 := rfl, func := rfl, pos := rfl, invalid := rfl, room := hn
      ndata := (Nat.min_eq_left hd).symm
      numt := (List.append_nil _).symm
      alpha := by rw [chars_of_lt hlt, List.append_nil]
      carry := by rw [leftOver_of_lt hlt, List.append_nil] }

/-- Data words after data words. -/
theorem Appends.trans {m m' m'' : PgMsg} {bits bits' : List Bool} {nums nums' : List (BitVec 4)}
    {k k' : Nat} (h : Appends m m' bits nums k) (h' : Appends m' m'' bits' nums' k') :
    Appends m m'' (bits ++ bits') (nums ++ nums') (k + k') := by
  obtain ⟨hchars, hleft⟩ := chars_leftOver_append (carried m ++ bits) bits'
  exact
    { hasAddr := h'.hasAddr.trans h.hasAddr
      addr18 := h'.addr18.trans h.addr18
      func := h'.func.trans h.func
      pos := h'.pos.trans h.pos
      invalid := h'.invalid.trans h.invalid
      room := h'.room
      ndata := by rw [h'.ndata, h.ndata]; omega
      numt := by rw [h'.numt, h.numt, List.append_assoc]
      alpha := by
        rw [h'.alpha, h.alpha, h.carry, List.append_assoc, hchars, List.append_assoc]
      carry := by rw [h'.carry, h.carry, hleft, List.append_assoc] }

/-- One payload bit joins the register, and every seventh completes a character. -/
theorem pushTextBit_cases {m : PgMsg} (hn : m.sr7n ≤ 6) (b : Bool) :
    ∃ sr n, n ≤ 6 ∧ heldBits sr n = leftOver (carried m ++ [b]) ∧
      pushTextBit m b =
        { m with alpha := m.alpha ++ chars (carried m ++ [b]), sr7 := sr, sr7n := n } := by
  have hheld : heldBits (shiftIn m.sr7 b) (m.sr7n + 1) = carried m ++ [b] := heldBits_shiftIn _ _ (by omega)
  have hlen : (carried m ++ [b]).length = m.sr7n + 1 := by simp [carried_length]
  unfold pushTextBit
  dsimp only
  split
  · rename_i h7
    rw [h7] at hheld hlen
    refine ⟨0, 0, Nat.zero_le _, (leftOver_of_seven hlen).symm, ?_⟩
    rw [chars_of_seven hlen, ← hheld, rev_eq_charAt]
  · have hlt : (carried m ++ [b]).length < 7 := by omega
    refine ⟨shiftIn m.sr7 b, m.sr7n + 1, by omega, ?_, ?_⟩
    · rw [leftOver_of_lt hlt, hheld]
    · rw [chars_of_lt hlt, List.append_nil]

/-- Payload bits without a numeral and without a word that counts. -/
theorem foldl_pushTextBit_appends (bits : List Bool) {m : PgMsg} (hn : m.sr7n ≤ 6)
    (hd : m.ndata ≤ Config.u32Max) : Appends m (bits.foldl pushTextBit m) bits [] 0 := by
  induction bits generalizing m with
  | nil => exact .refl hn hd
  | cons b bits ih =>
    obtain ⟨sr, n, hle, hheld, hpush⟩ := pushTextBit_cases hn b
    have hone : Appends m (pushTextBit m b) [b] [] 0 := by
      rw [hpush]
      exact
        { Appends.refl hn hd with
          alpha := rfl, carry := hheld, room := hle
          numt := (List.append_nil _).symm }
    exact hone.trans (ih hone.room hone.ndata_le)

/-- A data word of 21 bits in the message in progress (rules R315, R316). -/
def appendWord (m : PgMsg) (d : BitVec 21) : PgMsg := appendData m (d.extractLsb' 0 20)

theorem payloadBits_eq (d : BitVec 21) : payloadBits (d.extractLsb' 0 20) = payload d := by
  refine List.map_congr_left fun i hi => ?_
  have := List.mem_range.mp hi
  simp [show 19 - i < 20 by omega]

/-- The bits of a payload that a group of four takes are those of the data word. -/
theorem numeral_eq (d : BitVec 21) (g : Nat) :
    numeral (d.extractLsb' 0 20) g = (d.extractLsb' (16 - 4 * g) 4).reverse := by
  have hbits : (d.extractLsb' 0 20).extractLsb' (16 - 4 * g) 4 = d.extractLsb' (16 - 4 * g) 4 := by
    ext k hk
    simp
  show rev _ = _
  rw [hbits]
  rfl

theorem numerals_eq (d : BitVec 21) :
    (List.range Config.pgNumGroups).map (numeral (d.extractLsb' 0 20)) = numerals d := by
  show [numeral _ 0, numeral _ 1, numeral _ 2, numeral _ 3] = _
  simp only [numeral_eq]
  rfl

/-- The numerals and the count of a data word beside its payload bits. -/
theorem Appends.counted {m m' : PgMsg} {bits : List Bool}
    (h : Appends { m with ndata := satInc32 m.ndata } m' bits [] 0) (nums : List (BitVec 4)) :
    Appends m { m' with numt := m'.numt ++ nums } bits nums 1 where
  hasAddr := h.hasAddr
  addr18 := h.addr18
  func := h.func
  pos := h.pos
  invalid := h.invalid
  ndata := h.ndata.trans (Nat.min_eq_left (satInc32_le m.ndata))
  numt := by rw [h.numt, List.append_nil]
  alpha := h.alpha
  carry := h.carry
  room := h.room

/-- A data word appends its payload bits and its four numerals, and counts. -/
theorem appendWord_appends {m : PgMsg} (hn : m.sr7n ≤ 6) (d : BitVec 21) :
    Appends m (appendWord m d) (payload d) (numerals d) 1 := by
  unfold appendWord appendData
  rw [payloadBits_eq, numerals_eq]
  exact (foldl_pushTextBit_appends (m := { m with ndata := satInc32 m.ndata }) _ hn
    (satInc32_le m.ndata)).counted _

/-- Data words in a row. -/
theorem foldl_appendWord_appends (ds : List (BitVec 21)) {m : PgMsg} (hn : m.sr7n ≤ 6)
    (hd : m.ndata ≤ Config.u32Max) :
    Appends m (ds.foldl appendWord m) (ds.flatMap payload) (ds.flatMap numerals) ds.length := by
  induction ds generalizing m with
  | nil => exact .refl hn hd
  | cons d ds ih =>
    have hone := appendWord_appends hn d
    rw [List.flatMap_cons, List.flatMap_cons, List.foldl_cons, List.length_cons, Nat.add_comm]
    exact hone.trans (ih hone.room hone.ndata_le)

/-! ### The page of the message in progress (rule R314) -/

theorem showsAlpha_iff (f : Filter) : f.showsAlpha = true ↔ f = .alpha ∨ f = .both := by
  cases f <;> decide

theorem showsNum_iff (f : Filter) : f.showsNum = true ↔ f = .numeric ∨ f = .both := by
  cases f <;> decide

theorem pageOf_eq (p : Pg) : pageOf p = Claims.pageIn p := by
  simp only [pageOf, Claims.pageIn, showsAlpha_iff, showsNum_iff]

/-- `finalize()` emits the page of the message in progress, if it has content. -/
theorem pgFinalize_eq (p : Pg) :
    pgFinalize p = ⟨newMsg p, (Claims.pagesIn p).map .msg, (Claims.pagesIn p).head?⟩ := by
  have hcontent : p.msg.hasContent = true ↔ p.msg.hasAddr = true ∨ 0 < p.msg.ndata := by
    simp [PgMsg.hasContent]
  simp only [pgFinalize, Claims.pagesIn, hcontent, pageOf_eq]
  split <;> rfl

/-- There is at most one page in progress. -/
theorem pagesIn_head (p : Pg) : (Claims.pagesIn p).head?.toList = Claims.pagesIn p := by
  unfold Claims.pagesIn
  split <;> rfl

/-! ### The codeword (rules R310, R311) -/

/-- The 31-bit word of a codeword as a number (rules R118, R310). -/
theorem bchWord_toNat (pos : ParityPos) (cw : BitVec 32) : (bchWord pos cw).toNat = wordIn pos cw := by
  cases pos with
  | top => simp [bchWord, wordIn]
  | bottom =>
    simp [bchWord, wordIn, Nat.shiftRight_eq_div_pow]
    omega

/-- The class of a codeword is that of its corrected data word. -/
theorem pgDecodeWord_eq (par : Params) (p : Pg) (cw : BitVec 32) (idx : Nat) :
    pgDecodeWord par p (bchWord par.pgParityPos cw) idx =
      match dataWord par cw with
      | none => ⟨{ p with msg := { p.msg with invalid := true } }, [.unc idx], none⟩
      | some d => pgClassify par p d idx := by
  unfold pgDecodeWord dataWord
  rw [bchWord_toNat]
  cases bchCorrect pagingCode (wordIn par.pgParityPos cw) with
  | corrected c n => simp only [Nat.shiftRight_eq_div_pow]
  | uncorrectable => rfl

section Classes

variable {par : Params} {p : Pg} {d : BitVec 21} {idx : Nat}

theorem pgClassify_idle (hd : d = par.pgIdle) : pgClassify par p d idx = pgFinalize p := if_pos hd

theorem pgClassify_address (hd : d ≠ par.pgIdle) (hbit : d.getLsbD 20 = false) :
    pgClassify par p d idx =
      ⟨{ p with msg := { PgMsg.empty with
          hasAddr := true, addr18 := d.extractLsb' 2 18, func := d.extractLsb' 0 2,
          pos := BitVec.ofNat 4 idx } },
        (Claims.pagesIn p).map .msg, (Claims.pagesIn p).head?⟩ := by
  unfold pgClassify
  rw [if_neg hd, if_pos hbit, pgFinalize_eq]
  rfl

theorem pgClassify_data (hd : d ≠ par.pgIdle) (hbit : d.getLsbD 20 = true) :
    pgClassify par p d idx = .quiet { p with msg := appendWord p.msg d } := by
  unfold pgClassify
  rw [if_neg hd, if_neg (by simp [hbit])]
  rfl

/-- The parity of a codeword is logged and counted, and changes nothing else. -/
theorem pgParity_eq (p : Pg) (cw : BitVec 32) (idx : Nat) :
    pgParity p cw idx =
      if (List.range 32).countP cw.getLsbD % 2 = 1 then
        ({ p with parerr := satInc32 p.parerr }, [.parity idx])
      else (p, []) := by
  unfold pgParity parityOdd popcount
  simp only [beq_iff_eq]

/-- The registers of PG with one more in the log of parity errors where the parity of a codeword is odd. -/
def parityLogged (p : Pg) (cw : BitVec 32) : Pg :=
  if (List.range 32).countP cw.getLsbD % 2 = 1 then { p with parerr := satInc32 p.parerr } else p

/-- The parity event of a codeword, if any. -/
def parityLog (cw : BitVec 32) (idx : Nat) : List Event :=
  if (List.range 32).countP cw.getLsbD % 2 = 1 then [.parity idx] else []

theorem parityLogged_eq (p : Pg) (cw : BitVec 32) : ∃ n, parityLogged p cw = { p with parerr := n } := by
  unfold parityLogged
  split
  · exact ⟨_, rfl⟩
  · exact ⟨p.parerr, rfl⟩

theorem parityLogged_msg (p : Pg) (cw : BitVec 32) : (parityLogged p cw).msg = p.msg := by
  obtain ⟨n, hn⟩ := parityLogged_eq p cw
  rw [hn]

/-- The log of parity errors is no part of a page. -/
theorem parityLogged_pages (p : Pg) (cw : BitVec 32) :
    Claims.pagesIn (parityLogged p cw) = Claims.pagesIn p := by
  obtain ⟨n, hn⟩ := parityLogged_eq p cw
  rw [hn]
  rfl

/-- A codeword is its parity, then its 31-bit word. -/
theorem pgCodeword_eq (par : Params) (p : Pg) (cw : BitVec 32) (idx : Nat) :
    pgCodeword par p cw idx =
      let o := pgDecodeWord par (parityLogged p cw) (bchWord par.pgParityPos cw) idx
      { o with evs := parityLog cw idx ++ o.evs } := by
  have hparity : pgParity p cw idx = (parityLogged p cw, parityLog cw idx) := by
    rw [pgParity_eq]
    unfold parityLogged parityLog
    split <;> rfl
  unfold pgCodeword
  rw [hparity]

variable {cw : BitVec 32}

theorem pgCodeword_uncorrectable (h : dataWord par cw = none) :
    pgCodeword par p cw idx =
      ⟨{ parityLogged p cw with msg := { p.msg with invalid := true } },
        parityLog cw idx ++ [.unc idx], none⟩ := by
  rw [pgCodeword_eq, pgDecodeWord_eq, h, ← parityLogged_msg p cw]

theorem pgCodeword_idle (h : dataWord par cw = some d) (hd : d = par.pgIdle) :
    pgCodeword par p cw idx =
      ⟨{ parityLogged p cw with msg := PgMsg.empty },
        parityLog cw idx ++ (Claims.pagesIn p).map .msg, (Claims.pagesIn p).head?⟩ := by
  rw [pgCodeword_eq, pgDecodeWord_eq, h]
  dsimp only
  rw [pgClassify_idle hd, pgFinalize_eq, parityLogged_pages]
  rfl

/-- The message that an address opens (rule R312). -/
def addressed (d : BitVec 21) (idx : Nat) : PgMsg :=
  { PgMsg.empty with
    hasAddr := true, addr18 := d.extractLsb' 2 18, func := d.extractLsb' 0 2, pos := BitVec.ofNat 4 idx }

theorem pgCodeword_address (h : dataWord par cw = some d) (hd : d ≠ par.pgIdle)
    (hbit : d.getLsbD 20 = false) :
    pgCodeword par p cw idx =
      ⟨{ parityLogged p cw with msg := addressed d idx },
        parityLog cw idx ++ (Claims.pagesIn p).map .msg, (Claims.pagesIn p).head?⟩ := by
  rw [pgCodeword_eq, pgDecodeWord_eq, h]
  dsimp only
  rw [pgClassify_address hd hbit, parityLogged_pages]
  rfl

theorem pgCodeword_data (h : dataWord par cw = some d) (hd : d ≠ par.pgIdle)
    (hbit : d.getLsbD 20 = true) :
    pgCodeword par p cw idx =
      ⟨{ parityLogged p cw with msg := appendWord p.msg d }, parityLog cw idx, none⟩ := by
  rw [pgCodeword_eq, pgDecodeWord_eq, h]
  dsimp only
  rw [pgClassify_data hd hbit, parityLogged_msg]
  simp [PgOut.quiet]

end Classes

/-! ### Codewords in a row (rule R322) -/

theorem runWords_append (par : Params) (p : Pg) (ws vs : List (BitVec 32 × Nat)) :
    (runWords par p (ws ++ vs)).2 =
      (runWords par p ws).2 ++ (runWords par (runWords par p ws).1 vs).2 := by
  induction ws generalizing p with
  | nil => rfl
  | cons w ws ih =>
    show _ ++ (runWords par _ (ws ++ vs)).2 = _
    rw [ih, ← List.append_assoc]
    rfl

/-- An address emits the page of what came before it. -/
theorem runWords_address {par : Params} {p : Pg} {cw : BitVec 32} {idx : Nat} {d : BitVec 21}
    (h : dataWord par cw = some d) (hd : d ≠ par.pgIdle) (hbit : d.getLsbD 20 = false) :
    runWords par p [(cw, idx)] =
      ({ parityLogged p cw with msg := addressed d idx }, Claims.pagesIn p) := by
  simp only [runWords, pgCodeword_address h hd hbit, pagesIn_head, List.append_nil]

/-- Data words emit nothing, and write the message and the log of parity errors only. -/
theorem runWords_data {par : Params} {ws : List (BitVec 32 × Nat)} {ds : List (BitVec 21)}
    (hw : ws.map (fun w => dataWord par w.1) = ds.map some)
    (hd : ∀ d ∈ ds, d ≠ par.pgIdle ∧ d.getLsbD 20 = true) (p : Pg) :
    ∃ n, runWords par p ws = ({ p with parerr := n, msg := ds.foldl appendWord p.msg }, []) := by
  induction ws generalizing ds p with
  | nil =>
    cases ds with
    | nil => exact ⟨p.parerr, rfl⟩
    | cons d ds => cases hw
  | cons w ws ih =>
    cases ds with
    | nil => cases hw
    | cons d ds =>
      obtain ⟨hword, hrest⟩ := List.cons.inj hw
      obtain ⟨⟨hidle, hbit⟩, hds⟩ := List.forall_mem_cons.mp hd
      obtain ⟨n, hn⟩ := parityLogged_eq p w.1
      obtain ⟨k, hk⟩ := ih hrest hds { p with parerr := n, msg := appendWord p.msg d }
      refine ⟨k, ?_⟩
      unfold runWords
      simp only [pgCodeword_data hword hidle hbit, hn, hk, List.foldl_cons, Option.toList_none,
        List.nil_append]

/-- The page of a message that an address opened and data words followed. -/
theorem pagesIn_addressed (p : Pg) (d : BitVec 21) (i : Nat) {ds : List (BitVec 21)}
    (hlen : ds.length < 2 ^ 32) (n : Nat) :
    Claims.pagesIn { p with parerr := n, msg := ds.foldl appendWord (addressed d i) } =
      [{ hasAddr := true, addr18 := d.extractLsb' 2 18, func := d.extractLsb' 0 2
         pos := BitVec.ofNat 4 i
         alpha := if p.filter = .alpha ∨ p.filter = .both then chars (ds.flatMap payload) else []
         num := if p.filter = .numeric ∨ p.filter = .both then ds.flatMap numerals else []
         invalid := false, ndata := ds.length, baud := p.baud }] := by
  have happ := foldl_appendWord_appends ds (m := addressed d i) (Nat.zero_le _) (Nat.zero_le _)
  have hcount : (addressed d i).ndata + ds.length = ds.length := Nat.zero_add _
  have hndata : (ds.foldl appendWord (addressed d i)).ndata = ds.length := by
    rw [happ.ndata, hcount, Nat.min_eq_left]
    unfold Config.u32Max
    omega
  unfold Claims.pagesIn
  rw [if_pos (.inl happ.hasAddr)]
  simp only [Claims.pageIn, happ.hasAddr, happ.addr18, happ.func, happ.pos, happ.invalid, hndata,
    happ.numt, happ.alpha]
  rfl

end Machine
end Sys2Proof

namespace Sys2Proof
namespace Settled

open Sys2Proof.Machine Sys2Proof.Claims

/-- Settles O59, by the class of the word; the left-over bits are those of the register. -/
theorem pgCodeword : Obligations.PgCodeword := by
  unfold Obligations.PgCodeword
  intro par p cw idx hn odd q log pages o
  refine ⟨fun h => pgCodeword_uncorrectable h, fun d h hd => pgCodeword_idle h hd,
    fun d h hd hbit => pgCodeword_address h hd hbit, fun d h hd hbit => ?_⟩
  have happ := appendWord_appends hn d
  exact ⟨appendWord p.msg d, pgCodeword_data h hd hbit, happ.hasAddr, happ.addr18, happ.func, happ.pos,
    happ.invalid, happ.ndata, happ.numt, happ.alpha, happ.carry⟩

/-- Settles O60: the first address closes what came before, the data words emit nothing, and the second
address closes the message that they made. -/
theorem pageSegmentation : Obligations.PageSegmentation := by
  unfold Obligations.PageSegmentation
  intro par p a a2 i i2 ws da da2 ds ha hidle hbit ha2 hidle2 hbit2 hws hds hlen
  obtain ⟨n, hn⟩ := parityLogged_eq p a
  obtain ⟨k, hk⟩ := runWords_data hws hds { p with parerr := n, msg := addressed da i }
  rw [← List.singleton_append, runWords_append, runWords_address ha hidle hbit, runWords_append, hn,
    hk, runWords_address ha2 hidle2 hbit2, List.nil_append]
  exact congrArg (Claims.pagesIn p ++ ·) (pagesIn_addressed p da i hlen k)

end Settled
end Sys2Proof
end

section
/-!
SUPPORT. The layout of a frame (rules R112 to R115, R282 to R287): the address blocks are read back, the
repeaters end with the end bit, and the control byte says what follows.
-/

namespace Sys2Proof
namespace Machine

/-! ### One address block (rules R113, R283) -/

/-- The last byte of an address block. -/
def addrControl (a : Addr) : BitVec 8 := BitVec.ofBool a.ch ++ a.rr ++ a.ssid ++ BitVec.ofBool a.ext

/-- The bytes of address block number `k`, with the low bits of its characters as `low` gives them. -/
def addrBlock (low : Nat → BitVec 1) (k : Nat) (a : Addr) : List (BitVec 8) :=
  (a.call.mapIdx fun j c => c ++ low (6 * k + j)) ++ [addrControl a]

theorem addrControl_ssid (a : Addr) : (addrControl a).extractLsb' 1 4 = a.ssid := by
  unfold addrControl
  ext k hk
  rw [BitVec.getElem_extractLsb', BitVec.getLsbD_append, BitVec.getLsbD_append]
  simp [show ¬ 1 + k < 1 by omega, hk]

theorem addrControl_rr (a : Addr) : (addrControl a).extractLsb' 5 2 = a.rr := by
  unfold addrControl
  ext k hk
  rw [BitVec.getElem_extractLsb', BitVec.getLsbD_append, BitVec.getLsbD_append, BitVec.getLsbD_append]
  simp [show ¬ 5 + k < 1 by omega, hk]

theorem addrControl_ch (a : Addr) : (addrControl a).getLsbD 7 = a.ch := by
  unfold addrControl
  rw [BitVec.getLsbD_append, BitVec.getLsbD_append, BitVec.getLsbD_append]
  simp

theorem addrControl_ext (a : Addr) : (addrControl a).getLsbD 0 = a.ext := by
  unfold addrControl
  rw [BitVec.getLsbD_append]
  simp

/-- A character of a call sign is the upper seven bits of its byte (rule R113). -/
theorem character_of_byte (c : BitVec 7) (b : BitVec 1) : (c ++ b).extractLsb' 1 7 = c := by
  ext k hk
  rw [BitVec.getElem_extractLsb', BitVec.getLsbD_append]
  simp [show ¬ 1 + k < 1 by omega, hk]

section Block

variable {low : Nat → BitVec 1} {k : Nat} {a : Addr}

theorem addrBlock_length (h : a.call.length = 6) : (addrBlock low k a).length = 7 := by
  simp [addrBlock, h]

/-- An address block is read back, whatever the low bits of its characters. -/
theorem addrOf_addrBlock (h : a.call.length = 6) : addrOf (addrBlock low k a) = a := by
  have hlen : (a.call.mapIdx fun j c => c ++ low (6 * k + j)).length = 6 := by simp [h]
  have hcontrol : memRead (addrBlock low k a) 6 0 = addrControl a := by
    unfold memRead addrBlock
    rw [List.getD_append_right _ _ _ _ (by omega), hlen]
    rfl
  have hcall : ((addrBlock low k a).take 6).map (fun b => b.extractLsb' 1 7) = a.call := by
    unfold addrBlock
    rw [List.take_left' hlen]
    refine List.ext_getElem (by simp) fun i _ _ => ?_
    rw [List.getElem_map, List.getElem_mapIdx, character_of_byte]
  unfold addrOf
  dsimp only
  rw [hcontrol, hcall, addrControl_ssid, addrControl_rr, addrControl_ch, addrControl_ext]

/-- An address block at the front of some bytes. -/
theorem addrOf_take_addrBlock (h : a.call.length = 6) (l : List (BitVec 8)) :
    addrOf ((addrBlock low k a ++ l).take 7) = a := by
  rw [List.take_left' (addrBlock_length h), addrOf_addrBlock h]

theorem drop_addrBlock (h : a.call.length = 6) (l : List (BitVec 8)) :
    (addrBlock low k a ++ l).drop 7 = l := List.drop_left' (addrBlock_length h)

end Block

/-! ### The repeater blocks (rule R284) -/

/-- The blocks of repeaters, the first of them address block number `k`. -/
def repBlocks (low : Nat → BitVec 1) (k : Nat) (reps : List Addr) : List (BitVec 8) :=
  (reps.mapIdx fun j a => addrBlock low (j + k) a).flatten

section Repeaters

variable {low : Nat → BitVec 1} {k room : Nat} {tail : List (BitVec 8)}

theorem repBlocks_cons (a : Addr) (reps : List Addr) :
    repBlocks low k (a :: reps) = addrBlock low k a ++ repBlocks low (k + 1) reps := by
  unfold repBlocks
  rw [List.mapIdx_cons, List.flatten_cons, Nat.zero_add]
  simp only [Nat.add_assoc, Nat.add_comm 1 k]

/-- The end bit ends the repeaters. -/
theorem repeaters_end (room : Nat) (tail : List (BitVec 8)) :
    repeaters room true tail = some ([], tail) := by
  cases room <;> rfl

/-- One more repeater block, where the end bit was not yet set and there is room. -/
theorem repeaters_addrBlock {a : Addr} (h : a.call.length = 6) (l : List (BitVec 8)) :
    repeaters (room + 1) false (addrBlock low k a ++ l) =
      (repeaters room a.ext l).map fun r => (a :: r.1, r.2) := by
  have hlen : ¬ (addrBlock low k a ++ l).length < 7 := by
    rw [List.length_append, addrBlock_length h]
    omega
  rw [repeaters, if_neg hlen, addrOf_take_addrBlock h, drop_addrBlock h]
  cases repeaters room a.ext l <;> rfl

/-- The blocks up to the one with the end bit are the repeaters. -/
theorem repeaters_repBlocks {reps : List Addr} {e : Bool} (hcall : ∀ a ∈ reps, a.call.length = 6)
    (hroom : reps.length ≤ room)
    (hend : e :: reps.map Addr.ext = List.replicate reps.length false ++ [true]) :
    repeaters room e (repBlocks low k reps ++ tail) = some (reps, tail) := by
  induction reps generalizing e k room with
  | nil =>
    cases hend
    exact repeaters_end room tail
  | cons a reps ih =>
    obtain ⟨ha, hreps⟩ := List.forall_mem_cons.mp hcall
    obtain ⟨room, rfl⟩ : ∃ n, room = n + 1 := ⟨room - 1, by simp at hroom; omega⟩
    rw [List.length_cons, List.replicate_succ, List.cons_append] at hend
    obtain ⟨rfl, hrest⟩ := List.cons.inj hend
    rw [repBlocks_cons, List.append_assoc, repeaters_addrBlock ha,
      ih hreps (by simpa using hroom) hrest]
    rfl

/-- Blocks without an end bit are followed by more repeaters. -/
theorem repeaters_open {reps : List Addr} (hcall : ∀ a ∈ reps, a.call.length = 6)
    (hext : ∀ a ∈ reps, a.ext = false) (room : Nat) :
    repeaters (room + reps.length) false (repBlocks low k reps ++ tail) =
      (repeaters room false tail).map fun r => (reps ++ r.1, r.2) := by
  induction reps generalizing k with
  | nil =>
    show repeaters room false tail = _
    cases repeaters room false tail <;> rfl
  | cons a reps ih =>
    obtain ⟨ha, hreps⟩ := List.forall_mem_cons.mp hcall
    obtain ⟨hafalse, hfalse⟩ := List.forall_mem_cons.mp hext
    rw [repBlocks_cons, List.append_assoc, List.length_cons, ← Nat.add_assoc, repeaters_addrBlock ha,
      hafalse, ih hreps hfalse, Option.map_map]
    rfl

/-- A further block is a violation where there is no room for one, or too few bytes. -/
theorem repeaters_none (h : room = 0 ∨ tail.length < 7) : repeaters room false tail = none := by
  cases room with
  | zero => rfl
  | succ room =>
    unfold repeaters
    exact if_pos (h.resolve_left (Nat.succ_ne_zero room))

end Repeaters

/-! ### The frame (rules R282, R285 to R287) -/

section Frame

variable {low : Nat → BitVec 1} {dest src : Addr} {more rest : List (BitVec 8)} {reps : List Addr}
  {ctl : BitVec 8}

/-- The address field and what follows it are read off the repeaters. -/
theorem parseFrame_blocks (hdest : dest.call.length = 6) (hsrc : src.call.length = 6) :
    parseFrame (addrBlock low 0 dest ++ addrBlock low 1 src ++ more) =
      (repeaters Config.hdMaxRep src.ext more).bind fun r =>
        r.2.head?.bind fun ctl => frameOf dest src r.1 ctl r.2.tail := by
  unfold parseFrame
  dsimp only
  rw [List.append_assoc, addrOf_take_addrBlock hdest, drop_addrBlock hdest, addrOf_take_addrBlock hsrc,
    show 14 = 7 + 7 from rfl, ← List.drop_drop, drop_addrBlock hdest, drop_addrBlock hsrc]
  rcases repeaters Config.hdMaxRep src.ext more with _ | ⟨reps, _ | ⟨ctl, rest⟩⟩
  all_goals rfl

/-- What follows a control byte, as the statements say it (rules R114, R115). -/
theorem hasPid_iff (ctl : BitVec 8) :
    hasPid ctl = true ↔ frameType ctl = .i ∨ frameType ctl = .u ∧ ctl &&& 0xEF = 0x03 := by
  simp [hasPid]

/-- The frame with these fields. -/
theorem frameOf_eq (dest src : Addr) (reps : List Addr) (ctl : BitVec 8) (rest : List (BitVec 8)) :
    frameOf dest src reps ctl rest =
      if hasPid ctl then
        (pidFields rest).map fun f =>
          ⟨dest, src, reps, ctl, frameType ctl, some f.1, f.2.1, some f.2.2⟩
      else some ⟨dest, src, reps, ctl, frameType ctl, none, none, none⟩ := by
  unfold frameOf
  split
  · rcases pidFields rest with _ | ⟨p, p2, l⟩ <;> rfl
  · rfl

theorem pidFields_cons {p : BitVec 8} (h : p ≠ 0xFF) (l : List (BitVec 8)) :
    pidFields (p :: l) = some (p, none, l) := if_neg h

end Frame

end Machine
end Sys2Proof

namespace Sys2Proof
namespace Settled

open Sys2Proof.Machine Sys2Proof.Claims

/-- Settles O53. -/
theorem parseOfLayout : Obligations.ParseOfLayout := by
  unfold Obligations.ParseOfLayout
  intro dest src reps ctl rest low block hcall hroom addresses bytes
  obtain ⟨hdest, hcall⟩ := List.forall_mem_cons.mp hcall
  obtain ⟨hsrc, hreps⟩ := List.forall_mem_cons.mp hcall
  have hbytes : bytes = addrBlock low 0 dest ++ addrBlock low 1 src ++
      (repBlocks low 2 reps ++ ctl :: rest) := List.append_assoc ..
  have haddresses : addresses = addrBlock low 0 dest ++ addrBlock low 1 src ++
      (repBlocks low 2 reps ++ []) := by rw [List.append_nil]; rfl
  refine ⟨fun hend => ?_, fun hopen => ?_⟩
  · intro type f follows
    have hreads : ∀ tail, repeaters Config.hdMaxRep src.ext (repBlocks low 2 reps ++ tail) =
        some (reps, tail) := fun _ => repeaters_repBlocks hreps hroom hend
    have hframe : parseFrame bytes = frameOf dest src reps ctl rest := by
      rw [hbytes, parseFrame_blocks hdest hsrc, hreads]
      rfl
    have hnone : parseFrame addresses = none := by
      rw [haddresses, parseFrame_blocks hdest hsrc, hreads]
      rfl
    have hpid : hasPid ctl = true ↔ follows := hasPid_iff ctl
    rw [hframe, frameOf_eq]
    refine ⟨fun h => if_neg (mt hpid.mp h), fun h hr => ?_, fun p l h hr hp => ?_, fun h hr => ?_,
      fun p2 l h hr => ?_, fun _ => hnone⟩
    all_goals rw [if_pos (hpid.mpr h), hr]
    · rfl
    · rw [pidFields_cons hp]
      rfl
    · rfl
    · rfl
  · obtain ⟨hsrcOpen, hrepsOpen⟩ := List.forall_mem_cons.mp hopen
    have hviolation : ∀ room, room + reps.length = 8 → room = 0 ∨ (ctl :: rest).length < 7 →
        parseFrame bytes = none := by
      intro room h8 hshort
      rw [hbytes, parseFrame_blocks hdest hsrc, hsrcOpen, show Config.hdMaxRep = room + reps.length from h8.symm,
        repeaters_open hreps hrepsOpen, repeaters_none hshort]
      rfl
    exact ⟨fun h8 => hviolation 0 (by omega) (.inl rfl),
      fun hlt hshort => hviolation (8 - reps.length) (by omega) (.inr hshort)⟩

end Settled
end Sys2Proof
end

section
/-!
SUPPORT. HD over a stream of bits (rules R74, R110, R111, R271 to R279, R288): the raw register is the last
eight bits, the destuffer undoes the stuffing and stores the bits of the bytes, and a frame between flags
is delivered once.
-/

namespace Sys2Proof
namespace Machine

open Sys2Proof.Claims

/-! ### The stuffing rule and its inverse (rules R111, R278) -/

theorem stuff_length (n : Nat) (l : List Bool) : l.length ≤ (stuff n l).length := by
  fun_induction stuff n l
  all_goals simp
  all_goals omega

/-- A bit that is not due to be taken out. -/
theorem unstuff_cons {n : Nat} (hn : n ≠ 5) (b : Bool) (l : List Bool) :
    unstuff n (b :: l) = (unstuff (if b then n + 1 else 0) l).map fun r => (b :: r.1, r.2) := if_neg hn

/-- What is unstuffed in two parts. -/
theorem unstuff_append (n : Nat) (l l' : List Bool) :
    unstuff n (l ++ l') =
      (unstuff n l).bind fun r => (unstuff r.2 l').map fun r' => (r.1 ++ r'.1, r'.2) := by
  induction l generalizing n with
  | nil =>
    show unstuff n l' = (unstuff n l').map id
    rw [Option.map_id]
    rfl
  | cons b l ih =>
    rw [List.cons_append]
    by_cases hn : n = 5
    · subst hn
      cases b with
      | true => rfl
      | false => exact ih 0
    · rw [unstuff_cons hn, unstuff_cons hn, ih, Option.map_bind, Option.bind_map]
      congr 1
      funext r
      exact Option.map_map ..

/-- Stuffed bits hold no six 1s in a row, and are the bits again where the 0s are taken out. -/
theorem unstuff_stuff {n : Nat} (hn : n ≤ 4) (l : List Bool) :
    ∃ k ≤ 4, unstuff n (stuff n l) = some (l, k) := by
  have hne : n ≠ 5 := by omega
  induction l generalizing n with
  | nil => exact ⟨n, hn, rfl⟩
  | cons b l ih =>
    obtain ⟨k0, hk0, hzero⟩ := ih (n := 0) (by decide) (by decide)
    cases b with
    | false => exact ⟨k0, hk0, by simp [stuff, unstuff, hne, hzero]⟩
    | true =>
      by_cases h4 : n = 4
      · exact ⟨k0, hk0, by simp [stuff, unstuff, h4, hzero]⟩
      · obtain ⟨k, hk, h⟩ := ih (n := n + 1) (by omega) (by omega)
        exact ⟨k, hk, by simp [stuff, unstuff, h4, hne, h]⟩

/-! ### The raw register (rules R75, R110) -/

theorem rawBits_eq (v : BitVec 8) : rawBits v = heldBits v 8 := rfl

theorem heldBits_succ {w : Nat} (v : BitVec w) (n : Nat) :
    heldBits v (n + 1) = v.getLsbD n :: heldBits v n := by
  unfold heldBits
  rw [List.range_succ_eq_map, List.map_cons, List.map_map]
  congr 1
  refine List.map_congr_left fun i _ => ?_
  show v.getLsbD (n + 1 - 1 - (i + 1)) = v.getLsbD (n - 1 - i)
  congr 1
  omega

/-- The last eight bits, the oldest first, with one more bit. -/
theorem rawBits_shiftIn (v : BitVec 8) (b : Bool) : rawBits (shiftIn v b) = (rawBits v).tail ++ [b] := by
  rw [rawBits_eq, rawBits_eq, heldBits_shiftIn v b (by decide), heldBits_succ v 7, List.tail_cons]

theorem rawBits_length (v : BitVec 8) : (rawBits v).length = 8 := by simp [rawBits]

/-- Eight bits fill the register. -/
theorem rawBits_foldl (v : BitVec 8) {l : List Bool} (hl : l.length = 8) :
    rawBits (l.foldl shiftIn v) = l := by
  have hdrop : ∀ (l : List Bool) (v : BitVec 8), l.length ≤ 8 →
      rawBits (l.foldl shiftIn v) = (rawBits v).drop l.length ++ l := by
    intro l
    induction l with
    | nil => intro v _; simp
    | cons b l ih =>
      intro v hle
      rw [List.length_cons] at hle
      rw [List.foldl_cons, ih _ (by omega), rawBits_shiftIn,
        List.drop_append_of_le_length (by rw [List.length_tail, rawBits_length]; omega), List.drop_tail,
        List.append_assoc]
      rfl
  rw [hdrop l v hl.le, hl, List.drop_eq_nil_of_le (rawBits_length v).le, List.nil_append]

/-- The flag pattern is the register that holds a flag. -/
theorem eq_hdFlag_of_rawBits {v : BitVec 8} (h : rawBits v = flag) : v = Config.hdFlag := by
  refine BitVec.eq_of_getLsbD_eq fun i hi => ?_
  have hget : ∀ u : BitVec 8, (rawBits u)[7 - i]? = some (u.getLsbD i) := fun u => by
    simp [rawBits, show 7 - i < 8 by omega, show 7 - (7 - i) = i by omega]
  have hv := hget v
  rw [h, show flag = rawBits Config.hdFlag from rfl, hget] at hv
  exact (Option.some.inj hv).symm

/-! ### The destuffer as a whole (rules R277, R278) -/

section Destuff

variable {h : Hd} {b : Bool}

theorem destuffStore_store (hn : h.ones ≠ 5) (b : Bool) :
    destuffStore h b = ({ storeBit h b with ones := if b then h.ones + 1 else 0 }, .store) := if_neg hn

theorem destuffStore_drop (hn : h.ones = 5) : destuffStore h false = ({ h with ones := 0 }, .drop) :=
  if_pos hn

theorem destuffStore_fin (hn : h.ones = 5) : destuffStore h true = (h, .fin) := if_pos hn

/-- The registers with another raw register, run of 1s and events of the last operation. -/
def withRaw (v : BitVec 8) (n : Nat) (evs : List Event) (h : Hd) : Hd :=
  { h with raw := v, ones := n, last := evs }

/-- The store reads and writes neither the raw register, the run of 1s nor the events. -/
theorem storeBit_withRaw (v : BitVec 8) (n : Nat) (evs : List Event) (h : Hd) (b : Bool) :
    storeBit (withRaw v n evs h) b = withRaw v n evs (storeBit h b) := by
  unfold storeBit withRaw
  dsimp only
  split
  · split <;> rfl
  · rfl

theorem foldl_storeBit_withRaw (v : BitVec 8) (n : Nat) (evs : List Event) (h : Hd) (l : List Bool) :
    l.foldl storeBit (withRaw v n evs h) = withRaw v n evs (l.foldl storeBit h) := by
  induction l generalizing h with
  | nil => rfl
  | cons b l ih => rw [List.foldl_cons, storeBit_withRaw, ih, List.foldl_cons]

/-- One bit that does not end the frame: it is stored, or taken out. -/
theorem destuffStore_unstuff {bits : List Bool} {k : Nat} (hb : unstuff h.ones [b] = some (bits, k)) :
    ∃ o, o ≠ .fin ∧ destuffStore h b = (withRaw h.raw k h.last (bits.foldl storeBit h), o) := by
  by_cases hn : h.ones = 5
  · cases b with
    | true =>
      rw [hn] at hb
      cases hb
    | false =>
      rw [hn] at hb
      cases hb
      exact ⟨.drop, nofun, destuffStore_drop hn⟩
  · rw [unstuff_cons hn] at hb
    cases hb
    have hsame : storeBit h b = withRaw h.raw h.ones h.last (storeBit h b) := storeBit_withRaw _ _ _ h b
    refine ⟨.store, nofun, (destuffStore_store hn b).trans ?_⟩
    rw [hsame]
    rfl

theorem unstuff_cons_some {n k : Nat} {l bits : List Bool} (hl : unstuff n (b :: l) = some (bits, k)) :
    ∃ bits₁ k₁ bits₂, unstuff n [b] = some (bits₁, k₁) ∧ unstuff k₁ l = some (bits₂, k) ∧
      bits = bits₁ ++ bits₂ := by
  rw [← List.singleton_append, unstuff_append] at hl
  obtain ⟨⟨bits₁, k₁⟩, h₁, hl⟩ := Option.bind_eq_some_iff.mp hl
  obtain ⟨⟨bits₂, k₂⟩, h₂, heq⟩ := Option.map_eq_some_iff.mp hl
  cases heq
  exact ⟨bits₁, k₁, bits₂, h₁, h₂, rfl⟩

/-- The bits of an octet that do not end the frame are stored as they are unstuffed. -/
theorem replay_unstuff {l bits : List Bool} {k : Nat} (hl : unstuff h.ones l = some (bits, k)) :
    replay l h = (withRaw h.raw k h.last (bits.foldl storeBit h), [], none) := by
  induction l generalizing h bits with
  | nil =>
    cases hl
    rfl
  | cons b l ih =>
    obtain ⟨bits₁, k₁, bits₂, h₁, h₂, rfl⟩ := unstuff_cons_some hl
    obtain ⟨o, ho, hstep⟩ := destuffStore_unstuff h₁
    have hrest := ih (h := withRaw h.raw k₁ h.last (bits₁.foldl storeBit h)) h₂
    rw [foldl_storeBit_withRaw] at hrest
    unfold replay
    rw [hstep]
    cases o with
    | fin => exact absurd rfl ho
    | store | drop =>
      rw [List.foldl_append]
      exact hrest

/-- The raw register ends with the 1s that the destuffer counted, and a 0 before them. -/
theorem trail_of_unstuff {n k : Nat} {v : BitVec 8} {l bits : List Bool} (hn : n ≤ 5)
    (hv : v.getLsbD n = false) (hl : unstuff n l = some (bits, k)) :
    k ≤ 5 ∧ (l.foldl shiftIn v).getLsbD k = false := by
  induction l generalizing n v bits with
  | nil =>
    cases hl
    exact ⟨hn, hv⟩
  | cons b l ih =>
    obtain ⟨bits₁, k₁, bits₂, h₁, h₂, -⟩ := unstuff_cons_some hl
    have hone : k₁ ≤ 5 ∧ (shiftIn v b).getLsbD k₁ = false := by
      by_cases h5 : n = 5
      · subst h5
        cases b with
        | true => cases h₁
        | false =>
          cases h₁
          exact ⟨by decide, shiftIn_getLsbD_zero (by decide) v false⟩
      · rw [unstuff_cons h5] at h₁
        cases b with
        | false =>
          cases h₁
          exact ⟨Nat.zero_le _, shiftIn_getLsbD_zero (by decide) v false⟩
        | true =>
          cases h₁
          exact ⟨by simp; omega, (shiftIn_getLsbD_succ v true (by omega)).trans hv⟩
    exact ih hone.1 hone.2 h₂

/-- The flag is not in the raw register before its sixth 1 has ended the frame. -/
theorem shiftIn_ne_hdFlag {n : Nat} {v : BitVec 8} (hn : n ≤ 5) (hv : v.getLsbD n = false) (b : Bool) :
    shiftIn v b ≠ Config.hdFlag := by
  intro heq
  have hbit : (shiftIn v b).getLsbD (n + 1) = false := (shiftIn_getLsbD_succ v b (by omega)).trans hv
  rw [heq] at hbit
  interval_cases n
  all_goals exact absurd hbit (by decide)

end Destuff

/-! ### Runs of ticks -/

/-- HD after the ticks of a stream of bits. -/
def hdRun (h : Hd) (l : List Bool) : Hd := l.foldl (fun h b => (hdTick h b).1) h

theorem framesOf_append (h : Hd) (l l' : List Bool) :
    framesOf h (l ++ l') = framesOf h l ++ framesOf (hdRun h l) l' := by
  induction l generalizing h with
  | nil => rfl
  | cons b l ih =>
    show _ :: framesOf _ (l ++ l') = _
    rw [ih]
    rfl

/-- The ticks of a stream give no frame. -/
def Silent (h : Hd) (l : List Bool) : Prop := framesOf h l = List.replicate l.length none

theorem Silent.append {h : Hd} {l l' : List Bool} (hl : Silent h l) (hl' : Silent (hdRun h l) l') :
    Silent h (l ++ l') := by
  unfold Silent at *
  rw [framesOf_append, hl, hl', List.length_append, List.replicate_add]

theorem Silent.cons {h : Hd} {b : Bool} {l : List Bool} (hb : (hdTick h b).2.2 = none)
    (hl : Silent (hdTick h b).1 l) : Silent h (b :: l) := by
  unfold Silent at *
  show (hdTick h b).2.2 :: framesOf (hdTick h b).1 l = _
  rw [hb, hl]
  rfl

/-- A tick is the rule of the state on the updated raw register, and its events are kept. -/
theorem hdTick_of_dispatch {h : Hd} {b : Bool} {o : Hd × List Event × Option Frame}
    (ho : hdDispatch { h with raw := shiftIn h.raw b } b = o) :
    hdTick h b = ({ o.1 with last := o.2.1 }, o.2) := by
  subst ho
  rfl

/-! ### Inside a frame (rule R276) -/

section Body

variable {h : Hd} {b : Bool}

/-- HD takes the bits of a frame: the raw register ends with the 1s that were counted. -/
structure InBody (h : Hd) : Prop where
  state : h.state = .waitEnd
  ones : h.ones ≤ 5
  trail : h.raw.getLsbD h.ones = false

theorem storeBit_state (h : Hd) (b : Bool) : (storeBit h b).state = h.state := by
  unfold storeBit
  dsimp only
  split
  · split <;> rfl
  · rfl

theorem foldl_storeBit_state (h : Hd) (l : List Bool) : (l.foldl storeBit h).state = h.state := by
  induction l generalizing h with
  | nil => rfl
  | cons b l ih => rw [List.foldl_cons, ih, storeBit_state]

theorem hdDispatch_waitEnd (hs : h.state = .waitEnd) (b : Bool) : hdDispatch h b = hdWaitEnd h b := by
  unfold hdDispatch
  rw [hs]

theorem hdTick_waitEnd {o : Hd × List Event × Option Frame} (hs : h.state = .waitEnd)
    (ho : hdWaitEnd { h with raw := shiftIn h.raw b } b = o) :
    hdTick h b = ({ o.1 with last := o.2.1 }, o.2) :=
  hdTick_of_dispatch ((hdDispatch_waitEnd (h := { h with raw := shiftIn h.raw b }) hs b).trans ho)

/-- A bit of the frame that does not end it is stored or taken out, and nothing else happens. -/
theorem hdTick_inBody {bits : List Bool} {k : Nat} (hb : InBody h)
    (hu : unstuff h.ones [b] = some (bits, k)) :
    hdTick h b = (withRaw (shiftIn h.raw b) k [] (bits.foldl storeBit h), [], none) := by
  obtain ⟨o, ho, hstep⟩ := destuffStore_unstuff (h := { h with raw := shiftIn h.raw b }) hu
  have hstore : bits.foldl storeBit { h with raw := shiftIn h.raw b } =
      withRaw (shiftIn h.raw b) h.ones h.last (bits.foldl storeBit h) := foldl_storeBit_withRaw ..
  rw [hstore] at hstep
  have hflag : shiftIn h.raw b ≠ Config.hdFlag := shiftIn_ne_hdFlag hb.ones hb.trail b
  have hend : hdWaitEnd { h with raw := shiftIn h.raw b } b =
      (withRaw (shiftIn h.raw b) k h.last (bits.foldl storeBit h), [], none) := by
    unfold hdWaitEnd
    rw [hstep]
    cases o with
    | fin => exact absurd rfl ho
    | store | drop => exact if_neg hflag
  exact hdTick_waitEnd hb.state hend

/-- The bits of the frame that do not end it are stored as they are unstuffed. -/
theorem hdRun_inBody {l bits : List Bool} {k : Nat} (hb : InBody h)
    (hu : unstuff h.ones l = some (bits, k)) :
    Silent h l ∧ InBody (hdRun h l) ∧
      ∃ v evs, hdRun h l = withRaw v k evs (bits.foldl storeBit h) := by
  induction l generalizing h bits with
  | nil =>
    cases hu
    exact ⟨rfl, hb, h.raw, h.last, rfl⟩
  | cons b l ih =>
    obtain ⟨bits₁, k₁, bits₂, h₁, h₂, rfl⟩ := unstuff_cons_some hu
    have htick := hdTick_inBody hb h₁
    have htrail := trail_of_unstuff hb.ones hb.trail h₁
    have hnext : InBody (hdTick h b).1 := by
      rw [htick]
      exact ⟨(foldl_storeBit_state _ _).trans hb.state, htrail.1, htrail.2⟩
    obtain ⟨hsilent, hbody, v, evs, hrun⟩ := ih hnext (bits := bits₂) (by rw [htick]; exact h₂)
    refine ⟨.cons (by rw [htick]) hsilent, hbody, v, evs, hrun.trans ?_⟩
    rw [htick, foldl_storeBit_withRaw, List.foldl_append]
    rfl

/-- What the bytes of a long enough frame come to (rule R281). -/
theorem verdict_frame (hovf : h.ovf = false) (hlen : 15 ≤ h.blen) :
    (verdict h).2 = parseFrame (h.buf.take h.blen) := by
  have hmin : ¬ h.blen * 8 < Config.hdMinBits := by
    unfold Config.hdMinBits
    omega
  unfold verdict
  rw [if_neg (by simp [hovf]), if_neg hmin]
  cases parseFrame (h.buf.take h.blen) <;> rfl

/-- The sixth 1 in a row ends the frame. -/
theorem hdTick_fin (hs : h.state = .waitEnd) (hn : h.ones = 5) :
    (hdTick h true).2.2 = (verdict h).2 ∧ (hdTick h true).1.state = .waitFlag := by
  have hend : hdWaitEnd { h with raw := shiftIn h.raw true } true =
      hdFinalize { h with raw := shiftIn h.raw true } := by
    unfold hdWaitEnd
    rw [destuffStore_fin (h := { h with raw := shiftIn h.raw true }) hn]
  rw [hdTick_waitEnd hs hend]
  exact ⟨rfl, rfl⟩

/-- The search for a flag gives no frame. -/
theorem hdTick_waitFlag (hs : h.state = .waitFlag) (b : Bool) : (hdTick h b).2.2 = none := by
  have hdispatch : (hdDispatch { h with raw := shiftIn h.raw b } b).2.2 = none := by
    unfold hdDispatch
    simp only [hs, hdWaitFlag]
    split <;> rfl
  exact hdispatch

end Body

/-! ### Flags (rules R273 to R275) -/

section Flags

variable {h : Hd} {b : Bool}

/-- HD counts flags: `n` bits of the octet have come, and no byte of a frame is in the buffer. -/
structure Counting (n : Nat) (h : Hd) : Prop where
  state : h.state = .countFlag ∨ h.state = .waitData
  nflag : 1 ≤ h.nflag
  cnt8 : h.cnt8 = n
  buf : h.buf = []

/-- Once a flag is counted, both states run the rule of WAIT_DATA. -/
theorem hdTick_counting {n : Nat} (hc : Counting n h) (b : Bool) :
    ∃ o, hdWaitData { h with raw := shiftIn h.raw b, state := .waitData } = o ∧
      hdTick h b = ({ o.1 with last := o.2.1 }, o.2) := by
  refine ⟨_, rfl, hdTick_of_dispatch ?_⟩
  obtain hs | hs := hc.state
  · have hdispatch : ∀ g : Hd, g.state = .countFlag → 1 ≤ g.nflag →
        hdDispatch g b = hdWaitData { g with state := .waitData } := by
      intro g hg hn
      unfold hdDispatch
      rw [hg]
      exact if_pos hn
    exact hdispatch { h with raw := shiftIn h.raw b } hs hc.nflag
  · have hdispatch : ∀ g : Hd, g.state = .waitData →
        hdDispatch g b = hdWaitData { g with state := .waitData } := by
      intro g hg
      have hsame : { g with state := .waitData } = g := by rw [← hg]
      unfold hdDispatch
      rw [hsame, hg]
    exact hdispatch { h with raw := shiftIn h.raw b } hs

/-- A bit that does not complete the octet. -/
theorem hdTick_partial {n : Nat} (hc : Counting n h) (hn : n < 7) (b : Bool) :
    (hdTick h b).2.2 = none ∧ Counting (n + 1) (hdTick h b).1 ∧ (hdTick h b).1.raw = shiftIn h.raw b := by
  obtain ⟨o, ho, htick⟩ := hdTick_counting hc b
  have hcnt : ¬ h.cnt8 + 1 = 8 := by
    rw [hc.cnt8]
    omega
  rw [hdWaitData, if_neg hcnt] at ho
  subst ho
  rw [htick]
  exact ⟨rfl, ⟨.inr rfl, hc.nflag, congrArg (· + 1) hc.cnt8, hc.buf⟩, rfl⟩

theorem hdRun_partial {n : Nat} {l : List Bool} (hc : Counting n h) (hn : n + l.length ≤ 7) :
    Silent h l ∧ Counting (n + l.length) (hdRun h l) ∧ (hdRun h l).raw = l.foldl shiftIn h.raw := by
  induction l generalizing h n with
  | nil => exact ⟨rfl, hc, rfl⟩
  | cons b l ih =>
    rw [List.length_cons] at hn
    obtain ⟨hnone, hnext, hraw⟩ := hdTick_partial hc (by omega) b
    obtain ⟨hsilent, hcount, hlast⟩ := ih hnext (by omega)
    refine ⟨.cons hnone hsilent, ?_, hlast.trans (by rw [hraw]; rfl)⟩
    rw [List.length_cons, show n + (l.length + 1) = n + 1 + l.length by omega]
    exact hcount

/-- The bit that completes a flag. -/
theorem hdTick_flag (hc : Counting 7 h) (hv : shiftIn h.raw b = Config.hdFlag) :
    (hdTick h b).2.2 = none ∧ Counting 0 (hdTick h b).1 ∧ (hdTick h b).1.raw = Config.hdFlag := by
  obtain ⟨o, ho, htick⟩ := hdTick_counting hc b
  rw [hdWaitData, if_pos (by rw [hc.cnt8]), if_pos hv] at ho
  subst ho
  rw [htick]
  have hmore : 1 ≤ moreFlags h.nflag := by
    unfold moreFlags
    omega
  exact ⟨rfl, ⟨.inr rfl, hmore, rfl, hc.buf⟩, hv⟩

/-- The registers with which a frame begins: nothing is stored yet. -/
structure AtStart (h : Hd) : Prop where
  state : h.state = .waitEnd
  acc : h.acc = 0
  accn : h.accn = 0
  buf : h.buf = []
  blen : h.blen = 0
  ovf : h.ovf = false

/-- The registers with which the bits of a frame are taken. -/
def bodyStart (h : Hd) : Hd := clearDatapath { h with cnt8 := 0, state := .waitEnd }

theorem bodyStart_atStart (hbuf : h.buf = []) : AtStart (bodyStart h) := ⟨rfl, rfl, rfl, hbuf, rfl, rfl⟩

/-- An octet that is no flag goes through the destuffer. -/
theorem hdWaitData_first {bits : List Bool} {k : Nat} (h8 : h.cnt8 + 1 = 8) (hv : h.raw ≠ Config.hdFlag)
    (hu : unstuff 0 (rawBits h.raw) = some (bits, k)) :
    hdWaitData h = (withRaw h.raw k h.last (bits.foldl storeBit (bodyStart h)), [], none) := by
  unfold hdWaitData
  rw [if_pos h8, if_neg hv]
  exact replay_unstuff (h := bodyStart h) hu

/-- The bit that completes the first octet of a frame. -/
theorem hdTick_first {bits : List Bool} {k : Nat} (hc : Counting 7 h)
    (hv : shiftIn h.raw b ≠ Config.hdFlag)
    (hu : unstuff 0 (rawBits (shiftIn h.raw b)) = some (bits, k)) :
    ∃ g, AtStart g ∧ hdTick h b = (withRaw (shiftIn h.raw b) k [] (bits.foldl storeBit g), [], none) := by
  obtain ⟨o, ho, htick⟩ := hdTick_counting hc b
  rw [hdWaitData_first (h := { h with raw := shiftIn h.raw b, state := .waitData })
    (congrArg (· + 1) hc.cnt8) hv hu] at ho
  subst ho
  exact ⟨bodyStart { h with raw := shiftIn h.raw b, state := .waitData }, bodyStart_atStart hc.buf,
    htick⟩

/-- From reset, the first flag is found. -/
theorem hdRun_firstFlag :
    Silent Hd.reset flag ∧ Counting 0 (hdRun Hd.reset flag) ∧
      (hdRun Hd.reset flag).raw = Config.hdFlag := by
  have hrun : hdRun Hd.reset flag =
      { Hd.reset with state := .countFlag, raw := Config.hdFlag, nflag := 1 } := by decide
  rw [hrun]
  exact ⟨by unfold Silent; decide, ⟨.inl rfl, Nat.le_refl 1, rfl, rfl⟩, rfl⟩

theorem flag_eq_append : flag = [false, true, true, true, true, true, true] ++ [false] := rfl

/-- One more flag. -/
theorem hdRun_flag (hc : Counting 0 h) :
    Silent h flag ∧ Counting 0 (hdRun h flag) ∧ (hdRun h flag).raw = Config.hdFlag := by
  obtain ⟨hsilent, hseven, hraw⟩ :=
    hdRun_partial (l := [false, true, true, true, true, true, true]) hc (by decide)
  have hv : shiftIn (hdRun h [false, true, true, true, true, true, true]).raw false = Config.hdFlag := by
    rw [hraw]
    exact eq_hdFlag_of_rawBits (rawBits_foldl h.raw (l := flag) rfl)
  obtain ⟨hnone, hcount, hflag⟩ := hdTick_flag hseven hv
  exact ⟨.append hsilent (.cons hnone rfl), hcount, hflag⟩

/-- Flags from reset: HD is ready for the first octet of a frame. -/
theorem hdRun_flags (n : Nat) :
    Silent Hd.reset (List.replicate (n + 1) flag).flatten ∧
      Counting 0 (hdRun Hd.reset (List.replicate (n + 1) flag).flatten) ∧
      (hdRun Hd.reset (List.replicate (n + 1) flag).flatten).raw = Config.hdFlag := by
  induction n with
  | zero => exact hdRun_firstFlag
  | succ n ih =>
    obtain ⟨hsilent, hcount, -⟩ := ih
    obtain ⟨hflag, hcount', hraw⟩ := hdRun_flag hcount
    rw [List.replicate_succ', List.flatten_append, List.flatten_singleton]
    refine ⟨.append hsilent hflag, ?_⟩
    unfold hdRun at *
    rw [List.foldl_append]
    exact ⟨hcount', hraw⟩

/-- The first octet of a frame, which is no flag since it holds no six 1s in a row. -/
theorem hdRun_first {l bits : List Bool} {k : Nat} (hc : Counting 0 h) (hraw : h.raw = Config.hdFlag)
    (hl : l.length = 8) (hu : unstuff 0 l = some (bits, k)) :
    Silent h l ∧ InBody (hdRun h l) ∧
      ∃ g v, AtStart g ∧ hdRun h l = withRaw v k [] (bits.foldl storeBit g) := by
  obtain ⟨l, b, rfl⟩ := (List.eq_nil_or_concat' l).resolve_left (by rintro rfl; cases hl)
  have hlen : l.length = 7 := by simpa using hl
  obtain ⟨hsilent, hseven, hraw'⟩ := hdRun_partial hc (l := l) (by omega)
  rw [hlen, Nat.zero_add] at hseven
  have hfull : shiftIn (hdRun h l).raw b = (l ++ [b]).foldl shiftIn h.raw := by
    rw [hraw', List.foldl_append]
    rfl
  have hbits : rawBits (shiftIn (hdRun h l).raw b) = l ++ [b] := by rw [hfull, rawBits_foldl _ hl]
  have hnoflag : shiftIn (hdRun h l).raw b ≠ Config.hdFlag := by
    intro heq
    rw [heq] at hbits
    rw [← hbits] at hu
    cases hu
  obtain ⟨g, hg, htick⟩ := hdTick_first hseven hnoflag (by rw [hbits]; exact hu)
  have hrun : hdRun h (l ++ [b]) = (hdTick (hdRun h l) b).1 := List.foldl_append ..
  have htrail := trail_of_unstuff (v := h.raw) (Nat.zero_le 5) (by rw [hraw]; decide) hu
  rw [hrun, htick]
  refine ⟨.append hsilent (.cons (by rw [htick]) rfl), ⟨?_, htrail.1, ?_⟩, g, _, hg, rfl⟩
  · exact (foldl_storeBit_state _ _).trans hg.state
  · rw [hfull]
    exact htrail.2

end Flags

/-! ### The bytes of a frame (rules R74, R278) -/

section Bytes

variable {h : Hd}

theorem storeBit_more (hn : h.accn + 1 < 8) (b : Bool) :
    storeBit h b =
      { h with acc := h.acc ||| (BitVec.ofNat 8 b.toNat <<< h.accn), accn := h.accn + 1 } :=
  if_neg (by omega)

theorem storeBit_last (hn : h.accn = 7) (hroom : h.blen < 512) (b : Bool) :
    storeBit h b =
      { h with
        buf := memWrite h.buf h.blen (h.acc ||| (BitVec.ofNat 8 b.toNat <<< h.accn))
        blen := h.blen + 1, acc := 0, accn := 0 } := by
  unfold storeBit
  dsimp only
  rw [if_pos (by omega)]
  exact if_pos hroom

/-- A byte that is filled up to bit `j`: bits from there on are still 0. -/
theorem filled_succ {acc c : BitVec 8} {j : Nat} (hj : j < 8)
    (hacc : ∀ i, acc.getLsbD i = (decide (i < j) && c.getLsbD i)) (i : Nat) :
    (acc ||| (BitVec.ofNat 8 (c.getLsbD j).toNat <<< j)).getLsbD i =
      (decide (i < j + 1) && c.getLsbD i) := by
  have hbit : (BitVec.ofNat 8 (c.getLsbD j).toNat <<< j).getLsbD i = (decide (i = j) && c.getLsbD j) := by
    cases c.getLsbD j with
    | false => simp
    | true => simpa [BitVec.twoPow, eq_comm, hj] using BitVec.getLsbD_twoPow (w := 8) j i
  rw [BitVec.getLsbD_or, hacc, hbit]
  rcases Nat.lt_trichotomy i j with hlt | rfl | hgt
  · simp [hlt, Nat.ne_of_lt hlt, Nat.lt_succ_of_lt hlt]
  · simp
  · simp [Nat.not_lt_of_gt hgt, Nat.ne_of_gt hgt, show ¬ i < j + 1 by omega]

/-- An empty byte is no bits yet. -/
theorem withEmptyAcc (hacc : h.acc = 0) (hn : h.accn = 0) : { h with acc := 0, accn := 0 } = h := by
  cases h
  cases hacc
  cases hn
  rfl

/-- The first bits of a byte are assembled, the first one in bit 0. -/
theorem foldl_storeBit_partial (hacc : h.acc = 0) (hn : h.accn = 0) (c : BitVec 8) {j : Nat} (hj : j ≤ 7) :
    ∃ acc, ((List.range j).map c.getLsbD).foldl storeBit h = { h with acc := acc, accn := j } ∧
      ∀ i, acc.getLsbD i = (decide (i < j) && c.getLsbD i) := by
  induction j with
  | zero => exact ⟨0, (withEmptyAcc hacc hn).symm, by simp⟩
  | succ j ih =>
    obtain ⟨acc, hfold, hbits⟩ := ih (by omega)
    rw [List.range_succ, List.map_append, List.foldl_append, hfold]
    have hmore : j + 1 < 8 := by omega
    exact ⟨_, storeBit_more (h := { h with acc := acc, accn := j }) hmore _, filled_succ (by omega) hbits⟩

/-- Nothing of a byte is assembled, and the bytes so far are the whole buffer. -/
structure Whole (h : Hd) : Prop where
  acc : h.acc = 0
  accn : h.accn = 0
  blen : h.blen = h.buf.length

theorem memWrite_end {α : Type} (m : List α) (v : α) : memWrite m m.length v = m ++ [v] :=
  if_neg (Nat.lt_irrefl _)

theorem byteBits_cons (c : BitVec 8) (B : List (BitVec 8)) :
    byteBits (c :: B) = (List.range 7).map c.getLsbD ++ (c.getLsbD 7 :: byteBits B) := by
  unfold byteBits
  rw [List.flatMap_cons, List.range_succ, List.map_append, List.append_assoc]
  rfl

/-- The bits of a byte store it behind those before. -/
theorem foldl_storeBit_byte (hw : Whole h) (hroom : h.buf.length < 512) (c : BitVec 8) :
    storeBit (((List.range 7).map c.getLsbD).foldl storeBit h) (c.getLsbD 7) =
      { h with buf := h.buf ++ [c], blen := h.buf.length + 1 } := by
  obtain ⟨acc, hfold, hbits⟩ := foldl_storeBit_partial hw.acc hw.accn c (j := 7) (by decide)
  have hfull : acc ||| (BitVec.ofNat 8 (c.getLsbD 7).toNat <<< 7) = c :=
    BitVec.eq_of_getLsbD_eq fun i hi => by
      rw [filled_succ (by decide) hbits]
      simp [hi]
  have hlast := storeBit_last (h := { h with acc := acc, accn := 7 }) rfl
    (show h.blen < 512 by rw [hw.blen]; exact hroom) (c.getLsbD 7)
  dsimp only at hlast
  rw [hfold, hlast, hfull, hw.blen, memWrite_end]
  exact withEmptyAcc (h := { h with buf := h.buf ++ [c], blen := h.buf.length + 1 }) hw.acc hw.accn

/-- The bits of bytes store them, as far as there is room. -/
theorem foldl_storeBit_bytes (hw : Whole h) {B : List (BitVec 8)} (hroom : h.buf.length + B.length ≤ 512) :
    (byteBits B).foldl storeBit h =
      { h with buf := h.buf ++ B, blen := (h.buf ++ B).length } := by
  induction B generalizing h with
  | nil =>
    rw [List.append_nil, ← hw.blen]
    rfl
  | cons c B ih =>
    rw [List.length_cons] at hroom
    have hroom' : (h.buf ++ [c]).length + B.length ≤ 512 := by
      rw [List.length_append, List.length_singleton]
      omega
    have hrest := ih (h := { h with buf := h.buf ++ [c], blen := h.buf.length + 1 })
      ⟨hw.acc, hw.accn, (List.length_append (bs := [c])).symm⟩ hroom'
    rw [byteBits_cons, List.foldl_append, List.foldl_cons, foldl_storeBit_byte hw (by omega), hrest]
    dsimp only
    rw [List.append_assoc, List.singleton_append]

/-- The bytes of a frame and the six bits of the closing flag that are stored before it ends. -/
theorem foldl_storeBit_frame (hs : AtStart h) {B : List (BitVec 8)} (hroom : B.length ≤ 512) :
    ∃ acc, (byteBits B ++ [false, true, true, true, true, true]).foldl storeBit h =
      { h with acc := acc, accn := 6, buf := B, blen := B.length } := by
  have hw : Whole h := ⟨hs.acc, hs.accn, by rw [hs.blen, hs.buf]; rfl⟩
  have hbytes := foldl_storeBit_bytes hw (B := B) (by rw [hs.buf]; simpa using hroom)
  rw [hs.buf, List.nil_append] at hbytes
  obtain ⟨acc, hsix, -⟩ := foldl_storeBit_partial (h := { h with buf := B, blen := B.length })
    hs.acc hs.accn Config.hdFlag (j := 6) (by decide)
  rw [List.foldl_append, hbytes]
  exact ⟨acc, hsix⟩

theorem byteBits_length (B : List (BitVec 8)) : (byteBits B).length = 8 * B.length := by
  induction B with
  | nil => rfl
  | cons c B ih =>
    rw [byteBits_cons, List.length_append, List.length_cons, ih]
    simp
    omega

end Bytes

/-! ### A frame between flags (rule R288) -/

section Frame

variable {h : Hd}

/-- The stuffed bits of bytes and the closing flag up to its fifth 1, the sixth of a run being due. -/
theorem unstuff_body (l : List Bool) :
    unstuff 0 (stuff 0 l ++ [false, true, true, true, true, true]) =
      some (l ++ [false, true, true, true, true, true], 5) := by
  obtain ⟨k, hk, hbody⟩ := unstuff_stuff (n := 0) (by decide) l
  rw [unstuff_append, hbody]
  show (unstuff k (false :: [true, true, true, true, true])).map _ = _
  rw [unstuff_cons (by omega)]
  rfl

/-- The bits of a frame after the flags: they are stored as they are unstuffed. -/
theorem hdRun_frame {l bits : List Bool} {k : Nat} (hc : Counting 0 h) (hraw : h.raw = Config.hdFlag)
    (hl : 8 ≤ l.length) (hu : unstuff 0 l = some (bits, k)) :
    Silent h l ∧ ∃ g v evs, AtStart g ∧ hdRun h l = withRaw v k evs (bits.foldl storeBit g) := by
  rw [← List.take_append_drop 8 l, unstuff_append] at hu
  obtain ⟨⟨bits₁, k₁⟩, h₁, hu⟩ := Option.bind_eq_some_iff.mp hu
  obtain ⟨⟨bits₂, k₂⟩, h₂, heq⟩ := Option.map_eq_some_iff.mp hu
  cases heq
  obtain ⟨hfirst, hbody, g, v, hg, hrun⟩ :=
    hdRun_first hc hraw (l := l.take 8) (by rw [List.length_take]; omega) h₁
  obtain ⟨hrest, -, v', evs, hrun'⟩ :=
    hdRun_inBody hbody (l := l.drop 8) (bits := bits₂) (k := k₂) (by rw [hrun]; exact h₂)
  rw [hrun, foldl_storeBit_withRaw, ← List.foldl_append, ← hrun] at hrun'
  have hsplit : hdRun h l = hdRun (hdRun h (l.take 8)) (l.drop 8) := by
    unfold hdRun
    rw [← List.foldl_append, List.take_append_drop]
  have hsilent := hfirst.append hrest
  rw [List.take_append_drop] at hsilent
  exact ⟨hsilent, g, v', evs, hg, hsplit.trans hrun'⟩

/-- The last two bits of the closing flag: the parse of the stored bytes comes with the first of them. -/
theorem framesOf_close (hs : h.state = .waitEnd) (hn : h.ones = 5) (hovf : h.ovf = false)
    (hmin : 15 ≤ h.blen) (hall : h.blen = h.buf.length) :
    framesOf h [true, false] = [parseFrame h.buf, none] := by
  obtain ⟨hframe, hstate⟩ := hdTick_fin hs hn
  show [(hdTick h true).2.2, (hdTick (hdTick h true).1 false).2.2] = _
  rw [hframe, hdTick_waitFlag hstate, verdict_frame hovf hmin, List.take_of_length_le hall.ge]

/-- After the flags, the stuffed bits of bytes and a flag: their parse, with the flag's seventh bit. -/
theorem framesOf_frame {B : List (BitVec 8)} (hc : Counting 0 h) (hraw : h.raw = Config.hdFlag)
    (hmin : 15 ≤ B.length) (hmax : B.length ≤ 512) :
    framesOf h (stuff 0 (byteBits B) ++ flag) =
      List.replicate ((stuff 0 (byteBits B)).length + 6) none ++ [parseFrame B, none] := by
  have hlong := stuff_length 0 (byteBits B)
  rw [byteBits_length] at hlong
  obtain ⟨hsilent, g, v, evs, hg, hrun⟩ :=
    hdRun_frame hc hraw (by rw [List.length_append]; omega) (unstuff_body (byteBits B))
  obtain ⟨acc, hstored⟩ := foldl_storeBit_frame hg hmax
  rw [hstored] at hrun
  have hclose : framesOf (hdRun h (stuff 0 (byteBits B) ++ [false, true, true, true, true, true]))
      [true, false] = [parseFrame B, none] := by
    rw [hrun]
    exact framesOf_close hg.state rfl hg.ovf hmin rfl
  have hflag : flag = [false, true, true, true, true, true] ++ [true, false] := rfl
  rw [hflag, ← List.append_assoc, framesOf_append, hsilent, hclose, List.length_append]
  rfl

end Frame

end Machine
end Sys2Proof

namespace Sys2Proof
namespace Settled

open Sys2Proof.Machine Sys2Proof.Claims

/-- Settles O54: the flags leave HD ready; the first octet of the stuffed bits and then the others are
unstuffed into the bytes, up to the fifth 1 of the closing flag; its sixth ends the frame. -/
theorem frameReproduced : Obligations.FrameReproduced := by
  unfold Obligations.FrameReproduced
  intro flags B hflags hmin hmax body
  obtain ⟨n, rfl⟩ : ∃ n, flags = n + 1 := ⟨flags - 1, by omega⟩
  obtain ⟨hsilent, hcount, hraw⟩ := hdRun_flags n
  have hlen : (List.replicate (n + 1) flag).flatten.length = 8 * (n + 1) := by
    rw [List.length_flatten, List.map_replicate, List.sum_replicate, smul_eq_mul, Nat.mul_comm]
    rfl
  rw [List.append_assoc, framesOf_append, hsilent, framesOf_frame hcount hraw hmin hmax, hlen,
    ← List.append_assoc, ← List.replicate_add, Nat.add_assoc]

end Settled
end Sys2Proof
end

section
/-!
SUPPORT. The construction of a composite (rules R143 to R145): what each check of PIPE.SERIAL and
PIPE.PARALLEL asks of the named children, and what the operation comes to where it fails and where all
pass; the ownership check of a direct INIT or STEP (rule R152); and FIR.SET_TAPS (rule R177).
-/

namespace Sys2Proof
namespace Machine

open Sys2Proof.Claims

/-! ### An owned node (rule R152) -/

section Owned

variable {s : State} {inst : Inst} {n : Nid}

/-- The rule of a direct INIT or STEP of an owned node, once the unit is found. -/
theorem owned_error {C β : Type} {l : List C} (hi : inst.toNat < l.length) (hn : n ∈ s.used)
    (rule : Unit → Ans β) :
    (pick l inst >>= fun _ => notOwned s n >>= rule) = .error (.contract .nodeOwned) := by
  rw [pick_bind (List.getElem?_eq_getElem hi)]
  exact error_bind (notOwned_error.mpr ⟨hn, rfl⟩) _

/-- PIPE.STEP of an owned composite: the type of the sample comes first (log entry 10). -/
theorem execPipeStep_owned {v : PortSample} (hi : inst.toNat < s.pipe.length)
    (hv : operandTyped s (.pipeStep inst v) = true) (hn : nidOf 0 inst ∈ s.used) :
    execPipeStep inst v s = .next (rejected s (.contract .nodeOwned)) := by
  have hu := List.getElem?_eq_getElem hi
  refine concludeBits_rejected ?_
  rw [pick_bind hu, (pipeOperandFits_ok hu).mpr hv]
  exact error_bind (notOwned_error.mpr ⟨hn, rfl⟩) _

/-- The ownership check of each INIT and each STEP stands behind the look-up of the unit. -/
theorem exec_owned {i : Instr} (hi : (isInit i || isStep i) = true)
    (hlt : i.inst.toNat < instances s (unitOf i)) (ht : operandTyped s i = true)
    (hn : nidOfOp i ∈ s.used) : exec i s = .next (rejected s (.contract .nodeOwned)) := by
  rw [unitOf_eq] at hlt
  rw [nidOfOp, unitOf_eq] at hn
  cases i
  case pipeStep => exact execPipeStep_owned hlt ht hn
  case bsStep => exact concludeBits_rejected (owned_error hlt hn _)
  case pipeInit | gzInit | gzStep | firInit | firStep | fircStep | bqInit | bqStep | bqcStep | maInit
      | maStep | bsInit =>
    exact conclude_rejected (owned_error hlt hn _)
  all_goals cases hi

end Owned

/-! ### The checks of the children (rules R143, R144) -/

section Children

variable {s : State} {inst : Inst} {l : List Nid}

/-- The types of a node as far as they are known. -/
def knownTypes : Option NodeInfo → Tag × Tag
  | some ⟨_, some t⟩ => t
  | _ => (.real, .real)

theorem nodeTypes_eq (s : State) (n : Nid) : nodeTypes s n = knownTypes (nodeInfo s n) := by
  unfold nodeTypes knownTypes
  rcases nodeInfo s n with _ | ⟨ph, _ | t⟩ <;> rfl

theorem childrenKnown_iff : childrenKnown s l = true ↔ none ∉ l.map (nodeInfo s) := by
  simp [childrenKnown, Option.isSome_iff_ne_none]

/-- Of children that are nodes, none is in UNCONF. -/
theorem childrenConfigured_iff (hknown : none ∉ l.map (nodeInfo s)) :
    childrenConfigured s l = true ↔ ∀ ts, some ⟨.unconf, ts⟩ ∉ l.map (nodeInfo s) := by
  simp only [childrenConfigured, List.all_eq_true, phaseIs_eq, List.mem_map, not_exists, not_and] at *
  refine ⟨fun h ts c hc hi => ?_, fun h c hc => ?_⟩
  · have hph := h c hc
    rw [hi] at hph
    cases hph
  · cases hi : nodeInfo s c with
    | none => exact absurd hi (hknown c hc)
    | some i =>
      obtain ⟨ph, ts⟩ := i
      refine bne_iff_ne.mpr fun hph : ph = .unconf => ?_
      exact h ts c hc (hph ▸ hi)

theorem duplicated_iff {self : Nid} :
    duplicated s self l = true ↔ ((∃ c ∈ l, c ∈ s.used) ∨ ¬ l.Nodup) ∨ self ∈ l := by
  simp [duplicated]

/-- Each output type is the next one's input type, position by position (rule R144). -/
theorem chained_iff {ts : List (Tag × Tag)} :
    chained ts = true ↔ ∀ j a b, ts[j]? = some a → ts[j + 1]? = some b → a.2 = b.1 := by
  induction ts with
  | nil => simp [chained]
  | cons x ts ih =>
    cases ts with
    | nil => simp [chained]
    | cons y ts =>
      simp only [chained, Bool.and_eq_true, beq_iff_eq, ih]
      refine ⟨fun ⟨hxy, h⟩ j a b ha hb => ?_, fun h => ⟨h 0 x y rfl rfl, fun j => h (j + 1)⟩⟩
      cases j with
      | zero =>
        cases ha
        cases hb
        exact hxy
      | succ j => exact h j a b ha hb

theorem sameInput_iff {ts : List (Tag × Tag)} {t0 : Tag × Tag} (h0 : ts.head? = some t0) :
    sameInput ts = true ↔ ∀ t ∈ ts, t.1 = t0.1 := by
  cases ts with
  | nil => cases h0
  | cons t ts =>
    cases h0
    simp [sameInput]

end Children

/-! ### PIPE.SERIAL and PIPE.PARALLEL, check by check -/

section Construct

variable {s : State} {inst : Inst} {l : List Nid} {typed : List (Tag × Tag) → Bool}
  {cfg : List (Tag × Tag) → PipeCfg}

theorem construct_constructed {p : Pipe} (hp : s.pipe[inst.toNat]? = some p) (hph : p.ph ≠ .unconf) :
    construct inst l typed cfg s = .error badPhase := by
  unfold construct
  rw [pick_bind hp]
  cases p with
  | unconf => exact absurd rfl hph
  | conf c | run c r => rfl

section Unconf

variable (hp : s.pipe[inst.toNat]? = some .unconf)
include hp

theorem construct_empty : construct inst [] typed cfg s = .error (.config .emptyPipeline) := by
  unfold construct
  rw [pick_bind hp]
  rfl

/-- The rule of a list that is not empty. -/
theorem construct_nonempty_eq (hl : l ≠ []) :
    construct inst l typed cfg s =
      if !childrenKnown s l then .error (.contract .unknownNode)
      else if !childrenConfigured s l then .error badPhase
      else if duplicated s (nidOf 0 inst) l then .error (.contract .duplicateNode)
      else if !typed (l.map (nodeTypes s)) then .error (.contract .typeMismatch)
      else .ok ⟨putPipe inst (.conf (cfg (l.map (nodeTypes s)))) { s with used := s.used ++ l },
        .none, []⟩ := by
  unfold construct
  rw [pick_bind hp]
  exact if_neg (by simpa using hl)

variable (hl : l ≠ [])
include hl

theorem construct_unknown (h : none ∈ l.map (nodeInfo s)) :
    construct inst l typed cfg s = .error (.contract .unknownNode) := by
  have hknown : childrenKnown s l = false :=
    Bool.eq_false_iff.mpr fun hk => childrenKnown_iff.mp hk h
  rw [construct_nonempty_eq hp hl, hknown]
  rfl

variable (hknown : none ∉ l.map (nodeInfo s))
include hknown

theorem construct_unconfigured (h : ∃ ts, some ⟨.unconf, ts⟩ ∈ l.map (nodeInfo s)) :
    construct inst l typed cfg s = .error badPhase := by
  obtain ⟨ts, hts⟩ := h
  have hconf : childrenConfigured s l = false :=
    Bool.eq_false_iff.mpr fun hc => (childrenConfigured_iff hknown).mp hc ts hts
  rw [construct_nonempty_eq hp hl, childrenKnown_iff.mpr hknown, hconf]
  rfl

variable (hconf : ∀ ts, some ⟨.unconf, ts⟩ ∉ l.map (nodeInfo s))
include hconf

theorem construct_configured_eq :
    construct inst l typed cfg s =
      if duplicated s (nidOf 0 inst) l then .error (.contract .duplicateNode)
      else if !typed (l.map (nodeTypes s)) then .error (.contract .typeMismatch)
      else .ok ⟨putPipe inst (.conf (cfg (l.map (nodeTypes s)))) { s with used := s.used ++ l },
        .none, []⟩ := by
  rw [construct_nonempty_eq hp hl, childrenKnown_iff.mpr hknown,
    (childrenConfigured_iff hknown).mpr hconf]
  rfl

theorem construct_duplicated (h : (∃ c ∈ l, c ∈ s.used) ∨ ¬ l.Nodup) :
    construct inst l typed cfg s = .error (.contract .duplicateNode) := by
  rw [construct_configured_eq hp hl hknown hconf, if_pos (duplicated_iff.mpr (.inl h))]

end Unconf

/-- The named children are configured nodes with the phases and types `ts`, unowned and distinct: what
PIPE.SERIAL and PIPE.PARALLEL ask of them before they look at the types. -/
structure Placeable (s : State) (l : List Nid) (ts : List (Phase × Tag × Tag)) : Prop where
  nonempty : l ≠ []
  info : l.map (nodeInfo s) = ts.map fun t => some ⟨t.1, some t.2⟩
  configured : ∀ t ∈ ts, t.1 ≠ .unconf
  unowned : ∀ c ∈ l, c ∉ s.used
  nodup : l.Nodup

variable {ts : List (Phase × Tag × Tag)}

theorem Placeable.types (h : Placeable s l ts) : l.map (nodeTypes s) = ts.map Prod.snd := by
  have hmap := congrArg (List.map knownTypes) h.info
  rw [List.map_map, List.map_map] at hmap
  rw [show nodeTypes s = knownTypes ∘ nodeInfo s from funext (nodeTypes_eq s), hmap]
  rfl

/-- Placeable children leave the check of the types. -/
theorem Placeable.construct_eq (h : Placeable s l ts) (hp : s.pipe[inst.toNat]? = some .unconf) :
    construct inst l typed cfg s =
      if typed (ts.map Prod.snd) then
        .ok ⟨putPipe inst (.conf (cfg (ts.map Prod.snd))) { s with used := s.used ++ l }, .none, []⟩
      else .error (.contract .typeMismatch) := by
  have hknown : none ∉ l.map (nodeInfo s) := by simp [h.info]
  have hconf : ∀ o, some ⟨.unconf, o⟩ ∉ l.map (nodeInfo s) := by
    intro o ho
    rw [h.info, List.mem_map] at ho
    obtain ⟨t, ht, heq⟩ := ho
    simp only [Option.some.injEq, NodeInfo.mk.injEq] at heq
    exact h.configured t ht heq.1
  have hself : nidOf 0 inst ∉ l := by
    intro hmem
    have hnone : nodeInfo s (nidOf 0 inst) = some ⟨.unconf, none⟩ := by
      simp [nodeInfo, hp, pipeInfo]
    exact hconf none (hnone ▸ List.mem_map_of_mem hmem)
  have hdup : ¬ duplicated s (nidOf 0 inst) l = true := by
    rw [duplicated_iff]
    rintro ((⟨c, hc, hu⟩ | hn) | hs)
    · exact h.unowned c hc hu
    · exact hn h.nodup
    · exact hself hs
  rw [construct_configured_eq hp h.nonempty hknown hconf, if_neg hdup, h.types]
  cases typed (ts.map Prod.snd) <;> rfl

end Construct

/-! ### FIR.SET_TAPS (rule R177) -/

/-- FIR.SET_TAPS where its body completes: the lock leaves no trace. -/
theorem execFirSetTaps_done {s : State} {inst : Inst} {u u' : Fir} {t : Nat}
    (hu : s.fir[inst.toNat]? = some u) (h : firSetTaps s.num s.par.tone u t = .ok u') :
    execFirSetTaps inst t s = .next (done (putFir inst u' s) .none) := by
  unfold execFirSetTaps
  rw [pick_bind hu, h]
  show Host.Outcome.next (accept ⟨underLock (nidOf 2 inst) (putFir inst u') s, .none, []⟩ []) = _
  rw [underLock_putFir]
  rfl

/-- FIR.SET_TAPS where its body raises. -/
theorem execFirSetTaps_error {s : State} {inst : Inst} {u : Fir} {t : Nat} {e : Status}
    (hu : s.fir[inst.toNat]? = some u) (h : firSetTaps s.num s.par.tone u t = .error e) :
    execFirSetTaps inst t s = .next (rejected s e) := by
  refine conclude_rejected ?_
  rw [pick_bind hu]
  exact error_bind h _

end Machine
end Sys2Proof

namespace Sys2Proof
namespace Settled

open Sys2Proof.Machine Sys2Proof.Claims

/-- Settles O7: in every INIT and STEP the ownership check follows the look-up of the unit, and in
PIPE.STEP the type of the sample. -/
theorem ownedNodeRefused : Obligations.OwnedNodeRefused := by
  unfold Obligations.OwnedNodeRefused
  exact fun i s hi hlt ht hn => exec_owned hi hlt ht hn

/-- Settles O18: both operations are `construct`, whose checks stand in this order. -/
theorem serialChecksInOrder : Obligations.SerialChecksInOrder := by
  unfold Obligations.SerialChecksInOrder
  intro s inst l p hp info refused
  have refuse : ∀ {e : Status}, (∀ typed cfg, construct inst l typed cfg s = .error e) → refused e :=
    fun h => ⟨conclude_rejected (h _ _), fun f t => conclude_rejected (h _ _)⟩
  refine ⟨fun hph => ?_, fun hu hl => ?_, fun hu hl hunknown => ?_, fun hu hl hknown hts => ?_,
    fun hu hl hknown hconf hdup => ?_⟩
  · exact refuse fun _ _ => construct_constructed hp hph
  all_goals subst hu
  · subst hl
    exact refuse fun _ _ => construct_empty hp
  · exact refuse fun _ _ => construct_unknown hp hl hunknown
  · exact refuse fun _ _ => construct_unconfigured hp hl hknown hts
  · exact refuse fun _ _ => construct_duplicated hp hl hknown hconf hdup

/-- Settles O19: of placeable children only the check that their types chain is left. -/
theorem serialBuilds : Obligations.SerialBuilds := by
  unfold Obligations.SerialBuilds
  intro s inst c0 cs ts t0 tl hp hinfo hconf hused hnodup h0 hl
  have hplace : Placeable s (c0 :: cs) ts := ⟨List.cons_ne_nil _ _, hinfo, hconf, hused, hnodup⟩
  have hexec : exec (.pipeSerial inst (c0 :: cs)) s = _ :=
    congrArg (conclude s) (hplace.construct_eq (typed := chained) (cfg := serialCfg (c0 :: cs)) hp)
  have hchain : chained (ts.map Prod.snd) = true ↔
      ∀ j a b, ts[j]? = some a → ts[j + 1]? = some b → a.2.2 = b.2.1 := by
    simp only [chained_iff, List.getElem?_map, Option.map_eq_some_iff]
    exact ⟨fun h j a b ha hb => h j _ _ ⟨a, ha, rfl⟩ ⟨b, hb, rfl⟩,
      fun h j _ _ ⟨a, ha, ea⟩ ⟨b, hb, eb⟩ => ea ▸ eb ▸ h j a b ha hb⟩
  have hcfg : serialCfg (c0 :: cs) (ts.map Prod.snd) = ⟨.serial, c0 :: cs, t0.2.1, tl.2.2⟩ := by
    simp [serialCfg, List.headD_eq_head?_getD, List.getLastD_eq_getLast?, h0, hl]
  rw [hcfg] at hexec
  refine ⟨fun hts => ?_, fun ⟨j, a, b, ha, hb, hne⟩ => ?_⟩
  · rw [if_pos (hchain.mpr hts)] at hexec
    exact hexec
  · rw [if_neg fun h => hne (hchain.mp h j a b ha hb)] at hexec
    exact hexec

/-- Settles O20: of placeable children only the check of their input types is left. -/
theorem parallelBuilds : Obligations.ParallelBuilds := by
  unfold Obligations.ParallelBuilds
  intro s inst c0 cs ts t0 f t hp hinfo hconf hused hnodup h0
  have hplace : Placeable s (c0 :: cs) ts := ⟨List.cons_ne_nil _ _, hinfo, hconf, hused, hnodup⟩
  have hexec : exec (.pipeParallel inst (c0 :: cs) f t) s = _ :=
    congrArg (conclude s)
      (hplace.construct_eq (typed := sameInput) (cfg := parallelCfg (c0 :: cs) f t) hp)
  have hsame : sameInput (ts.map Prod.snd) = true ↔ ∀ u ∈ ts, u.2.1 = t0.2.1 := by
    rw [sameInput_iff (t0 := t0.2) (by rw [List.head?_map, h0]; rfl), List.forall_mem_map]
  have hcfg : parallelCfg (c0 :: cs) f t (ts.map Prod.snd) = ⟨.parallel f, c0 :: cs, t0.2.1, t⟩ := by
    simp [parallelCfg, List.headD_eq_head?_getD, h0]
  rw [hcfg] at hexec
  refine ⟨fun hts => ?_, fun ⟨u, hu, hne⟩ => ?_⟩
  · rw [if_pos (hsame.mpr hts)] at hexec
    exact hexec
  · rw [if_neg fun h => hne (hsame.mp h u hu)] at hexec
    exact hexec

/-- Settles O34: the clamped band edges and the tap count spelled out are those of `firTaps`. -/
theorem firSetTaps : Obligations.FirSetTaps := by
  unfold Obligations.FirSetTaps
  intro s inst t c r M nyq clamp te
  refine ⟨fun hu ht => ?_, fun hu ht => ?_, ?_⟩
  · exact execFirSetTaps_done hu (if_neg ht)
  · exact execFirSetTaps_done hu (if_neg ht)
  · rintro (hu | hu)
    · exact execFirSetTaps_error hu rfl
    · exact execFirSetTaps_error hu rfl

end Settled
end Sys2Proof
end

section
/-!
SUPPORT. INIT of a tree of nodes (rules R142, R146, R148, R150). The relations `Inits` and `InitFails` of
the statements follow the tree; `init_node` follows it with a bound on the depth, and checks the phases
below every composite again. In a tree whose nodes have left `UNCONF` the two agree.
-/

namespace Sys2Proof
namespace Machine

open Sys2Proof.Claims

/-! ### Configured units -/

section Configured

variable {C R : Type} {u : Option (Life C R)} {c : C}

theorem isConfigured_iff :
    isConfigured u c ↔ ∃ v, u = some v ∧ (v = .conf c ∨ ∃ r, v = .run c r) := by
  unfold isConfigured
  constructor
  · rintro (h | ⟨r, h⟩)
    · exact ⟨_, h, .inl rfl⟩
    · exact ⟨_, h, .inr ⟨r, rfl⟩⟩
  · rintro ⟨v, h, rfl | ⟨r, rfl⟩⟩
    · exact .inl h
    · exact .inr ⟨r, h⟩

/-- A unit that has left `UNCONF` is configured. -/
theorem exists_configured {p : Phase} (h : u.map Life.ph = some p) (hp : p ≠ .unconf) :
    ∃ c, isConfigured u c := by
  obtain ⟨v, rfl, rfl⟩ := Option.map_eq_some_iff.mp h
  cases v with
  | unconf => exact absurd rfl hp
  | conf c => exact ⟨c, .inl rfl⟩
  | run c r => exact ⟨c, .inr ⟨r, rfl⟩⟩

/-- The phase of a leaf is that of its unit. -/
theorem phase_of_info {f : Life C R → NodeInfo} (hf : ∀ v, (f v).ph = v.ph) {i : NodeInfo}
    (h : u.map f = some i) : u.map Life.ph = some i.ph := by
  obtain ⟨v, rfl, rfl⟩ := Option.map_eq_some_iff.mp h
  exact congrArg some (hf v).symm

end Configured

/-! ### INIT of a leaf in CONF or in RUN -/

section Leaves

variable {s : State} {inst : Inst}

theorem gzInitAt_configured {c : GzCfg} (hc : isConfigured s.gz[inst.toNat]? c) (x : RealVal) :
    gzInitAt inst x s =
      if s.num.pos x then .ok (x, putGz inst (.run c (gzReg s.num c x)) s) else .error badArgument := by
  obtain ⟨v, hu, hv⟩ := isConfigured_iff.mp hc
  unfold gzInitAt
  rw [pick_bind hu, gzInit_configured hv]
  cases s.num.pos x <;> rfl

theorem firInitAt_configured {c : FirCfg} (hc : isConfigured s.fir[inst.toNat]? c) (x : RealVal) :
    firInitAt inst x s =
      if s.num.pos x then
        if s.num.lt (s.num.clampf x c.fstop) (s.num.clampf x c.fstart) then .error (.config .badBand)
        else .ok (x, putFir inst (.run c (firReg s.num s.par.tone c x)) s)
      else .error badArgument := by
  obtain ⟨v, hu, hv⟩ := isConfigured_iff.mp hc
  unfold firInitAt
  rw [pick_bind hu, firInit_configured hv]
  cases s.num.pos x
  · rfl
  · cases s.num.lt (s.num.clampf x c.fstop) (s.num.clampf x c.fstart) <;> rfl

theorem bqInitAt_configured {c : BqCfg} (hc : isConfigured s.bq[inst.toNat]? c) (x : RealVal) :
    bqInitAt inst x s =
      if s.num.pos x then .ok (x, putBq inst (.run c (bqReg s.num c x)) s) else .error badArgument := by
  obtain ⟨v, hu, hv⟩ := isConfigured_iff.mp hc
  unfold bqInitAt
  rw [pick_bind hu, bqInit_configured hv]
  cases s.num.pos x <;> rfl

theorem maInitAt_configured {c : MaCfg} (hc : isConfigured s.ma[inst.toNat]? c) (x : RealVal) :
    maInitAt inst x s =
      if s.num.pos x then .ok (x, putMa inst (.run c (maReg s.num c)) s) else .error badArgument := by
  obtain ⟨v, hu, hv⟩ := isConfigured_iff.mp hc
  unfold maInitAt maInit positiveRate
  rw [pick_bind hu]
  obtain rfl | ⟨r, rfl⟩ := hv
  all_goals cases s.num.pos x <;> rfl

theorem bsInitAt_configured {c : BsCfg} (hc : isConfigured s.bs[inst.toNat]? c) (x : RealVal) :
    bsInitAt inst x s =
      if s.num.pos x then .ok (x, putBs inst (.run c (bsReg s.num c x)) s) else .error badArgument := by
  obtain ⟨v, hu, hv⟩ := isConfigured_iff.mp hc
  unfold bsInitAt bsInit positiveRate
  rw [pick_bind hu]
  obtain rfl | ⟨r, rfl⟩ := hv
  all_goals cases s.num.pos x <;> rfl

theorem initLeaf_gz (s : State) (i : Inst) (x : RealVal) :
    initLeaf (nidOf 1 i) x s = gzInitAt i x s := by
  unfold initLeaf
  rw [nidUnit_nidOf, nidInst_nidOf]
  rfl

theorem initLeaf_fir (s : State) (i : Inst) (x : RealVal) :
    initLeaf (nidOf 2 i) x s = firInitAt i x s := by
  unfold initLeaf
  rw [nidUnit_nidOf, nidInst_nidOf]
  rfl

theorem initLeaf_bq (s : State) (i : Inst) (x : RealVal) :
    initLeaf (nidOf 3 i) x s = bqInitAt i x s := by
  unfold initLeaf
  rw [nidUnit_nidOf, nidInst_nidOf]
  rfl

theorem initLeaf_ma (s : State) (i : Inst) (x : RealVal) :
    initLeaf (nidOf 4 i) x s = maInitAt i x s := by
  unfold initLeaf
  rw [nidUnit_nidOf, nidInst_nidOf]
  rfl

theorem initLeaf_bs (s : State) (i : Inst) (x : RealVal) :
    initLeaf (nidOf 5 i) x s = bsInitAt i x s := by
  unfold initLeaf
  rw [nidUnit_nidOf, nidInst_nidOf]
  rfl

theorem initLeaf_ext {n : Nid} (hn : isExt n) (s : State) (x : RealVal) :
    initLeaf n x s = extInitAt n x s := by
  obtain ⟨hlo, -⟩ := hn
  unfold initLeaf
  split
  case h_6 => rfl
  all_goals omega

/-- An external node is no composite. -/
theorem unit_ne_zero_of_ext {n : Nid} (hn : isExt n) : nidUnit n ≠ 0 := by
  intro h0
  have hlo := hn.1
  rw [h0] at hlo
  exact absurd hlo (by decide)

/-- A rule that checks the rate of a configured unit, where the rate is not positive. -/
theorem badRate_of_configured {C R β : Type} {u : Option (Life C R)} {f : Life C R → NodeInfo}
    {i : NodeInfo} {x : RealVal} {body : Ans β} {a : C → Ans β} (hf : ∀ v, (f v).ph = v.ph)
    (hi : u.map f = some i) (hp : i.ph ≠ .unconf) (hx : s.num.pos x = false)
    (h : ∀ c, isConfigured u c → body = if s.num.pos x then a c else .error badArgument) :
    body = .error badArgument := by
  obtain ⟨c, hc⟩ := exists_configured (phase_of_info hf hi) hp
  rw [h c hc, hx]
  rfl

/-- Every INIT of a leaf that has left `UNCONF` checks the rate (rule R356). -/
theorem initLeaf_badRate {n : Nid} {i : NodeInfo} {x : RealVal} (hn : nidUnit n ≠ 0)
    (hi : nodeInfo s n = some i) (hp : i.ph ≠ .unconf) (hx : s.num.pos x = false) :
    initLeaf n x s = .error badArgument := by
  obtain ⟨u, j, rfl⟩ : ∃ u j, n = nidOf u j := ⟨_, _, (nidOf_eta n).symm⟩
  unfold nodeInfo at hi
  rw [nidUnit_nidOf, nidInst_nidOf] at hi
  rw [nidUnit_nidOf] at hn
  dsimp only at hi
  split at hi
  case h_1 hu => exact absurd (BitVec.eq_of_toNat_eq (y := 0) hu) hn
  case h_2 hu =>
    obtain rfl : u = 1 := BitVec.eq_of_toNat_eq hu
    rw [initLeaf_gz]
    exact badRate_of_configured (lifeInfo_ph _) hi hp hx fun c hc => gzInitAt_configured hc x
  case h_3 hu =>
    obtain rfl : u = 2 := BitVec.eq_of_toNat_eq hu
    rw [initLeaf_fir]
    exact badRate_of_configured (lifeInfo_ph _) hi hp hx fun c hc => firInitAt_configured hc x
  case h_4 hu =>
    obtain rfl : u = 3 := BitVec.eq_of_toNat_eq hu
    rw [initLeaf_bq]
    exact badRate_of_configured (lifeInfo_ph _) hi hp hx fun c hc => bqInitAt_configured hc x
  case h_5 hu =>
    obtain rfl : u = 4 := BitVec.eq_of_toNat_eq hu
    rw [initLeaf_ma]
    exact badRate_of_configured (lifeInfo_ph _) hi hp hx fun c hc => maInitAt_configured hc x
  case h_6 hu =>
    obtain rfl : u = 5 := BitVec.eq_of_toNat_eq hu
    rw [initLeaf_bs]
    exact badRate_of_configured (lifeInfo_ph _) hi hp hx fun c hc => bsInitAt_configured hc x
  case h_7 =>
    split at hi
    case isFalse => cases hi
    case isTrue hext =>
      have hunit : isExt (nidOf u j) := by rwa [isExt, nidUnit_nidOf]
      obtain ⟨e, he, -⟩ := Option.map_eq_some_iff.mp hi
      rw [initLeaf_ext hunit, extInitAt_bound he]
      exact error_bind (positiveRate_error.mpr ⟨hx, rfl⟩) _

end Leaves

/-! ### Composites -/

section Composites

variable {s : State} {inst : Inst} {c : PipeCfg}

theorem childrenOf_configured (hc : isConfigured s.pipe[inst.toNat]? c) :
    childrenOf s (nidOf 0 inst) = c.child := by
  obtain ⟨v, hu, rfl | ⟨r, rfl⟩⟩ := isConfigured_iff.mp hc
  all_goals
    rw [childrenOf_eq, nidUnit_nidOf, nidInst_nidOf, if_pos rfl, List.getElem?_map, hu]
    rfl

/-- In a forest the bound of the evaluation is enough for every node. -/
theorem descendantsAre_of_forest_node {n : Nid} (h : s.forest = true) :
    descendantsAre leftUnconf s (treeDepth s) n = true := by
  by_cases hn : nidUnit n = 0
  · by_cases hi : (nidInst n).toNat < s.pipe.length
    · rw [← nidOf_eta n, hn]
      exact descendantsAre_of_forest h hi
    · have hnone : childrenOf s n = [] := by
        rw [childrenOf_eq, if_pos hn, List.getElem?_eq_none (by simpa using hi)]
        rfl
      exact (descendantsAre_succ ..).mpr (by simp [hnone])
  · exact descendantsAre_leaf _ _ _ _ hn

/-- The check of a composite whose children are leaves looks at their phases. -/
theorem descendantsAre_of_leaves {p : Phase → Bool} (hc : isConfigured s.pipe[inst.toNat]? c)
    (h : ∀ n ∈ c.child, nidUnit n ≠ 0 ∧ phaseIs p s n = true) :
    descendantsAre p s (treeDepth s) (nidOf 0 inst) = true := by
  obtain ⟨v, hu, -⟩ := isConfigured_iff.mp hc
  have hlt := (List.getElem?_eq_some_iff.mp hu).1
  obtain ⟨k, hk⟩ : ∃ k, s.pipe.length = k + 1 := ⟨s.pipe.length - 1, by omega⟩
  unfold treeDepth
  rw [descendantsAre_succ, childrenOf_configured hc, hk]
  exact fun n hn => ⟨(h n hn).2, descendantsAre_leaf _ _ _ _ (h n hn).1⟩

/-- INIT of a composite whose tree has left `UNCONF`: the rate, then the children. -/
theorem pipeInitAt_configured (hc : isConfigured s.pipe[inst.toNat]? c)
    (hd : descendantsAre leftUnconf s (treeDepth s) (nidOf 0 inst) = true)
    (f : Nid → RealVal → State → Ans (RealVal × State)) (x : RealVal) :
    pipeInitAt f inst x s = positiveRate s.num x >>= fun _ => initChildren f c x s >>= fun r =>
      .ok (r.1, putPipe inst (.run c ⟨x, r.1, .start false⟩) r.2) := by
  obtain ⟨v, hu, rfl | ⟨r, rfl⟩⟩ := isConfigured_iff.mp hc
  all_goals
    unfold pipeInitAt
    rw [pick_bind hu]
    exact if_pos hd

section Children

variable {f : Nid → RealVal → State → Ans (RealVal × State)} {s t : State} {x y : RealVal}

/-- Children that come to a value, before one that raises. -/
theorem initSerial_error {before after : List Nid} {n : Nid} {e : Status}
    (h : initSerial f before x s = .ok (y, t)) (he : f n y t = .error e) :
    initSerial f (before ++ n :: after) x s = .error e := by
  induction before generalizing x s with
  | nil =>
    cases h
    exact error_bind he _
  | cons m l ih =>
    obtain ⟨⟨z, u⟩, h1, h2⟩ := bind_ok.mp h
    exact bind_error.mpr (.inr ⟨_, h1, ih h2⟩)

theorem initParallel_error {before after : List Nid} {n : Nid} {e : Status} {ys : List RealVal}
    (h : initParallel f before x s = .ok (ys, t)) (he : f n x t = .error e) :
    initParallel f (before ++ n :: after) x s = .error e := by
  induction before generalizing ys s with
  | nil =>
    cases h
    exact error_bind he _
  | cons m l ih =>
    obtain ⟨⟨z, u⟩, h1, h2⟩ := bind_ok.mp h
    obtain ⟨⟨zs, v⟩, h3, h4⟩ := bind_ok.mp h2
    cases h4
    exact bind_error.mpr (.inr ⟨_, h1, error_bind (ih h3) _⟩)

theorem initChildren_parallel {g : MergeFn} {ys : List RealVal} (hk : c.kind = .parallel g)
    (h : initParallel f c.child x s = .ok (ys, t)) :
    initChildren f c x s = agreedRate s.num ys >>= fun y => .ok (y, t) := by
  unfold initChildren
  rw [hk]
  dsimp only
  rw [h]
  rfl

theorem initChildren_serial (hk : c.kind = .serial) :
    initChildren f c x s = initSerial f c.child x s := by
  unfold initChildren
  rw [hk]

end Children

theorem agreedRate_ok {M : Numerics} {y : RealVal} {ys : List RealVal}
    (h : ∀ z ∈ ys, M.eq y z = true) : agreedRate M (y :: ys) = .ok y :=
  if_pos (List.all_eq_true.mpr h)

theorem agreedRate_error {M : Numerics} {y : RealVal} {ys : List RealVal}
    (h : ∃ z ∈ ys, M.eq y z = false) : agreedRate M (y :: ys) = .error (.config .rateMismatch) := by
  obtain ⟨z, hz, hyz⟩ := h
  refine if_neg fun hall => ?_
  rw [List.all_eq_true.mp hall z hz] at hyz
  cases hyz

end Composites

/-! ### `init_node` with a bound on the depth -/

/-- The bound `k` is enough for the tree below `n`, and every node there has left `UNCONF`. -/
structure Reaches (s : State) (k : Nat) (n : Nid) : Prop where
  bound : k ≤ treeDepth s
  below : descendantsAre leftUnconf s k n = true

namespace Reaches

variable {s t : State} {k : Nat} {n : Nid}

theorem bound_pos (h : Reaches s k n) : ∃ j, k = j + 1 := by
  cases k with
  | zero => cases h.below
  | succ j => exact ⟨j, rfl⟩

/-- A node keeps its tree through the INITs of others. -/
theorem keeps (h : Reaches s k n) (ht : KeepsTree leftUnconf s t) : Reaches t k n :=
  ⟨ht.treeDepth ▸ h.bound, ht.descendantsAre h.below⟩

theorem children {i : Inst} {c : PipeCfg} (h : Reaches s (k + 1) (nidOf 0 i))
    (hc : isConfigured s.pipe[i.toNat]? c) : ∀ n ∈ c.child, Reaches s k n := by
  intro n hn
  have hbelow := (descendantsAre_succ ..).mp h.below n (childrenOf_configured hc ▸ hn)
  exact ⟨Nat.le_of_succ_le h.bound, hbelow.2⟩

/-- `init_node` of a leaf is the body of its INIT. -/
theorem initNode_leaf (h : Reaches s k n) (hn : nidUnit n ≠ 0) (x : RealVal) :
    initNode k n x s = initLeaf n x s := by
  obtain ⟨j, rfl⟩ := h.bound_pos
  exact if_neg hn

/-- `init_node` of a composite: the rate, then its children with one level less. -/
theorem initNode_pipe {i : Inst} {c : PipeCfg} (h : Reaches s (k + 1) (nidOf 0 i))
    (hc : isConfigured s.pipe[i.toNat]? c) (x : RealVal) :
    initNode (k + 1) (nidOf 0 i) x s =
      positiveRate s.num x >>= fun _ => initChildren (initNode k) c x s >>= fun r =>
        .ok (r.1, putPipe i (.run c ⟨x, r.1, .start false⟩) r.2) := by
  rw [initNode, nidUnit_nidOf, nidInst_nidOf, if_pos rfl]
  exact pipeInitAt_configured hc (descendantsAre_mono h.below h.bound) _ x

/-- A composite whose children come to a rate. -/
theorem initNode_pipe_ok {i : Inst} {c : PipeCfg} {x y : RealVal}
    (h : Reaches s (k + 1) (nidOf 0 i)) (hc : isConfigured s.pipe[i.toNat]? c)
    (hx : s.num.pos x = true) (hr : initChildren (initNode k) c x s = .ok (y, t)) :
    initNode (k + 1) (nidOf 0 i) x s = .ok (y, putPipe i (.run c ⟨x, y, fresh false⟩) t) := by
  rw [h.initNode_pipe hc, positiveRate_ok (x := ()).mpr hx, hr]
  rfl

/-- A composite whose children raise. -/
theorem initNode_pipe_error {i : Inst} {c : PipeCfg} {x : RealVal} {e : Status}
    (h : Reaches s (k + 1) (nidOf 0 i)) (hc : isConfigured s.pipe[i.toNat]? c)
    (hx : s.num.pos x = true) (hr : initChildren (initNode k) c x s = .error e) :
    initNode (k + 1) (nidOf 0 i) x s = .error e := by
  rw [h.initNode_pipe hc, positiveRate_ok (x := ()).mpr hx, hr]
  rfl

end Reaches

/-- With the bound `k`, `init_node` does what the relation `Inits` says. -/
def InitsFollowed (k : Nat) : Prop :=
  ∀ {s t : State} {n : Nid} {x y : RealVal}, Inits s n x y t → Reaches s k n →
    initNode k n x s = .ok (y, t)

section Children

variable {k : Nat} (hfollow : InitsFollowed k) {s t : State} {l : List Nid} {x y : RealVal}
include hfollow

theorem initSerial_followed (h : InitsInTurn s l x y t) (hk : ∀ n ∈ l, Reaches s k n) :
    initSerial (initNode k) l x s = .ok (y, t) := by
  induction l generalizing s x with
  | nil =>
    cases h
    rfl
  | cons n l ih =>
    cases h with
    | next hn hl =>
      have hnode := hfollow hn (hk n (by simp))
      have ht := initNode_keeps hnode
      exact bind_ok.mpr ⟨_, hnode, ih hl fun m hm => (hk m (List.mem_cons_of_mem _ hm)).keeps ht⟩

theorem initParallel_followed {ys : List RealVal} (h : InitsEach s l x ys t)
    (hk : ∀ n ∈ l, Reaches s k n) : initParallel (initNode k) l x s = .ok (ys, t) := by
  induction l generalizing s ys with
  | nil =>
    cases h
    rfl
  | cons n l ih =>
    cases h with
    | next hn hl =>
      have hnode := hfollow hn (hk n (by simp))
      have ht := initNode_keeps hnode
      have hrest := ih hl fun m hm => (hk m (List.mem_cons_of_mem _ hm)).keeps ht
      exact bind_ok.mpr ⟨_, hnode, bind_ok.mpr ⟨_, hrest, rfl⟩⟩

end Children

/-- By induction on the bound: a composite hands its children one level less. -/
theorem inits_followed (k : Nat) : InitsFollowed k := by
  induction k with
  | zero =>
    intro s t n x y _ hk
    cases hk.below
  | succ k ih =>
    intro s t n x y h hk
    cases h with
    | gz hc hx =>
      rw [hk.initNode_leaf (by simp), initLeaf_gz, gzInitAt_configured hc, if_pos hx]
      rfl
    | fir hc hx hband =>
      rw [hk.initNode_leaf (by simp), initLeaf_fir, firInitAt_configured hc, if_pos hx,
        if_neg (Bool.eq_false_iff.mp hband)]
      rfl
    | bq hc hx =>
      rw [hk.initNode_leaf (by simp), initLeaf_bq, bqInitAt_configured hc, if_pos hx]
      rfl
    | ma hc hx =>
      rw [hk.initNode_leaf (by simp), initLeaf_ma, maInitAt_configured hc, if_pos hx]
      rfl
    | bs hc hx =>
      rw [hk.initNode_leaf (by simp), initLeaf_bs, bsInitAt_configured hc, if_pos hx]
      rfl
    | ext hn he hx hr =>
      rw [hk.initNode_leaf (unit_ne_zero_of_ext hn), initLeaf_ext hn, extInitAt_bound he, hr,
        positiveRate_ok (x := ()).mpr hx, putExt_eq]
      rfl
    | serial hc hkind hx hl =>
      exact hk.initNode_pipe_ok hc hx
        ((initChildren_serial hkind).trans (initSerial_followed ih hl (hk.children hc)))
    | parallel hc hkind hx hl hagree =>
      refine hk.initNode_pipe_ok hc hx ?_
      rw [initChildren_parallel hkind (initParallel_followed ih hl (hk.children hc)),
        agreedRate_ok hagree]
      rfl

/-- `init_node` raises what the relation `InitFails` says. -/
theorem initNode_of_initFails {s : State} {n : Nid} {x : RealVal} {e : Status}
    (h : InitFails s n x e) {k : Nat} (hk : Reaches s k n) : initNode k n x s = .error e := by
  induction h generalizing k with
  | @rate s n x i hi hp hx =>
    obtain ⟨j, rfl⟩ := hk.bound_pos
    by_cases hn : nidUnit n = 0
    · have hphase : s.pipe[(nidInst n).toNat]?.map Life.ph = some i.ph := by
        refine phase_of_info pipeInfo_ph ?_
        rw [← hi, nodeInfo, hn]
        rfl
      obtain ⟨c, hc⟩ := exists_configured hphase hp
      rw [← nidOf_eta n, hn] at hk ⊢
      rw [hk.initNode_pipe hc]
      exact error_bind (positiveRate_error.mpr ⟨hx, rfl⟩) _
    · rw [hk.initNode_leaf hn]
      exact initLeaf_badRate hn hi hp hx
  | band hc hx hband =>
    rw [hk.initNode_leaf (by simp), initLeaf_fir, firInitAt_configured hc, if_pos hx, if_pos hband]
  | disagree hc hkind hx hl hdiffer =>
    obtain ⟨j, rfl⟩ := hk.bound_pos
    refine hk.initNode_pipe_error hc hx ?_
    rw [initChildren_parallel hkind (initParallel_followed (inits_followed j) hl (hk.children hc)),
      agreedRate_error hdiffer]
    rfl
  | inTurn hc hkind hx hchild hl _ ih =>
    obtain ⟨j, rfl⟩ := hk.bound_pos
    have hreach := hk.children hc
    rw [hchild] at hreach
    have hbefore := initSerial_followed (inits_followed j) hl fun m hm => hreach m (by simp [hm])
    have hfails := ih ((hreach _ (by simp)).keeps
      (initSerial_keeps (fun _ _ _ _ _ => initNode_keeps) hbefore))
    refine hk.initNode_pipe_error hc hx ((initChildren_serial hkind).trans ?_)
    rw [hchild]
    exact initSerial_error hbefore hfails
  | each hc hkind hx hchild hl _ ih =>
    obtain ⟨j, rfl⟩ := hk.bound_pos
    have hreach := hk.children hc
    rw [hchild] at hreach
    have hbefore := initParallel_followed (inits_followed j) hl fun m hm => hreach m (by simp [hm])
    have hfails := ih ((hreach _ (by simp)).keeps
      (initParallel_keeps (fun _ _ _ _ _ => initNode_keeps) hbefore))
    refine hk.initNode_pipe_error hc hx ?_
    unfold initChildren
    rw [hkind, hchild]
    exact error_bind (initParallel_error hbefore hfails) _

/-! ### INIT at the command port -/

section Port

variable {s t : State} {n : Nid} {rate : B32} {i : Instr}

/-- A direct INIT looks up the unit before the body of INIT does, to the same end. -/
theorem unowned_body {α β γ : Type} {l : List α} {inst : Inst} (hn : n ∉ s.used) (g : α → Ans β)
    (f : β → Ans γ) :
    (pick l inst >>= fun _ => notOwned s n >>= fun _ => (pick l inst >>= g) >>= f) =
      (pick l inst >>= g) >>= f := by
  cases hl : l[inst.toNat]? with
  | none =>
    have hpick : pick l inst = .error badCommand :=
      pick_error.mpr ⟨List.getElem?_eq_none_iff.mp hl, rfl⟩
    rw [hpick]
    rfl
  | some u => rw [unowned_bind hl hn]

/-- The result of an INIT and what it leaves. -/
def initDone (r : RealVal × State) : Done := ⟨r.2, .rate r.1, []⟩

/-- An INIT of a node that no composite owns is `init_node` (rule R142). -/
theorem exec_initOf (hi : initOf n rate = some i) (hn : n ∉ s.used) :
    exec i s = conclude s (initNode (treeDepth s) n (s.num.ofB32 rate) s >>= fun r =>
      .ok (initDone r)) := by
  obtain ⟨u, j, rfl⟩ : ∃ u j, n = nidOf u j := ⟨_, _, (nidOf_eta n).symm⟩
  unfold initOf at hi
  rw [nidUnit_nidOf, nidInst_nidOf] at hi
  split at hi
  case h_7 => cases hi
  all_goals
    rename_i hu
    cases hi
    have hunit := congrArg (BitVec.ofNat 4) hu
    rw [BitVec.ofNat_toNat, BitVec.setWidth_eq] at hunit
    subst hunit
  case h_1 =>
    change execPipeInit _ rate s = conclude s (initNode (treeDepth s) (nidOf 0 _) _ s >>= _)
    rw [execPipeInit, initNode_pipe]
    exact congrArg (conclude s) (unowned_body hn _ _)
  all_goals
    rw [treeDepth, initNode, initLeaf, nidUnit_nidOf, nidInst_nidOf]
    exact congrArg (conclude s) (unowned_body hn _ _)

variable (hi : initOf n rate = some i) (hn : n ∉ s.used)
  (hd : descendantsAre leftUnconf s (treeDepth s) n = true)
include hi hn hd

/-- An INIT at the command port of a tree in which no node is in `UNCONF`. -/
theorem leads_of_inits {y : RealVal} (h : Inits s n (s.num.ofB32 rate) y t) :
    leads i s (done t (.rate y)) := by
  have hnode := inits_followed _ h ⟨Nat.le_refl _, hd⟩
  unfold leads
  rw [exec_initOf hi hn, hnode]
  rfl

theorem leads_of_initFails {e : Status} (h : InitFails s n (s.num.ofB32 rate) e) :
    leads i s (rejected s e) := by
  have hnode := initNode_of_initFails h ⟨Nat.le_refl _, hd⟩
  unfold leads
  rw [exec_initOf hi hn, hnode]
  rfl

end Port

/-! ### What a node is, by its unit number (rule R140) -/

section Info

variable {s : State} {n : Nid}

@[simp] theorem nidOf_inj {u v : BitVec 4} {i j : Inst} : nidOf u i = nidOf v j ↔ u = v ∧ i = j := by
  refine ⟨fun h => ⟨?_, ?_⟩, fun ⟨hu, hi⟩ => hu ▸ hi ▸ rfl⟩
  · rw [← nidUnit_nidOf u i, h, nidUnit_nidOf]
  · rw [← nidInst_nidOf u i, h, nidInst_nidOf]

theorem nodeInfo_gz (s : State) (i : Inst) :
    nodeInfo s (nidOf 1 i) = s.gz[i.toNat]?.map (lifeInfo fun _ => .real) := by
  unfold nodeInfo
  rw [nidUnit_nidOf, nidInst_nidOf]
  rfl

theorem nodeInfo_ma (s : State) (i : Inst) :
    nodeInfo s (nidOf 4 i) = s.ma[i.toNat]?.map (lifeInfo fun _ => .real) := by
  unfold nodeInfo
  rw [nidUnit_nidOf, nidInst_nidOf]
  rfl

theorem nodeInfo_ext (hn : isExt n) :
    nodeInfo s n = (findExt s n).map fun e => ⟨e.ph, some (e.inT, e.outT)⟩ := by
  have hlo := hn.1
  unfold nodeInfo
  dsimp only
  split
  case h_7 => exact if_pos hn
  all_goals omega

/-- The node that is found after its record is replaced. -/
theorem findExt_withExt {e e' : Ext} (he : findExt s n = some e) (hn : e'.nid = n) :
    findExt (withExt n e' s) n = some e' := by
  rw [withExt, ← putExt_eq, findExt_putExt hn, he, Option.map_some,
    if_pos (beq_iff_eq.mpr (findExt_nid he))]

/-- A bound node that has left `UNCONF`. -/
theorem ext_placed {e : Ext} {p : Phase → Bool} (hn : isExt n) (he : findExt s n = some e)
    (hp : p e.ph = true) : nidUnit n ≠ 0 ∧ phaseIs p s n = true := by
  refine ⟨unit_ne_zero_of_ext hn, ?_⟩
  rw [phaseIs_eq, nodeInfo_ext hn, he]
  exact hp

end Info

/-! ### Leaves that keep the rate: GZ and MA (rules R161, R201) -/

/-- A unit after an INIT that gives the configuration `c` the registers `f c`; one in `UNCONF` stays. -/
def Life.inited {C R : Type} (f : C → R) : Life C R → Life C R
  | .unconf => .unconf
  | .conf c | .run c _ => .run c (f c)

section Inited

variable {C R : Type} {f : C → R} {u : Option (Life C R)} {c : C}

@[simp] theorem inited_inited (v : Life C R) : (v.inited f).inited f = v.inited f := by cases v <;> rfl

theorem inited_configured (h : isConfigured u c) : u.map (Life.inited f) = some (.run c (f c)) := by
  obtain ⟨v, rfl, rfl | ⟨r, rfl⟩⟩ := isConfigured_iff.mp h
  all_goals rfl

theorem configured_inited (h : isConfigured u c) : isConfigured (u.map (Life.inited f)) c :=
  .inr ⟨f c, inited_configured h⟩

/-- The units after the INIT of one. -/
theorem getElem_set_inited (f : C → R) {l : List (Life C R)} {i j : Inst}
    (h : isConfigured l[i.toNat]? c) :
    (l.set i.toNat (.run c (f c)))[j.toNat]? =
      if j = i then l[j.toNat]?.map (Life.inited f) else l[j.toNat]? := by
  by_cases hij : j = i
  · subst hij
    rw [if_pos rfl, inited_configured h]
    obtain ⟨v, hv, -⟩ := isConfigured_iff.mp h
    exact List.getElem?_set_self (List.getElem?_eq_some_iff.mp hv).1
  · rw [if_neg hij, List.getElem?_set_ne fun h => hij (BitVec.eq_of_toNat_eq h).symm]

/-- The INIT of a unit in one node, then those in others: a second INIT of a unit leaves what the first
left. -/
theorem inited_cons {α : Type} [DecidableEq α] (f : C → R) (u : Option (Life C R)) (a n : α)
    (l : List α) :
    (if a ∈ l then (if a ∈ [n] then u.map (Life.inited f) else u).map (Life.inited f)
      else if a ∈ [n] then u.map (Life.inited f) else u) =
      if a ∈ n :: l then u.map (Life.inited f) else u := by
  by_cases hn : a = n
  · simp [hn, Function.comp_def]
  · simp [hn]

end Inited

/-- A GZ or an MA that is configured. -/
inductive ReadyLeaf (s : State) : Nid → Prop
  | gz {i : Inst} {c : GzCfg} : isConfigured s.gz[i.toNat]? c → ReadyLeaf s (nidOf 1 i)
  | ma {i : Inst} {c : MaCfg} : isConfigured s.ma[i.toNat]? c → ReadyLeaf s (nidOf 4 i)

/-- `t` is `s` after the INITs with the rate `x` of the GZ and MA instances in `l`. -/
structure LeavesInited (x : RealVal) (l : List Nid) (s t : State) : Prop where
  frame : t = { s with gz := t.gz, ma := t.ma }
  gz : ∀ i : Inst, t.gz[i.toNat]? =
    if nidOf 1 i ∈ l then s.gz[i.toNat]?.map (Life.inited (gzReg s.num · x)) else s.gz[i.toNat]?
  ma : ∀ i : Inst, t.ma[i.toNat]? =
    if nidOf 4 i ∈ l then s.ma[i.toNat]?.map (Life.inited (maReg s.num)) else s.ma[i.toNat]?

section ReadyLeaves

variable {s t u : State} {n : Nid} {l : List Nid} {x : RealVal}

theorem readyLeaf_of_leafReady (hn : isRealLeaf n = true) (h : leafReady s n = true) :
    ReadyLeaf s n := by
  obtain ⟨v, i, rfl⟩ : ∃ v i, n = nidOf v i := ⟨_, _, (nidOf_eta n).symm⟩
  simp only [isRealLeaf, nidUnit_nidOf, Bool.or_eq_true, beq_iff_eq] at hn
  unfold leafReady at h
  rw [nidUnit_nidOf, nidInst_nidOf] at h
  obtain rfl | rfl := hn
  · obtain ⟨p, hp, hne⟩ := (Option.any_eq_true _ _).mp h
    obtain ⟨c, hc⟩ := exists_configured hp (by simpa using hne)
    exact .gz hc
  · obtain ⟨p, hp, hne⟩ := (Option.any_eq_true _ _).mp h
    obtain ⟨c, hc⟩ := exists_configured hp (by simpa using hne)
    exact .ma hc

/-- A configured leaf passes the check of the composite above it. -/
theorem ReadyLeaf.placed (h : ReadyLeaf s n) : nidUnit n ≠ 0 ∧ phaseIs leftUnconf s n = true := by
  cases h with
  | gz hc =>
    refine ⟨by simp, ?_⟩
    obtain ⟨v, hu, rfl | ⟨r, rfl⟩⟩ := isConfigured_iff.mp hc
    all_goals
      rw [phaseIs_eq, nodeInfo_gz, hu]
      rfl
  | ma hc =>
    refine ⟨by simp, ?_⟩
    obtain ⟨v, hu, rfl | ⟨r, rfl⟩⟩ := isConfigured_iff.mp hc
    all_goals
      rw [phaseIs_eq, nodeInfo_ma, hu]
      rfl

/-- The INIT of a leaf returns the rate, and writes that leaf. -/
theorem ReadyLeaf.inits (h : ReadyLeaf s n) (hx : s.num.pos x = true) :
    ∃ t, Inits s n x x t ∧ LeavesInited x [n] s t := by
  cases h with
  | gz hc =>
    refine ⟨_, .gz hc hx, rfl, fun j => ?_, fun j => ?_⟩
    · exact (getElem_set_inited (gzReg s.num · x) hc).trans (if_congr (by simp) rfl rfl)
    · exact (if_neg (by simp)).symm
  | ma hc =>
    refine ⟨_, .ma hc hx, rfl, fun j => ?_, fun j => ?_⟩
    · exact (if_neg (by simp)).symm
    · exact (getElem_set_inited (maReg s.num) hc).trans (if_congr (by simp) rfl rfl)

namespace LeavesInited

theorem nil (s : State) : LeavesInited x [] s s := ⟨rfl, fun _ => by simp, fun _ => by simp⟩

theorem num (h : LeavesInited x l s t) : t.num = s.num := by
  unfold State.num
  rw [congrArg State.par h.frame]

theorem cons (h : LeavesInited x [n] s t) (h' : LeavesInited x l t u) :
    LeavesInited x (n :: l) s u := by
  refine ⟨?_, fun i => ?_, fun i => ?_⟩
  · rw [h'.frame, h.frame]
  · rw [h'.gz, h.num, h.gz]
    exact inited_cons ..
  · rw [h'.ma, h.num, h.ma]
    exact inited_cons ..

/-- A configured leaf stays one. -/
theorem readyLeaf (h : LeavesInited x l s t) (hn : ReadyLeaf s n) : ReadyLeaf t n := by
  cases hn with
  | @gz i c hc =>
    refine .gz (c := c) ?_
    rw [h.gz]
    split
    · exact configured_inited hc
    · exact hc
  | @ma i c hc =>
    refine .ma (c := c) ?_
    rw [h.ma]
    split
    · exact configured_inited hc
    · exact hc

/-- A leaf whose INIT was made is in RUN. -/
theorem leafRuns (h : LeavesInited x l s t) (hn : ReadyLeaf s n) (hl : n ∈ l) :
    leafRuns t n = true := by
  cases hn with
  | @gz i c hc =>
    unfold Claims.leafRuns
    rw [nidUnit_nidOf, nidInst_nidOf]
    change (t.gz[i.toNat]?.map Life.ph == some .run) = true
    rw [h.gz, if_pos hl, inited_configured hc]
    rfl
  | @ma i c hc =>
    unfold Claims.leafRuns
    rw [nidUnit_nidOf, nidInst_nidOf]
    change (t.ma[i.toNat]?.map Life.ph == some .run) = true
    rw [h.ma, if_pos hl, inited_configured hc]
    rfl

end LeavesInited

/-- The INITs of leaves, as a serial composite makes them and as a parallel one does. -/
theorem readyLeaves_inits (hl : ∀ n ∈ l, ReadyLeaf s n) (hx : s.num.pos x = true) :
    ∃ t, InitsInTurn s l x x t ∧ InitsEach s l x (l.map fun _ => x) t ∧ LeavesInited x l s t := by
  induction l generalizing s with
  | nil => exact ⟨s, .none, .none, .nil s⟩
  | cons n l ih =>
    obtain ⟨t, hnode, ht⟩ := (hl n (by simp)).inits hx
    obtain ⟨u, hturn, heach, hu⟩ := ih
      (fun m hm => ht.readyLeaf (hl m (List.mem_cons_of_mem _ hm))) (ht.num ▸ hx)
    exact ⟨u, .next hnode hturn, .next hnode heach, ht.cons hu⟩

end ReadyLeaves

/-! ### Branches of which some halve the rate (95_test_vectors.md V-PIPE-4) -/

/-- In `t` the children are configured GZ and MA leaves, and the node `n` that halves the rate. -/
structure MixedBranches (M : Numerics) (n : Nid) (l : List Nid) (t : State) : Prop where
  num : t.num = M
  halves : ∃ e, findExt t n = some e ∧ e.behav = .dec2
  leaves : ∀ m ∈ l, m = n ∨ ReadyLeaf t m

/-- The rate that a branch returns. -/
def branchRate (M : Numerics) (n : Nid) (x : RealVal) (m : Nid) : RealVal :=
  if m = n then M.div x (M.lit 2 1) else x

theorem extInitOf_dec2 {e : Ext} (h : e.behav = .dec2) (M : Numerics) (x : RealVal) :
    extInitOf M e x = (M.div x (M.lit 2 1), 0) := by
  unfold extInitOf
  rw [h]
  rfl

section Mixed

variable {M : Numerics} {n m : Nid} {l : List Nid} {t : State} {x : RealVal}

/-- The INIT of one branch leaves the others as ready as they were. -/
theorem MixedBranches.inits (h : MixedBranches M n l t) (hn : isExt n) (hx : M.pos x = true)
    (hm : m ∈ l) : ∃ u, Inits t m x (branchRate M n x m) u ∧ MixedBranches M n l u := by
  obtain ⟨rfl, ⟨e, he, hdec⟩, hleaves⟩ := h
  unfold branchRate
  obtain rfl | hleaf := hleaves m hm
  · rw [if_pos rfl]
    have hnid : e.nid = m := findExt_nid he
    have hfound := findExt_withExt (e' := initialised t.num e x (t.num.div x (t.num.lit 2 1)) 0) he hnid
    refine ⟨_, .ext hn he hx (extInitOf_dec2 hdec _ x), rfl, ⟨_, hfound, hdec⟩,
      fun k hk => (hleaves k hk).imp_right fun hk => ?_⟩
    cases hk with
    | gz hc => exact .gz hc
    | ma hc => exact .ma hc
  · have hne : m ≠ n := by
      rintro rfl
      have hlo := hn.1
      cases hleaf <;> simp at hlo
    rw [if_neg hne]
    obtain ⟨u, hnode, hu⟩ := hleaf.inits hx
    refine ⟨u, hnode, hu.num, ⟨e, ?_, hdec⟩, fun k hk => (hleaves k hk).imp_right hu.readyLeaf⟩
    unfold findExt
    rw [congrArg State.ext hu.frame]
    exact he

theorem MixedBranches.initsEach (h : MixedBranches M n l t) (hn : isExt n) (hx : M.pos x = true)
    {l' : List Nid} (hl : ∀ m ∈ l', m ∈ l) :
    ∃ u, InitsEach t l' x (l'.map (branchRate M n x)) u := by
  induction l' generalizing t with
  | nil => exact ⟨t, .none⟩
  | cons m l' ih =>
    obtain ⟨v, hnode, hv⟩ := h.inits hn hx (hl m (by simp))
    obtain ⟨u, hu⟩ := ih hv fun k hk => hl k (List.mem_cons_of_mem _ hk)
    exact ⟨u, .next hnode hu⟩

end Mixed

end Machine
end Sys2Proof

namespace Sys2Proof
namespace Settled

open Sys2Proof.Machine Sys2Proof.Claims

/-- Settles O21: `init_node` follows the relations `Inits` and `InitFails`; the first two parts are trees
of leaves in which the relation holds. -/
theorem pipeInitRunsTree : Obligations.PipeInitRunsTree := by
  unfold Obligations.PipeInitRunsTree
  refine ⟨?leaves, ?halved, ?tree, ?fails⟩
  case leaves =>
    intro s inst rate p c hp hc hn hchild hx M x hkind
    have hconf : isConfigured s.pipe[inst.toNat]? c := isConfigured_iff.mpr ⟨p, hp, hc⟩
    have hready : ∀ n ∈ c.child, ReadyLeaf s n := fun n hn =>
      readyLeaf_of_leafReady (hchild n hn).1 (hchild n hn).2
    obtain ⟨t, hturn, heach, ht⟩ := readyLeaves_inits hready hx
    obtain ⟨gz, ma, rfl⟩ : ∃ gz ma, t = { s with gz := gz, ma := ma } := ⟨_, _, ht.frame⟩
    have hinit : Inits s (nidOf 0 inst) x x
        { s with
          gz := gz, ma := ma, pipe := s.pipe.set inst.toNat (.run c ⟨x, x, fresh false⟩) } := by
      obtain hserial | ⟨⟨f, hparallel⟩, hne, hxx⟩ := hkind
      · exact .serial hconf hserial hx hturn
      · obtain ⟨m, l, hl⟩ := List.exists_cons_of_ne_nil hne
        rw [hl, List.map_cons] at heach
        refine .parallel hconf hparallel hx (hl ▸ heach) fun z hz => ?_
        obtain ⟨_, -, rfl⟩ := List.mem_map.mp hz
        exact hxx
    have hd := descendantsAre_of_leaves hconf fun n hn => (hready n hn).placed
    refine ⟨_, leads_of_inits (by simp [initOf]) hn hd hinit, rfl, rfl,
      fun n hn => ht.leafRuns (hready n hn) hn, fun i g hi hg => ?_, fun i m hi hm => ?_,
      fun i hi => ?_, fun i hi => ?_, rfl, rfl, rfl, rfl, rfl, rfl, rfl, rfl, rfl, rfl, rfl, rfl, rfl⟩
    · exact (ht.gz i).trans ((if_pos hi).trans (inited_configured hg))
    · exact (ht.ma i).trans ((if_pos hi).trans (inited_configured hm))
    · exact (ht.gz i).trans (if_neg hi)
    · exact (ht.ma i).trans (if_neg hi)
  case halved =>
    intro s inst i rate p ts e u g c hp hc hn he hunit hph hdec hu hg M x h hx hh
    have hconf : isConfigured s.pipe[inst.toNat]? c := isConfigured_iff.mpr ⟨p, hp, hc⟩
    have hgz : isConfigured s.gz[i.toNat]? g := isConfigured_iff.mpr ⟨u, hu, hg⟩
    have hext : isExt e.nid := by simp [isExt, hunit]
    have hd := descendantsAre_of_leaves (p := leftUnconf) hconf fun n hn => by
      obtain rfl | rfl := List.mem_pair.mp hn
      · exact ext_placed hext he (by simpa using hph)
      · exact (ReadyLeaf.gz hgz).placed
    exact leads_of_inits (by simp [initOf]) hn hd (.serial hconf rfl hx
      (.next (.ext hext he hx (extInitOf_dec2 hdec M x)) (.next (.gz hgz hh) .none)))
  case tree =>
    exact fun s t n rate i y hforest hn hi h =>
      leads_of_inits hi hn (descendantsAre_of_forest_node hforest) h
  case fails =>
    exact fun s n rate i e hforest hn hi h =>
      leads_of_initFails hi hn (descendantsAre_of_forest_node hforest) h

/-- Settles O22: the branches' INITs complete, and the first rate differs from that of a branch of the
other sort. -/
theorem rateMismatchRejected : Obligations.RateMismatchRejected := by
  unfold Obligations.RateMismatchRejected
  intro s inst rate p f ts e c0 cs c hp hc hn he hunit hph hdec hchild x h hx hdiffer
  have hconf : isConfigured s.pipe[inst.toNat]? c := isConfigured_iff.mpr ⟨p, hp, hc⟩
  have hext : isExt e.nid := by simp [isExt, hunit]
  have hmixed : MixedBranches s.num e.nid (c0 :: cs) s := ⟨rfl, ⟨e, he, hdec⟩, fun n hn =>
    (hchild n hn).imp_right fun hr => readyLeaf_of_leafReady hr.1 hr.2⟩
  have hd := descendantsAre_of_leaves (p := leftUnconf) hconf fun n hn => by
    obtain rfl | hleaf := hmixed.leaves n hn
    · exact ext_placed hext he (by simpa using hph)
    · exact hleaf.placed
  obtain ⟨t, heach⟩ := hmixed.initsEach hext hx (fun m hm => hm)
  refine leads_of_initFails (by simp [initOf]) hn hd (.disagree hconf rfl hx heach ?_)
  have mem : ∀ n ∈ cs, branchRate s.num e.nid x n ∈ cs.map (branchRate s.num e.nid x) :=
    fun n => List.mem_map_of_mem
  obtain ⟨rfl, ⟨n, hcs, hne⟩, hxh⟩ | ⟨hne, hcs, hxh⟩ := hdiffer
  · refine ⟨_, mem n hcs, ?_⟩
    rw [branchRate, branchRate, if_pos rfl, if_neg hne]
    exact hxh
  · refine ⟨_, mem _ hcs, ?_⟩
    rw [branchRate, branchRate, if_neg hne, if_pos rfl]
    exact hxh

end Settled
end Sys2Proof
end

section
/-!
SUPPORT. STEP of a tree of nodes (rules R142, R147, R149, R151). The relation `Steps` of the statements
follows the tree; `step_node` follows it with a bound on the depth, and checks the phases below every
composite again. In a tree whose nodes are in RUN, and in which no external node breaks its contract, the
two agree; a broken contract ends the tick (U2).
-/

namespace Sys2Proof
namespace Machine

open Sys2Proof.Claims

/-- A node is in RUN. -/
abbrev isRun : Phase → Bool := (· == .run)

/-! ### Open outputs -/

section Open

variable {s t : State} {b : Bool}

theorem openReal_closed (h : b = false) (y : RealVal) (s : State) : openReal b y s = (y, s) := by
  rw [h]
  rfl

theorem openSample_closed (h : b = false) (o : Option Sample) (s : State) :
    openSample b o s = (o, s) := by
  rw [h]
  rfl

theorem openSample_none (b : Bool) (s : State) : openSample b none s = (none, s) := by
  cases b <;> rfl

/-- Only the count of free values changes. -/
theorem openReal_state {y w : RealVal} (h : openReal b y s = (w, t)) :
    ∃ k, t = { s with freeIx := k } := by
  obtain ⟨-, h'⟩ | ⟨-, _, k, h'⟩ := openReal_cases b y s
  · exact ⟨s.freeIx, congrArg Prod.snd (h.symm.trans h')⟩
  · exact ⟨k, congrArg Prod.snd (h.symm.trans h')⟩

theorem openCplx_state {y w : Cplx} (h : openCplx b y s = (w, t)) :
    ∃ k, t = { s with freeIx := k } := by
  obtain ⟨-, h'⟩ | ⟨-, _, k, h'⟩ := openCplx_cases b y s
  · exact ⟨s.freeIx, congrArg Prod.snd (h.symm.trans h')⟩
  · exact ⟨k, congrArg Prod.snd (h.symm.trans h')⟩

/-- A free value does not depend on the record of a composite. -/
theorem openSample_putPipe (b : Bool) (o : Option Sample) (i : Inst) (u : Pipe) (s : State) :
    openSample b o (putPipe i u s) = ((openSample b o s).1, putPipe i u (openSample b o s).2) := by
  cases b <;> cases o <;> rfl

/-- What a composite leaves: its record may be written before or after the free value is drawn. -/
theorem close_eq {o : Stepped} {i : Inst} {c : PipeCfg} {r : PipeReg} {h : Standing}
    {w : Option Sample} (ho : openSample h.anyOut o.out o.st = (w, t)) :
    o.close i c { r with standing := h } =
      ⟨w, o.evs, o.bits, withStanding i c r h t, o.broke⟩ := by
  unfold Stepped.close
  rw [openSample_putPipe, ho]
  rfl

theorem keepsTree_free {p : Phase → Bool} (s : State) (k : Nat) :
    KeepsTree p s { s with freeIx := k } :=
  keepsTree_of_same rfl rfl rfl rfl rfl rfl rfl rfl rfl

end Open

/-! ### STEP of a leaf -/

section Leaves

variable {s : State} {n : Nid} {v : Sample}

theorem stepLeaf_gz (q : Contract) (i : Inst) (x : RealVal) (s : State) :
    stepLeaf q (nidOf 1 i) (.real x) s = (gzStepAt i x q s).map steppedReal := by
  unfold stepLeaf
  rw [nidUnit_nidOf, nidInst_nidOf]
  rfl

theorem stepLeaf_fir (q : Contract) (i : Inst) (x : RealVal) (s : State) :
    stepLeaf q (nidOf 2 i) (.real x) s = (firStepAt i x q s).map steppedReal := by
  unfold stepLeaf
  rw [nidUnit_nidOf, nidInst_nidOf]
  rfl

theorem stepLeaf_firc (q : Contract) (i : Inst) (z : Cplx) (s : State) :
    stepLeaf q (nidOf 2 i) (.cplx z) s = (fircStepAt i z q s).map steppedCplx := by
  unfold stepLeaf
  rw [nidUnit_nidOf, nidInst_nidOf]
  rfl

theorem stepLeaf_bq (q : Contract) (i : Inst) (x : RealVal) (s : State) :
    stepLeaf q (nidOf 3 i) (.real x) s = (bqStepAt i x q s).map steppedReal := by
  unfold stepLeaf
  rw [nidUnit_nidOf, nidInst_nidOf]
  rfl

theorem stepLeaf_bqc (q : Contract) (i : Inst) (z : Cplx) (s : State) :
    stepLeaf q (nidOf 3 i) (.cplx z) s = (bqcStepAt i z q s).map steppedCplx := by
  unfold stepLeaf
  rw [nidUnit_nidOf, nidInst_nidOf]
  rfl

theorem stepLeaf_ma (q : Contract) (i : Inst) (x : RealVal) (s : State) :
    stepLeaf q (nidOf 4 i) (.real x) s = (maStepAt i x q s).map steppedReal := by
  unfold stepLeaf
  rw [nidUnit_nidOf, nidInst_nidOf]
  rfl

theorem stepLeaf_bs (q : Contract) (i : Inst) (b : Bool) (s : State) :
    stepLeaf q (nidOf 5 i) (.bool b) s = (bsStepAt i b s).map fun r =>
      ⟨r.1.map .bool, r.2.1, deliveredBy i r.1, r.2.2, false⟩ := by
  unfold stepLeaf
  rw [nidUnit_nidOf, nidInst_nidOf]
  rfl

theorem stepLeaf_ext (hn : isExt n) (q : Contract) (v : Sample) (s : State) :
    stepLeaf q n v s = extStepAt n v s := by
  have hlo := hn.1
  unfold stepLeaf
  split
  case h_8 => exact if_neg (by omega)
  all_goals omega

/-- BS's STEP in RUN. -/
theorem bsStepAt_run {i : Inst} {c : BsCfg} {r r' : BsReg} {b : Bool} {evs : List Event}
    {w : Option Bool} (hu : s.bs[i.toNat]? = some (.run c r))
    (ht : bsTick s.num c r b = (r', evs, w)) :
    bsStepAt i b s = .ok (w, raisedBy i evs, putBs i (.run c r') s) := by
  unfold bsStepAt
  rw [pick_bind hu]
  simp only [ht]

theorem deliveredBy_eq (i : Inst) (b : Option Bool) :
    deliveredBy i b = b.toList.map fun d => ⟨i, d⟩ := by
  cases b <;> rfl

/-- `step_node` of a leaf is the body of its STEP. -/
theorem stepNode_leaf {k : Nat} (hk : k ≠ 0) (hn : nidUnit n ≠ 0) (q : Contract) (v : Sample)
    (s : State) : stepNode k q n v s = stepLeaf q n v s := by
  obtain ⟨j, rfl⟩ := Nat.exists_eq_succ_of_ne_zero hk
  exact if_neg hn

/-- `step` of a bound node in RUN that takes the value: it breaks the contract by its rate or by the type
of its answer (U2). -/
theorem extStepAt_eq {e : Ext} (he : findExt s n = some e) (hph : e.ph = .run) (hv : v.tag = e.inT) :
    extStepAt n v s = .ok ⟨(extStepOf e v).1, [], [], withExt n { e with st := (extStepOf e v).2 } s,
      e.rateBroken || !hasType e.outT (extStepOf e v).1⟩ := by
  unfold extStepAt withExt
  rw [he, ← putExt_eq]
  dsimp only
  rw [if_neg (by simp [hph]), if_neg (by simp [hv])]
  rfl

end Leaves

/-! ### Composites -/

section Composites

variable {s : State} {inst : Inst} {c : PipeCfg} {r : PipeReg}

/-- STEP of a composite in RUN above nodes in RUN. -/
theorem pipeStepAt_run (hu : s.pipe[inst.toNat]? = some (.run c r))
    (hd : descendantsAre isRun s (treeDepth s) (nidOf 0 inst) = true)
    (f : Contract → Nid → Sample → State → Ans Stepped) (v : Sample) (q : Contract) :
    pipeStepAt f inst v q s = stepChildren (f (r.standing.source.and q)) c v s >>= fun o =>
      .ok (o.1.close inst c { r with standing := r.standing.after q o.2 true }) := by
  unfold pipeStepAt
  rw [pick_bind hu]
  exact if_pos hd

theorem allSome_map_some {α : Type} (l : List α) : allSome (l.map some) = some l := by
  induction l with
  | nil => rfl
  | cons a l ih => rw [List.map_cons, allSome, ih]; rfl

theorem allSome_none {α : Type} {l : List (Option α)} (h : none ∈ l) : allSome l = none := by
  induction l with
  | nil => cases h
  | cons a l ih =>
    cases a with
    | none => rfl
    | some a =>
      rw [allSome, ih ((List.mem_cons.mp h).resolve_left nofun)]
      rfl

variable {f : Nid → Sample → State → Ans Stepped} {v : Sample}

theorem stepChildren_serial (hk : c.kind = .serial) :
    stepChildren f c v s = (stepSerial f c.child v s).map fun o => (o, false) := by
  unfold stepChildren
  rw [hk]

/-- MERGE of what the branches answered, unless one answered `None` or broke its contract. -/
theorem stepChildren_parallel {g : MergeFn} {b : Branches} (hk : c.kind = .parallel g)
    (h : stepParallel f c.child v s = .ok b) :
    stepChildren f c v s =
      .ok (⟨(allSome b.outs).map (mergeApply s.num g c.outT), b.evs, b.bits, b.st, b.broke⟩,
        !b.broke && (allSome b.outs).any (mergeRounds s.num g c.outT)) := by
  unfold stepChildren
  rw [hk]
  dsimp only
  rw [h]
  rfl

end Composites

/-! ### `step_node` with a bound on the depth -/

/-- The bound `k` is enough for the tree below `n`, and every node there is in RUN. -/
structure Runs (s : State) (k : Nat) (n : Nid) : Prop where
  bound : k ≤ treeDepth s
  below : descendantsAre isRun s k n = true

namespace Runs

variable {s t : State} {k : Nat} {n : Nid}

theorem ne_zero (h : Runs s k n) : k ≠ 0 := by
  rintro rfl
  cases h.below

/-- A node keeps its tree through the STEPs of others. -/
theorem keeps (h : Runs s k n) (ht : KeepsTree isRun s t) : Runs t k n :=
  ⟨ht.treeDepth ▸ h.bound, ht.descendantsAre h.below⟩

theorem children {i : Inst} {c : PipeCfg} {r : PipeReg} (h : Runs s (k + 1) (nidOf 0 i))
    (hu : s.pipe[i.toNat]? = some (.run c r)) : ∀ n ∈ c.child, Runs s k n := by
  intro n hn
  have hbelow := (descendantsAre_succ ..).mp h.below n (childrenOf_configured (.inr ⟨r, hu⟩) ▸ hn)
  exact ⟨Nat.le_of_succ_le h.bound, hbelow.2⟩

/-- `step_node` of a composite, once its children have left `o`. -/
theorem stepNode_pipe {i : Inst} {c : PipeCfg} {r : PipeReg} {q : Contract} {v : Sample}
    {o : Stepped × Bool} {h : Standing} {w : Option Sample} (hk : Runs s (k + 1) (nidOf 0 i))
    (hu : s.pipe[i.toNat]? = some (.run c r))
    (ho : stepChildren (stepNode k (r.standing.source.and q)) c v s = .ok o)
    (hh : r.standing.after q o.2 true = h) (hw : openSample h.anyOut o.1.out o.1.st = (w, t)) :
    stepNode (k + 1) q (nidOf 0 i) v s =
      .ok ⟨w, o.1.evs, o.1.bits, withStanding i c r h t, o.1.broke⟩ := by
  subst hh
  rw [stepNode, nidUnit_nidOf, nidInst_nidOf, if_pos rfl,
    pipeStepAt_run hu (descendantsAre_mono hk.below hk.bound), ho]
  exact congrArg Except.ok (close_eq hw)

end Runs

/-- What a tick leaves in which no external node broke its contract. -/
def steppedOf (o : Tick) : Stepped := ⟨o.out, o.evs, o.bits, o.st, false⟩

/-- With the bound `k`, `step_node` does what the relation `Steps` says, and leaves the tree and its
phases as they are. -/
def StepsFollowed (k : Nat) : Prop :=
  ∀ {q : Contract} {s : State} {n : Nid} {v : Sample} {o : Tick}, Steps q s n v o → Runs s k n →
    stepNode k q n v s = .ok (steppedOf o) ∧ KeepsTree isRun s o.st

section Children

variable {k : Nat} (hfollow : StepsFollowed k) {q : Contract} {s t : State} {l : List Nid} {v : Sample}
include hfollow

theorem stepSerial_followed {o : Tick} (h : StepsInTurn q s l v o) (hk : ∀ n ∈ l, Runs s k n) :
    stepSerial (stepNode k q) l v s = .ok (steppedOf o) ∧ KeepsTree isRun s o.st := by
  induction l generalizing s v o with
  | nil =>
    cases h
    exact ⟨rfl, .refl _ _⟩
  | cons n l ih =>
    cases h with
    | stop hn hnone =>
      obtain ⟨hnode, ht⟩ := hfollow hn (hk n (by simp))
      refine ⟨bind_ok.mpr ⟨_, hnode, ?_⟩, ht⟩
      simp only [steppedOf, hnone]
      rfl
    | next hn hsome hl =>
      obtain ⟨hnode, ht⟩ := hfollow hn (hk n (by simp))
      obtain ⟨hrest, hu⟩ := ih hl fun m hm => (hk m (List.mem_cons_of_mem _ hm)).keeps ht
      refine ⟨bind_ok.mpr ⟨_, hnode, ?_⟩, ht.trans hu⟩
      simp only [steppedOf, hsome]
      exact bind_ok.mpr ⟨_, hrest, rfl⟩

theorem stepParallel_followed {ws : List (Option Sample)} {evs : List Raised} {bits : List Delivered}
    (h : StepsEach q s l v ws evs bits t) (hk : ∀ n ∈ l, Runs s k n) :
    stepParallel (stepNode k q) l v s = .ok ⟨ws, evs, bits, t, false⟩ ∧ KeepsTree isRun s t := by
  induction l generalizing s ws evs bits with
  | nil =>
    cases h
    exact ⟨rfl, .refl _ _⟩
  | cons n l ih =>
    cases h with
    | next hn hl =>
      obtain ⟨hnode, ht⟩ := hfollow hn (hk n (by simp))
      obtain ⟨hrest, hu⟩ := ih hl fun m hm => (hk m (List.mem_cons_of_mem _ hm)).keeps ht
      exact ⟨bind_ok.mpr ⟨_, hnode, bind_ok.mpr ⟨_, hrest, rfl⟩⟩, ht.trans hu⟩

end Children

/-- The record of a composite in RUN, and the count of free values, are no part of the tree. -/
theorem keepsTree_withStanding {s t u : State} {i : Inst} {c : PipeCfg} {r : PipeReg} {b : Bool}
    {o w : Option Sample} (hu : s.pipe[i.toNat]? = some (.run c r)) (ht : KeepsTree isRun s t)
    (ho : openSample b o t = (w, u)) (h : Standing) : KeepsTree isRun s (withStanding i c r h u) := by
  have htu : KeepsTree isRun s u := by
    have hopen := keepsTree_openSample (p := isRun) (s := t) b o
    rw [ho] at hopen
    exact ht.trans hopen
  have hchild : (u.pipe.map Pipe.children)[i.toNat]? = some c.child := by
    rw [htu.children, List.getElem?_map, hu]
    rfl
  rw [List.getElem?_map, Option.map_eq_some_iff] at hchild
  obtain ⟨v, hv, hvc⟩ := hchild
  exact htu.trans (keepsTree_putPipe hv hvc.symm (fun _ => rfl) (by simp [Life.ph]))

/-- By induction on the bound: a composite hands its children one level less. -/
theorem steps_followed (k : Nat) : StepsFollowed k := by
  induction k with
  | zero =>
    intro q s n v o _ hk
    exact absurd rfl hk.ne_zero
  | succ k ih =>
    intro q s n v o h hk
    have leaf := fun hn : nidUnit n ≠ 0 => stepNode_leaf hk.ne_zero hn q v s
    cases h with
    | gz hu hr ho =>
      rw [leaf (by simp), stepLeaf_gz, gzStepAt_run hu hr, ho]
      obtain ⟨j, rfl⟩ := openReal_state ho
      exact ⟨rfl, (keepsTree_free s j).trans (keepsTree_putGz fun _ _ _ => rfl)⟩
    | fir hu hcx hl hr ho =>
      rw [leaf (by simp), stepLeaf_fir, firStepAt_run hu hcx hl hr, ho]
      obtain ⟨j, rfl⟩ := openReal_state ho
      exact ⟨rfl, (keepsTree_free s j).trans (keepsTree_putFir fun _ _ _ => rfl)⟩
    | firc hu hcx hl hr ho =>
      rw [leaf (by simp), stepLeaf_firc, fircStepAt_run hu hcx hl hr, ho]
      obtain ⟨j, rfl⟩ := openCplx_state ho
      exact ⟨rfl, (keepsTree_free s j).trans (keepsTree_putFir fun _ _ _ => rfl)⟩
    | bq hu hcx hd hr ho =>
      rw [leaf (by simp), stepLeaf_bq, bqStepAt_run hu hcx hd hr, ho]
      obtain ⟨j, rfl⟩ := openReal_state ho
      exact ⟨rfl, (keepsTree_free s j).trans (keepsTree_putBq fun _ _ _ => rfl)⟩
    | bqc hu hcx hd hr ho =>
      rw [leaf (by simp), stepLeaf_bqc, bqcStepAt_run hu hcx hd hr, ho]
      obtain ⟨j, rfl⟩ := openCplx_state ho
      exact ⟨rfl, (keepsTree_free s j).trans (keepsTree_putBq fun _ _ _ => rfl)⟩
    | ma hu hr ho =>
      rw [leaf (by simp), stepLeaf_ma, maStepAt_run hu hr, ho]
      obtain ⟨j, rfl⟩ := openReal_state ho
      exact ⟨rfl, (keepsTree_free s j).trans (keepsTree_putMa fun _ _ _ => rfl)⟩
    | bs hu ht =>
      rw [leaf (by simp), stepLeaf_bs, bsStepAt_run hu ht]
      refine ⟨?_, keepsTree_putBs fun _ _ _ => rfl⟩
      rw [steppedOf, ← deliveredBy_eq]
      rfl
    | ext hn he hph hrate hv hstep htyped =>
      have hnid := findExt_nid he
      rw [leaf (unit_ne_zero_of_ext hn), stepLeaf_ext hn, extStepAt_eq he hph hv, hstep, hrate,
        hasType_iff_typed.mpr htyped]
      refine ⟨rfl, ?_⟩
      rw [withExt, ← putExt_eq]
      exact keepsTree_putExt he hnid id
    | serial hu hkind hl hh ho =>
      obtain ⟨hchildren, ht⟩ := stepSerial_followed ih hl (hk.children hu)
      have hserial := (stepChildren_serial hkind).trans (map_ok.mpr ⟨_, hchildren, rfl⟩)
      exact ⟨hk.stepNode_pipe hu hserial hh ho, keepsTree_withStanding hu ht ho _⟩
    | merged hu hkind hl hh ho =>
      obtain ⟨hchildren, ht⟩ := stepParallel_followed ih hl (hk.children hu)
      have hbranches := stepChildren_parallel hkind hchildren
      rw [allSome_map_some] at hbranches
      exact ⟨hk.stepNode_pipe hu hbranches hh ho, keepsTree_withStanding hu ht ho _⟩
    | split hu hkind hl hnone =>
      obtain ⟨hchildren, ht⟩ := stepParallel_followed ih hl (hk.children hu)
      have hbranches := stepChildren_parallel hkind hchildren
      rw [allSome_none hnone] at hbranches
      exact ⟨hk.stepNode_pipe hu hbranches rfl (openSample_none _ _),
        keepsTree_withStanding hu ht (openSample_none false _) _⟩

/-! ### STEP at the command port -/

section Port

variable {s : State} {n : Nid} {inst : Inst}

/-- The ports after a tick of a tree. -/
def answered (o : Stepped) : State := { o.st with out := ⟨.ok, .sample o.out, o.evs, o.bits⟩ }

/-- A direct STEP of a leaf that no composite owns is the body of STEP, which `step_node` runs too
(rule R142). -/
theorem direct_sample {C β : Type} {l : List C} {g : C → Ans (β × State)} {o : Stepped}
    (wrap : β → Sample) (hn : n ∉ s.used)
    (h : (pick l inst >>= g).map (fun r => .quiet (some (wrap r.1)) r.2) = .ok o) :
    conclude s (do
      let _ ← pick l inst
      notOwned s n
      let (y, t) ← pick l inst >>= g
      .ok ⟨t, .sample (some (wrap y)), []⟩) = .next (answered o) := by
  obtain ⟨⟨y, t⟩, hr, rfl⟩ := map_ok.mp h
  obtain ⟨u, hu, -⟩ := bind_ok.mp hr
  exact conclude_direct (.sample <| some <| wrap ·) (pick_ok.mp hu) hn hr

/-- A direct STEP of a BS that no composite owns. -/
theorem direct_bits {b : Bool} {o : Stepped} (hn : nidOf 5 inst ∉ s.used)
    (h : stepLeaf .kept (nidOf 5 inst) (.bool b) s = .ok o) :
    execBsStep inst b s = .next (answered o) := by
  rw [stepLeaf_bs] at h
  obtain ⟨⟨w, evs, t⟩, hr, rfl⟩ := map_ok.mp h
  obtain ⟨u, hu, -⟩ := bind_ok.mp hr
  unfold execBsStep
  rw [unowned_bind (pick_ok.mp hu) hn, hr]
  rfl

/-- A direct PIPE.STEP of a composite that no composite owns, with a sample of its type. -/
theorem execPipeStep_unowned {u : Pipe} {v : PortSample} {o : Stepped}
    (hu : s.pipe[inst.toNat]? = some u) (hv : operandTyped s (.pipeStep inst v) = true)
    (hn : nidOf 0 inst ∉ s.used)
    (h : stepNode (treeDepth s) (sampleContract s.num (sampleOf s.num v)) (nidOf 0 inst)
      (sampleOf s.num v) s = .ok o) :
    execPipeStep inst v s = .next (answered
      { o with
        out := (settled (nodeTypes s (nidOf 0 inst)).2 o).1
        st := (settled (nodeTypes s (nidOf 0 inst)).2 o).2 }) := by
  unfold execPipeStep
  rw [pick_bind hu, (pipeOperandFits_ok hu).mpr hv]
  show concludeBits s (notOwned s (nidOf 0 inst) >>= _) = _
  rw [notOwned_bind hn]
  dsimp only
  rw [h]
  rfl

/-- A STEP at the command port of a node in RUN is `step_node`, where no external node breaks its
contract. -/
theorem leads_of_stepNode {v : PortSample} {i : Instr} {o : Stepped} (hi : stepOf n v = some i)
    (hn : n ∉ s.used) (ht : operandTyped s i = true)
    (h : stepNode (treeDepth s) (sampleContract s.num (sampleOf s.num v)) n (sampleOf s.num v) s =
      .ok o) (hb : o.broke = false) : leads i s (answered o) := by
  have leaf := fun hu : nidUnit n ≠ 0 => (stepNode_leaf (k := treeDepth s) (by simp [treeDepth]) hu
    (sampleContract s.num (sampleOf s.num v)) (sampleOf s.num v) s).symm.trans h
  obtain ⟨u, j, rfl⟩ : ∃ u j, n = nidOf u j := ⟨_, _, (nidOf_eta n).symm⟩
  rw [nidUnit_nidOf] at leaf
  unfold stepOf at hi
  rw [nidUnit_nidOf, nidInst_nidOf] at hi
  split at hi
  case h_9 => cases hi
  case h_1 hu =>
    cases hi
    obtain rfl : u = 0 := BitVec.eq_of_toNat_eq hu
    have hpipe := h
    rw [stepNode_pipe] at hpipe
    obtain ⟨p, hp, -⟩ := bind_ok.mp hpipe
    have hexec := execPipeStep_unowned (pick_ok.mp hp) ht hn h
    rwa [settled, hb] at hexec
  case h_2 hu =>
    cases hi
    obtain rfl : u = 1 := BitVec.eq_of_toNat_eq hu
    exact direct_sample .real hn ((stepLeaf_gz ..).symm.trans (leaf (by decide)))
  case h_3 hu =>
    cases hi
    obtain rfl : u = 2 := BitVec.eq_of_toNat_eq hu
    exact direct_sample .real hn ((stepLeaf_fir ..).symm.trans (leaf (by decide)))
  case h_4 hu =>
    cases hi
    obtain rfl : u = 2 := BitVec.eq_of_toNat_eq hu
    exact direct_sample .cplx hn ((stepLeaf_firc ..).symm.trans (leaf (by decide)))
  case h_5 hu =>
    cases hi
    obtain rfl : u = 3 := BitVec.eq_of_toNat_eq hu
    exact direct_sample .real hn ((stepLeaf_bq ..).symm.trans (leaf (by decide)))
  case h_6 hu =>
    cases hi
    obtain rfl : u = 3 := BitVec.eq_of_toNat_eq hu
    exact direct_sample .cplx hn ((stepLeaf_bqc ..).symm.trans (leaf (by decide)))
  case h_7 hu =>
    cases hi
    obtain rfl : u = 4 := BitVec.eq_of_toNat_eq hu
    exact direct_sample .real hn ((stepLeaf_ma ..).symm.trans (leaf (by decide)))
  case h_8 hu =>
    cases hi
    obtain rfl : u = 5 := BitVec.eq_of_toNat_eq hu
    exact direct_bits hn (leaf (by decide))

/-- A STEP at the command port of a tree in which every node is in RUN. -/
theorem leads_of_steps {v : PortSample} {i : Instr} {o : Tick} (hi : stepOf n v = some i)
    (hn : n ∉ s.used) (ht : operandTyped s i = true)
    (hd : descendantsAre isRun s (treeDepth s) n = true)
    (h : Steps (sampleContract s.num (sampleOf s.num v)) s n (sampleOf s.num v) o) :
    leads i s { o.st with out := ⟨.ok, .sample o.out, o.evs, o.bits⟩ } :=
  leads_of_stepNode hi hn ht (steps_followed _ h ⟨Nat.le_refl _, hd⟩).1 rfl

/-- The nodes below a child are below the node. -/
theorem below_of_child {c d : Nid} (hc : c ∈ childrenOf s n) (hd : Below s c d) : Below s n d := by
  induction hd with
  | child h => exact .deeper (.child hc) h
  | deeper _ h ih => exact .deeper ih h

/-- Where the bound is enough for one check of the descendants, it is for another. -/
theorem descendantsAre_of_below {p p' : Phase → Bool} {k : Nat} (h : descendantsAre p s k n = true)
    (hp : ∀ d, Below s n d → phaseIs p' s d = true) : descendantsAre p' s k n = true := by
  induction k generalizing n with
  | zero => cases h
  | succ k ih =>
    rw [descendantsAre_succ] at h ⊢
    exact fun c hc => ⟨hp c (.child hc), ih (h c hc).2 fun d hd => hp d (below_of_child hc hd)⟩

end Port

/-! ### The moving average in a tree (rule R202) -/

section MovingAverage

variable {s : State} {i : Inst} {c : MaCfg} {r : MaReg} {x : RealVal} {q : Contract}

/-- A moving average in RUN passes the check of the composite above it. -/
theorem ma_placed (hu : s.ma[i.toNat]? = some (.run c r)) :
    nidUnit (nidOf 4 i) ≠ 0 ∧ phaseIs isRun s (nidOf 4 i) = true := by
  refine ⟨by simp, ?_⟩
  rw [phaseIs_eq, nodeInfo_ma, hu]
  rfl

/-- What a moving average with defined outputs leaves. -/
def maTicked (i : Inst) (c : MaCfg) (r : MaReg) (s : State) : Tick :=
  ⟨some (.real (maOutput s.num c r)), [], [], { s with ma := s.ma.set i.toNat (.run c r) }⟩

theorem steps_ma_closed (hu : s.ma[i.toNat]? = some (.run c r))
    (ho : (maTick s.num c r x q).standing.anyOut = false) :
    Steps q s (nidOf 4 i) (.real x) (maTicked i c (maTick s.num c r x q) s) :=
  .ma hu rfl (openReal_closed ho _ _)

end MovingAverage

end Machine
end Sys2Proof

namespace Sys2Proof
namespace Settled

open Sys2Proof.Machine Sys2Proof.Claims

/-- Settles O23: `step_node` follows the relation `Steps`; the first part is a tree of two leaves in which
the relation holds. -/
theorem pipeStepSerial : Obligations.PipeStepSerial := by
  unfold Obligations.PipeStepSerial
  refine ⟨?averages, ?tree⟩
  case averages =>
    intro s inst i j x ot r ci cj ri rj hu hn hij hi hj M q a y b h ha hb hh
    have hd := descendantsAre_of_leaves (p := isRun) (.inr ⟨r, hu⟩) fun n hn => by
      obtain rfl | rfl := List.mem_pair.mp hn
      · exact ma_placed hi
      · exact ma_placed hj
    have hj' : (s.ma.set i.toNat (.run ci a))[j.toNat]? = some (.run cj rj) := by
      rw [List.getElem?_set_ne fun h => hij (BitVec.eq_of_toNat_eq h), hj]
    have ht : operandTyped s (.pipeStep inst (.real x)) = true := by simp [operandTyped, hu, portTag]
    exact leads_of_steps (v := .real x) (by simp [stepOf]) hn ht hd (.serial hu rfl
      (.next (steps_ma_closed hi ha) rfl
        (.next (steps_ma_closed (s := { s with ma := _ }) hj' hb) rfl .done))
      rfl (openSample_closed hh _ _))
  case tree =>
    exact fun s n v i o hforest hn hruns hi ht h => leads_of_steps hi hn ht
      (descendantsAre_of_below (descendantsAre_of_forest_node hforest) hruns) h

end Settled
end Sys2Proof
end

section
/-!
SUPPORT. A tick in which an external node breaks the node contract (rules R140, R141, R406, U2), and the
decimating nodes of 95_test_vectors.md.
-/

namespace Sys2Proof
namespace Machine

open Sys2Proof.Claims

/-! ### A broken contract ends the tick (U2) -/

/-- In the state `s` the step of the node `n` with any `Real` value breaks the node contract, and leaves
the state `t`. -/
def Breaks (f : Nid → Sample → State → Ans Stepped) (n : Nid) (s t : State) : Prop :=
  ∀ x : RealVal, ∃ w, f n (.real x) s = .ok ⟨w, [], [], t, true⟩

section Broken

variable {f : Nid → Sample → State → Ans Stepped} {c : PipeCfg} {m n : Nid} {l : List Nid}
  {s s' t : State} {x y : RealVal}

/-- The first child breaks its contract: no other is stepped, in either kind of composite. -/
theorem Breaks.stepChildren_first (h : Breaks f n s t) (hc : c.child = n :: l) (x : RealVal) :
    ∃ w, stepChildren f c (.real x) s = .ok (⟨w, [], [], t, true⟩, false) := by
  obtain ⟨w, hw⟩ := h x
  cases hk : c.kind with
  | serial =>
    refine ⟨w, ?_⟩
    rw [stepChildren_serial hk, hc, stepSerial_broke hw rfl]
    rfl
  | parallel g =>
    have hbranches := stepParallel_broke (cs := l) hw rfl
    rw [← hc] at hbranches
    exact ⟨_, stepChildren_parallel hk hbranches⟩

/-- The second child breaks its contract: the first has advanced, and no other is stepped. -/
theorem Breaks.stepChildren_second (h : Breaks f n s' t) (hc : c.child = m :: n :: l)
    (hm : f m (.real x) s = .ok (.quiet (some (.real y)) s')) :
    ∃ w, stepChildren f c (.real x) s = .ok (⟨w, [], [], t, true⟩, false) := by
  cases hk : c.kind with
  | serial =>
    obtain ⟨w, hw⟩ := h y
    have hrest : stepSerial f (n :: l) (.real y) s' = _ := stepSerial_broke hw rfl
    refine ⟨w, ?_⟩
    rw [stepChildren_serial hk, hc]
    exact map_ok.mpr ⟨_, bind_ok.mpr ⟨_, hm, bind_ok.mpr ⟨_, hrest, rfl⟩⟩, rfl⟩
  | parallel g =>
    obtain ⟨w, hw⟩ := h x
    have hrest : stepParallel f (n :: l) (.real x) s' = _ := stepParallel_broke hw rfl
    have hbranches : stepParallel f c.child (.real x) s =
        .ok ⟨[some (.real y), w], [], [], t, true⟩ := by
      rw [hc]
      exact bind_ok.mpr ⟨_, hm, bind_ok.mpr ⟨_, hrest, rfl⟩⟩
    exact ⟨_, stepChildren_parallel hk hbranches⟩

end Broken

/-- Where a child broke its contract, PIPE.STEP answers any value of the composite's output type, or None;
what the children left stands. -/
theorem leads_of_broken {s t : State} {inst : Inst} {c : PipeCfg} {r : PipeReg} {v : PortSample}
    {w : Option Sample} (hu : s.pipe[inst.toNat]? = some (.run c r)) (hn : nidOf 0 inst ∉ s.used)
    (hv : operandTyped s (.pipeStep inst v) = true)
    (hd : descendantsAre isRun s (treeDepth s) (nidOf 0 inst) = true)
    (h : stepChildren
      (stepNode s.pipe.length (r.standing.source.and (sampleContract s.num (sampleOf s.num v)))) c
      (sampleOf s.num v) s = .ok (⟨w, [], [], t, true⟩, false)) :
    ∃ w' k, typed c.outT w' ∧ leads (.pipeStep inst v) s
      (done (withStanding inst c r
        (r.standing.after (sampleContract s.num (sampleOf s.num v)) false true)
        { t with freeIx := k }) (.sample w')) := by
  generalize hh : r.standing.after (sampleContract s.num (sampleOf s.num v)) false true = hst
  obtain ⟨w1, k1, hopen⟩ : ∃ w1 k1, openSample hst.anyOut w t = (w1, { t with freeIx := k1 }) := by
    obtain ⟨-, ho⟩ | ⟨-, w1, k1, ho, -⟩ := openSample_cases hst.anyOut w t
    · exact ⟨w, t.freeIx, ho⟩
    · exact ⟨w1, k1, ho⟩
  have hnode := Runs.stepNode_pipe (k := s.pipe.length) ⟨Nat.le_refl _, hd⟩ hu h hh hopen
  have hexec := execPipeStep_unowned hu hv hn hnode
  have hout : (nodeTypes s (nidOf 0 inst)).2 = c.outT := by
    simp [nodeTypes, nodeInfo, hu, pipeInfo]
  rw [hout] at hexec
  obtain ⟨hb, -⟩ | ⟨-, w2, k2, hs, htype⟩ := settled_cases c.outT
    ⟨w1, [], [], withStanding inst c r hst { t with freeIx := k1 }, true⟩
  · cases hb
  · rw [hs] at hexec
    exact ⟨w2, k2, hasType_iff_typed.mp htype, hexec⟩

/-! ### The decimating nodes (95_test_vectors.md) -/

section Decimator

variable {s : State} {n : Nid} {e : Ext}

/-- A decimating node in RUN is bound under `n` and takes `Real` values. -/
structure Decimates (s : State) (n : Nid) (e : Ext) : Prop where
  bound : findExt s n = some e
  unit : isExt n
  run : e.ph = .run
  input : e.inT = .real
  behav : e.behav = .dec2 ∨ e.behav = .dec2SameRate

/-- The record of the node after one more call. -/
def called (e : Ext) : Ext := { e with st := e.st + 1 }

theorem extStepOf_decimates (h : Decimates s n e) (v : Sample) :
    extStepOf e v = (if e.st % 2 = 0 then none else some v, e.st + 1) := by
  have hdecimate : extStepOf e v = decimate e.st v := by
    unfold extStepOf
    obtain hb | hb := h.behav
    all_goals rw [hb]
  rw [hdecimate, decimate]
  split <;> rfl

/-- The node has broken its contract, or does so in this call (U2). -/
def breaksNow (e : Ext) : Prop := e.rateBroken = true ∨ (e.st % 2 = 1 ∧ e.outT ≠ .real)

/-- A call of a node that keeps its contract. -/
theorem Decimates.steps (h : Decimates s n e) (hb : ¬ breaksNow e) (q : Contract) (x : RealVal) :
    Steps q s n (.real x) ⟨if e.st % 2 = 0 then none else some (.real x), [], [],
      withExt n (called e) s⟩ := by
  obtain ⟨hrate, htype⟩ := not_or.mp hb
  refine .ext h.unit h.bound h.run (Bool.eq_false_iff.mpr hrate) h.input.symm
    (extStepOf_decimates h _) ?_
  intro w hw
  split at hw
  · cases hw
  · cases hw
    have hout : e.outT = .real := by
      by_contra hne
      exact htype ⟨by omega, hne⟩
    exact hout.symm

/-- A call in which the node breaks its contract. -/
theorem Decimates.breaks (h : Decimates s n e) (hb : breaksNow e) {k : Nat} (hk : k ≠ 0)
    (q : Contract) : Breaks (stepNode k q) n s (withExt n (called e) s) := by
  intro x
  have hbroke : (e.rateBroken ||
      !hasType e.outT (if e.st % 2 = 0 then none else some (Sample.real x))) = true := by
    obtain hrate | ⟨hodd, hne⟩ := hb
    · rw [hrate, Bool.true_or]
    · rw [if_neg (by omega), Bool.or_eq_true]
      exact .inr (by simpa [hasType, Sample.tag] using hne.symm)
  rw [stepNode_leaf hk (unit_ne_zero_of_ext h.unit), stepLeaf_ext h.unit,
    extStepAt_eq (v := .real x) h.bound h.run h.input.symm, extStepOf_decimates h, hbroke]
  exact ⟨_, rfl⟩

end Decimator

end Machine
end Sys2Proof

namespace Sys2Proof
namespace Settled

open Sys2Proof.Machine Sys2Proof.Claims

/-- Settles O24: where the node keeps its contract the trees are in the relation `Steps`; where it breaks
it, the tick ends at the node. -/
theorem noneInComposites : Obligations.NoneInComposites := by
  unfold Obligations.NoneInComposites
  intro s inst i j x kind before ot r e m q c hu hn he hunit hph hin hbehav hm M a ext d h q' y at'
    both broken
  have hdec : Decimates s e.nid e := ⟨he, by simp [isExt, hunit], hph, hin, hbehav⟩
  have hlen : s.pipe.length ≠ 0 := fun h0 => by simp [List.length_eq_zero_iff.mp h0] at hu
  have hext : nidUnit e.nid ≠ 0 ∧ phaseIs isRun s e.nid = true :=
    ext_placed hdec.unit he (by simp [hph])
  have ht : operandTyped s (.pipeStep inst (.real x)) = true := by
    simp [operandTyped, hu, c, portTag]
  have hruns : (before = true → nidUnit (nidOf 4 j) ≠ 0 ∧ phaseIs isRun s (nidOf 4 j) = true) →
      descendantsAre isRun s (treeDepth s) (nidOf 0 inst) = true := by
    refine fun hj => descendantsAre_of_leaves (.inr ⟨r, hu⟩) fun n hn => ?_
    have hmem : (before = true ∧ n = nidOf 4 j) ∨ n = e.nid ∨ n = nidOf 4 i := by
      cases before <;> simpa [c] using hn
    obtain ⟨hbefore, rfl⟩ | rfl | rfl := hmem
    · exact hj hbefore
    · exact hext
    · exact ma_placed hm
  refine ⟨fun hbefore hkeeps => ?keeps, fun hbefore hbroken => ?first, ?second⟩
  case keeps =>
    subst hbefore
    have hnode := hdec.steps hkeeps (r.standing.source.and d) a
    have hma := fun hclosed => steps_ma_closed (s := withExt e.nid (called e) s) (x := a)
      (q := r.standing.source.and d) hm hclosed
    have lead := fun o =>
      leads_of_steps (v := .real x) (o := o) (by simp [stepOf]) hn ht (hruns fun h => nomatch h)
    refine ⟨fun hserial heven => ?_, fun f hparallel hclosed heven => ?_, ?_⟩
    · rw [if_pos heven] at hnode
      exact lead _ (.serial hu hserial (.stop hnode rfl) rfl (openSample_none _ _))
    · rw [if_pos heven] at hnode
      exact lead _ (.split hu hparallel (.next hnode (.next (hma hclosed) .none)) (by simp))
    · intro f hparallel hclosed hodd rounded w hw
      rw [if_neg (by omega)] at hnode
      have hrounded : mergeRounds M f ot [.real a, .real y] = rounded := by
        cases f <;> cases ot <;> rfl
      have hmerge : mergeApply M f ot [.real a, .real y] = w := by
        cases f <;> cases ot <;> rfl
      have hstanding : r.standing.after d (mergeRounds M f ot [.real a, .real y]) true = h rounded := by
        rw [hrounded]
      rw [← hmerge]
      exact lead _ (.merged (ws := [.real a, .real y]) hu hparallel
        (.next hnode (.next (hma hclosed) .none)) hstanding (openSample_closed hw _ _))
  case first =>
    subst hbefore
    obtain ⟨w, hw⟩ := (hdec.breaks hbroken hlen (r.standing.source.and d)).stepChildren_first
      (c := c) rfl a
    exact leads_of_broken (v := .real x) hu hn ht (hruns fun h => nomatch h) hw
  case second =>
    intro m0 q0 hbefore hbroken hm0 p hp
    subst hbefore
    have hma := (steps_followed s.pipe.length (steps_ma_closed hm0 hp)
      ⟨Nat.le_succ _, by
        obtain ⟨k, hk⟩ := Nat.exists_eq_succ_of_ne_zero hlen
        rw [hk]
        exact descendantsAre_leaf _ _ _ _ (by simp)⟩).1
    have hdec' : Decimates { s with ma := s.ma.set j.toNat (.run m0 p) } e.nid e := { hdec with }
    obtain ⟨w, hw⟩ := (hdec'.breaks hbroken hlen (r.standing.source.and d)).stepChildren_second
      (c := c) rfl hma
    exact leads_of_broken (v := .real x) hu hn ht (hruns fun _ => ma_placed hm0) hw

end Settled
end Sys2Proof
end

section
/-!
SUPPORT. CONFIG of an instance that is there, and the block size of GZ.CONFIG and MA.CONFIG (rules R160,
R200).
-/

namespace Sys2Proof
namespace Machine

open Sys2Proof.Claims

/-! ### CONFIG of an instance that is there -/

section Config

variable {s : State} {inst : Inst} {C U : Type} {l : List C} {a : Ans U} {put : U → State}

/-- A CONFIG whose checks pass writes what they leave, and answers with no result. -/
theorem conclude_config {u : U} (hi : inst.toNat < l.length) (ha : a = .ok u) :
    (conclude s do
      let _ ← pick l inst
      let u ← a
      .ok ⟨put u, .none, []⟩) = .next (done (put u) .none) := by
  rw [pick_bind (List.getElem?_eq_getElem hi), ha]
  rfl

/-- A CONFIG whose checks raise is rejected with what they raise. -/
theorem conclude_config_rejected {e : Status} (hi : inst.toNat < l.length) (ha : a = .error e) :
    (conclude s do
      let _ ← pick l inst
      let u ← a
      .ok ⟨put u, .none, []⟩) = .next (rejected s e) := by
  refine conclude_rejected ?_
  rw [pick_bind (List.getElem?_eq_getElem hi)]
  exact error_bind ha _

end Config

/-! ### The block size -/

theorem gzConfig_ok {n : I32} (hn : 1 ≤ n.toInt) (M : Numerics) (f : B32) :
    gzConfig M n f = .ok (.conf ⟨n.toInt.toNat, M.ofB32 f⟩) := if_neg (by omega)

theorem gzConfig_badWindowSize {n : I32} (hn : n.toInt < 1) (M : Numerics) (f : B32) :
    gzConfig M n f = .error (.config .badWindowSize) := if_pos hn

theorem maConfig_ok {n : I32} (hn : 1 ≤ n.toInt) : maConfig n = .ok (.conf ⟨n.toInt.toNat⟩) :=
  if_neg (by omega)

theorem maConfig_badWindowSize {n : I32} (hn : n.toInt < 1) :
    maConfig n = .error (.config .badWindowSize) := if_pos hn

/-! ### The operations: the node's lock leaves no trace (rule R80) -/

section Operations

variable {s : State} {inst : Inst} {n : I32}

theorem execGzConfig_done (hi : inst.toNat < s.gz.length) (hn : 1 ≤ n.toInt) (f : B32) :
    execGzConfig inst n f s =
      .next (done (putGz inst (.conf ⟨n.toInt.toNat, s.num.ofB32 f⟩) s) .none) := by
  rw [← underLock_putGz (nidOf 1 inst)]
  exact conclude_config hi (gzConfig_ok hn s.num f)

theorem execGzConfig_rejected (hi : inst.toNat < s.gz.length) (hn : n.toInt < 1) (f : B32) :
    execGzConfig inst n f s = .next (rejected s (.config .badWindowSize)) :=
  conclude_config_rejected hi (gzConfig_badWindowSize hn s.num f)

theorem execMaConfig_done (hi : inst.toNat < s.ma.length) (hn : 1 ≤ n.toInt) :
    execMaConfig inst n s = .next (done (putMa inst (.conf ⟨n.toInt.toNat⟩) s) .none) := by
  rw [← underLock_putMa (nidOf 4 inst)]
  exact conclude_config hi (maConfig_ok hn)

theorem execMaConfig_rejected (hi : inst.toNat < s.ma.length) (hn : n.toInt < 1) :
    execMaConfig inst n s = .next (rejected s (.config .badWindowSize)) :=
  conclude_config_rejected hi (maConfig_badWindowSize hn)

end Operations

end Machine
end Sys2Proof

namespace Sys2Proof
namespace Settled

open Sys2Proof.Machine Sys2Proof.Claims

/-- Settles O25: the block size is the only check behind the look-up of the instance. -/
theorem windowSizes : Obligations.WindowSizes := by
  unfold Obligations.WindowSizes
  intro s inst n f
  refine ⟨fun hi => ⟨fun hn => ?_, fun hn => ?_⟩, fun hi => ⟨fun hn => ?_, fun hn => ?_⟩⟩
  · exact execGzConfig_done hi hn f
  · exact execGzConfig_rejected hi hn f
  · exact execMaConfig_done hi hn
  · exact execMaConfig_rejected hi hn

end Settled
end Sys2Proof
end

section
/-!
SUPPORT. The operand checks of FIR.CONFIG (rule R170), and the window and the taps of FIR with the integers of
their formulas as numerics (rules R173, R174, R178).
-/

namespace Sys2Proof
namespace Machine

open Sys2Proof.Claims

/-! ### The enumerated operands (rules R170, R185) -/

section Enumerated

variable {v : I32}

/-- The windows in the order of their codes (rule R35). -/
def windowTable : List Window := [.rect, .hamming, .hann, .blackman, .kaiser]

theorem windowOf_of_mem (h : 0 ≤ v.toInt ∧ v.toInt ≤ 4) :
    ∃ w, windowTable[v.toInt.toNat]? = some w ∧ windowOf v = some w := by
  have hcode : v.toInt = 0 ∨ v.toInt = 1 ∨ v.toInt = 2 ∨ v.toInt = 3 ∨ v.toInt = 4 := by omega
  unfold windowOf
  rcases hcode with hc | hc | hc | hc | hc <;> rw [hc] <;> exact ⟨_, rfl, rfl⟩

theorem windowOf_of_not_mem (h : ¬ (0 ≤ v.toInt ∧ v.toInt ≤ 4)) : windowOf v = none := by
  unfold windowOf
  split
  case h_6 => rfl
  all_goals omega

theorem cxOf_of_mem (h : 0 ≤ v.toInt ∧ v.toInt ≤ 1) : cxOf v = some (v.toInt == 1) := by
  have hcode : v.toInt = 0 ∨ v.toInt = 1 := by omega
  unfold cxOf
  rcases hcode with hc | hc <;> rw [hc] <;> rfl

theorem cxOf_of_not_mem (h : ¬ (0 ≤ v.toInt ∧ v.toInt ≤ 1)) : cxOf v = none := by
  unfold cxOf
  split
  case h_3 => rfl
  all_goals omega

end Enumerated

/-! ### The checks of FIR.CONFIG, in the order written (rule R170) -/

section FirConfig

variable {M : Numerics} {window t cx : I32} {f1 f2 beta : B32} {w : Window}

theorem firConfig_badWindow (hw : windowOf window = none) :
    firConfig M window t f1 f2 beta cx = .error (.config .badEnum) := by
  unfold firConfig
  rw [hw]

theorem firConfig_badTapCount (hw : windowOf window = some w) (ht : t.toInt ≤ 0) :
    firConfig M window t f1 f2 beta cx = .error (.config .badTapCount) := by
  unfold firConfig
  rw [hw]
  exact if_pos ht

/-- Past `WINDOW` and `T` the check of `BETA` decides, and then the look-up of `CX`. -/
theorem firConfig_counted (hw : windowOf window = some w) (ht : 0 < t.toInt) :
    firConfig M window t f1 f2 beta cx =
      if M.lt (M.ofB32 beta) M.zero then .error badArgument
      else ((cxOf cx).elim (.error badEnum) fun z =>
        .ok (.conf ⟨w, t.toInt.toNat, M.ofB32 f1, M.ofB32 f2, M.ofB32 beta, z⟩)) := by
  unfold firConfig
  rw [hw]
  refine (if_neg (by omega)).trans ?_
  cases cxOf cx <;> rfl

theorem firConfig_badBeta (hw : windowOf window = some w) (ht : 0 < t.toInt)
    (hb : M.lt (M.ofB32 beta) M.zero = true) :
    firConfig M window t f1 f2 beta cx = .error (.config .badArgument) := by
  rw [firConfig_counted hw ht, if_pos hb]

theorem firConfig_badCx (hw : windowOf window = some w) (ht : 0 < t.toInt)
    (hb : M.lt (M.ofB32 beta) M.zero = false) (hcx : cxOf cx = none) :
    firConfig M window t f1 f2 beta cx = .error (.config .badEnum) := by
  rw [firConfig_counted hw ht, if_neg (by simp [hb]), hcx]
  rfl

theorem firConfig_ok {z : Bool} (hw : windowOf window = some w) (ht : 0 < t.toInt)
    (hb : M.lt (M.ofB32 beta) M.zero = false) (hcx : cxOf cx = some z) :
    firConfig M window t f1 f2 beta cx =
      .ok (.conf ⟨w, t.toInt.toNat, M.ofB32 f1, M.ofB32 f2, M.ofB32 beta, z⟩) := by
  rw [firConfig_counted hw ht, if_neg (by simp [hb]), hcx]
  rfl

variable {s : State} {inst : Inst}

theorem execFirConfig_done {u : Fir} (hi : inst.toNat < s.fir.length)
    (h : firConfig s.num window t f1 f2 beta cx = .ok u) :
    execFirConfig inst window t f1 f2 beta cx s = .next (done (putFir inst u s) .none) := by
  rw [← underLock_putFir (nidOf 2 inst)]
  exact conclude_config hi h

theorem execFirConfig_rejected {e : Status} (hi : inst.toNat < s.fir.length)
    (h : firConfig s.num window t f1 f2 beta cx = .error e) :
    execFirConfig inst window t f1 f2 beta cx s = .next (rejected s e) :=
  conclude_config_rejected hi h

end FirConfig

/-! ### The taps by case of the band edges (rules R173, R174) -/

section FirTap

variable {M : Numerics} {tone : ToneSel} {c : FirCfg} {rate f1 f2 : RealVal} {te n : Nat}

/-- What the band edge `f` adds to a tap at distance `d` from the centre: `2 * (f / R) * sinc(2 * (f / R) * d)`
(rule R173). -/
def edgeTerm (M : Numerics) (rate d f : RealVal) : RealVal :=
  M.mul (M.mul (M.lit 2 1) (M.div f rate)) (sinc M (M.mul (M.mul (M.lit 2 1) (M.div f rate)) d))

/-- Equal band edges: the single-tone formula gets the window's values. -/
theorem firTap_tone (h : M.eq f1 f2 = true) :
    firTap M tone c rate f1 f2 te n =
      firToneTap M tone n te (M.div f1 rate) ((List.range te).map (win M c.window c.beta te)) :=
  if_pos h

/-- Distinct band edges: the window's value times the difference of the terms of the two edges, at the distance
of `n` from the centre. -/
theorem firTap_band (h : ¬ M.eq f1 f2 = true) :
    firTap M tone c rate f1 f2 te n =
      M.mul (win M c.window c.beta te n)
        (M.sub (edgeTerm M rate (M.lit ((n : Int) - ((te - 1) / 2 : Nat)) 1) f2)
          (edgeTerm M rate (M.lit ((n : Int) - ((te - 1) / 2 : Nat)) 1) f1)) :=
  if_neg h

end FirTap

end Machine
end Sys2Proof

namespace Sys2Proof
namespace Settled

open Sys2Proof.Machine Sys2Proof.Claims

/-- Settles O28: one lemma per check, each for operands that pass the checks written before it. -/
theorem firConfig : Obligations.FirConfig := by
  unfold Obligations.FirConfig
  intro s inst window t f1 f2 beta cx hi M op windows
  refine ⟨fun hw => ?_, fun hw ht => ?_, fun hw ht hb => ?_, fun hw ht hb hcx => ?_,
    fun hw ht hb hcx => ?_⟩
  · exact execFirConfig_rejected hi (firConfig_badWindow (windowOf_of_not_mem hw))
  all_goals obtain ⟨w, htable, hw⟩ := windowOf_of_mem hw
  · exact execFirConfig_rejected hi (firConfig_badTapCount hw ht)
  · exact execFirConfig_rejected hi (firConfig_badBeta hw ht hb)
  · exact execFirConfig_rejected hi (firConfig_badCx hw ht hb (cxOf_of_not_mem hcx))
  · exact ⟨w, htable, execFirConfig_done hi (firConfig_ok hw ht hb (cxOf_of_mem hcx))⟩

/-- Settles O30: the window's formula row by row, at every index, since `FIR_TONE` is given all its values;
then the tap by case of the band edges. -/
theorem firTapFormula : Obligations.FirTapFormula := by
  unfold Obligations.FirTapFormula
  intro M tone c rate f1 f2 te n one two window d a b sinc
  have hwin : ∀ n, win M c.window c.beta te n = window n := by
    intro n
    by_cases hte : te = 1
    · exact (if_pos hte).trans (if_pos hte).symm
    · refine (if_neg hte).trans (Eq.trans ?_ (if_neg hte).symm)
      cases c.window <;> rfl
  refine ⟨hwin n, ?_⟩
  by_cases h : M.eq f1 f2 = true
  · rw [if_pos h, firTap_tone h, funext hwin]
  · rw [if_neg h, firTap_band h, hwin n]
    rfl

end Settled
end Sys2Proof
end

section
/-!
SUPPORT. The operand checks of BQ.CONFIG (rule R185), and the values from which the cookbook's table is computed,
with the integers of their formulas as numerics (rule R188).
-/

namespace Sys2Proof
namespace Machine

open Sys2Proof.Claims

/-! ### The register `TYPE` (rules R36, R185) -/

section FilterType

variable {v : I32}

/-- The filter types in the order of their codes (rule R36). -/
def bqTypeTable : List BqType :=
  [.lowpass, .highpass, .bandpassSkirt, .bandpassPeak, .notch, .lowshelf, .highshelf]

theorem bqTypeOf_of_mem (h : 0 ≤ v.toInt ∧ v.toInt ≤ 6) :
    ∃ w, bqTypeTable[v.toInt.toNat]? = some w ∧ bqTypeOf v = some w := by
  have hcode : v.toInt = 0 ∨ v.toInt = 1 ∨ v.toInt = 2 ∨ v.toInt = 3 ∨ v.toInt = 4 ∨ v.toInt = 5 ∨
      v.toInt = 6 := by omega
  unfold bqTypeOf
  rcases hcode with hc | hc | hc | hc | hc | hc | hc <;> rw [hc] <;> exact ⟨_, rfl, rfl⟩

theorem bqTypeOf_of_not_mem (h : ¬ (0 ≤ v.toInt ∧ v.toInt ≤ 6)) : bqTypeOf v = none := by
  unfold bqTypeOf
  split
  case h_8 => rfl
  all_goals omega

end FilterType

/-! ### The checks of BQ.CONFIG, in the order written (rule R185) -/

section BqConfig

variable {M : Numerics} {type cx : I32} {f0 q gain : B32} {w : BqType}

theorem bqConfig_badType (hw : bqTypeOf type = none) :
    bqConfig M type f0 q gain cx = .error (.config .badEnum) := by
  unfold bqConfig
  rw [hw]

/-- Past `TYPE` the check of `Q` decides, and then the look-up of `CX`. -/
theorem bqConfig_typed (hw : bqTypeOf type = some w) :
    bqConfig M type f0 q gain cx =
      if M.pos (M.ofB32 q) then (cxOf cx).elim (.error badEnum) fun z =>
        .ok (.conf ⟨w, M.ofB32 f0, M.ofB32 q, M.ofB32 gain, z⟩)
      else .error badArgument := by
  unfold bqConfig
  rw [hw]
  cases cxOf cx <;> rfl

theorem bqConfig_badQ (hw : bqTypeOf type = some w) (hq : M.pos (M.ofB32 q) = false) :
    bqConfig M type f0 q gain cx = .error (.config .badArgument) := by
  rw [bqConfig_typed hw, if_neg (by simp [hq])]

theorem bqConfig_badCx (hw : bqTypeOf type = some w) (hq : M.pos (M.ofB32 q) = true)
    (hcx : cxOf cx = none) : bqConfig M type f0 q gain cx = .error (.config .badEnum) := by
  rw [bqConfig_typed hw, if_pos hq, hcx]
  rfl

theorem bqConfig_ok {z : Bool} (hw : bqTypeOf type = some w) (hq : M.pos (M.ofB32 q) = true)
    (hcx : cxOf cx = some z) :
    bqConfig M type f0 q gain cx =
      .ok (.conf ⟨w, M.ofB32 f0, M.ofB32 q, M.ofB32 gain, z⟩) := by
  rw [bqConfig_typed hw, if_pos hq, hcx]
  rfl

variable {s : State} {inst : Inst}

/-- The node's lock leaves no trace (rule R80). -/
theorem execBqConfig_done {u : Bq} (hi : inst.toNat < s.bq.length)
    (h : bqConfig s.num type f0 q gain cx = .ok u) :
    execBqConfig inst type f0 q gain cx s = .next (done (putBq inst u s) .none) := by
  rw [← underLock_putBq (nidOf 3 inst)]
  exact conclude_config hi h

theorem execBqConfig_rejected {e : Status} (hi : inst.toNat < s.bq.length)
    (h : bqConfig s.num type f0 q gain cx = .error e) :
    execBqConfig inst type f0 q gain cx s = .next (rejected s e) :=
  conclude_config_rejected hi h

end BqConfig

/-! ### The cookbook (rule R188) -/

section Cookbook

/-- `w0 = 2 * pi * f0 / rate` (rule R188). -/
def cookbookAngle (M : Numerics) (f0 rate : RealVal) : RealVal :=
  M.div (M.mul (M.mul (M.lit 2 1) M.pi) f0) rate

/-- `alpha = sin(w0) / (2 * Q)` (rule R188). -/
def cookbookAlpha (M : Numerics) (w0 q : RealVal) : RealVal := M.div (M.sin w0) (M.mul (M.lit 2 1) q)

/-- `A = 10^(gain_db / 40)` (rule R188). -/
def cookbookGain (M : Numerics) (gain : RealVal) : RealVal := M.pow10 (M.div gain (M.lit 40 1))

/-- `sq = 2 * sqrt(A) * alpha` (rule R188). -/
def cookbookShelf (M : Numerics) (A alpha : RealVal) : RealVal :=
  M.mul (M.mul (M.lit 2 1) (M.sqrt A)) alpha

/-- The parameters reach the table through these five values only. -/
theorem cookbook_eq_row (M : Numerics) (type : BqType) (f0 q gain rate : RealVal) :
    cookbook M type f0 q gain rate =
      cookbookRow M type (M.cos (cookbookAngle M f0 rate)) (M.sin (cookbookAngle M f0 rate))
        (cookbookAlpha M (cookbookAngle M f0 rate) q) (cookbookGain M gain)
        (cookbookShelf M (cookbookGain M gain) (cookbookAlpha M (cookbookAngle M f0 rate) q)) := rfl

end Cookbook

end Machine
end Sys2Proof

namespace Sys2Proof
namespace Settled

open Sys2Proof.Machine Sys2Proof.Claims

/-- Settles O35: one lemma per check, each for operands that pass the checks written before it. -/
theorem bqConfig : Obligations.BqConfig := by
  unfold Obligations.BqConfig
  intro s inst type f0 q gain cx hi M op types
  refine ⟨fun hw => ?_, fun hw hq => ?_, fun hw hq hcx => ?_, fun hw hq hcx => ?_⟩
  · exact execBqConfig_rejected hi (bqConfig_badType (bqTypeOf_of_not_mem hw))
  all_goals obtain ⟨w, htable, hw⟩ := bqTypeOf_of_mem hw
  · exact execBqConfig_rejected hi (bqConfig_badQ hw hq)
  · exact execBqConfig_rejected hi (bqConfig_badCx hw hq (cxOf_of_not_mem hcx))
  · exact ⟨w, htable, execBqConfig_done hi (bqConfig_ok hw hq (cxOf_of_mem hcx))⟩

/-- Settles O37: every value is that of `cookbookRow` at the filter type, with the five values spelled out for
its arguments. -/
theorem bqCookbook : Obligations.BqCookbook := by
  unfold Obligations.BqCookbook
  intro M f0 q gain rate one two w0 cs sn alpha A sq neg cb m2cs ap am am_cs ap_cs
  have row : ∀ t, cb t = cookbookRow M t cs sn alpha A sq := fun t =>
    cookbook_eq_row M t f0 q gain rate
  exact ⟨row .lowpass, row .highpass, row .bandpassSkirt, row .bandpassPeak, row .notch,
    row .lowshelf, row .highshelf⟩

end Settled
end Sys2Proof
end

section
/-!
SUPPORT. A direct MA.INIT in CONF and in RUN (rules R201, R356).
-/

namespace Sys2Proof
namespace Machine

open Sys2Proof.Claims

section MaInit

variable {s : State} {inst : Inst} {rate : B32} {c : MaCfg}

/-- The registers that a positive rate leaves are `maReg`. -/
theorem execMaInit_done (hc : isConfigured s.ma[inst.toNat]? c) (hn : nidOf 4 inst ∉ s.used)
    (hx : s.num.pos (s.num.ofB32 rate) = true) :
    execMaInit inst rate s =
      .next (done (putMa inst (.run c (maReg s.num c)) s) (.rate (s.num.ofB32 rate))) := by
  obtain ⟨_, hu, -⟩ := isConfigured_iff.mp hc
  exact conclude_direct .rate hu hn ((maInitAt_configured hc _).trans (if_pos hx))

theorem execMaInit_rejected (hc : isConfigured s.ma[inst.toNat]? c) (hn : nidOf 4 inst ∉ s.used)
    (hx : s.num.pos (s.num.ofB32 rate) = false) :
    execMaInit inst rate s = .next (rejected s badArgument) := by
  obtain ⟨_, hu, -⟩ := isConfigured_iff.mp hc
  have hbody := (maInitAt_configured hc (s.num.ofB32 rate)).trans (if_neg (Bool.eq_false_iff.mp hx))
  refine conclude_rejected ?_
  rw [unowned_bind hu hn]
  exact error_bind hbody _

end MaInit

end Machine
end Sys2Proof

namespace Sys2Proof
namespace Settled

open Sys2Proof.Machine Sys2Proof.Claims

/-- Settles O39: the rate is the only check of a configured unit that no composite owns, and the registers
that rule R201 spells out are `maReg`. -/
theorem maInit : Obligations.MaInit := by
  unfold Obligations.MaInit
  intro s inst rate u c hu hc hn M
  have hconf : isConfigured s.ma[inst.toNat]? c := isConfigured_iff.mpr ⟨u, hu, hc⟩
  exact ⟨fun hx => execMaInit_done hconf hn hx, fun hx => execMaInit_rejected hconf hn hx⟩

end Settled
end Sys2Proof
end

section
/-!
SUPPORT. The operand checks of BS.CONFIG (rule R210), and the registers that BS.INIT and BS.WAIT_FOR_SYNC
leave (rules R211, R212, R219).
-/

namespace Sys2Proof
namespace Machine

open Sys2Proof.Claims

/-! ### The checks of BS.CONFIG, in the order written (rule R210) -/

section BsConfig

variable {M : Numerics} {c req cap : I32} {cand : List B32}

/-- A candidate is not above 0, which rule R210 asks of every candidate. -/
def hasLowCandidate (M : Numerics) (cand : List B32) : Prop :=
  ∃ x ∈ cand, M.le (M.ofB32 x) M.zero = true

theorem any_le_zero_iff :
    ((cand.map M.ofB32).any fun r => M.le r M.zero) = true ↔ hasLowCandidate M cand := by
  simp [hasLowCandidate]

theorem bsConfig_emptyCandidates (hc : c.toInt < 1) :
    bsConfig M c cand req cap = .error (.config .emptyCandidates) := if_pos hc

theorem bsConfig_badCandidate (hc : 1 ≤ c.toInt) (hlow : hasLowCandidate M cand) :
    bsConfig M c cand req cap = .error (.config .badArgument) :=
  (if_neg (by omega)).trans (if_pos (any_le_zero_iff.mpr hlow))

/-- Past the candidates the check of `REQ` decides, and then that of `CAP`. -/
theorem bsConfig_positive (hc : 1 ≤ c.toInt) (hlow : ¬ hasLowCandidate M cand) :
    bsConfig M c cand req cap =
      if req.toInt < 1 then .error (.config .badArgument)
      else if cap.toInt < 1 then .error (.config .badBufferWidth)
      else .ok (.conf ⟨c.toInt.toNat, cand.map M.ofB32, req.toInt.toNat, cap.toInt.toNat⟩) :=
  (if_neg (by omega)).trans (if_neg (mt any_le_zero_iff.mp hlow))

theorem bsConfig_badReq (hc : 1 ≤ c.toInt) (hlow : ¬ hasLowCandidate M cand)
    (hreq : req.toInt < 1) : bsConfig M c cand req cap = .error (.config .badArgument) := by
  rw [bsConfig_positive hc hlow, if_pos hreq]

theorem bsConfig_badCap (hc : 1 ≤ c.toInt) (hlow : ¬ hasLowCandidate M cand)
    (hreq : 1 ≤ req.toInt) (hcap : cap.toInt < 1) :
    bsConfig M c cand req cap = .error (.config .badBufferWidth) := by
  rw [bsConfig_positive hc hlow, if_neg (by omega), if_pos hcap]

theorem bsConfig_ok (hc : 1 ≤ c.toInt) (hlow : ¬ hasLowCandidate M cand) (hreq : 1 ≤ req.toInt)
    (hcap : 1 ≤ cap.toInt) :
    bsConfig M c cand req cap =
      .ok (.conf ⟨c.toInt.toNat, cand.map M.ofB32, req.toInt.toNat, cap.toInt.toNat⟩) := by
  rw [bsConfig_positive hc hlow, if_neg (by omega), if_neg (by omega)]

variable {s : State} {inst : Inst}

/-- The node's lock leaves no trace (rule R80). -/
theorem execBsConfig_done {u : Bs} (hi : inst.toNat < s.bs.length)
    (h : bsConfig s.num c cand req cap = .ok u) :
    execBsConfig inst c cand req cap s = .next (done (putBs inst u s) .none) := by
  rw [← underLock_putBs (nidOf 5 inst)]
  exact conclude_config hi h

theorem execBsConfig_rejected {e : Status} (hi : inst.toNat < s.bs.length)
    (h : bsConfig s.num c cand req cap = .error e) :
    execBsConfig inst c cand req cap s = .next (rejected s e) :=
  conclude_config_rejected hi h

end BsConfig

/-! ### BS.INIT and BS.WAIT_FOR_SYNC -/

section BsClear

variable {s : State} {inst : Inst} {rate : B32} {c : BsCfg} {r : BsReg}

/-- The registers that a positive rate leaves are `bsReg`. -/
theorem execBsInit_done (hc : isConfigured s.bs[inst.toNat]? c) (hn : nidOf 5 inst ∉ s.used)
    (hx : s.num.pos (s.num.ofB32 rate) = true) :
    execBsInit inst rate s =
      .next (done (putBs inst (.run c (bsReg s.num c (s.num.ofB32 rate))) s)
        (.rate (s.num.ofB32 rate))) := by
  obtain ⟨_, hu, -⟩ := isConfigured_iff.mp hc
  exact conclude_direct .rate hu hn ((bsInitAt_configured hc _).trans (if_pos hx))

theorem execBsInit_rejected (hc : isConfigured s.bs[inst.toNat]? c) (hn : nidOf 5 inst ∉ s.used)
    (hx : s.num.pos (s.num.ofB32 rate) = false) :
    execBsInit inst rate s = .next (rejected s badArgument) := by
  obtain ⟨_, hu, -⟩ := isConfigured_iff.mp hc
  have hbody := (bsInitAt_configured hc (s.num.ofB32 rate)).trans (if_neg (Bool.eq_false_iff.mp hx))
  refine conclude_rejected ?_
  rw [unowned_bind hu hn]
  exact error_bind hbody _

/-- No composite is asked: the operation is neither an INIT nor a STEP (rule R152). -/
theorem execBsWaitForSync_done (hu : s.bs[inst.toNat]? = some (.run c r)) :
    execBsWaitForSync inst s =
      .next (done (putBs inst (.run c (clearSync s.num c r)) s) .none) := by
  unfold execBsWaitForSync
  rw [pick_bind hu]
  rfl

end BsClear

end Machine
end Sys2Proof

namespace Sys2Proof
namespace Settled

open Sys2Proof.Machine Sys2Proof.Claims

/-- Settles O41: one lemma per check, each for operands that pass the checks written before it. -/
theorem bsConfig : Obligations.BsConfig := by
  unfold Obligations.BsConfig
  intro s inst c cand req cap hi M op low
  refine ⟨fun hc => ?_, fun hc hlow => ?_, fun hc hlow hreq => ?_, fun hc hlow hreq hcap => ?_,
    fun hc hlow hreq hcap => ?_⟩
  · exact execBsConfig_rejected hi (bsConfig_emptyCandidates hc)
  · exact execBsConfig_rejected hi (bsConfig_badCandidate hc hlow)
  · exact execBsConfig_rejected hi (bsConfig_badReq hc hlow hreq)
  · exact execBsConfig_rejected hi (bsConfig_badCap hc hlow hreq hcap)
  · exact execBsConfig_done hi (bsConfig_ok hc hlow hreq hcap)

/-- Settles O42: both operations end in `clearSync`, whose registers are the ones spelled out; BS.INIT
clears registers with the new rate and samples per bit, BS.WAIT_FOR_SYNC the present ones. -/
theorem bsInitAndWait : Obligations.BsInitAndWait := by
  unfold Obligations.BsInitAndWait
  intro s inst rate u c r hu M x cleared
  have configured (h : u = .conf c ∨ u = .run c r) : isConfigured s.bs[inst.toNat]? c :=
    isConfigured_iff.mpr ⟨u, hu, h.imp_right fun h => ⟨r, h⟩⟩
  refine ⟨fun hc hn hx => ?_, fun hc hn hx => ?_, fun hr => ?_⟩
  · exact execBsInit_done (configured hc) hn hx
  · exact execBsInit_rejected (configured hc) hn hx
  · exact execBsWaitForSync_done (hr ▸ hu)

end Settled
end Sys2Proof
end

section
/-!
SUPPORT. The search of an unlocked BS (rules R215, R216): which candidate a run matches, what the match does,
and the tick around it where no bit waits.
-/

namespace Sys2Proof
namespace Machine

open Sys2Proof.Claims

/-! ### The candidate that a run matches (rule R216) -/

section Search

variable {M : Numerics} {c : BsCfg} {r : BsReg} {len i : Nat}

theorem findIdx?_match_none
    (h : ∀ i, i < r.spbc.length → bsMatches M len (r.spbc.getD i M.zero) = false) :
    r.spbc.findIdx? (bsMatches M len) = none := by
  refine List.findIdx?_eq_none_iff.mpr fun x hx => ?_
  obtain ⟨i, hi, rfl⟩ := List.mem_iff_getElem.mp hx
  rw [← List.getD_eq_getElem _ M.zero hi]
  exact h i hi

/-- The candidate found is the least one that matches. -/
theorem findIdx?_match_some (hi : i < r.spbc.length)
    (hmatch : bsMatches M len (r.spbc.getD i M.zero) = true)
    (hleast : ∀ j, j < i → bsMatches M len (r.spbc.getD j M.zero) = false) :
    r.spbc.findIdx? (bsMatches M len) = some i := by
  refine List.findIdx?_eq_some_iff_getElem.mpr ⟨hi, ?_, fun j hj => ?_⟩
  · rwa [← List.getD_eq_getElem _ M.zero hi]
  · rw [← List.getD_eq_getElem _ M.zero (hj.trans hi), hleast j hj]
    exact Bool.false_ne_true

/-- The matches of candidate `i` in a row, with one more (rule R216). -/
def matchCount (r : BsReg) (i : Nat) : Nat :=
  if r.mvalid = true ∧ r.midx = .holds i then satInc32 r.mcnt else 1

theorem bsSearch_noMatch (hf : r.spbc.findIdx? (bsMatches M len) = none) :
    bsSearch M c r len = ({ r with mvalid := false, mcnt := 0 }, []) := by
  unfold bsSearch
  rw [hf]

theorem bsSearch_counts (hf : r.spbc.findIdx? (bsMatches M len) = some i)
    (hn : matchCount r i < c.req) :
    bsSearch M c r len =
      ({ r with mvalid := true, midx := .holds i, mcnt := matchCount r i }, []) := by
  unfold bsSearch
  rw [hf]
  exact if_neg (Nat.not_le.mpr hn)

theorem bsSearch_locks (hf : r.spbc.findIdx? (bsMatches M len) = some i)
    (hn : c.req ≤ matchCount r i) :
    bsSearch M c r len =
      ({ r with spb := r.spbc.getD i M.zero, lidx := .holds i, mvalid := false, midx := .holds i,
                mcnt := 0 },
        [.sync (c.cand.getD i M.zero)]) := by
  unfold bsSearch
  rw [hf]
  exact if_pos hn

/-- The search buffers no bit. -/
theorem bsSearch_count : (bsSearch M c r len).1.count = r.count := by
  cases hf : r.spbc.findIdx? (bsMatches M len) with
  | none => rw [bsSearch_noMatch hf]
  | some i =>
    rcases Nat.lt_or_ge (matchCount r i) c.req with hn | hn
    · rw [bsSearch_counts hf hn]
    · rw [bsSearch_locks hf hn]

end Search

/-! ### The tick of an unlocked BS (rules R213, R215) -/

section Tick

variable {M : Numerics} {c : BsCfg} {r r' : BsReg} {lv old : Bool} {evs : List Event}

theorem endedRun_of_level (hv : r.lvalid = true) (hl : r.level = .holds old) (hne : lv ≠ old) :
    endedRun r lv = some old := by
  simp [endedRun, hv, hl, hne]

/-- A new run starts where one ends. -/
theorem measured_ended (he : endedRun r lv = some old) :
    measured r lv = { r with level := .holds lv, run := 1 } := by
  obtain ⟨hv, -, -⟩ := level_of_endedRun he
  simp [measured, nextRun, he, hv]

theorem takeBit_empty (h : r.count = 0) : takeBit c r = (r, none) := if_pos h

/-- A tick that ends a run while BS searches is the search, and takes no bit where none waits. -/
theorem bsTick_search (he : endedRun r lv = some old) (hs : M.eq r.spb M.zero = true)
    (hempty : r.count = 0)
    (h : bsSearch M c { r with level := .holds lv, run := 1 } r.run = (r', evs)) :
    bsTick M c r lv = ({ r' with last := evs }, evs, none) := by
  have hunlocked : ¬ BsReg.locked M { r with level := .holds lv, run := 1 } = true := by
    simp [BsReg.locked, hs]
  have hmeasure : bsMeasure M c r lv = (r', evs) := by
    rw [bsMeasure_ended he, measured_ended he, ← h]
    exact if_neg hunlocked
  have hcount : r'.count = 0 := by
    rw [← hempty, ← congrArg (fun p => p.1.count) h]
    exact bsSearch_count
  simp only [bsTick, hmeasure, takeBit_empty hcount]

end Tick

end Machine
end Sys2Proof

namespace Sys2Proof
namespace Settled

open Sys2Proof.Machine Sys2Proof.Claims

/-- Settles O44: the tick is the search on the registers of the new run, and the three outcomes of the search
are a match that counts, a match that locks and no match. -/
theorem bsSearch : Obligations.BsSearch := by
  unfold Obligations.BsSearch
  intro s inst lv old c r hu hn hv hl hne hs hempty hlen _ M spb near r1
  have he : endedRun r lv = some old := endedRun_of_level hv hl hne
  have tick {r' : BsReg} {evs : List Event} (h : Machine.bsSearch M c r1 r.run = (r', evs)) :=
    bsStep_leads hu hn (bsTick_search he hs hempty h)
  refine ⟨fun i hi hnear hleast => ?_, fun hnone => ?_⟩
  · have hf : r1.spbc.findIdx? (bsMatches M r.run) = some i :=
      findIdx?_match_some (hi.trans_eq hlen.symm) hnear hleast
    exact ⟨fun hcount => tick (bsSearch_counts hf hcount), fun hlock => tick (bsSearch_locks hf hlock)⟩
  · have hf : r1.spbc.findIdx? (bsMatches M r.run) = none :=
      findIdx?_match_none fun i hi => hnone i (hi.trans_eq hlen)
    exact tick (bsSearch_noMatch hf)

end Settled
end Sys2Proof
end

section
/-!
SUPPORT. The checks in front of a GF or BCH data operation: the look-up of the configured code, and the
widths of the operands (rules R234 to R246).
-/

namespace Sys2Proof
namespace Machine

open Sys2Proof.Claims

section CodeChecks

variable {s : State} {inst : Inst} {c : BchCode} {v : Nat} {width : BchCode → Nat}

/-- A configured code is handed on. -/
theorem codeOf_bind {β : Type} (hu : s.bch[inst.toNat]? = some (.run c)) (f : BchCode → Ans β) :
    (codeOf s inst >>= f) = f c := by
  rw [codeOf_ok.mpr hu]; rfl

theorem fits_bind {β : Type} {w : Nat} (hv : v < 2 ^ w) (f : Unit → Ans β) :
    (fits w v >>= f) = f () := by
  rw [fits_ok (x := ()).mpr hv]; rfl

/-- An operation that passes its checks and only answers. -/
theorem conclude_word {res : BchCode → Result} (hu : s.bch[inst.toNat]? = some (.run c))
    (hv : v < 2 ^ width c) :
    conclude s (codeOf s inst >>= fun c => fits (width c) v >>= fun _ => .ok ⟨s, res c, []⟩) =
      .next (done s (res c)) := by
  rw [codeOf_bind hu, fits_bind hv]; rfl

/-- An operand that is too wide is a BAD_OPERAND, whatever the rest of the rule is. -/
theorem conclude_wide (hu : s.bch[inst.toNat]? = some (.run c)) (hv : 2 ^ width c ≤ v)
    (f : BchCode → Ans Done) :
    conclude s (codeOf s inst >>= fun c => fits (width c) v >>= fun _ => f c) =
      .next (rejected s badOperand) := by
  refine conclude_rejected ?_
  rw [codeOf_bind hu]
  exact error_bind (fits_error.mpr ⟨hv, rfl⟩) _

/-! ### The field operations -/

variable {a b e : Nat}

theorem gfPow_of_ne_zero (ha : a ≠ 0) :
    gfPow c a e = if e = 0 then 1 else gfExp c (gfLog c a * e) := by
  rw [gfPow, if_neg ha]

theorem gfPow_zero_base : gfPow c 0 e = if e = 0 then 1 else 0 := by
  rw [gfPow, if_pos rfl]

theorem execGfExp_done (hu : s.bch[inst.toNat]? = some (.run c)) :
    execGfExp inst e s = .next (done s (.word (gfExp c e))) :=
  congrArg (conclude s) (codeOf_bind hu _)

theorem execGfLog_done (hu : s.bch[inst.toNat]? = some (.run c)) (h0 : a ≠ 0) (ha : a < 2 ^ c.m) :
    execGfLog inst a s = .next (done s (.word (gfLog c a))) := by
  rw [execGfLog, codeOf_bind hu, fits_bind ha, if_neg h0]; rfl

theorem execGfLog_zero (hu : s.bch[inst.toNat]? = some (.run c)) :
    execGfLog inst 0 s = .next (rejected s badOperand) := by
  rw [execGfLog, codeOf_bind hu, fits_bind (Nat.two_pow_pos _), if_pos rfl]; rfl

theorem execGfInv_done (hu : s.bch[inst.toNat]? = some (.run c)) (h0 : a ≠ 0) (ha : a < 2 ^ c.m) :
    execGfInv inst a s = .next (done s (.word (gfInv c a))) := by
  rw [execGfInv, codeOf_bind hu, fits_bind ha, if_neg h0]; rfl

theorem execGfInv_zero (hu : s.bch[inst.toNat]? = some (.run c)) :
    execGfInv inst 0 s = .next (rejected s badOperand) := by
  rw [execGfInv, codeOf_bind hu, fits_bind (Nat.two_pow_pos _), if_pos rfl]; rfl

theorem execGfPow_done (hu : s.bch[inst.toNat]? = some (.run c)) (ha : a < 2 ^ c.m) :
    execGfPow inst a e s = .next (done s (.word (gfPow c a e))) :=
  conclude_word (width := (·.m)) (res := fun c => .word (gfPow c a e)) hu ha

theorem execGfMul_done (hu : s.bch[inst.toNat]? = some (.run c)) (ha : a < 2 ^ c.m) (hb : b < 2 ^ c.m) :
    execGfMul inst a b s = .next (done s (.word (gfMul c a b))) := by
  rw [execGfMul, codeOf_bind hu, fits_bind ha, fits_bind hb]; rfl

/-- The second operand of GF.MUL is too wide; the first may be too. -/
theorem execGfMul_wide (hu : s.bch[inst.toNat]? = some (.run c)) (hb : 2 ^ c.m ≤ b) :
    execGfMul inst a b s = .next (rejected s badOperand) := by
  rcases Nat.lt_or_ge a (2 ^ c.m) with ha | ha
  · rw [execGfMul, codeOf_bind hu, fits_bind ha]
    exact conclude_rejected (error_bind (fits_error.mpr ⟨hb, rfl⟩) _)
  · exact conclude_wide (width := (·.m)) hu ha _

end CodeChecks

end Machine
end Sys2Proof

namespace Sys2Proof
namespace Settled

open Sys2Proof.Machine Sys2Proof.Claims

/-- Settles O46: the operands that pass the checks give the value of the function of the same name, and
the others are the three BAD_OPERANDs: too wide, and a zero to LOG or INV. -/
theorem gfResults : Obligations.GfResults := by
  unfold Obligations.GfResults
  intro s inst c a b e hu exp log bad
  refine ⟨execGfExp_done hu, fun h0 ha => ⟨execGfLog_done hu h0 ha, execGfInv_done hu h0 ha, ?_⟩,
    ⟨execGfLog_zero hu, execGfInv_zero hu, ?_⟩, fun ha hb => execGfMul_done hu ha hb, fun ha => ?_⟩
  · exact gfPow_of_ne_zero (c := c) (e := e) h0 ▸ execGfPow_done hu ha
  · exact gfPow_zero_base (c := c) (e := e) ▸ execGfPow_done hu (Nat.two_pow_pos _)
  · exact ⟨conclude_wide (width := (·.m)) hu ha _, conclude_wide (width := (·.m)) hu ha _,
      conclude_wide (width := (·.m)) hu ha _, conclude_wide (width := (·.m)) hu ha _,
      execGfMul_wide hu ha⟩

end Settled
end Sys2Proof
end

section
/-!
SUPPORT. The tables of a configured code (rules R230, R233): `EXP` holds the powers of alpha, which are every
non-zero element once, and `LOG` the exponents.
-/

namespace Sys2Proof
namespace Machine

open Sys2Proof.Claims

/-! ### The next power of alpha is a linear map -/

section Alpha

variable {m fp : Nat}

theorem timesAlpha_xor (a b : Nat) :
    timesAlpha m fp (a ^^^ b) = timesAlpha m fp a ^^^ timesAlpha m fp b := by
  unfold timesAlpha
  rw [Nat.shiftLeft_xor_distrib, Nat.testBit_xor]
  cases (a <<< 1).testBit m <;> cases (b <<< 1).testBit m
  · rfl
  · exact Nat.xor_assoc _ _ _
  · exact Nat.xor_right_comm _ _ _
  · simp [Nat.xor_assoc, Nat.xor_left_comm fp]

theorem timesAlpha_zero : timesAlpha m fp 0 = 0 := by
  have h := timesAlpha_xor (m := m) (fp := fp) 0 0
  rwa [Nat.xor_self, Nat.xor_self] at h

theorem iterate_timesAlpha_xor (i a b : Nat) :
    (timesAlpha m fp)^[i] (a ^^^ b) = (timesAlpha m fp)^[i] a ^^^ (timesAlpha m fp)^[i] b :=
  Function.Semiconj₂.iterate (op := (· ^^^ ·)) timesAlpha_xor i a b

theorem iterate_timesAlpha_zero (i : Nat) : (timesAlpha m fp)^[i] 0 = 0 :=
  Function.iterate_fixed timesAlpha_zero i

/-- The reduction keeps an element in `M` bits. -/
theorem timesAlpha_lt (hm : 2 ≤ m) (hfp : fp.log2 = m) {a : Nat} (ha : a < 2 ^ m) :
    timesAlpha m fp a < 2 ^ m := by
  have hfp0 : fp ≠ 0 := by rintro rfl; simp at hfp; omega
  have hdeg : fp.testBit m = true := hfp ▸ Nat.testBit_log2 hfp0
  have hfp_lt : fp < 2 ^ (m + 1) := hfp ▸ Nat.lt_log2_self
  have ha_lt : a <<< 1 < 2 ^ (m + 1) := by rw [Nat.shiftLeft_eq, Nat.pow_succ]; omega
  have below {v : Nat} (hv : v < 2 ^ (m + 1)) (hbit : v.testBit m = false) : v < 2 ^ m := by
    refine Nat.lt_pow_two_of_testBit v fun i hi => ?_
    rcases Nat.eq_or_lt_of_le hi with rfl | hi
    · exact hbit
    · exact Nat.testBit_eq_false_of_lt (hv.trans_le (Nat.pow_le_pow_right (by decide) hi))
  unfold timesAlpha
  split
  · next hbit => exact below (Nat.xor_lt_two_pow ha_lt hfp_lt) (by rw [Nat.testBit_xor, hbit, hdeg]; rfl)
  · next hbit => exact below ha_lt (Bool.eq_false_iff.mpr hbit)

/-- With an odd polynomial no element but 0 goes to 0, so that the map is injective. -/
theorem timesAlpha_injective (hodd : fp % 2 = 1) : Function.Injective (timesAlpha m fp) := by
  intro a b h
  have hzero : timesAlpha m fp (a ^^^ b) = 0 := by rw [timesAlpha_xor, h, Nat.xor_self]
  refine Nat.xor_eq_zero_iff.mp ?_
  unfold timesAlpha at hzero
  rw [Nat.shiftLeft_eq] at hzero
  split at hzero
  · have := Nat.xor_eq_zero_iff.mp hzero
    omega
  · omega

/-- The powers of the recurrence, as the claims write it, are those of the table. -/
theorem alphaPow_eq_iterate (i : Nat) : alphaPow m fp i = (timesAlpha m fp)^[i] 1 := by
  induction i with
  | zero => rfl
  | succ i ih =>
    rw [Function.iterate_succ_apply', ← ih, timesAlpha, Nat.shiftLeft_eq, Nat.mul_comm _ (2 ^ 1)]
    rfl

theorem alphaPow_add (i j : Nat) : alphaPow m fp (i + j) = (timesAlpha m fp)^[i] (alphaPow m fp j) := by
  rw [alphaPow_eq_iterate, alphaPow_eq_iterate, Function.iterate_add_apply]

theorem alphaPow_lt (hm : 2 ≤ m) (hfp : fp.log2 = m) (i : Nat) : alphaPow m fp i < 2 ^ m := by
  induction i with
  | zero => exact Nat.one_lt_two_pow (by omega)
  | succ i ih =>
    rw [Nat.add_comm, alphaPow_add]
    exact timesAlpha_lt hm hfp ih

/-- With an even polynomial every power but the first is even. -/
theorem alphaPow_succ_even (heven : fp % 2 = 0) (i : Nat) : alphaPow m fp (i + 1) % 2 = 0 := by
  rw [Nat.add_comm, alphaPow_add]
  show timesAlpha m fp _ % 2 = 0
  unfold timesAlpha
  rw [Nat.shiftLeft_eq]
  split
  · rw [Nat.xor_mod_two_eq]; omega
  · omega

end Alpha

/-! ### `EXP` and its build (rule R233) -/

section Table

variable {m fp : Nat}

theorem expFrom_eq_map (k v : Nat) :
    expFrom m fp k v = (List.range k).map fun i => (timesAlpha m fp)^[i] v := by
  induction k generalizing v with
  | zero => rfl
  | succ k ih => rw [expFrom, ih, List.range_succ_eq_map, List.map_cons, List.map_map]; rfl

theorem expTable_eq_map (q1 : Nat) : expTable m fp q1 = (List.range q1).map (alphaPow m fp) := by
  rw [expTable, expFrom_eq_map]
  exact List.map_congr_left fun i _ => (alphaPow_eq_iterate i).symm

/-- A list of as many elements as there are non-zero ones, all of them in `M` bits, visits none twice and
not 0 exactly where it visits each non-zero one. -/
theorem primitive_iff_perm {l : List Nat} (hl : l.length = 2 ^ m - 1) (hlt : ∀ x ∈ l, x < 2 ^ m) :
    primitive l = true ↔ l.Perm (List.range' 1 (2 ^ m - 1)) := by
  rw [primitive, Bool.and_eq_true, decide_eq_true_eq, Bool.not_eq_true', Bool.eq_false_iff, ne_eq,
    List.contains_iff_mem]
  constructor
  · rintro ⟨hnodup, h0⟩
    refine (List.subperm_of_subset hnodup fun x hx => ?_).perm_of_length_le (by simp [hl])
    have hx0 : x ≠ 0 := fun h => h0 (h ▸ hx)
    have := hlt x hx
    rw [List.mem_range'_1]
    omega
  · intro hp
    refine ⟨hp.nodup_iff.mpr (List.nodup_range'), fun h0 => ?_⟩
    have := List.mem_range'_1.mp (hp.mem_iff.mp h0)
    omega

/-- It visits each non-zero one exactly where it visits each of them once. -/
theorem perm_iff_count_eq_one {l : List Nat} (hl : l.length = 2 ^ m - 1) :
    l.Perm (List.range' 1 (2 ^ m - 1)) ↔ ∀ v, 1 ≤ v → v < 2 ^ m → l.count v = 1 := by
  constructor
  · intro hp v hv1 hv
    rw [hp.count_eq]
    exact List.count_eq_one_of_mem List.nodup_range' (List.mem_range'_1.mpr (by omega))
  · intro hcount
    refine ((List.subperm_of_subset List.nodup_range' fun v hv => ?_).perm_of_length_le
      (by simp [hl])).symm
    have hv := List.mem_range'_1.mp hv
    exact List.count_pos_iff.mp (by rw [hcount v hv.1 (by omega)]; decide)

end Table

end Machine
end Sys2Proof
end

section
/-!
SUPPORT. The field of a configured code (rules R234 to R239). Every non-zero element is a power of alpha, and
the product with one is so many steps of the linear map `timesAlpha`: that is where the laws come from.
-/

namespace Sys2Proof
namespace Machine

open Sys2Proof.Claims

/-! ### What holds of `gf_mul` whatever the tables are -/

theorem gfMul_comm {c : BchCode} (a b : Nat) : gfMul c a b = gfMul c b a := by
  simp only [gfMul, or_comm (a := a = 0), Nat.add_comm (gfLog c a)]

@[simp] theorem gfMul_zero (c : BchCode) (a : Nat) : gfMul c a 0 = 0 := if_pos (.inr rfl)

@[simp] theorem zero_gfMul (c : BchCode) (a : Nat) : gfMul c 0 a = 0 := if_pos (.inl rfl)

/-- The exponent counts modulo `Q1`. -/
theorem gfExp_mod {c : BchCode} (i : Nat) : gfExp c (i % c.q1) = gfExp c i := by
  rw [gfExp, Nat.mod_mod]; rfl

/-! ### A valid code -/

/-- What `BchCode.wf` checks of a configured code, named. -/
structure ValidCode (c : BchCode) : Prop where
  built : c = buildCode c.g c.n c.k c.t c.fp
  k_pos : 1 ≤ c.k
  k_lt_n : c.k < c.n
  t_pos : 1 ≤ c.t
  two_le_m : 2 ≤ c.m
  m_le : c.m ≤ Config.bchMaxM
  log2_g : c.g.log2 = c.n - c.k
  log2_fp : c.fp.log2 = c.m
  prim : primitive c.exp = true
  roots : rootsFrom c (2 * c.t) 1 = true

theorem wf_iff_validCode {c : BchCode} : c.wf = true ↔ ValidCode c := by
  simp only [BchCode.wf, Bool.and_eq_true, decide_eq_true_eq]
  constructor
  · rintro ⟨⟨⟨⟨⟨⟨⟨⟨⟨h1, h2⟩, h3⟩, h4⟩, h5⟩, h6⟩, h7⟩, h8⟩, h9⟩, h10⟩
    exact ⟨h1, h2, h3, h4, h5, h6, h7, h8, h9, h10⟩
  · rintro ⟨h1, h2, h3, h4, h5, h6, h7, h8, h9, h10⟩
    exact ⟨⟨⟨⟨⟨⟨⟨⟨⟨h1, h2⟩, h3⟩, h4⟩, h5⟩, h6⟩, h7⟩, h8⟩, h9⟩, h10⟩

namespace ValidCode

variable {c : BchCode} {a b d e i j : Nat}

section Tables

variable (hc : ValidCode c)

include hc

/-! ### The derived registers -/

theorem q1_eq : c.q1 = 2 ^ c.m - 1 := by rw [hc.built]; rfl

theorem q1_add_one : c.q1 + 1 = 2 ^ c.m := by
  have := Nat.two_pow_pos c.m
  rw [hc.q1_eq]; omega

theorem three_le_q1 : 3 ≤ c.q1 := by
  have := Nat.pow_le_pow_right (n := 2) (by decide) hc.two_le_m
  have := hc.q1_add_one
  omega

theorem q1_pos : 0 < c.q1 := Nat.lt_of_lt_of_le (by decide) hc.three_le_q1

/-- The field has an element for each bit position of a word. -/
theorem n_le_q1 : c.n ≤ c.q1 := by
  have hm : c.m = fieldExponent c.n := by rw [hc.built]; rfl
  have hlt : c.n < 2 ^ fieldExponent c.n := by
    unfold fieldExponent
    split
    · next h => rw [h]; decide
    · exact Nat.lt_log2_self
  have := hc.q1_add_one
  rw [← hm] at hlt
  omega

theorem exp_eq : c.exp = (List.range c.q1).map (alphaPow c.m c.fp) := by
  rw [hc.built]
  exact expTable_eq_map _

theorem log_eq : c.log = (List.range c.q1).map fun v => c.exp.idxOf (v + 1) := by
  have hlen : c.exp.length = c.q1 := by simp [hc.exp_eq]
  rw [← hlen, hc.built]
  rfl

/-! ### The powers of alpha -/

theorem alphaPow_lt (i : Nat) : alphaPow c.m c.fp i < 2 ^ c.m :=
  Machine.alphaPow_lt hc.two_le_m hc.log2_fp i

theorem exp_perm : c.exp.Perm (List.range' 1 (2 ^ c.m - 1)) := by
  refine (primitive_iff_perm (by simp [hc.exp_eq, hc.q1_eq]) fun x hx => ?_).mp hc.prim
  rw [hc.exp_eq] at hx
  obtain ⟨i, -, rfl⟩ := List.mem_map.mp hx
  exact hc.alphaPow_lt i

theorem exp_nodup : c.exp.Nodup := hc.exp_perm.nodup_iff.mpr List.nodup_range'

theorem alphaPow_injOn (hi : i < c.q1) (hj : j < c.q1)
    (h : alphaPow c.m c.fp i = alphaPow c.m c.fp j) : i = j := by
  have hnodup := hc.exp_nodup
  rw [hc.exp_eq, List.nodup_map_iff_inj_on List.nodup_range] at hnodup
  exact hnodup i (List.mem_range.mpr hi) j (List.mem_range.mpr hj) h

theorem alphaPow_mem_exp (hi : i < c.q1) : alphaPow c.m c.fp i ∈ c.exp := by
  rw [hc.exp_eq]
  exact List.mem_map_of_mem (List.mem_range.mpr hi)

/-- Every non-zero element is a power of alpha. -/
theorem exists_alphaPow (h0 : a ≠ 0) (ha : a < 2 ^ c.m) : ∃ i < c.q1, alphaPow c.m c.fp i = a := by
  have hmem : a ∈ c.exp := hc.exp_perm.mem_iff.mpr (List.mem_range'_1.mpr (by omega))
  rw [hc.exp_eq] at hmem
  obtain ⟨i, hi, rfl⟩ := List.mem_map.mp hmem
  exact ⟨i, List.mem_range.mp hi, rfl⟩

/-- The polynomial is odd: an even one would not reach the element 3. -/
theorem fp_odd : c.fp % 2 = 1 := by
  by_contra hodd
  have h4 : 2 ^ 2 ≤ 2 ^ c.m := Nat.pow_le_pow_right (by decide) hc.two_le_m
  obtain ⟨i, -, hi⟩ := hc.exists_alphaPow (a := 3) (by decide) (by omega)
  cases i with
  | zero => cases hi
  | succ i =>
    have := alphaPow_succ_even (m := c.m) (fp := c.fp) (by omega) i
    omega

theorem alphaPow_ne_zero (hi : i < c.q1) : alphaPow c.m c.fp i ≠ 0 := by
  intro h0
  have := List.mem_range'_1.mp (hc.exp_perm.mem_iff.mp (h0 ▸ hc.alphaPow_mem_exp hi))
  omega

/-- The powers come back to 1: the step is injective, so that the first repeated power is the first one. -/
theorem alphaPow_q1 : alphaPow c.m c.fp c.q1 = 1 := by
  obtain ⟨q, hq⟩ : ∃ q, c.q1 = q + 1 := ⟨c.q1 - 1, by have := hc.three_le_q1; omega⟩
  have hinj := timesAlpha_injective (m := c.m) hc.fp_odd
  have step (i : Nat) : alphaPow c.m c.fp (i + 1) = timesAlpha c.m c.fp (alphaPow c.m c.fp i) := by
    rw [Nat.add_comm, alphaPow_add]; rfl
  have hne : alphaPow c.m c.fp c.q1 ≠ 0 := by
    rw [hq, step]
    exact fun h => hc.alphaPow_ne_zero (i := q) (by omega) (hinj (h.trans timesAlpha_zero.symm))
  obtain ⟨i, hi, heq⟩ := hc.exists_alphaPow hne (hc.alphaPow_lt _)
  cases i with
  | zero => exact heq.symm
  | succ i =>
    rw [hq, step, step] at heq
    have := hc.alphaPow_injOn (i := i) (j := q) (by omega) (by omega) (hinj heq)
    omega

/-- The exponent counts modulo `Q1`. -/
theorem alphaPow_mod (i : Nat) : alphaPow c.m c.fp (i % c.q1) = alphaPow c.m c.fp i := by
  rw [alphaPow_eq_iterate, alphaPow_eq_iterate]
  have hperiodic : Function.IsPeriodicPt (timesAlpha c.m c.fp) c.q1 1 := by
    rw [Function.IsPeriodicPt, Function.IsFixedPt, ← alphaPow_eq_iterate, hc.alphaPow_q1]
  exact hperiodic.iterate_mod_apply i

/-! ### `gf_exp` and `gf_log` -/

theorem gfExp_eq_alphaPow (e : Nat) : gfExp c e = alphaPow c.m c.fp e := by
  have he : e % c.q1 < c.q1 := Nat.mod_lt _ hc.q1_pos
  rw [gfExp, memRead, hc.exp_eq, List.getD_eq_getElem _ _ (by simpa using he), List.getElem_map,
    List.getElem_range, hc.alphaPow_mod]

theorem gfExp_lt (e : Nat) : gfExp c e < 2 ^ c.m := hc.gfExp_eq_alphaPow e ▸ hc.alphaPow_lt e

theorem gfExp_ne_zero (e : Nat) : gfExp c e ≠ 0 := by
  rw [hc.gfExp_eq_alphaPow, ← hc.alphaPow_mod]
  exact hc.alphaPow_ne_zero (Nat.mod_lt _ hc.q1_pos)

theorem gfExp_zero : gfExp c 0 = 1 := hc.gfExp_eq_alphaPow 0

theorem gfExp_q1 : gfExp c c.q1 = 1 := (hc.gfExp_eq_alphaPow _).trans hc.alphaPow_q1

theorem gfExp_add (i j : Nat) : gfExp c (i + j) = (timesAlpha c.m c.fp)^[i] (gfExp c j) := by
  rw [hc.gfExp_eq_alphaPow, hc.gfExp_eq_alphaPow, alphaPow_add]

theorem gfExp_injOn (hi : i < c.q1) (hj : j < c.q1) (h : gfExp c i = gfExp c j) : i = j :=
  hc.alphaPow_injOn hi hj (by rwa [← hc.gfExp_eq_alphaPow, ← hc.gfExp_eq_alphaPow])

theorem gfExp_eq_one_iff : gfExp c i = 1 ↔ c.q1 ∣ i := by
  rw [← gfExp_mod, Nat.dvd_iff_mod_eq_zero]
  constructor
  · intro h
    exact hc.gfExp_injOn (Nat.mod_lt _ hc.q1_pos) hc.q1_pos (h.trans hc.gfExp_zero.symm)
  · intro h
    rw [h, hc.gfExp_zero]

theorem gfLog_gfExp (hi : i < c.q1) : gfLog c (gfExp c i) = i := by
  have hpos := hc.gfExp_ne_zero i
  have hlt := hc.gfExp_lt i
  have hq := hc.q1_add_one
  have hlen : i < c.exp.length := by simpa [hc.exp_eq] using hi
  have hget : c.exp[i] = gfExp c i := by
    rw [gfExp, Nat.mod_eq_of_lt hi, memRead, List.getD_eq_getElem _ _ hlen]
  rw [gfLog, memRead, hc.log_eq, List.getD_eq_getElem _ _ (by simp; omega), List.getElem_map,
    List.getElem_range, show gfExp c i - 1 + 1 = c.exp[i] by omega]
  exact hc.exp_nodup.idxOf_getElem i hlen

theorem exists_gfExp (h0 : a ≠ 0) (ha : a < 2 ^ c.m) : ∃ i < c.q1, gfExp c i = a := by
  obtain ⟨i, hi, h⟩ := hc.exists_alphaPow h0 ha
  exact ⟨i, hi, (hc.gfExp_eq_alphaPow i).trans h⟩

theorem gfExp_gfLog (h0 : a ≠ 0) (ha : a < 2 ^ c.m) : gfExp c (gfLog c a) = a := by
  obtain ⟨i, hi, rfl⟩ := hc.exists_gfExp h0 ha
  rw [hc.gfLog_gfExp hi]

end Tables

/-! ### The laws of `gf_mul` -/

section Laws

variable (hc : ValidCode c)

include hc

/-- The product with a power of alpha is so many steps of the recurrence. -/
theorem gfMul_gfExp (i : Nat) (hb : b < 2 ^ c.m) :
    gfMul c (gfExp c i) b = (timesAlpha c.m c.fp)^[i] b := by
  by_cases hb0 : b = 0
  · rw [hb0, gfMul_zero, iterate_timesAlpha_zero]
  · have hi0 := hc.gfExp_ne_zero i
    calc gfMul c (gfExp c i) b
        = gfExp c (gfLog c b + gfLog c (gfExp c i)) := by
          rw [gfMul, if_neg (not_or.mpr ⟨hi0, hb0⟩), Nat.add_comm]
      _ = gfExp c (gfLog c b + i) := by
          rw [hc.gfExp_add, hc.gfExp_gfLog hi0 (hc.gfExp_lt i), ← hc.gfExp_add]
      _ = (timesAlpha c.m c.fp)^[i] b := by
          rw [Nat.add_comm, hc.gfExp_add, hc.gfExp_gfLog hb0 hb]

theorem gfMul_gfExp_gfExp (i j : Nat) : gfMul c (gfExp c i) (gfExp c j) = gfExp c (i + j) := by
  rw [hc.gfMul_gfExp i (hc.gfExp_lt j), hc.gfExp_add]

theorem gfMul_lt (a b : Nat) : gfMul c a b < 2 ^ c.m := by
  unfold gfMul
  split
  · exact Nat.two_pow_pos _
  · exact hc.gfExp_lt _

theorem gfMul_assoc (ha : a < 2 ^ c.m) (hb : b < 2 ^ c.m) (hd : d < 2 ^ c.m) :
    gfMul c (gfMul c a b) d = gfMul c a (gfMul c b d) := by
  by_cases ha0 : a = 0
  · simp [ha0]
  by_cases hb0 : b = 0
  · simp [hb0]
  by_cases hd0 : d = 0
  · simp [hd0]
  obtain ⟨i, -, rfl⟩ := hc.exists_gfExp ha0 ha
  obtain ⟨j, -, rfl⟩ := hc.exists_gfExp hb0 hb
  obtain ⟨k, -, rfl⟩ := hc.exists_gfExp hd0 hd
  simp only [hc.gfMul_gfExp_gfExp, Nat.add_assoc]

/-- The steps of the recurrence are linear. -/
theorem gfMul_xor (ha : a < 2 ^ c.m) (hb : b < 2 ^ c.m) (hd : d < 2 ^ c.m) :
    gfMul c a (b ^^^ d) = gfMul c a b ^^^ gfMul c a d := by
  by_cases ha0 : a = 0
  · simp [ha0]
  · obtain ⟨i, -, rfl⟩ := hc.exists_gfExp ha0 ha
    rw [hc.gfMul_gfExp i (Nat.xor_lt_two_pow hb hd), hc.gfMul_gfExp i hb, hc.gfMul_gfExp i hd,
      iterate_timesAlpha_xor]

theorem gfMul_one (ha : a < 2 ^ c.m) : gfMul c a 1 = a := by
  by_cases ha0 : a = 0
  · simp [ha0]
  · obtain ⟨i, -, rfl⟩ := hc.exists_gfExp ha0 ha
    rw [← hc.gfExp_zero, hc.gfMul_gfExp_gfExp, Nat.add_zero]

theorem one_gfMul (ha : a < 2 ^ c.m) : gfMul c 1 a = a := by rw [gfMul_comm, hc.gfMul_one ha]

theorem gfMul_ne_zero (ha0 : a ≠ 0) (hb0 : b ≠ 0) : gfMul c a b ≠ 0 := by
  rw [gfMul, if_neg (not_or.mpr ⟨ha0, hb0⟩)]
  exact hc.gfExp_ne_zero _

theorem gfInv_lt (a : Nat) : gfInv c a < 2 ^ c.m := hc.gfExp_lt _

theorem gfMul_gfInv (ha0 : a ≠ 0) (ha : a < 2 ^ c.m) : gfMul c a (gfInv c a) = 1 := by
  obtain ⟨i, hi, rfl⟩ := hc.exists_gfExp ha0 ha
  rw [gfInv, hc.gfLog_gfExp hi, hc.gfMul_gfExp_gfExp, show i + (c.q1 - i) = c.q1 by omega, hc.gfExp_q1]

/-! ### `gf_pow` -/

theorem gfPow_gfExp (i e : Nat) : gfPow c (gfExp c i) e = gfExp c (i * e) := by
  unfold gfPow
  split
  · next he => rw [he, Nat.mul_zero, hc.gfExp_zero]
  · rw [if_neg (hc.gfExp_ne_zero i), ← gfExp_mod i, hc.gfLog_gfExp (Nat.mod_lt _ hc.q1_pos),
      ← gfExp_mod (i * e), ← Nat.mod_mul_mod, gfExp_mod]

theorem gfPow_q1 (ha0 : a ≠ 0) (ha : a < 2 ^ c.m) : gfPow c a c.q1 = 1 := by
  obtain ⟨i, hi, rfl⟩ := hc.exists_gfExp ha0 ha
  rw [hc.gfPow_gfExp, hc.gfExp_eq_one_iff]
  exact Nat.dvd_mul_left _ _

/-- The element 2 is alpha. -/
theorem gfExp_one : gfExp c 1 = 2 := by
  have hm := hc.two_le_m
  rw [hc.gfExp_eq_alphaPow]
  show (if (2 ^ 1).testBit c.m then 2 ^^^ c.fp else 2) = 2
  rw [Nat.testBit_two_pow, if_neg (by simp; omega)]

/-- The element 2 generates the non-zero elements. -/
theorem exists_gfPow_two (ha0 : a ≠ 0) (ha : a < 2 ^ c.m) : ∃ i < c.q1, gfPow c 2 i = a := by
  obtain ⟨i, hi, rfl⟩ := hc.exists_gfExp ha0 ha
  exact ⟨i, hi, by rw [← hc.gfExp_one, hc.gfPow_gfExp, Nat.one_mul]⟩

end Laws

end ValidCode

end Machine
end Sys2Proof

namespace Sys2Proof
namespace Settled

open Sys2Proof.Machine Sys2Proof.Claims

/-- Settles O47: each law is one of powers of alpha where no factor is zero. -/
theorem gfLaws : Obligations.GfLaws := by
  unfold Obligations.GfLaws
  intro c a b d hwf ha hb hd
  have hc := wf_iff_validCode.mp hwf
  refine ⟨hc.gfMul_lt a b, gfMul_comm a b, hc.gfMul_assoc ha hb hd, hc.gfMul_xor ha hb hd,
    hc.gfMul_one ha, fun ha0 => ⟨hc.gfMul_gfInv ha0 ha, hc.gfPow_q1 ha0 ha, hc.gfMul_ne_zero ha0, ?_⟩⟩
  exact hc.exists_gfPow_two ha0 ha

end Settled
end Sys2Proof
end

section
/-!
SUPPORT. Evaluation of polynomials at powers of alpha (rules R231, R241), and the words of a code: ENCODE gives
a multiple of `G`, and a multiple of `G` has the roots of `G` (rules R240 to R242).
-/

namespace Sys2Proof
namespace Machine

open Sys2Proof.Claims

/-! ### XOR of a list -/

theorem xorOf_cons (x : Nat) (l : List Nat) : xorOf (x :: l) = x ^^^ xorOf l := by
  show l.foldl (· ^^^ ·) (0 ^^^ x) = _
  rw [Nat.xor_comm]
  exact List.foldl_assoc

/-! ### `evalAt` -/

section Eval

variable {c : BchCode} {len w a b i e : Nat}

theorem evalAt_succ : evalAt c (len + 1) w i =
    evalAt c len w i ^^^ if w.testBit len then gfExp c (i * len) else 0 := by
  unfold evalAt
  rw [List.range_succ, List.foldl_append]
  cases hbit : w.testBit len <;> simp [hbit]

/-- The sum of the claims over the set bits is the evaluation, for a table that holds the powers. -/
theorem polyAt_eq_evalAt {pow : Nat → Nat} {q1 : Nat} (h : ∀ e, pow (e % q1) = gfExp c e) (len w i : Nat) :
    polyAt pow q1 len w i = evalAt c len w i := by
  rw [polyAt, xorOf, List.foldl_map, List.foldl_filter, evalAt]
  simp only [h]

/-- Evaluation is linear. -/
theorem evalAt_xor (a b : Nat) : evalAt c len (a ^^^ b) i = evalAt c len a i ^^^ evalAt c len b i := by
  induction len with
  | zero => exact (Nat.xor_self 0).symm
  | succ len ih =>
    rw [evalAt_succ, evalAt_succ, evalAt_succ, ih, Nat.testBit_xor]
    cases a.testBit len <;> cases b.testBit len <;>
      simp [Nat.xor_assoc, Nat.xor_comm, Nat.xor_left_comm]

theorem evalAt_eq_zero (h : ∀ e < len, w.testBit e = false) : evalAt c len w i = 0 := by
  induction len with
  | zero => rfl
  | succ len ih => rw [evalAt_succ, ih fun e he => h e (by omega), h len (by omega)]; exact Nat.xor_self 0

theorem evalAt_zero : evalAt c len 0 i = 0 := evalAt_eq_zero fun _ _ => Nat.zero_testBit _

/-- Coefficients past the degree do not count. -/
theorem evalAt_of_lt {len' : Nat} (hw : w < 2 ^ len) (hlen : len ≤ len') :
    evalAt c len' w i = evalAt c len w i := by
  induction len', hlen using Nat.le_induction with
  | base => rfl
  | succ l hl ih =>
    have hbit : w.testBit l = false :=
      Nat.testBit_eq_false_of_lt (hw.trans_le (Nat.pow_le_pow_right (by decide) hl))
    rw [evalAt_succ, ih, hbit]
    exact Nat.xor_zero _

theorem evalAt_two_pow (he : e < len) : evalAt c len (2 ^ e) i = gfExp c (i * e) := by
  have hlow : evalAt c e (2 ^ e) i = 0 := evalAt_eq_zero fun k hk => by
    rw [Nat.testBit_two_pow]; exact decide_eq_false (by omega)
  rw [evalAt_of_lt (Nat.pow_lt_pow_right (by decide) (Nat.lt_succ_self e)) he, evalAt_succ, hlow,
    Nat.testBit_two_pow_self, Nat.zero_xor]
  rfl

theorem evalAt_xorOf (l : List Nat) (h : ∀ x ∈ l, evalAt c len x i = 0) : evalAt c len (xorOf l) i = 0 := by
  induction l with
  | nil => exact evalAt_zero
  | cons x l ih =>
    rw [xorOf_cons, evalAt_xor, h x List.mem_cons_self, ih fun y hy => h y (List.mem_cons_of_mem x hy)]
    rfl

/-- A shift multiplies the value by a power of alpha. -/
theorem ValidCode.evalAt_shiftLeft (hc : ValidCode c) (s : Nat) :
    evalAt c (len + s) (w <<< s) i = (timesAlpha c.m c.fp)^[i * s] (evalAt c len w i) := by
  induction len with
  | zero =>
    rw [evalAt_eq_zero fun e he => by rw [Nat.testBit_shiftLeft, decide_eq_false (by omega), Bool.false_and]]
    exact (iterate_timesAlpha_zero _).symm
  | succ len ih =>
    have hbit : (w <<< s).testBit (len + s) = w.testBit len := by
      rw [Nat.testBit_shiftLeft, decide_eq_true (by omega), Bool.true_and, Nat.add_sub_cancel]
    rw [Nat.add_right_comm, evalAt_succ, evalAt_succ, ih, hbit, iterate_timesAlpha_xor]
    congr 1
    split
    · rw [← hc.gfExp_add, Nat.mul_add, Nat.add_comm]
    · exact (iterate_timesAlpha_zero _).symm

/-! ### The syndromes and the roots of `G` -/

theorem bchCheck_iff {r : Nat} :
    bchCheck c r = true ↔ ∀ i, 1 ≤ i → i ≤ 2 * c.t → evalAt c c.n r i = 0 := by
  simp only [bchCheck, syndromes, List.all_map, List.all_eq_true, List.mem_range, Function.comp,
    beq_iff_eq]
  constructor
  · intro h i h1 hi
    have := h (i - 1) (by omega)
    rwa [show i - 1 + 1 = i by omega] at this
  · exact fun h j hj => h (j + 1) (by omega) (by omega)

theorem rootsFrom_iff {k i : Nat} :
    rootsFrom c k i = true ↔ ∀ j, i ≤ j → j < i + k → evalAt c (c.g.log2 + 1) c.g j = 0 := by
  induction k generalizing i with
  | zero => exact iff_of_true rfl fun j h1 h2 => by omega
  | succ k ih =>
    rw [rootsFrom, Bool.and_eq_true, beq_iff_eq, ih]
    constructor
    · rintro ⟨h0, h⟩ j h1 h2
      rcases Nat.eq_or_lt_of_le h1 with rfl | h1
      · exact h0
      · exact h j h1 (by omega)
    · exact fun h => ⟨h i (Nat.le_refl i) (by omega), fun j h1 h2 => h j (by omega) (by omega)⟩

end Eval

/-! ### `polymod` (rule R240) -/

section Polymod

variable {g a fuel : Nat}

theorem shiftLeft_lt_of_log2 {s n : Nat} (h : g.log2 + 1 + s ≤ n) : g <<< s < 2 ^ n := by
  calc g <<< s = g * 2 ^ s := Nat.shiftLeft_eq ..
    _ < 2 ^ (g.log2 + 1) * 2 ^ s := (Nat.mul_lt_mul_right (Nat.two_pow_pos s)).mpr Nat.lt_log2_self
    _ = 2 ^ (g.log2 + 1 + s) := (Nat.pow_add ..).symm
    _ ≤ 2 ^ n := Nat.pow_le_pow_right (by decide) h

/-- `v` is the sum of shifts of `g`, each of them within `n` bits. -/
def IsShiftSum (g n v : Nat) : Prop :=
  ∃ shifts : List Nat, (∀ s ∈ shifts, g.log2 + 1 + s ≤ n) ∧ v = xorOf (shifts.map (g <<< ·))

/-- A subtraction takes the leading bit away. -/
theorem xor_shiftLeft_lt (hg : g ≠ 0) (ha0 : a ≠ 0) (ha : a < 2 ^ (fuel + 1)) (hle : g.log2 ≤ a.log2) :
    a ^^^ (g <<< (a.log2 - g.log2)) < 2 ^ fuel := by
  have hfuel : a.log2 ≤ fuel := Nat.lt_succ_iff.mp ((Nat.log2_lt ha0).mpr ha)
  have hshift : g <<< (a.log2 - g.log2) < 2 ^ (a.log2 + 1) := shiftLeft_lt_of_log2 (by omega)
  have hlead : (g <<< (a.log2 - g.log2)).testBit a.log2 = true := by
    rw [Nat.testBit_shiftLeft, decide_eq_true (by omega), Bool.true_and,
      show a.log2 - (a.log2 - g.log2) = g.log2 by omega]
    exact Nat.testBit_log2 hg
  refine Nat.lt_of_lt_of_le (Nat.lt_pow_two_of_testBit _ fun k hk => ?_)
    (Nat.pow_le_pow_right (by decide) hfuel)
  rcases Nat.eq_or_lt_of_le hk with rfl | hk
  · rw [Nat.testBit_xor, Nat.testBit_log2 ha0, hlead]; rfl
  · exact Nat.testBit_eq_false_of_lt
      ((Nat.xor_lt_two_pow Nat.lt_log2_self hshift).trans_le (Nat.pow_le_pow_right (by decide) hk))

/-- The division takes a sum of shifts of the divisor away, none longer than the dividend, and leaves a
remainder of lower degree than the divisor. -/
theorem polymodAux_spec (hg : g ≠ 0) (ha : a < 2 ^ fuel) :
    polymodAux g fuel a < 2 ^ g.log2 ∧ IsShiftSum g fuel (a ^^^ polymodAux g fuel a) := by
  induction fuel generalizing a with
  | zero =>
    have ha0 : a = 0 := by omega
    subst ha0
    exact ⟨Nat.two_pow_pos _, [], by simp, Nat.xor_self 0⟩
  | succ fuel ih =>
    rw [polymodAux]
    split
    · next hlow =>
      refine ⟨?_, [], by simp, Nat.xor_self a⟩
      rcases hlow with rfl | hlow
      · exact Nat.two_pow_pos _
      · exact Nat.lt_log2_self.trans_le (Nat.pow_le_pow_right (by decide) hlow)
    · next hhigh =>
      obtain ⟨ha0, hle⟩ : a ≠ 0 ∧ g.log2 ≤ a.log2 := by simpa using hhigh
      obtain ⟨hlt, shifts, hs, hsum⟩ := ih (xor_shiftLeft_lt hg ha0 ha hle)
      have hfuel : a.log2 < fuel + 1 := (Nat.log2_lt ha0).mpr ha
      refine ⟨hlt, (a.log2 - g.log2) :: shifts, ?_, ?_⟩
      · rintro s (_ | ⟨_, hmem⟩)
        · omega
        · exact (hs s hmem).trans (Nat.le_succ fuel)
      · rw [List.map_cons, xorOf_cons, ← hsum, Nat.xor_comm a (g <<< _), Nat.xor_assoc, ← Nat.xor_assoc,
          Nat.xor_self, Nat.zero_xor]

theorem polymod_spec {n : Nat} (hg : g ≠ 0) (hn : 1 ≤ n) (ha : a < 2 ^ n) :
    polymod a g < 2 ^ g.log2 ∧ IsShiftSum g n (a ^^^ polymod a g) := by
  obtain ⟨hlt, shifts, hs, hsum⟩ := polymodAux_spec hg (Nat.lt_log2_self (n := a))
  have hlog : a.log2 < n := by
    rcases Nat.eq_zero_or_pos a with rfl | ha0
    · exact hn
    · exact (Nat.log2_lt (by omega)).mpr ha
  exact ⟨hlt, shifts, fun s hmem => (hs s hmem).trans hlog, hsum⟩

end Polymod

/-! ### The words of a code -/

namespace ValidCode

variable {c : BchCode} (hc : ValidCode c) {v r i : Nat}

include hc

theorem g_ne_zero : c.g ≠ 0 := by
  intro h0
  have := hc.log2_g
  have := hc.k_lt_n
  rw [h0, Nat.log2_zero] at *
  omega

theorem evalAt_g (h1 : 1 ≤ i) (hi : i ≤ 2 * c.t) : evalAt c (c.g.log2 + 1) c.g i = 0 :=
  rootsFrom_iff.mp hc.roots i h1 (by omega)

/-- Every shift of `G` within a word has the roots of `G`. -/
theorem evalAt_shift_g {s : Nat} (hs : c.g.log2 + 1 + s ≤ c.n) (h1 : 1 ≤ i) (hi : i ≤ 2 * c.t) :
    evalAt c c.n (c.g <<< s) i = 0 := by
  rw [evalAt_of_lt (shiftLeft_lt_of_log2 (Nat.le_refl _)) hs, hc.evalAt_shiftLeft, hc.evalAt_g h1 hi,
    iterate_timesAlpha_zero]

/-- ENCODE gives a sum of shifts of `G` within a word, with the message in the high bits. -/
theorem bchEncode_spec (hv : v < 2 ^ c.k) :
    bchEncode c v < 2 ^ c.n ∧ bchEncode c v >>> (c.n - c.k) = v ∧
      IsShiftSum c.g c.n (bchEncode c v) := by
  have hk := hc.k_lt_n
  have hshift : v <<< (c.n - c.k) < 2 ^ c.n := by
    rw [Nat.shiftLeft_eq]
    calc v * 2 ^ (c.n - c.k) < 2 ^ c.k * 2 ^ (c.n - c.k) :=
          (Nat.mul_lt_mul_right (Nat.two_pow_pos _)).mpr hv
      _ = 2 ^ c.n := by rw [← Nat.pow_add, Nat.add_sub_of_le hk.le]
  obtain ⟨hrem, hshifts⟩ := polymod_spec hc.g_ne_zero (by omega) hshift
  rw [hc.log2_g] at hrem
  have hrem_lt := hrem.trans_le (Nat.pow_le_pow_right (n := 2) (by decide) (Nat.sub_le c.n c.k))
  refine ⟨Nat.xor_lt_two_pow hshift hrem_lt, ?_, hshifts⟩
  rw [bchEncode, Nat.shiftRight_xor_distrib, Nat.shiftLeft_shiftRight, Nat.shiftRight_eq_div_pow,
    Nat.div_eq_of_lt hrem, Nat.xor_zero]

theorem evalAt_bchEncode (hv : v < 2 ^ c.k) (h1 : 1 ≤ i) (hi : i ≤ 2 * c.t) :
    evalAt c c.n (bchEncode c v) i = 0 := by
  obtain ⟨-, -, shifts, hs, hsum⟩ := hc.bchEncode_spec hv
  rw [hsum]
  refine evalAt_xorOf _ fun x hx => ?_
  obtain ⟨s, hmem, rfl⟩ := List.mem_map.mp hx
  exact hc.evalAt_shift_g (hs s hmem) h1 hi

theorem bchCheck_bchEncode (hv : v < 2 ^ c.k) : bchCheck c (bchEncode c v) = true :=
  bchCheck_iff.mpr fun _ h1 hi => hc.evalAt_bchEncode hv h1 hi

end ValidCode

/-- The syndromes of the claims, by sums over the set bits. -/
theorem syndromes_eq_map_polyAt (c : BchCode) (r : Nat) :
    syndromes c r =
      (List.range (2 * c.t)).map fun j => polyAt (fun i => c.exp.getD i 0) c.q1 c.n r (j + 1) := by
  have h (e : Nat) : c.exp.getD (e % c.q1) 0 = gfExp c e := rfl
  simp only [polyAt_eq_evalAt (pow := fun i => c.exp.getD i 0) h, syndromes]

/-! ### The code operations -/

section Operations

variable {s : State} {inst : Inst} {c : BchCode} {v : Nat}

theorem execBchEncode_done (hu : s.bch[inst.toNat]? = some (.run c)) (hv : v < 2 ^ c.k) :
    execBchEncode inst v s = .next (done s (.word (bchEncode c v))) :=
  conclude_word (width := (·.k)) (res := fun c => .word (bchEncode c v)) hu hv

theorem execBchSyndrome_done (hu : s.bch[inst.toNat]? = some (.run c)) (hv : v < 2 ^ c.n) :
    execBchSyndrome inst v s = .next (done s (.words (syndromes c v))) :=
  conclude_word (width := (·.n)) (res := fun c => .words (syndromes c v)) hu hv

theorem execBchCheck_done (hu : s.bch[inst.toNat]? = some (.run c)) (hv : v < 2 ^ c.n) :
    execBchCheck inst v s = .next (done s (.flag (bchCheck c v))) :=
  conclude_word (width := (·.n)) (res := fun c => .flag (bchCheck c v)) hu hv

theorem execBchCorrect_done (hu : s.bch[inst.toNat]? = some (.run c)) (hv : v < 2 ^ c.n) :
    execBchCorrect inst v s = .next (done s (correctionResult (bchCorrect c v))) :=
  conclude_word (width := (·.n)) (res := fun c => correctionResult (bchCorrect c v)) hu hv

theorem execBchDecode_done (hu : s.bch[inst.toNat]? = some (.run c)) (hv : v < 2 ^ c.n) :
    execBchDecode inst v s = .next (done s (.word (v >>> (c.n - c.k)))) :=
  conclude_word (width := (·.n)) (res := fun c => .word (bchDecode c v)) hu hv

end Operations

end Machine
end Sys2Proof

namespace Sys2Proof
namespace Settled

open Sys2Proof.Machine Sys2Proof.Claims

/-- Settles O48: a codeword is a sum of shifts of `G`, whose syndromes vanish since `G` has the roots. -/
theorem bchCodeResults : Obligations.BchCodeResults := by
  unfold Obligations.BchCodeResults
  intro s inst c v hu hwf S bad
  have hc := wf_iff_validCode.mp hwf
  have hS : syndromes c v = S := syndromes_eq_map_polyAt c v
  refine ⟨fun hv => ?_, fun hv => ?_, fun hv => ⟨?_, ?_, ?_⟩, fun hv => ⟨?_, ?_, ?_, ?_⟩⟩
  · obtain ⟨hlt, hhigh, shifts, -, hsum⟩ := hc.bchEncode_spec hv
    have hcheck := execBchCheck_done hu hlt
    have hdecode := execBchDecode_done hu hlt
    rw [hc.bchCheck_bchEncode hv] at hcheck
    rw [hhigh] at hdecode
    exact ⟨bchEncode c v, shifts, execBchEncode_done hu hv, hsum, hlt, hhigh, hcheck, hdecode⟩
  · exact conclude_wide (width := (·.k)) hu hv _
  · exact hS ▸ execBchSyndrome_done hu hv
  · exact hS ▸ execBchCheck_done hu hv
  · exact execBchDecode_done hu hv
  · exact conclude_wide (width := (·.n)) hu hv _
  · exact conclude_wide (width := (·.n)) hu hv _
  · exact conclude_wide (width := (·.n)) hu hv _
  · exact conclude_wide (width := (·.n)) hu hv _

end Settled
end Sys2Proof
end

section
/-!
SUPPORT. The checks of BCH.CONFIG (rules R230 to R233): the model's build and the claims' `validCode` ask the
same, the one by walking the table, the other by counting the visits of each element.
-/

namespace Sys2Proof
namespace Machine

open Sys2Proof.Claims

section BchConfig

variable {g N K t m fp : Nat}

/-- `M` is the least exponent of rule R230. -/
theorem fieldExponent_eq {n : I32} (hn : 1 ≤ n.toInt) (hm : ∀ M : Nat, m ≤ M ↔ n.toInt + 1 ≤ 2 ^ M) :
    fieldExponent n.toInt.toNat = m := by
  have hN0 : n.toInt.toNat ≠ 0 := by omega
  have hcast (M : Nat) : n.toInt + 1 ≤ 2 ^ M ↔ n.toInt.toNat < 2 ^ M := by
    obtain ⟨N, hN⟩ := Int.eq_ofNat_of_zero_le (show 0 ≤ n.toInt by omega)
    rw [hN, Int.toNat_natCast]
    exact_mod_cast Nat.succ_le_iff
  rw [fieldExponent, if_neg hN0]
  refine Nat.le_antisymm ?_ ((hm _).mpr ((hcast _).mpr Nat.lt_log2_self))
  exact (Nat.log2_lt hN0).mpr ((hcast m).mp ((hm m).mp (Nat.le_refl m)))

/-- The default polynomials of rule R232; the claims write 0 where there is none. -/
theorem defaultFp_getD (m : Nat) : (defaultFp m).getD 0 = defaults.getD m 0 := by
  match m with
  | 0 | 1 | 2 | 3 | 4 | 5 | 6 | 7 | 8 => rfl
  | _ + 9 => rfl

/-! ### The tables -/

theorem buildCode_eq (hm : fieldExponent N = m) :
    buildCode g N K t fp =
      ⟨g, N, K, t, fp, m, 2 ^ m - 1, (List.range (2 ^ m - 1)).map (alphaPow m fp),
        (List.range (2 ^ m - 1)).map fun v =>
          ((List.range (2 ^ m - 1)).map (alphaPow m fp)).idxOf (v + 1)⟩ := by
  subst hm
  simp only [buildCode, expTable_eq_map, logTable, List.length_map, List.length_range]

theorem gfExp_buildCode (hm : fieldExponent N = m) (h2 : 2 ≤ m) (e : Nat) :
    gfExp (buildCode g N K t fp) e = alphaPow m fp (e % (2 ^ m - 1)) := by
  have hq : 0 < 2 ^ m - 1 := by
    have := Nat.one_lt_two_pow (n := m) (by omega)
    omega
  rw [buildCode_eq hm, gfExp, memRead, List.getD_eq_getElem _ _ (by simpa using Nat.mod_lt e hq),
    List.getElem_map, List.getElem_range]

/-- No element twice and 0 not at all, or each non-zero element once. -/
theorem primitive_buildCode_iff (hm : fieldExponent N = m) (h2 : 2 ≤ m) (hfp : fp.log2 = m) :
    primitive (buildCode g N K t fp).exp = true ↔
      ∀ v, 1 ≤ v → v < 2 ^ m → (List.range (2 ^ m - 1)).countP (fun i => alphaPow m fp i == v) = 1 := by
  have hlen : ((List.range (2 ^ m - 1)).map (alphaPow m fp)).length = 2 ^ m - 1 := by simp
  rw [buildCode_eq hm, primitive_iff_perm hlen, perm_iff_count_eq_one hlen]
  · simp only [List.count, List.countP_map, Function.comp_def]
  · intro x hx
    obtain ⟨i, -, rfl⟩ := List.mem_map.mp hx
    exact alphaPow_lt h2 hfp i

theorem rootsFrom_buildCode_iff (hm : fieldExponent N = m) (h2 : 2 ≤ m) :
    rootsFrom (buildCode g N K t fp) (2 * t) 1 = true ↔
      ∀ i : Nat, 1 ≤ i → i ≤ 2 * t → polyAt (alphaPow m fp) (2 ^ m - 1) (g.log2 + 1) g i = 0 := by
  simp only [rootsFrom_iff, polyAt_eq_evalAt fun e => (gfExp_buildCode (g := g) (K := K) (t := t) hm h2 e).symm,
    Nat.lt_one_add_iff]
  rfl

/-! ### The operation -/

variable {n k t : I32} {fp fp' : Nat}

/-- The checks of rule R231 that need no table. -/
def plainChecks (g : Nat) (n k t : Int) (m fp : Nat) : Prop :=
  1 ≤ k ∧ k < n ∧ 1 ≤ t ∧ 2 ≤ m ∧ m ≤ 16 ∧ g.log2 = (n - k).toNat ∧ g % 2 = 1 ∧ fp.log2 = m

/-- The checks of rule R231 on the tables. -/
def tableChecks (c : BchCode) : Prop := (primitive c.exp && rootsFrom c (2 * c.t) 1) = true

/-- The checks of the claims are those of the model. -/
theorem validCode_iff (hm : fieldExponent n.toInt.toNat = m) :
    validCode g n.toInt k.toInt t.toInt m fp ↔
      plainChecks g n.toInt k.toInt t.toInt m fp ∧
        tableChecks (buildCode g n.toInt.toNat k.toInt.toNat t.toInt.toNat fp) := by
  unfold validCode plainChecks tableChecks
  rw [Bool.and_eq_true]
  constructor
  · rintro ⟨hk, hkn, ht, h2, h16, hg, hodd, hfp, hcount, hroots⟩
    refine ⟨⟨hk, hkn, ht, h2, h16, hg, hodd, hfp⟩, (primitive_buildCode_iff hm h2 hfp).mpr hcount,
      (rootsFrom_buildCode_iff hm h2).mpr fun i h1 hi => hroots i h1 (by omega)⟩
  · rintro ⟨⟨hk, hkn, ht, h2, h16, hg, hodd, hfp⟩, hprim, hroots⟩
    exact ⟨hk, hkn, ht, h2, h16, hg, hodd, hfp, (primitive_buildCode_iff hm h2 hfp).mp hprim,
      fun i h1 hi => (rootsFrom_buildCode_iff hm h2).mp hroots i h1 (by omega)⟩

/-- The polynomial of the code: the operand, or the default for 0. -/
def codePolynomial (m fp : Nat) : Option Nat := if fp = 0 then defaultFp m else some fp

theorem codePolynomial_eq_some {p : Nat} (h : codePolynomial m fp = some p) :
    (if fp = 0 then defaults.getD m 0 else fp) = p := by
  unfold codePolynomial at h
  split at h
  · next h0 => rw [if_pos h0, ← defaultFp_getD, h]; rfl
  · next h0 => rw [if_neg h0]; exact Option.some.inj h

/-- A polynomial of a positive degree is not the 0 that stands for a missing default. -/
theorem codePolynomial_of_log2 {p : Nat} (hp : p.log2 = m) (h2 : 2 ≤ m)
    (h : (if fp = 0 then defaults.getD m 0 else fp) = p) : codePolynomial m fp = some p := by
  unfold codePolynomial
  split
  · next h0 =>
    rw [if_pos h0, ← defaultFp_getD] at h
    cases hd : defaultFp m with
    | none =>
      rw [hd, Option.getD_none] at h
      rw [← h, Nat.log2_zero] at hp
      omega
    | some d => rw [← h, hd, Option.getD_some]
  · next h0 => rw [← h, if_neg h0]

/-- The answer where every check passes. -/
theorem bchConfig_ok {c : BchCode}
    (hpoly : codePolynomial (fieldExponent n.toInt.toNat) fp = some fp')
    (hplain : plainChecks g n.toInt k.toInt t.toInt (fieldExponent n.toInt.toNat) fp')
    (hc : buildCode g n.toInt.toNat k.toInt.toNat t.toInt.toNat fp' = c)
    (htables : tableChecks c) :
    bchConfig g n k t fp = .ok c := by
  obtain ⟨hk, hkn, ht, h2, h16, hg, hodd, hfp⟩ := hplain
  have hg0 : g ≠ 0 := by rintro rfl; cases hodd
  subst hc
  unfold codePolynomial at hpoly
  simp only [bchConfig, hpoly]
  rw [if_pos ⟨hk, hkn, ht⟩, if_pos ⟨h2, h16, hg0, by omega, hodd⟩, if_pos hfp]
  exact if_pos htables

/-- Some check fails, or all pass. -/
theorem bchConfig_cases (g : Nat) (n k t : I32) (fp : Nat) :
    bchConfig g n k t fp = .error (.config .badCode) ∨
      ∃ fp', codePolynomial (fieldExponent n.toInt.toNat) fp = some fp' ∧
        plainChecks g n.toInt k.toInt t.toInt (fieldExponent n.toInt.toNat) fp' ∧
        tableChecks (buildCode g n.toInt.toNat k.toInt.toNat t.toInt.toNat fp') := by
  simp only [bchConfig]
  split
  · next hparams =>
    obtain ⟨hk, hkn, ht⟩ := hparams
    split
    · next hfield =>
      obtain ⟨h2, h16, -, hg, hodd⟩ := hfield
      split
      · exact .inl rfl
      · next fp' hpoly =>
        split
        · next hfp =>
          split
          · next htables =>
            exact .inr ⟨fp', hpoly, ⟨hk, hkn, ht, h2, h16, by omega, hodd, hfp⟩, htables⟩
          · exact .inl rfl
        · exact .inl rfl
    · exact .inl rfl
  · exact .inl rfl

end BchConfig

end Machine
end Sys2Proof

namespace Sys2Proof
namespace Settled

open Sys2Proof.Machine Sys2Proof.Claims

/-- Settles O45: `validCode` is the conjunction of the model's checks, for the polynomial that BCH.CONFIG
takes; the tables written are those of `buildCode`. -/
theorem bchConfig : Obligations.BchConfig := by
  unfold Obligations.BchConfig
  intro s inst g n k t fp m hi hm fp' exp log
  refine ⟨fun hvalid => ?_, fun hinvalid => ?_⟩
  · have ⟨hk, hkn, _, h2, _, _, _, hfp, _⟩ := hvalid
    have hexp : fieldExponent n.toInt.toNat = m := fieldExponent_eq (by omega) hm
    obtain ⟨hplain, htables⟩ := (validCode_iff hexp).mp hvalid
    have hc := buildCode_eq (g := g) (K := k.toInt.toNat) (t := t.toInt.toNat) (fp := fp') hexp
    rw [hc] at htables
    exact conclude_config hi
      (bchConfig_ok (hexp ▸ codePolynomial_of_log2 hfp h2 rfl) (hexp ▸ hplain) hc htables)
  · rcases bchConfig_cases g n k t fp with hbad | ⟨p, hpoly, hplain, htables⟩
    · exact conclude_config_rejected hi hbad
    · have ⟨hk, hkn, _⟩ := hplain
      have hexp : fieldExponent n.toInt.toNat = m := fieldExponent_eq (by omega) hm
      rw [hexp] at hpoly hplain
      have hp : fp' = p := codePolynomial_eq_some hpoly
      exact absurd ((validCode_iff hexp).mpr ⟨hp ▸ hplain, hp ▸ htables⟩) hinvalid

end Settled
end Sys2Proof
end

section
/-!
SUPPORT. What BCH.CORRECT answers (rules R245 to R248): the bits it flips are distinct, so that it counts the
bits in which the answer differs from the operand.
-/

namespace Sys2Proof
namespace Machine

open Sys2Proof.Claims

/-! ### Flipping bits -/

section Flip

variable {r e i n : Nat} {es fs : List Nat}

theorem flipBits_cons : flipBits r (e :: es) = flipBits (r ^^^ 2 ^ e) es := by
  rw [flipBits, List.foldl_cons, Nat.one_shiftLeft]; rfl

/-- The order of the flips does not count. -/
theorem flipBits_perm (h : es.Perm fs) (r : Nat) : flipBits r es = flipBits r fs :=
  h.foldl_eq' (fun e _ f _ w => Nat.xor_right_comm w (1 <<< e) (1 <<< f)) r

theorem testBit_flipBits (hes : es.Nodup) :
    (flipBits r es).testBit i = (r.testBit i ^^ decide (i ∈ es)) := by
  induction es generalizing r with
  | nil => simp [flipBits]
  | cons e es ih =>
    obtain ⟨he, hes⟩ := List.nodup_cons.mp hes
    rw [flipBits_cons, ih hes, Nat.testBit_xor, Nat.testBit_two_pow]
    by_cases hi : e = i
    · subst hi; simp [he]
    · simp [hi, Ne.symm hi]

theorem flipBits_lt (hr : r < 2 ^ n) (hes : ∀ e ∈ es, e < n) : flipBits r es < 2 ^ n := by
  induction es generalizing r with
  | nil => exact hr
  | cons e es ih =>
    rw [flipBits_cons]
    refine ih (Nat.xor_lt_two_pow hr ?_) fun x hx => hes x (List.mem_cons_of_mem e hx)
    exact Nat.pow_lt_pow_right (by decide) (hes e List.mem_cons_self)

/-- Distinct flips are the bits in which the word changes. -/
theorem countP_testBit_flipBits (hes : es.Nodup) (hlt : ∀ e ∈ es, e < n) :
    (List.range n).countP (fun i => r.testBit i != (flipBits r es).testBit i) = es.length := by
  have hdiff (i : Nat) : (r.testBit i != (flipBits r es).testBit i) = decide (i ∈ es) := by
    rw [testBit_flipBits hes]
    cases r.testBit i <;> simp
  have hperm : ((List.range n).filter fun i => decide (i ∈ es)).Perm es := by
    refine (List.perm_ext_iff_of_nodup (List.nodup_range.filter _) hes).mpr fun i => ?_
    rw [List.mem_filter, List.mem_range, decide_eq_true_eq]
    exact and_iff_right_of_imp (hlt i)
  simp only [hdiff, List.countP_eq_length_filter, hperm.length_eq]

end Flip

/-! ### The bits that the roots of the locator mark (rule R247) -/

section ErrorBits

variable {c : BchCode} {lam : List Nat} {e q j : Nat}

theorem sub_mod_of_lt (hj : j < q) : (q - j) % q = if j = 0 then 0 else q - j := by
  split
  · next h => rw [h, Nat.sub_zero, Nat.mod_self]
  · exact Nat.mod_eq_of_lt (by omega)

theorem errorBits_nodup : (errorBits c lam).Nodup := by
  refine (List.nodup_range.filter _).map_on fun i hi j hj h => ?_
  have hi := List.mem_range.mp (List.mem_filter.mp hi).1
  have hj := List.mem_range.mp (List.mem_filter.mp hj).1
  rw [sub_mod_of_lt hi, sub_mod_of_lt hj] at h
  split at h <;> split at h <;> omega

/-- A bit is marked exactly where the locator has the inverse of its power of alpha as a root. -/
theorem mem_errorBits : e ∈ errorBits c lam ↔ e < c.q1 ∧ locatorAt c lam (gfExp c (c.q1 - e)) = 0 := by
  simp only [errorBits, List.mem_map, List.mem_filter, List.mem_range, beq_iff_eq]
  constructor
  · rintro ⟨j, ⟨hj, hroot⟩, rfl⟩
    refine ⟨Nat.mod_lt _ (by omega), ?_⟩
    rw [sub_mod_of_lt hj]
    split
    · next h =>
      subst h
      rwa [Nat.sub_zero, ← gfExp_mod, Nat.mod_self]
    · rwa [show c.q1 - (c.q1 - j) = j by omega]
  · rintro ⟨he, hroot⟩
    refine ⟨(c.q1 - e) % c.q1, ⟨Nat.mod_lt _ (by omega), by rwa [gfExp_mod]⟩, ?_⟩
    rw [sub_mod_of_lt he]
    split
    · next h => rw [Nat.sub_zero, Nat.mod_self, h]
    · rw [sub_mod_of_lt (by omega), if_neg (by omega)]
      omega

end ErrorBits

/-! ### The answer (rule R245) -/

section Correct

variable {c : BchCode} {r w e nu d : Nat} {es : List Nat}

theorem bchCorrect_of_check (h : bchCheck c r = true) : bchCorrect c r = .corrected r 0 := if_pos h

/-- The answer behind the search for a matrix that has an inverse. -/
theorem bchCorrect_of_findNu (h : bchCheck c r = false)
    (hnu : findNu c (syndromes c r) c.t = some (nu, d))
    (hes : errorBits c (locator c (syndromes c r) nu d) = es) :
    bchCorrect c r =
      if es.any fun e => decide (c.n ≤ e) then .uncorrectable
      else if es = [] then .uncorrectable
      else if bchCheck c (flipBits r es) then .corrected (flipBits r es) es.length
      else .uncorrectable := by
  refine (if_neg (Bool.eq_false_iff.mp h)).trans ?_
  simp only [hnu, hes]

theorem bchCorrect_of_findNu_none (h : bchCheck c r = false)
    (hnu : findNu c (syndromes c r) c.t = none) : bchCorrect c r = .uncorrectable := by
  refine (if_neg (Bool.eq_false_iff.mp h)).trans ?_
  simp only [hnu]

/-- What is called corrected checks true, and is the operand with distinct bits of the word flipped. -/
theorem bchCorrect_corrected (h : bchCorrect c r = .corrected w e) :
    bchCheck c w = true ∧ ∃ es : List Nat,
      es.Nodup ∧ (∀ x ∈ es, x < c.n) ∧ w = flipBits r es ∧ e = es.length := by
  cases hcheck : bchCheck c r with
  | true =>
    rw [bchCorrect_of_check hcheck] at h
    cases h
    exact ⟨hcheck, [], List.nodup_nil, by simp, rfl, rfl⟩
  | false =>
    cases hnu : findNu c (syndromes c r) c.t with
    | none => rw [bchCorrect_of_findNu_none hcheck hnu] at h; cases h
    | some p =>
      rw [bchCorrect_of_findNu (nu := p.1) (d := p.2) hcheck hnu rfl] at h
      split at h
      · cases h
      · next hrange =>
        split at h
        · cases h
        · split at h
          · next hgood =>
            cases h
            exact ⟨hgood, _, errorBits_nodup, by simpa using hrange, rfl, rfl⟩
          · cases h

end Correct

end Machine
end Sys2Proof

namespace Sys2Proof
namespace Settled

open Sys2Proof.Machine Sys2Proof.Claims

/-- Settles O49: the re-check of rule R248 stands in front of the answer, and the bits flipped are
distinct. -/
theorem bchCorrectSound : Obligations.BchCorrectSound := by
  unfold Obligations.BchCorrectSound
  intro s inst c r hu _ hr
  refine ⟨correctionResult (bchCorrect c r), execBchCorrect_done hu hr, ?_, ?_, fun hcheck => ?_,
    fun w e hres => ?_⟩
  · cases bchCorrect c r with
    | corrected w e => exact .inr ⟨w, e, rfl⟩
    | uncorrectable => exact .inl rfl
  · cases bchCorrect c r <;> rfl
  · rw [bchCorrect_of_check hcheck]; rfl
  · have hcorr : bchCorrect c r = .corrected w e := by
      cases hans : bchCorrect c r with
      | corrected w' e' => rw [hans] at hres; cases hres; rfl
      | uncorrectable => rw [hans] at hres; cases hres
    obtain ⟨hcheck, es, hnodup, hlt, rfl, rfl⟩ := bchCorrect_corrected hcorr
    exact ⟨hcheck, flipBits_lt hr hlt, countP_testBit_flipBits hnodup hlt⟩

end Settled
end Sys2Proof
end

section
/-!
SUPPORT. BCH.CORRECT on a codeword with one or two bits flipped, for every valid code with `T = 2` (rules R243
to R249). The syndromes of the flips are power sums of two elements `x`, `y`; the linear system of rule R244
has the elementary functions `x + y` and `x y` as its solution, and the roots of the locator are the inverses.
-/

namespace Sys2Proof
namespace Machine

open Sys2Proof.Claims

/-! ### The field of a valid code as a commutative ring -/

/-- The elements of the field of a code. -/
abbrev GfElement (c : BchCode) : Type := { a : Nat // a < 2 ^ c.m }

/-- The laws of `GfLaws` in the form that `ring` reads: XOR is the sum, `gf_mul` the product. -/
@[reducible] def gfRing {c : BchCode} (hc : ValidCode c) : CommRing (GfElement c) :=
  letI : Add (GfElement c) := ⟨fun a b => ⟨a.1 ^^^ b.1, Nat.xor_lt_two_pow a.2 b.2⟩⟩
  letI : Zero (GfElement c) := ⟨⟨0, Nat.two_pow_pos _⟩⟩
  letI : Neg (GfElement c) := ⟨fun a => a⟩
  letI : Mul (GfElement c) := ⟨fun a b => ⟨gfMul c a.1 b.1, hc.gfMul_lt ..⟩⟩
  letI : One (GfElement c) := ⟨⟨1, Nat.one_lt_two_pow (by have := hc.two_le_m; omega)⟩⟩
  CommRing.ofMinimalAxioms
    (add_assoc := fun _ _ _ => Subtype.ext (Nat.xor_assoc ..))
    (zero_add := fun _ => Subtype.ext (Nat.zero_xor _))
    (neg_add_cancel := fun _ => Subtype.ext (Nat.xor_self _))
    (mul_assoc := fun a b d => Subtype.ext (hc.gfMul_assoc a.2 b.2 d.2))
    (mul_comm := fun _ _ => Subtype.ext (gfMul_comm ..))
    (one_mul := fun a => Subtype.ext (hc.one_gfMul a.2))
    (left_distrib := fun a b d => Subtype.ext (hc.gfMul_xor a.2 b.2 d.2))

theorem gfRing_two_eq_zero {c : BchCode} (hc : ValidCode c) :
    letI := gfRing hc
    (2 : GfElement c) = 0 := by
  let _ := gfRing hc
  exact one_add_one_eq_two.symm.trans (Subtype.ext (Nat.xor_self 1))

/-! ### Identities of power sums where 2 is 0 -/

section CharTwo

variable {R : Type} [CommRing R] (h2 : (2 : R) = 0) (x y : R)

include h2

/-- The determinant of the 2 by 2 syndrome matrix. -/
theorem powerSum_det :
    (x ^ 1 + y ^ 1) * (x ^ 3 + y ^ 3) + (x ^ 2 + y ^ 2) * (x ^ 2 + y ^ 2) =
      x * y * ((x + y) * (x + y)) := by
  linear_combination (x ^ 4 + y ^ 4) * h2

/-- Cramer's rule for the sum of the two elements. -/
theorem powerSum_cramer_sum :
    (x ^ 2 + y ^ 2) * (x ^ 3 + y ^ 3) + (x ^ 1 + y ^ 1) * (x ^ 4 + y ^ 4) =
      x * y * ((x + y) * (x + y)) * (x + y) := by
  linear_combination (x ^ 5 + y ^ 5 - x ^ 3 * y ^ 2 - x ^ 2 * y ^ 3) * h2

/-- Cramer's rule for the product of the two elements. -/
theorem powerSum_cramer_product :
    (x ^ 3 + y ^ 3) * (x ^ 3 + y ^ 3) + (x ^ 2 + y ^ 2) * (x ^ 4 + y ^ 4) =
      x * y * ((x + y) * (x + y)) * (x * y) := by
  linear_combination (x ^ 6 + y ^ 6) * h2

end CharTwo

/-! ### The power sums of two flipped bits -/

/-- The syndrome `S[i]` of a word in which just the bits `a` and `b` are set. -/
def powerSum (c : BchCode) (a b i : Nat) : Nat := gfExp c (i * a) ^^^ gfExp c (i * b)

/-- `x y (x + y)^2` for the powers of alpha of two bits. -/
def pairDet (c : BchCode) (a b : Nat) : Nat :=
  gfMul c (gfMul c (gfExp c a) (gfExp c b))
    (gfMul c (gfExp c a ^^^ gfExp c b) (gfExp c a ^^^ gfExp c b))

namespace ValidCode

variable {c : BchCode} (hc : ValidCode c) {a b e i : Nat}

/-- A power of alpha as an element of the ring. -/
def alphaElement (e : Nat) : GfElement c := ⟨gfExp c e, hc.gfExp_lt e⟩

theorem alphaElement_pow (a i : Nat) :
    letI := gfRing hc
    hc.alphaElement a ^ i = hc.alphaElement (i * a) := by
  let _ := gfRing hc
  induction i with
  | zero => rw [pow_zero, Nat.zero_mul]; exact Subtype.ext hc.gfExp_zero.symm
  | succ i ih =>
    rw [pow_succ, ih, Nat.succ_mul]
    exact Subtype.ext (hc.gfMul_gfExp_gfExp _ _)

include hc

theorem powerSum_lt (a b i : Nat) : powerSum c a b i < 2 ^ c.m :=
  Nat.xor_lt_two_pow (hc.gfExp_lt _) (hc.gfExp_lt _)

/-- An equation of power sums in the ring is one of the syndromes. -/
theorem powerSum_element (a b i : Nat) :
    letI := gfRing hc
    (⟨powerSum c a b i, hc.powerSum_lt a b i⟩ : GfElement c) =
      hc.alphaElement a ^ i + hc.alphaElement b ^ i := by
  let _ := gfRing hc
  rw [hc.alphaElement_pow, hc.alphaElement_pow]
  rfl

/-! ### The linear system of two flips (rule R244) -/

/-- The determinant is `x y (x + y)^2`. -/
theorem hankel_det (a b : Nat) :
    gfMul c (powerSum c a b 1) (powerSum c a b 3) ^^^ gfMul c (powerSum c a b 2) (powerSum c a b 2) =
      pairDet c a b := by
  let _ := gfRing hc
  have h := powerSum_det (gfRing_two_eq_zero hc) (hc.alphaElement a) (hc.alphaElement b)
  simp only [← hc.powerSum_element] at h
  exact congrArg Subtype.val h

theorem cramer_sum (a b : Nat) :
    gfMul c (powerSum c a b 2) (powerSum c a b 3) ^^^ gfMul c (powerSum c a b 1) (powerSum c a b 4) =
      gfMul c (pairDet c a b) (gfExp c a ^^^ gfExp c b) := by
  let _ := gfRing hc
  have h := powerSum_cramer_sum (gfRing_two_eq_zero hc) (hc.alphaElement a) (hc.alphaElement b)
  simp only [← hc.powerSum_element] at h
  exact congrArg Subtype.val h

theorem cramer_product (a b : Nat) :
    gfMul c (powerSum c a b 3) (powerSum c a b 3) ^^^ gfMul c (powerSum c a b 2) (powerSum c a b 4) =
      gfMul c (pairDet c a b) (gfMul c (gfExp c a) (gfExp c b)) := by
  let _ := gfRing hc
  have h := powerSum_cramer_product (gfRing_two_eq_zero hc) (hc.alphaElement a) (hc.alphaElement b)
  simp only [← hc.powerSum_element] at h
  exact congrArg Subtype.val h

/-- Distinct bits have distinct powers of alpha. -/
theorem gfExp_xor_ne_zero (ha : a < c.q1) (hb : b < c.q1) (hab : a ≠ b) :
    gfExp c a ^^^ gfExp c b ≠ 0 :=
  fun h => hab (hc.gfExp_injOn ha hb (Nat.xor_eq_zero_iff.mp h))

theorem pairDet_lt (a b : Nat) : pairDet c a b < 2 ^ c.m := hc.gfMul_lt ..

theorem pairDet_ne_zero (ha : a < c.q1) (hb : b < c.q1) (hab : a ≠ b) : pairDet c a b ≠ 0 := by
  have hsum := hc.gfExp_xor_ne_zero ha hb hab
  exact hc.gfMul_ne_zero (hc.gfMul_ne_zero (hc.gfExp_ne_zero a) (hc.gfExp_ne_zero b))
    (hc.gfMul_ne_zero hsum hsum)

/-- A factor is taken back by the inverse. -/
theorem gfInv_mul_cancel {d v : Nat} (hd0 : d ≠ 0) (hd : d < 2 ^ c.m) (hv : v < 2 ^ c.m) :
    gfMul c (gfInv c d) (gfMul c d v) = v := by
  rw [← hc.gfMul_assoc (hc.gfInv_lt d) hd hv, gfMul_comm _ d, hc.gfMul_gfInv hd0 hd, hc.one_gfMul hv]

end ValidCode

/-! ### Determinants and the search of rule R243, for `T = 2` -/

section Search

variable {c : BchCode} {A : Nat → Nat → Nat} {s1 s2 s3 s4 d : Nat}

theorem det_zero : det c 0 A = 1 := Nat.zero_xor 1

theorem det_two :
    det c 2 A = gfMul c (gfMul c 1 (A 0 0)) (A 1 1) ^^^ gfMul c (gfMul c 1 (A 0 1)) (A 1 0) :=
  congrArg (· ^^^ gfMul c (gfMul c 1 (A 0 1)) (A 1 0)) (Nat.zero_xor _)

/-- One unknown. -/
theorem solution_one (S : List Nat) (d i : Nat) :
    solution c S 1 d i = gfMul c (gfInv c d) (gfMul c (det c 0 (minor (hankel S) 0 i)) (synd S 2)) :=
  congrArg (gfMul c (gfInv c d)) (Nat.zero_xor _)

/-- Two unknowns, by the minors of the two rows. -/
theorem solution_two (S : List Nat) (d i : Nat) :
    solution c S 2 d i = gfMul c (gfInv c d)
      (gfMul c (det c 1 (minor (hankel S) 0 i)) (synd S 3) ^^^
        gfMul c (det c 1 (minor (hankel S) 1 i)) (synd S 4)) :=
  congrArg (fun v => gfMul c (gfInv c d) (v ^^^ gfMul c (det c 1 (minor (hankel S) 1 i)) (synd S 4)))
    (Nat.zero_xor _)

namespace ValidCode

variable (hc : ValidCode c)

include hc

theorem det_one (hA : A 0 0 < 2 ^ c.m) : det c 1 A = A 0 0 := (Nat.zero_xor _).trans (hc.one_gfMul hA)

theorem det_hankel_two (h1 : s1 < 2 ^ c.m) (h2 : s2 < 2 ^ c.m) :
    det c 2 (hankel [s1, s2, s3, s4]) = gfMul c s1 s3 ^^^ gfMul c s2 s2 := by
  rw [det_two]
  show gfMul c (gfMul c 1 s1) s3 ^^^ gfMul c (gfMul c 1 s2) s2 = _
  rw [hc.one_gfMul h1, hc.one_gfMul h2]

theorem findNu_two (h1 : s1 < 2 ^ c.m) (h2 : s2 < 2 ^ c.m)
    (hd : gfMul c s1 s3 ^^^ gfMul c s2 s2 = d) (hd0 : d ≠ 0) :
    findNu c [s1, s2, s3, s4] 2 = some (2, d) := by
  rw [findNu, hc.det_hankel_two h1 h2, hd]
  exact if_neg hd0

/-- Where the larger matrix is singular the smaller one is tried. -/
theorem findNu_one (h1 : s1 < 2 ^ c.m) (h2 : s2 < 2 ^ c.m)
    (hd : gfMul c s1 s3 ^^^ gfMul c s2 s2 = 0) (hs0 : s1 ≠ 0) :
    findNu c [s1, s2, s3, s4] 2 = some (1, s1) := by
  have hdet : det c 1 (hankel [s1, s2, s3, s4]) = s1 := hc.det_one h1
  rw [findNu, hc.det_hankel_two h1 h2, hd, findNu, hdet]
  exact if_neg hs0

theorem locator_two (h1 : s1 < 2 ^ c.m) (h2 : s2 < 2 ^ c.m) (h3 : s3 < 2 ^ c.m) :
    locator c [s1, s2, s3, s4] 2 d =
      [1, gfMul c (gfInv c d) (gfMul c s2 s3 ^^^ gfMul c s1 s4),
        gfMul c (gfInv c d) (gfMul c s3 s3 ^^^ gfMul c s2 s4)] := by
  show [1, solution c [s1, s2, s3, s4] 2 d 1, solution c [s1, s2, s3, s4] 2 d 0] = _
  rw [solution_two, solution_two, hc.det_one h2, hc.det_one h1, hc.det_one h3, hc.det_one h2]
  rfl

theorem locator_one (h2 : s2 < 2 ^ c.m) :
    locator c [s1, s2, s3, s4] 1 d = [1, gfMul c (gfInv c d) s2] := by
  show [1, solution c [s1, s2, s3, s4] 1 d 0] = _
  rw [solution_one, det_zero, hc.one_gfMul (show synd [s1, s2, s3, s4] 2 < 2 ^ c.m from h2)]
  rfl

end ValidCode

end Search

/-! ### The roots of the locator (rule R247) -/

section Roots

variable {c : BchCode} (hc : ValidCode c) {a b e : Nat}

namespace ValidCode

include hc

/-- The factor of a bit vanishes at the inverse of its power of alpha and nowhere else. -/
theorem factor_eq_zero_iff (ha : a < c.q1) (he : e < c.q1) :
    1 ^^^ gfMul c (gfExp c a) (gfExp c (c.q1 - e)) = 0 ↔ e = a := by
  rw [Nat.xor_eq_zero_iff, eq_comm, hc.gfMul_gfExp_gfExp, hc.gfExp_eq_one_iff]
  constructor
  · rintro ⟨k, hk⟩
    obtain rfl | rfl | hk2 : k = 0 ∨ k = 1 ∨ 2 ≤ k := by omega
    · omega
    · omega
    · have := Nat.mul_le_mul_left c.q1 hk2
      omega
  · rintro rfl
    exact ⟨1, by omega⟩

/-- The locator `1 + x z` of one flip. -/
theorem locatorAt_one (a i : Nat) :
    locatorAt c [1, gfExp c a] (gfExp c i) = 1 ^^^ gfMul c (gfExp c a) (gfExp c i) := by
  calc locatorAt c [1, gfExp c a] (gfExp c i)
      = gfMul c 1 (gfPow c (gfExp c i) 0) ^^^ gfMul c (gfExp c a) (gfPow c (gfExp c i) 1) :=
        congrArg (· ^^^ _) (Nat.zero_xor _)
    _ = 1 ^^^ gfMul c (gfExp c a) (gfExp c i) := by
        rw [hc.gfPow_gfExp, hc.gfPow_gfExp, Nat.mul_zero, Nat.mul_one, hc.one_gfMul (hc.gfExp_lt 0),
          hc.gfExp_zero]

/-- The locator `1 + (x + y) z + x y z^2` of two flips is a product of the locators of each. -/
theorem locatorAt_two (a b i : Nat) :
    locatorAt c [1, gfExp c a ^^^ gfExp c b, gfMul c (gfExp c a) (gfExp c b)] (gfExp c i) =
      gfMul c (1 ^^^ gfMul c (gfExp c a) (gfExp c i)) (1 ^^^ gfMul c (gfExp c b) (gfExp c i)) := by
  let _ := gfRing hc
  have hring (x y z : GfElement c) : 1 + (x + y) * z + x * y * (z * z) = (1 + x * z) * (1 + y * z) := by
    ring
  calc locatorAt c [1, gfExp c a ^^^ gfExp c b, gfMul c (gfExp c a) (gfExp c b)] (gfExp c i)
      = gfMul c 1 (gfPow c (gfExp c i) 0) ^^^
          gfMul c (gfExp c a ^^^ gfExp c b) (gfPow c (gfExp c i) 1) ^^^
          gfMul c (gfMul c (gfExp c a) (gfExp c b)) (gfPow c (gfExp c i) 2) :=
        congrArg (· ^^^ _ ^^^ _) (Nat.zero_xor _)
    _ = 1 ^^^ gfMul c (gfExp c a ^^^ gfExp c b) (gfExp c i) ^^^
          gfMul c (gfMul c (gfExp c a) (gfExp c b)) (gfMul c (gfExp c i) (gfExp c i)) := by
        rw [hc.gfPow_gfExp, hc.gfPow_gfExp, hc.gfPow_gfExp, Nat.mul_zero, Nat.mul_one, Nat.mul_two,
          hc.one_gfMul (hc.gfExp_lt 0), hc.gfExp_zero, hc.gfMul_gfExp_gfExp i i]
    _ = gfMul c (1 ^^^ gfMul c (gfExp c a) (gfExp c i)) (1 ^^^ gfMul c (gfExp c b) (gfExp c i)) :=
        congrArg Subtype.val (hring (hc.alphaElement a) (hc.alphaElement b) (hc.alphaElement i))

theorem errorBits_one (ha : a < c.q1) : (errorBits c [1, gfExp c a]).Perm [a] := by
  refine (List.perm_ext_iff_of_nodup errorBits_nodup (List.nodup_singleton a)).mpr fun e => ?_
  rw [mem_errorBits, hc.locatorAt_one, List.mem_singleton]
  constructor
  · rintro ⟨he, hroot⟩
    exact (hc.factor_eq_zero_iff ha he).mp hroot
  · rintro rfl
    exact ⟨ha, (hc.factor_eq_zero_iff ha ha).mpr rfl⟩

theorem errorBits_two (ha : a < c.q1) (hb : b < c.q1) (hab : a ≠ b) :
    (errorBits c [1, gfExp c a ^^^ gfExp c b, gfMul c (gfExp c a) (gfExp c b)]).Perm [a, b] := by
  refine (List.perm_ext_iff_of_nodup errorBits_nodup (by simpa using hab)).mpr fun e => ?_
  rw [mem_errorBits, hc.locatorAt_two, List.mem_cons, List.mem_singleton]
  constructor
  · rintro ⟨he, hroot⟩
    by_contra hne
    obtain ⟨hea, heb⟩ := not_or.mp hne
    exact hc.gfMul_ne_zero (mt (hc.factor_eq_zero_iff ha he).mp hea)
      (mt (hc.factor_eq_zero_iff hb he).mp heb) hroot
  · rintro (rfl | rfl)
    · exact ⟨ha, by rw [(hc.factor_eq_zero_iff ha ha).mpr rfl, zero_gfMul]⟩
    · exact ⟨hb, by rw [(hc.factor_eq_zero_iff hb hb).mpr rfl, gfMul_zero]⟩

end ValidCode

end Roots

/-! ### The correction (rule R249) -/

section Corrects

variable {c : BchCode} {r w nu d a b : Nat} {es lam : List Nat}

theorem syndromes_of_two {S : Nat → Nat} (ht : c.t = 2)
    (h : ∀ i, 1 ≤ i → i ≤ 2 * c.t → evalAt c c.n r i = S i) : syndromes c r = [S 1, S 2, S 3, S 4] := by
  rw [syndromes, List.map_congr_left fun j hj => h (j + 1) (by omega) (List.mem_range.mp hj), ht]
  rfl

/-- The answer where the locator marks the bits in which the operand differs from a word that checks
true. -/
theorem bchCorrect_of_marks (hr : bchCheck c r = false)
    (hnu : findNu c (syndromes c r) c.t = some (nu, d))
    (hlam : locator c (syndromes c r) nu d = lam) (hes : (errorBits c lam).Perm es)
    (hne : es ≠ []) (hlt : ∀ e ∈ es, e < c.n) (hflip : flipBits r es = w) (hw : bchCheck c w = true) :
    bchCorrect c r = .corrected w es.length := by
  have hword : flipBits r (errorBits c lam) = w := (flipBits_perm hes r).trans hflip
  have hrange : ¬ (errorBits c lam).any (fun e => decide (c.n ≤ e)) = true := by
    simpa using fun e he => hlt e (hes.mem_iff.mp he)
  have hsome : errorBits c lam ≠ [] := fun h => hne (List.nil_perm.mp (h ▸ hes))
  rw [bchCorrect_of_findNu hr hnu (congrArg (errorBits c) hlam), if_neg hrange, if_neg hsome, hword,
    if_pos hw, hes.length_eq]

/-- A first syndrome that is not 0 fails the check. -/
theorem bchCheck_eq_false (ht : 1 ≤ c.t) (h : evalAt c c.n r 1 ≠ 0) : bchCheck c r = false :=
  Bool.eq_false_iff.mpr fun hcheck => h (bchCheck_iff.mp hcheck 1 (Nat.le_refl 1) (by omega))

/-- The word under the flips has no part in the syndromes. -/
theorem evalAt_flip {i : Nat} (hw : bchCheck c w = true) (h1 : 1 ≤ i) (hi : i ≤ 2 * c.t) (ha : a < c.n) :
    evalAt c c.n (w ^^^ 2 ^ a) i = gfExp c (i * a) := by
  rw [evalAt_xor, bchCheck_iff.mp hw i h1 hi, evalAt_two_pow ha, Nat.zero_xor]

theorem evalAt_flip_flip {i : Nat} (hw : bchCheck c w = true) (h1 : 1 ≤ i) (hi : i ≤ 2 * c.t)
    (ha : a < c.n) (hb : b < c.n) : evalAt c c.n (w ^^^ 2 ^ a ^^^ 2 ^ b) i = powerSum c a b i := by
  rw [evalAt_xor, evalAt_flip hw h1 hi ha, evalAt_two_pow hb, powerSum]

namespace ValidCode

variable (hc : ValidCode c)

include hc

/-- One flipped bit is undone: the larger matrix is singular. -/
theorem bchCorrect_flip (ht : c.t = 2) (hw : bchCheck c w = true) (ha : a < c.n) :
    bchCorrect c (w ^^^ 2 ^ a) = .corrected w 1 := by
  have heval {i : Nat} (h1 : 1 ≤ i) (hi : i ≤ 2 * c.t) := evalAt_flip hw h1 hi ha
  have hS := syndromes_of_two ht fun _ => heval
  have hdet : gfMul c (gfExp c (1 * a)) (gfExp c (3 * a)) ^^^
      gfMul c (gfExp c (2 * a)) (gfExp c (2 * a)) = 0 := by
    rw [hc.gfMul_gfExp_gfExp, hc.gfMul_gfExp_gfExp, show 1 * a + 3 * a = 2 * a + 2 * a by omega,
      Nat.xor_self]
  have hnu := hc.findNu_one (s4 := gfExp c (4 * a)) (hc.gfExp_lt _) (hc.gfExp_lt _) hdet
    (hc.gfExp_ne_zero _)
  have hsol : gfMul c (gfInv c (gfExp c (1 * a))) (gfExp c (2 * a)) = gfExp c a := by
    rw [show 2 * a = 1 * a + a by omega, ← hc.gfMul_gfExp_gfExp]
    exact hc.gfInv_mul_cancel (hc.gfExp_ne_zero _) (hc.gfExp_lt _) (hc.gfExp_lt _)
  have hfirst : evalAt c c.n (w ^^^ 2 ^ a) 1 ≠ 0 := by
    rw [heval (Nat.le_refl 1) (by omega)]
    exact hc.gfExp_ne_zero _
  refine bchCorrect_of_marks (bchCheck_eq_false hc.t_pos hfirst) (by rw [hS, ht]; exact hnu)
    (by rw [hS, hc.locator_one (hc.gfExp_lt _), hsol]) (hc.errorBits_one (ha.trans_le hc.n_le_q1))
    (List.cons_ne_nil _ _) (by simpa using ha) ?_ hw
  rw [flipBits_cons, Nat.xor_xor_cancel_right]
  rfl

/-- Two flipped bits are undone. -/
theorem bchCorrect_flip_flip (ht : c.t = 2) (hw : bchCheck c w = true) (ha : a < c.n) (hb : b < c.n)
    (hab : a ≠ b) : bchCorrect c (w ^^^ 2 ^ a ^^^ 2 ^ b) = .corrected w 2 := by
  have haq := ha.trans_le hc.n_le_q1
  have hbq := hb.trans_le hc.n_le_q1
  have heval {i : Nat} (h1 : 1 ≤ i) (hi : i ≤ 2 * c.t) := evalAt_flip_flip hw h1 hi ha hb
  have hS := syndromes_of_two ht fun _ => heval
  have hlt := hc.powerSum_lt a b
  have hdet0 := hc.pairDet_ne_zero haq hbq hab
  have hdetlt := hc.pairDet_lt a b
  have hnu := hc.findNu_two (s4 := powerSum c a b 4) (hlt 1) (hlt 2) (hc.hankel_det a b) hdet0
  have hsum := hc.gfInv_mul_cancel hdet0 hdetlt (Nat.xor_lt_two_pow (hc.gfExp_lt a) (hc.gfExp_lt b))
  have hprod := hc.gfInv_mul_cancel hdet0 hdetlt (hc.gfMul_lt (gfExp c a) (gfExp c b))
  have hfirst : evalAt c c.n (w ^^^ 2 ^ a ^^^ 2 ^ b) 1 ≠ 0 := by
    rw [heval (Nat.le_refl 1) (by omega), powerSum, Nat.one_mul, Nat.one_mul]
    exact hc.gfExp_xor_ne_zero haq hbq hab
  refine bchCorrect_of_marks (bchCheck_eq_false hc.t_pos hfirst) (by rw [hS, ht]; exact hnu)
    (by rw [hS, hc.locator_two (hlt 1) (hlt 2) (hlt 3), hc.cramer_sum, hc.cramer_product, hsum, hprod])
    (hc.errorBits_two haq hbq hab) (List.cons_ne_nil _ _) (by simp [ha, hb]) ?_ hw
  rw [flipBits_cons, flipBits_cons, Nat.xor_right_comm w, Nat.xor_xor_cancel_right,
    Nat.xor_xor_cancel_right]
  rfl

end ValidCode

end Corrects

/-! ### The paging code (rule R250) -/

theorem pagingCode_valid : ValidCode pagingCode := wf_iff_validCode.mp (by decide +kernel)

theorem bchConfig_pagingCode : bchConfig 0x769 31 21 2 0 = .ok pagingCode := by decide +kernel

end Machine
end Sys2Proof

namespace Sys2Proof
namespace Settled

open Sys2Proof.Machine Sys2Proof.Claims

/-- Settles O50: the paging code is a valid code with `T = 2`, and such a code undoes two flips of a word that
checks true, as every codeword does. -/
theorem pagingCodeCorrects : Obligations.PagingCodeCorrects := by
  unfold Obligations.PagingCodeCorrects
  refine ⟨by decide, fun s inst hi => conclude_config hi bchConfig_pagingCode,
    fun m e1 e2 hm h1 h2 hne => ?_⟩
  have hc := pagingCode_valid
  have hw : bchCheck pagingCode (bchEncode pagingCode m) = true := hc.bchCheck_bchEncode hm
  exact ⟨bchCorrect_of_check hw, hc.bchCorrect_flip rfl hw h1, hc.bchCorrect_flip_flip rfl hw h1 h2 hne⟩

end Settled
end Sys2Proof
end

section
/-!
SUPPORT. What every operation has in common: it answers, and what is rejected changes nothing (rules R355,
R358, R377); and the two operations that name no unit, CORE.RESET and OUTQ.DRAIN (rules R340, R344).
-/

namespace Sys2Proof
namespace Machine

open Sys2Proof.Claims

/-- The operation issued in `s` ends in a next state, which is `s` with a status where that is not OK. -/
def Answers (s : State) (o : Host.Outcome State Fault Refusal) : Prop :=
  ∃ t, o = .next t ∧ (t.out.status = .ok ∨ t = rejected s t.out.status)

/-- A rule that raises is answered by its status alone, any other by OK. -/
theorem conclude_answers (s : State) (a : Ans Done) : Answers s (conclude s a) := by
  cases a with
  | error e => exact ⟨rejected s e, rfl, .inr rfl⟩
  | ok d => exact ⟨accept d [], rfl, .inl rfl⟩

theorem concludeBits_answers (s : State) (a : Ans (Done × List Delivered)) :
    Answers s (concludeBits s a) := by
  cases a with
  | error e => exact ⟨rejected s e, rfl, .inr rfl⟩
  | ok r => exact ⟨accept r.1 r.2, rfl, .inl rfl⟩

/-- Every operation ends in one of the two answers; only the two that can deliver bits end in the second. -/
theorem exec_answers (i : Instr) (s : State) : Answers s (exec i s) := by
  cases i
  case pipeStep | bsStep => exact concludeBits_answers s _
  all_goals exact conclude_answers s _

theorem exec_coreReset (s : State) : exec (.coreReset 0) s = .next (done (coreReset s) .none) := rfl

theorem exec_outqDrain (s : State) :
    exec (.outqDrain 0) s = .next (done { s with outq := [] } (.messages s.outq)) := by
  rw [← drain_eq]
  rfl

end Machine
end Sys2Proof

namespace Sys2Proof
namespace Settled

open Sys2Proof.Machine Sys2Proof.Claims

/-- Settles O9: every operation is concluded. -/
theorem everyOperationAnswers : Obligations.EveryOperationAnswers := by
  unfold Obligations.EveryOperationAnswers
  exact exec_answers

/-- Settles O16: CORE.RESET answers with the reset state of the block, whose parts are the reset columns. -/
theorem coreResetResets : Obligations.CoreResetResets := by
  unfold Obligations.CoreResetResets
  intro s
  exact ⟨done (coreReset s) .none, exec_coreReset s, rfl, rfl, rfl, rfl, rfl, rfl, rfl, rfl, rfl, rfl, rfl,
    rfl, rfl, rfl, rfl, rfl⟩

/-- Settles O17: the buffer is emptied under its lock, which leaves everything else. -/
theorem drainReturnsAll : Obligations.DrainReturnsAll := by
  unfold Obligations.DrainReturnsAll
  exact exec_outqDrain

end Settled
end Sys2Proof
end

section
/-!
SUPPORT. HD by its tick (rules R270 to R281, R346): the answers of HD, the octets before a frame, and the bits
inside one.
-/

namespace Sys2Proof
namespace Machine

open Sys2Proof.Claims

/-! ### The indicator (rule R346) -/

/-- The indicator of a unit whose events make it ERROR as `err` says. -/
theorem indicate_eq {err : Event → Bool} {evs : List Event} (h : ∀ e ∈ evs, e.isError = err e)
    (receiving : Bool) :
    indicate evs receiving = if evs.any err then .error else if receiving then .receiving else .syncing := by
  have hany : evs.any Event.isError = evs.any err := by
    induction evs with
    | nil => rfl
    | cons e evs ih =>
      obtain ⟨he, hevs⟩ := List.forall_mem_cons.mp h
      rw [List.any_cons, List.any_cons, he, ih hevs]
  unfold indicate
  rw [hany]

/-- The bit that enters a shift register, as a case distinction. -/
theorem shiftIn_eq {w : Nat} (v : BitVec w) (b : Bool) :
    shiftIn v b = (v <<< 1) ||| (if b then 1 else 0) := by
  cases b <;> rfl

/-! ### The answers of HD (rules R270, R271, R343) -/

section Answers

variable {s : State} {inst : Inst} {h : Hd}

theorem execHdReset_done (hh : s.hd[inst.toNat]? = some h) :
    execHdReset inst s = .next (done (putHd inst Hd.reset s) .none) := by
  unfold execHdReset
  rw [pick_bind hh]
  rfl

theorem execHdStep_done (hh : s.hd[inst.toNat]? = some h) (b : Bool) :
    execHdStep inst b s = .next
      { s with
        hd := s.hd.set inst.toNat (hdTick h b).1
        outq := s.outq ++ (hdTick h b).2.2.toList.map .frame
        out := ⟨.ok, .frame (hdTick h b).2.2, raisedBy inst (hdTick h b).2.1, []⟩ } := by
  unfold execHdStep
  rw [pick_bind hh, ← Option.toList_map]
  show Host.Outcome.next (accept ⟨emitOpt _ _, _, _⟩ []) = _
  rw [emitOpt_eq]
  rfl

end Answers

/-! ### The events of HD (rule R360) -/

/-- A rule of HD raises errors of HD only. -/
def HdRaises (o : Hd × List Event × Option Frame) : Prop := ∀ e ∈ o.2.1, hdError e = true

theorem isError_of_hdError {e : Event} (h : hdError e = true) : e.isError = hdError e := by
  cases e with
  | framing | short | overflow => rfl
  | _ => cases h

section Events

theorem hdFinalize_raises (h : Hd) : HdRaises (hdFinalize h) := by
  show ∀ e ∈ (verdict h).1, hdError e = true
  unfold verdict
  split
  · exact List.forall_mem_singleton.mpr rfl
  · split
    · exact List.forall_mem_singleton.mpr rfl
    · split
      · exact List.forall_mem_singleton.mpr rfl
      · exact nofun

theorem replay_raises (bs : List Bool) (h : Hd) : HdRaises (replay bs h) := by
  induction bs generalizing h with
  | nil => exact nofun
  | cons b bs ih =>
    unfold replay
    split
    · exact hdFinalize_raises _
    · exact ih _

theorem hdWaitFlag_raises (h : Hd) : HdRaises (hdWaitFlag h) := by
  unfold hdWaitFlag
  split <;> exact nofun

theorem hdWaitData_raises (h : Hd) : HdRaises (hdWaitData h) := by
  unfold hdWaitData
  split
  · split
    · exact nofun
    · exact replay_raises _ _
  · exact nofun

theorem hdCountFlag_raises (h : Hd) : HdRaises (hdCountFlag h) := by
  unfold hdCountFlag
  split
  · exact hdWaitData_raises _
  · split
    · split
      · exact nofun
      · exact List.forall_mem_singleton.mpr rfl
    · exact nofun

theorem hdWaitEnd_raises (h : Hd) (b : Bool) : HdRaises (hdWaitEnd h b) := by
  unfold hdWaitEnd
  split
  · exact hdFinalize_raises _
  · split
    · exact hdFinalize_raises _
    · exact nofun

theorem hdTick_raises (h : Hd) (b : Bool) : HdRaises (hdTick h b) := by
  show HdRaises (hdDispatch { h with raw := shiftIn h.raw b } b)
  unfold hdDispatch
  split
  · exact hdWaitFlag_raises _
  · exact hdCountFlag_raises _
  · exact hdWaitData_raises _
  · exact hdWaitEnd_raises _ _

end Events

/-- The indicator after a tick of HD, by the events that the tick raised and the state it left. -/
theorem indHd_hdTick (h : Hd) (b : Bool) :
    indHd (hdTick h b).1 =
      if (hdTick h b).2.1.any hdError then .error
      else if (hdTick h b).1.state = .waitEnd then .receiving else .syncing := by
  have hind := indicate_eq (fun e he => isError_of_hdError (hdTick_raises h b e he))
    ((hdTick h b).1.state == .waitEnd)
  simp only [beq_iff_eq] at hind
  exact hind

/-! ### Outside a frame (rules R273 to R275) -/

section Octets

variable {h : Hd} {b : Bool}

theorem hdTick_flagFound (hs : h.state = .waitFlag) (hv : shiftIn h.raw b = Config.hdFlag) :
    hdTick h b =
      ({ h with raw := shiftIn h.raw b, state := .countFlag, nflag := 1, cnt8 := 0, last := [] },
        [], none) := by
  have hdispatch : hdDispatch { h with raw := shiftIn h.raw b } b =
      ({ h with raw := shiftIn h.raw b, state := .countFlag, nflag := 1, cnt8 := 0 }, [], none) := by
    unfold hdDispatch
    rw [hs]
    exact if_pos hv
  exact hdTick_of_dispatch hdispatch

theorem hdTick_noFlag (hs : h.state = .waitFlag) (hv : shiftIn h.raw b ≠ Config.hdFlag) :
    hdTick h b = ({ h with raw := shiftIn h.raw b, last := [] }, [], none) := by
  have hdispatch : hdDispatch { h with raw := shiftIn h.raw b } b =
      ({ h with raw := shiftIn h.raw b }, [], none) := by
    unfold hdDispatch
    simp only [hs]
    exact if_neg hv
  exact hdTick_of_dispatch hdispatch

/-- HD counts the bits of an octet: the flags that a frame needs before it have come (rule R274). -/
def countsOctet (h : Hd) : Prop := h.state = .waitData ∨ (h.state = .countFlag ∧ 1 ≤ h.nflag)

/-- Both states in which octets are counted run the rule of WAIT_DATA. -/
theorem hdTick_octet {o : Hd × List Event × Option Frame} (hs : countsOctet h)
    (ho : hdWaitData { h with raw := shiftIn h.raw b, state := .waitData } = o) :
    hdTick h b = ({ o.1 with last := o.2.1 }, o.2) := by
  refine hdTick_of_dispatch (Eq.trans ?_ ho)
  unfold hdDispatch
  obtain hs | ⟨hs, hn⟩ := hs
  · simp only [hs]
  · simp only [hs]
    exact if_pos hn

theorem hdTick_octetBit (hs : countsOctet h) (h8 : h.cnt8 < 7) :
    hdTick h b =
      ({ h with raw := shiftIn h.raw b, state := .waitData, cnt8 := h.cnt8 + 1, last := [] }, [], none) := by
  have hmore : ¬ h.cnt8 + 1 = 8 := by omega
  exact hdTick_octet hs (if_neg hmore)

theorem hdTick_octetFlag (hs : countsOctet h) (h8 : h.cnt8 = 7) (hv : shiftIn h.raw b = Config.hdFlag) :
    hdTick h b =
      ({ h with raw := shiftIn h.raw b, state := .waitData, cnt8 := 0, nflag := moreFlags h.nflag,
                last := [] }, [], none) := by
  have hfull : h.cnt8 + 1 = 8 := congrArg (· + 1) h8
  exact hdTick_octet hs ((if_pos hfull).trans (if_pos hv))

/-- An octet that is no flag is replayed into a datapath that holds nothing. -/
theorem hdTick_octetReplayed {o : Hd × List Event × Option Frame} (hs : countsOctet h) (h8 : h.cnt8 = 7)
    (hv : shiftIn h.raw b ≠ Config.hdFlag)
    (ho : replay (rawBits (shiftIn h.raw b)) (bodyStart { h with raw := shiftIn h.raw b }) = o) :
    hdTick h b = ({ o.1 with last := o.2.1 }, o.2) := by
  have hfull : h.cnt8 + 1 = 8 := congrArg (· + 1) h8
  exact hdTick_octet hs (((if_pos hfull).trans (if_neg hv)).trans ho)

/-- A sixth 1 before the byte is complete ends the frame: of the bits before it nothing is left. -/
theorem replay_sixth {l : List Bool} (hu : unstuff h.ones l = none) (hn : h.accn + l.length ≤ 8) :
    ∃ acc n, replay l h = hdFinalize { h with ones := 5, acc := acc, accn := n } := by
  induction l generalizing h with
  | nil => cases hu
  | cons b l ih =>
    rw [List.length_cons] at hn
    unfold replay
    by_cases h5 : h.ones = 5
    · cases b with
      | true =>
        rw [destuffStore_fin h5, ← h5]
        exact ⟨h.acc, h.accn, rfl⟩
      | false =>
        rw [h5] at hu
        rw [destuffStore_drop h5]
        exact ih (h := { h with ones := 0 }) hu (Nat.le_of_succ_le hn)
    · rw [unstuff_cons h5, Option.map_eq_none_iff] at hu
      have hmore : h.accn + 1 < 8 := by
        have hpos : 0 < l.length := List.length_pos_of_ne_nil (by rintro rfl; cases hu)
        omega
      rw [destuffStore_store h5, storeBit_more hmore]
      exact ih (h := { h with
          acc := h.acc ||| (BitVec.ofNat 8 b.toNat <<< h.accn)
          accn := h.accn + 1
          ones := if b then h.ones + 1 else 0 }) hu (by dsimp only; omega)

/-- The octet that would start a frame, with six 1s in it. -/
theorem hdTick_octetShort (hs : countsOctet h) (h8 : h.cnt8 = 7) (hv : shiftIn h.raw b ≠ Config.hdFlag)
    (hu : unstuff 0 (rawBits (shiftIn h.raw b)) = none) :
    hdTick h b =
      ({ h with raw := shiftIn h.raw b, state := .waitFlag, nflag := 0, cnt8 := 0, ones := 0, acc := 0,
                accn := 0, blen := 0, ovf := false, last := [.short] }, [.short], none) := by
  obtain ⟨acc, n, hreplay⟩ := replay_sixth (h := bodyStart { h with raw := shiftIn h.raw b }) hu
    (by rw [rawBits_length]; exact Nat.le_refl 8)
  exact hdTick_octetReplayed hs h8 hv hreplay

end Octets

/-! ### The byte being assembled (rules R74, R278) -/

section Assembly

variable {h : Hd}

/-- With `n` bits in the assembled byte: where these are all, the byte is passed on. -/
def assembled (h : Hd) (acc : BitVec 8) (n : Nat) : Hd :=
  if n = 8 then
    if h.blen < 512 then
      { h with buf := memWrite h.buf h.blen acc, blen := h.blen + 1, acc := 0, accn := 0 }
    else { h with ovf := true, acc := 0, accn := 0 }
  else { h with acc := acc, accn := n }

theorem storeBit_eq (h : Hd) (b : Bool) :
    storeBit h b = assembled h (h.acc ||| (BitVec.ofNat 8 b.toNat <<< h.accn)) (h.accn + 1) := rfl

theorem byteOf_cons (b : Bool) (l : List Bool) :
    byteOf (b :: l) = BitVec.ofNat 8 b.toNat ||| (byteOf l <<< 1) := by
  rw [BitVec.or_comm]
  cases b <;> rfl

/-- Bits that do not overfill the byte enter it one after the other. -/
theorem foldl_storeBit_eq {l : List Bool} (hn : h.accn < 8) (hl : h.accn + l.length ≤ 8) :
    l.foldl storeBit h = assembled h (h.acc ||| (byteOf l <<< h.accn)) (h.accn + l.length) := by
  induction l generalizing h with
  | nil =>
    have hne : ¬ h.accn = 8 := Nat.ne_of_lt hn
    have hzero : h.acc ||| (byteOf [] <<< h.accn) = h.acc := by simp [byteOf]
    rw [hzero]
    exact (if_neg hne).symm
  | cons b l ih =>
    rw [List.length_cons] at hl
    have hacc : h.acc ||| (byteOf (b :: l) <<< h.accn) =
        h.acc ||| (BitVec.ofNat 8 b.toNat <<< h.accn) ||| (byteOf l <<< (h.accn + 1)) := by
      rw [byteOf_cons, BitVec.shiftLeft_or_distrib, ← BitVec.shiftLeft_add, Nat.add_comm 1,
        BitVec.or_assoc]
    rw [List.foldl_cons, hacc, List.length_cons]
    by_cases hlast : l = []
    · subst hlast
      have hzero : byteOf [] <<< (h.accn + 1) = 0#8 := BitVec.zero_shiftLeft ..
      rw [hzero, BitVec.or_zero]
      exact storeBit_eq h b
    · have hmore : h.accn + 1 < 8 := by
        have hpos := List.length_pos_of_ne_nil hlast
        omega
      rw [storeBit_more hmore, ih hmore (by dsimp only; omega), Nat.add_right_comm]
      rfl

theorem memWrite_zero {α : Type} (m : List α) (v : α) : memWrite m 0 v = v :: m.drop 1 := by
  cases m <;> rfl

/-- A write to a memory that is written up to there, as a list. -/
theorem memWrite_eq {α : Type} {m : List α} {i : Nat} (hi : i ≤ m.length) (v : α) :
    memWrite m i v = m.take i ++ v :: m.drop (i + 1) := by
  obtain hlt | rfl := Nat.lt_or_eq_of_le hi
  · rw [memWrite_of_lt hlt, List.set_eq_take_append_cons_drop, if_pos hlt]
  · rw [memWrite_end, List.take_length, List.drop_eq_nil_of_le (Nat.le_succ _)]

theorem unstuff_length {n k : Nat} {l bits : List Bool} (hu : unstuff n l = some (bits, k)) :
    bits.length ≤ l.length := by
  induction l generalizing n bits with
  | nil =>
    cases hu
    exact Nat.le_refl 0
  | cons b l ih =>
    obtain ⟨bits₁, k₁, bits₂, h₁, h₂, rfl⟩ := unstuff_cons_some hu
    have hrest := ih h₂
    have hone : bits₁.length ≤ 1 := by
      by_cases h5 : n = 5
      · subst h5
        cases b <;> cases h₁
        exact Nat.zero_le 1
      · rw [unstuff_cons h5] at h₁
        cases h₁
        exact Nat.le_refl 1
    rw [List.length_append, List.length_cons]
    omega

/-- The octet that starts a frame: its bits, destuffed, are the first byte or the beginning of it. -/
theorem hdTick_octetStarts {b : Bool} {bits : List Bool} {k : Nat} (hs : countsOctet h) (h8 : h.cnt8 = 7)
    (hv : shiftIn h.raw b ≠ Config.hdFlag)
    (hu : unstuff 0 (rawBits (shiftIn h.raw b)) = some (bits, k)) :
    hdTick h b =
      (withRaw (shiftIn h.raw b) k []
        (assembled (bodyStart h) (byteOf bits) bits.length), [], none) := by
  have hlen : 0 + bits.length ≤ 8 := by
    rw [Nat.zero_add, ← rawBits_length (shiftIn h.raw b)]
    exact unstuff_length hu
  have hstored : bits.foldl storeBit (bodyStart h) =
      assembled (bodyStart h) (byteOf bits) bits.length := by
    have hfold := foldl_storeBit_eq (h := bodyStart h) (l := bits) (Nat.zero_lt_succ 7) hlen
    rwa [show (bodyStart h).accn = 0 from rfl, show (bodyStart h).acc = 0#8 from rfl, BitVec.shiftLeft_zero,
      BitVec.zero_or, Nat.zero_add] at hfold
  have hreplay := replay_unstuff (h := bodyStart { h with raw := shiftIn h.raw b }) hu
  have hraw : bodyStart { h with raw := shiftIn h.raw b } =
      withRaw (shiftIn h.raw b) 0 h.last (bodyStart h) := rfl
  rw [hraw, foldl_storeBit_withRaw, hstored, ← hraw] at hreplay
  exact hdTick_octetReplayed hs h8 hv hreplay

end Assembly

/-! ### Inside a frame (rules R276 to R278, R281) -/

section Body

variable {h : Hd} {b : Bool}

/-- A bit that does not end the frame, by what the destuffer makes of it: `hdTick_inBody` without the run of
1s that stands in the raw register. -/
theorem hdTick_destuffed {bits : List Bool} {k : Nat} (hs : h.state = .waitEnd)
    (hv : shiftIn h.raw b ≠ Config.hdFlag) (hu : unstuff h.ones [b] = some (bits, k)) :
    hdTick h b = (withRaw (shiftIn h.raw b) k [] (bits.foldl storeBit h), [], none) := by
  obtain ⟨o, ho, hstep⟩ := destuffStore_unstuff (h := { h with raw := shiftIn h.raw b }) hu
  have hend : hdWaitEnd { h with raw := shiftIn h.raw b } b =
      (withRaw (shiftIn h.raw b) k h.last (bits.foldl storeBit (withRaw (shiftIn h.raw b) h.ones h.last h)),
        [], none) := by
    unfold hdWaitEnd
    rw [hstep]
    cases o with
    | fin => exact absurd rfl ho
    | store | drop => exact if_neg hv
  rw [foldl_storeBit_withRaw] at hend
  exact hdTick_waitEnd hs hend

theorem hdTick_dropped (hs : h.state = .waitEnd) (hv : shiftIn h.raw false ≠ Config.hdFlag)
    (hn : h.ones = 5) :
    hdTick h false = ({ h with raw := shiftIn h.raw false, ones := 0, last := [] }, [], none) := by
  have hu : unstuff h.ones [false] = some ([], 0) := by
    rw [hn]
    rfl
  exact hdTick_destuffed hs hv hu

/-- A stored bit; the run of 1s is one longer, or none. -/
theorem hdTick_stored (hs : h.state = .waitEnd) (hv : shiftIn h.raw b ≠ Config.hdFlag) (hn : h.ones < 5) :
    hdTick h b =
      (withRaw (shiftIn h.raw b) (if b then h.ones + 1 else 0) [] (storeBit h b), [], none) := by
  have hu : unstuff h.ones [b] = some ([b], if b then h.ones + 1 else 0) :=
    unstuff_cons (Nat.ne_of_lt hn) b []
  exact hdTick_destuffed hs hv hu

/-- The sixth 1 in a row: the frame is what its bytes come to, and the datapath is cleared. -/
theorem hdTick_sixth (hs : h.state = .waitEnd) (hn : h.ones = 5) :
    hdTick h true =
      ({ h with raw := shiftIn h.raw true, state := .waitFlag, nflag := 0, cnt8 := 0, ones := 0, acc := 0,
                accn := 0, blen := 0, ovf := false, last := (verdict h).1 }, verdict h) := by
  have hend : hdWaitEnd { h with raw := shiftIn h.raw true } true =
      hdFinalize { h with raw := shiftIn h.raw true } := by
    unfold hdWaitEnd
    rw [destuffStore_fin (h := { h with raw := shiftIn h.raw true }) hn]
  exact hdTick_waitEnd hs hend

theorem storeBit_lost (hn : h.accn = 7) (hfull : 512 ≤ h.blen) (b : Bool) :
    storeBit h b = { h with ovf := true, acc := 0, accn := 0 } := by
  rw [storeBit_eq, hn]
  exact if_neg (Nat.not_lt.mpr hfull)

end Body

end Machine
end Sys2Proof

namespace Sys2Proof
namespace Settled

open Sys2Proof.Machine Sys2Proof.Claims

/-- Settles O51: the answer is the tick's; outside a frame each bit is looked for a flag or counted, and the
octet that is no flag is replayed into an empty datapath. -/
theorem hdStep : Obligations.HdStep := by
  unfold Obligations.HdStep
  intro s inst b h hh o raw n
  have hraw : shiftIn h.raw b = raw := shiftIn_eq h.raw b
  refine ⟨execHdStep_done hh b, fun hs hv => ?_, fun hs hv => ?_, fun hs h8 => ?_, fun hs h8 hv => ?_,
    fun hs h8 hv => ?_, indHd_hdTick h b⟩
  · exact (hdTick_flagFound hs (hraw.trans hv)).trans (by rw [hraw])
  · exact (hdTick_noFlag hs (hraw ▸ hv)).trans (by rw [hraw])
  · exact (hdTick_octetBit hs h8).trans (by rw [hraw])
  · exact (hdTick_octetFlag hs h8 (hraw.trans hv)).trans (by rw [hraw]; rfl)
  · have hbits : rawBits raw = (List.range 8).map fun i => raw.getLsbD (7 - i) := rfl
    rw [← hraw] at hv
    rw [← hbits, ← hraw]
    cases hu : unstuff 0 (rawBits (shiftIn h.raw b)) with
    | none => exact hdTick_octetShort hs h8 hv hu
    | some r =>
      obtain ⟨bits, k⟩ := r
      have htick : o = _ := hdTick_octetStarts hs h8 hv hu
      rw [htick, assembled]
      by_cases hfull : bits.length = 8
      · simp only [hfull, if_true, ← memWrite_zero]
        rfl
      · simp only [hfull, if_false]
        rfl

/-- Settles O52: a bit is dropped, stored or the last one, as the destuffer says; `storeBit` says where a
stored bit goes. -/
theorem hdInFrame : Obligations.HdInFrame := by
  unfold Obligations.HdInFrame
  intro h b hs raw bit ones acc ends
  have hraw : shiftIn h.raw b = raw := shiftIn_eq h.raw b
  have hbit : BitVec.ofNat 8 b.toNat = bit := by cases b <;> rfl
  have stored {g : Hd} (hn : h.ones < 5) (hv : raw ≠ 0x7E) (hg : storeBit h b = g) :
      hdTick h b = (withRaw raw ones [] g, [], none) :=
    (hdTick_stored hs (hraw ▸ hv) hn).trans (by rw [hraw, hg])
  refine ⟨fun hn hb hv => ?_, fun hn hb => ?_, fun hn ha hv => ?_, fun hn ha hroom hbuf hv => ?_,
    fun hn ha hfull hv => ?_⟩
  · subst hb
    exact (hdTick_dropped hs (hraw ▸ hv) hn).trans (by rw [hraw])
  · subst hb
    exact (hdTick_sixth hs hn).trans (by rw [hraw]; rfl)
  · rw [stored hn hv (storeBit_more (by omega) b), hbit]
    rfl
  · rw [stored hn hv (storeBit_last ha hroom b), hbit, memWrite_eq hbuf]
    rfl
  · rw [stored hn hv (storeBit_lost ha hfull b)]
    rfl

end Settled
end Sys2Proof
end

section
/-!
SUPPORT. PG by its tick (rules R300 to R309, R317, R318, R346): the answer of an operation of PG, what a
loss of sync and a restart leave, the acquisition, and the words of a batch.
-/

namespace Sys2Proof
namespace Machine

open Sys2Proof.Claims

/-! ### The answers of PG (rules R300 to R303, R314, R343) -/

section Answers

variable {s : State} {inst : Inst} {p : Pg}

theorem accept_pgDone (inst : Inst) (o : PgOut) (res : Result) (s : State) :
    accept (pgDone inst o res s) [] = pgAfter s inst o res := by
  unfold pgDone
  rw [emitOpt_eq, Option.toList_map]
  rfl

theorem execPgStep_done (hp : s.pg[inst.toNat]? = some p) (b : Bool) :
    execPgStep inst b s = .next (pgAfter s inst (pgTick s.par p b) (.page (pgTick s.par p b).page)) := by
  unfold execPgStep
  rw [pick_bind hp]
  exact congrArg Host.Outcome.next (accept_pgDone ..)

theorem execPgReset_done (hp : s.pg[inst.toNat]? = some p) :
    execPgReset inst s = .next (pgAfter s inst (pgRestart p) .none) := by
  unfold execPgReset
  rw [pick_bind hp]
  exact congrArg Host.Outcome.next (accept_pgDone ..)

theorem execPgSync_done (hp : s.pg[inst.toNat]? = some p) (baud : B32) :
    execPgSync inst baud s = .next (pgAfter s inst (pgSync p (s.num.ofB32 baud)) .none) := by
  unfold execPgSync
  rw [pick_bind hp]
  exact congrArg Host.Outcome.next (accept_pgDone ..)

theorem execPgSetFilter_done (hp : s.pg[inst.toNat]? = some p) {f : Nat} {w : Filter}
    (hf : filterOf f = some w) :
    execPgSetFilter inst f s =
      .next (pgAfter s inst ⟨{ p with filter := w, last := [] }, [], none⟩ .none) := by
  unfold execPgSetFilter
  rw [pick_bind hp, hf, ← accept_pgDone]
  rfl

theorem execPgSetFilter_rejected (hp : s.pg[inst.toNat]? = some p) {f : Nat} (hf : filterOf f = none) :
    execPgSetFilter inst f s = .next (rejected s (.config .badEnum)) := by
  unfold execPgSetFilter
  rw [pick_bind hp, hf]
  rfl

/-- The filter codes are the positions in the list of the filters (rule R41). -/
theorem filterOf_eq (f : Nat) : filterOf f = [Filter.addressOnly, .numeric, .alpha, .both][f]? := by
  match f with
  | 0 | 1 | 2 | 3 | _ + 4 => rfl

end Answers

/-! ### Restart and loss of sync (rules R300, R301, R317, R318) -/

/-- `finalize(); pg_reset()` emits what was in progress and leaves the reset registers. -/
theorem pgRestart_eq (p : Pg) :
    pgRestart p = ⟨restarted p ((Claims.pagesIn p).map .msg), (Claims.pagesIn p).map .msg,
      (Claims.pagesIn p).head?⟩ := by
  unfold pgRestart
  rw [pgFinalize_eq]
  rfl

theorem pgSync_eq (p : Pg) (baud : RealVal) :
    pgSync p baud = ⟨{ restarted p ((Claims.pagesIn p).map .msg) with baud := baud },
      (Claims.pagesIn p).map .msg, (Claims.pagesIn p).head?⟩ := by
  unfold pgSync
  rw [pgRestart_eq]

theorem loseSync_logged (why : Event) (p : Pg) : (loseSync why p).logged = lost why p := by
  unfold loseSync
  rw [pgFinalize_eq]
  rfl

/-! ### The events of PG (rule R360) -/

/-- The events that a PG raises. -/
def pgRaises : Event → Bool
  | .syncword | .syncwordInv | .parity _ | .unc _ | .badPreamble | .syncLost | .resyncReq | .msg _ => true
  | _ => false

/-- An event of PG is an error exactly where it is one for the indicator of PG. -/
theorem isError_of_pgRaises {e : Event} (h : pgRaises e = true) : e.isError = pgError e := by
  cases e with
  | sync | noise | bsOverflow | framing | short | overflow => cases h
  | _ => rfl

/-- A rule of PG raises events of PG only. -/
def PgOut.Raises (o : PgOut) : Prop := ∀ e ∈ o.evs, pgRaises e = true

section Events

variable {par : Params} {p : Pg} {b : Bool}

theorem quiet_raises (p : Pg) : (PgOut.quiet p).Raises := nofun

theorem pgFinalize_raises (p : Pg) : (pgFinalize p).Raises := by
  rw [pgFinalize_eq]
  intro e he
  obtain ⟨page, -, rfl⟩ := List.mem_map.mp he
  rfl

theorem loseSync_raises {why : Event} (h : pgRaises why = true) (p : Pg) : (loseSync why p).Raises :=
  List.forall_mem_cons.mpr ⟨h, List.forall_mem_append.mpr
    ⟨pgFinalize_raises p, List.forall_mem_singleton.mpr rfl⟩⟩

theorem pgSearch_raises : (pgSearch par p b).Raises := by
  unfold pgSearch
  split
  · split
    · exact List.forall_mem_singleton.mpr rfl
    · split
      · exact List.forall_mem_singleton.mpr rfl
      · split
        · exact loseSync_raises rfl _
        · exact quiet_raises _
  · exact quiet_raises _

theorem pgInitial_raises : (pgInitial par p b).Raises := by
  unfold pgInitial pgPreamble
  split
  · exact pgSearch_raises
  · split
    · split
      · exact loseSync_raises rfl _
      · exact pgSearch_raises
    · split
      · exact pgSearch_raises
      · exact loseSync_raises rfl _

theorem pgDecodeWord_raises {w : BitVec 31} {idx : Nat} : (pgDecodeWord par p w idx).Raises := by
  unfold pgDecodeWord pgClassify
  split
  · exact List.forall_mem_singleton.mpr rfl
  · split
    · exact pgFinalize_raises p
    · split
      · exact pgFinalize_raises p
      · exact quiet_raises _

theorem pgCodeword_raises {cw : BitVec 32} {idx : Nat} : (pgCodeword par p cw idx).Raises := by
  have hparity : ∀ e ∈ parityLog cw idx, pgRaises e = true := by
    unfold parityLog
    split
    · exact List.forall_mem_singleton.mpr rfl
    · exact nofun
  rw [pgCodeword_eq]
  exact List.forall_mem_append.mpr ⟨hparity, pgDecodeWord_raises⟩

theorem pgBatch_raises : (pgBatch par p b).Raises := by
  unfold pgBatch
  dsimp only
  split
  · exact pgCodeword_raises
  · exact quiet_raises _

theorem pgImmediate_raises : (pgImmediate par p b).Raises := by
  unfold pgImmediate
  dsimp only
  split
  · split
    · exact quiet_raises _
    · exact loseSync_raises rfl _
  · exact quiet_raises _

theorem pgTick_raises : (pgTick par p b).Raises := by
  show (pgDispatch par p b).Raises
  unfold pgDispatch
  split
  · exact quiet_raises _
  · exact pgInitial_raises
  · exact pgBatch_raises
  · exact pgImmediate_raises

end Events

/-- The indicator after a tick of PG, by the events that the tick raised and the state it left. -/
theorem indPg_pgTick (par : Params) (p : Pg) (b : Bool) :
    indPg (pgTick par p b).pg =
      if (pgTick par p b).evs.any pgError then .error
      else if (pgTick par p b).pg.state = .readPocsagBatch ∨
          (pgTick par p b).pg.state = .waitForImmediateSyncWord then .receiving
      else .syncing := by
  have h := indicate_eq (fun e he => isError_of_pgRaises (pgTick_raises (par := par) (p := p) (b := b) e he))
    ((pgTick par p b).pg.state == .readPocsagBatch || (pgTick par p b).pg.state == .waitForImmediateSyncWord)
  simp only [Bool.or_eq_true, beq_iff_eq] at h
  exact h

/-! ### The tick by the state (rules R302, R304) -/

section Tick

variable {par : Params} {p : Pg} {b : Bool}

/-- A tick is the rule of the state, whose events are kept. -/
theorem pgTick_of_dispatch {o : PgOut} (h : pgDispatch par p b = o) : pgTick par p b = o.logged :=
  congrArg PgOut.logged h

theorem pgDispatch_initial (hs : p.state = .waitForInitialSyncWord) :
    pgDispatch par p b = pgInitial par p b := by
  unfold pgDispatch
  rw [hs]

theorem pgDispatch_batch (hs : p.state = .readPocsagBatch) : pgDispatch par p b = pgBatch par p b := by
  unfold pgDispatch
  rw [hs]

theorem pgDispatch_immediate (hs : p.state = .waitForImmediateSyncWord) :
    pgDispatch par p b = pgImmediate par p b := by
  unfold pgDispatch
  rw [hs]

theorem pgTick_firstBit (hs : p.state = .firstBitSinceSync) :
    pgTick par p b =
      ⟨{ p with prev := b, alt := 0, predone := false, sr := if b then 1 else 0,
                state := .waitForInitialSyncWord, last := [] }, [], none⟩ := by
  have hdispatch : pgDispatch par p b = pgFirstBit p b := by
    unfold pgDispatch
    rw [hs]
  rw [pgTick_of_dispatch hdispatch]
  cases b <;> rfl

/-! ### The preamble (rule R305) -/

/-- The search begins, or goes on: the preamble is done and the raw bit is in `SR`. -/
def searching (p : Pg) (b : Bool) : Pg :=
  { p with sr := shiftIn p.sr b, predone := true, search := if p.predone then p.search else 0 }

theorem pgInitial_alternates (hpre : p.predone = false) (hb : b ≠ p.prev) (halt : p.alt < par.pgPreMax) :
    pgInitial par p b = .quiet { p with sr := shiftIn p.sr b, alt := p.alt + 1, prev := b } := by
  have hmax : ¬ par.pgPreMax < p.alt + 1 := by omega
  unfold pgInitial pgPreamble pgSearch
  simp only [hpre, bne_iff_ne, ne_eq, hb, hmax, not_false_eq_true, if_true, if_false, Bool.false_eq_true]

theorem pgInitial_tooLong (hpre : p.predone = false) (hb : b ≠ p.prev) (halt : par.pgPreMax ≤ p.alt) :
    pgInitial par p b = loseSync .badPreamble { p with sr := shiftIn p.sr b, alt := p.alt + 1 } := by
  have hmax : par.pgPreMax < p.alt + 1 := by omega
  unfold pgInitial pgPreamble
  simp only [hpre, bne_iff_ne, ne_eq, hb, hmax, not_false_eq_true, if_true, if_false, Bool.false_eq_true]

theorem pgInitial_tooShort (hpre : p.predone = false) (hb : b = p.prev) (halt : p.alt < par.pgPreMin) :
    pgInitial par p b = loseSync .badPreamble { p with sr := shiftIn p.sr b } := by
  have hmin : ¬ par.pgPreMin ≤ p.alt := by omega
  unfold pgInitial pgPreamble
  simp only [hpre, hb, hmin, bne_self_eq_false, if_false, Bool.false_eq_true]

/-- With the preamble done, or ended by this bit, the bit is one of the search. -/
theorem pgInitial_ended (h : p.predone = true ∨ (b = p.prev ∧ par.pgPreMin ≤ p.alt)) :
    pgInitial par p b = pgSearch par (searching p b) b := by
  unfold pgInitial pgPreamble searching
  cases hpre : p.predone with
  | true => simp only [if_true]
  | false =>
    obtain ⟨hb, hmin⟩ := h.resolve_left (by simp [hpre])
    simp only [hb, hmin, bne_self_eq_false, if_true, if_false, Bool.false_eq_true]

/-! ### The search for the first sync word (rule R306) -/

theorem pgSearch_sync (hpre : p.predone = true) (hw : p.sr = par.pgSync) :
    pgSearch par p b =
      ⟨{ p with inv := false, nbits := 0, cwidx := 0, state := .readPocsagBatch, prev := b },
        [.syncword], none⟩ := by
  unfold pgSearch
  rw [if_pos hpre, if_pos hw]

/-- No word is its own inverse. -/
theorem ne_of_eq_not {v w : BitVec 32} (h : v = ~~~w) : v ≠ w := by
  rintro rfl
  have hbit := congrArg (·.getLsbD 0) h
  simp at hbit

theorem pgSearch_inverse (hpre : p.predone = true) (hw : p.sr = ~~~par.pgSync) :
    pgSearch par p b =
      ⟨{ p with inv := true, nbits := 0, cwidx := 0, state := .readPocsagBatch, prev := b },
        [.syncwordInv], none⟩ := by
  unfold pgSearch
  rw [if_pos hpre, if_neg (ne_of_eq_not hw), if_pos hw]

theorem pgSearch_continues (hpre : p.predone = true) (hw : p.sr ≠ par.pgSync) (hinv : p.sr ≠ ~~~par.pgSync)
    (hn : p.search < 32) : pgSearch par p b = .quiet { p with search := p.search + 1, prev := b } := by
  have hmax : ¬ Config.pgSearchMax < p.search + 1 := by
    unfold Config.pgSearchMax
    omega
  unfold pgSearch
  rw [if_pos hpre, if_neg hw, if_neg hinv, if_neg hmax]

theorem pgSearch_exhausted (hpre : p.predone = true) (hw : p.sr ≠ par.pgSync) (hinv : p.sr ≠ ~~~par.pgSync)
    (hn : 32 ≤ p.search) : pgSearch par p b = loseSync .syncLost { p with search := p.search + 1 } := by
  have hmax : Config.pgSearchMax < p.search + 1 := Nat.lt_succ_of_le hn
  unfold pgSearch
  rw [if_pos hpre, if_neg hw, if_neg hinv, if_pos hmax]

/-! ### The words of a batch (rules R307 to R309) -/

/-- The registers with one more bit in `SR`, the polarity applied, and `n` bits of the word. -/
def shifted (p : Pg) (b : Bool) (n : Nat) : Pg := { p with sr := shiftIn p.sr (b ^^ p.inv), nbits := n }

theorem pgShift_partial (hn : p.nbits < 31) : pgShift p b = (shifted p b (p.nbits + 1), false) :=
  if_pos (by omega)

theorem pgShift_complete (hn : p.nbits = 31) : pgShift p b = (shifted p b 0, true) :=
  if_neg (by omega)

theorem pgDispatch_partial (hs : p.state = .readPocsagBatch ∨ p.state = .waitForImmediateSyncWord)
    (hn : p.nbits < 31) : pgDispatch par p b = .quiet (shifted p b (p.nbits + 1)) := by
  obtain hs | hs := hs
  · rw [pgDispatch_batch hs, pgBatch, pgShift_partial hn]
    rfl
  · rw [pgDispatch_immediate hs, pgImmediate, pgShift_partial hn]
    rfl

theorem pgBatch_complete (hn : p.nbits = 31) :
    pgBatch par p b =
      let o := pgCodeword par (shifted p b 0) (shifted p b 0).sr p.cwidx
      { o with pg := pgNextWord o.pg } := by
  rw [pgBatch, pgShift_complete hn]
  rfl

theorem pgImmediate_sync (hn : p.nbits = 31) (hw : (shifted p b 0).sr = par.pgSync) :
    pgImmediate par p b = .quiet { shifted p b 0 with state := .readPocsagBatch } := by
  rw [pgImmediate, pgShift_complete hn]
  exact if_pos hw

theorem pgImmediate_lost (hn : p.nbits = 31) (hw : (shifted p b 0).sr ≠ par.pgSync) :
    pgImmediate par p b = loseSync .syncLost (shifted p b 0) := by
  rw [pgImmediate, pgShift_complete hn]
  exact if_neg hw

/-- A codeword writes the message and the count of parity errors and no other register. -/
theorem pgCodeword_frame (par : Params) (p : Pg) (cw : BitVec 32) (idx : Nat) :
    ∃ n m, (pgCodeword par p cw idx).pg = { p with parerr := n, msg := m } := by
  obtain ⟨n, hn⟩ := parityLogged_eq p cw
  rw [pgCodeword_eq, pgDecodeWord_eq, hn]
  refine ⟨n, ?_⟩
  unfold pgClassify
  split
  · exact ⟨_, rfl⟩
  · split
    · exact ⟨_, pgFinalize_pg _⟩
    · split
      · dsimp only
        rw [pgFinalize_pg]
        exact ⟨_, rfl⟩
      · exact ⟨_, rfl⟩

/-- The sixteenth word of a batch is the last. -/
theorem pgNextWord_eq (hs : p.state = .readPocsagBatch) :
    pgNextWord p = { p with
      cwidx := if p.cwidx = 15 then 0 else p.cwidx + 1
      state := if p.cwidx = 15 then .waitForImmediateSyncWord else .readPocsagBatch } := by
  unfold pgNextWord
  by_cases h15 : p.cwidx = 15
  · have h16 : p.cwidx + 1 = Config.pgBatch := congrArg (· + 1) h15
    rw [if_pos h16, if_pos h15, if_pos h15]
  · have h16 : ¬ p.cwidx + 1 = Config.pgBatch := fun h => h15 (Nat.succ.inj h)
    rw [if_neg h16, if_neg h15, if_neg h15, ← hs]

end Tick

end Machine
end Sys2Proof

namespace Sys2Proof
namespace Settled

open Sys2Proof.Machine Sys2Proof.Claims

/-- Settles O55: each operation finds its unit; what it leaves is the reset column, or what `finalize()`
and `pg_reset()` come to. -/
theorem decoderCommands : Obligations.DecoderCommands := by
  unfold Obligations.DecoderCommands
  intro s inst baud f h p
  refine ⟨fun hh => ?_, fun hp => ⟨?_, ?_, fun w hw => ?_, fun hf => ?_⟩⟩
  · exact execHdReset_done hh
  · exact (execPgReset_done hp).trans (by rw [pgRestart_eq])
  · exact (execPgSync_done hp baud).trans (by rw [pgSync_eq])
  · exact execPgSetFilter_done hp ((filterOf_eq f).trans hw)
  · exact execPgSetFilter_rejected hp ((filterOf_eq f).trans (List.getElem?_eq_none hf))

/-- Settles O56: the answer is the tick's, and the tick is the rule of the state. -/
theorem pgStep : Obligations.PgStep := by
  unfold Obligations.PgStep
  intro s inst b p hp o bit
  refine ⟨execPgStep_done hp b, pgTick_firstBit, fun hs hn => ?_, indPg_pgTick s.par p b⟩
  have htick : o = _ := pgTick_of_dispatch (pgDispatch_partial hs hn)
  rw [htick, shifted, shiftIn_eq]
  rfl

/-- Settles O57: before the preamble ends, its bit counts or loses the sync; after that every bit is one of
the search. -/
theorem pgAcquisition : Obligations.PgAcquisition := by
  unfold Obligations.PgAcquisition
  intro par p b hs o sr found n ended
  have hsr : shiftIn p.sr b = sr := shiftIn_eq p.sr b
  have tick {q : PgOut} (h : pgInitial par p b = q) : o = q.logged :=
    pgTick_of_dispatch ((pgDispatch_initial hs).trans h)
  have search {q : PgOut} (he : ended) (h : pgSearch par (searching p b) b = q) : o = q.logged :=
    tick ((pgInitial_ended he).trans h)
  have hsearching : (searching p b).sr = sr := hsr
  refine ⟨fun hpre hb halt => ?_, fun hpre hb halt => ?_, fun hpre hb halt => ?_, fun he hw => ?_,
    fun he hw => ?_, fun he hw hinv hn => ?_, fun he hw hinv hn => ?_⟩
  · rw [tick (pgInitial_alternates hpre hb halt), hsr]
    rfl
  · rw [tick (pgInitial_tooLong hpre hb halt), loseSync_logged]
    rfl
  · rw [tick (pgInitial_tooShort hpre hb halt), loseSync_logged]
    rfl
  · rw [search he (pgSearch_sync rfl (hsearching.trans hw)), searching, hsr]
    rfl
  · rw [search he (pgSearch_inverse rfl (hsearching.trans hw)), searching, hsr]
    rfl
  · rw [search he (pgSearch_continues rfl (hsearching ▸ hw) (hsearching ▸ hinv) hn), searching, hsr]
    rfl
  · rw [search he (pgSearch_exhausted rfl (hsearching ▸ hw) (hsearching ▸ hinv) hn), loseSync_logged]
    rfl

/-- Settles O58: the completed word is a codeword of the batch, which leaves the position to `pgNextWord`, or
is compared with the sync word. -/
theorem pgWords : Obligations.PgWords := by
  unfold Obligations.PgWords
  intro par p b hn o sr c
  have hsr : (shifted p b 0).sr = sr := shiftIn_eq p.sr _
  have hshifted : shifted p b 0 = { p with sr := sr, nbits := 0 } := by rw [← hsr]; rfl
  refine ⟨fun hs => ?_, fun hs hw => ?_, fun hs hw => ?_⟩
  · have htick : o = _ := pgTick_of_dispatch ((pgDispatch_batch hs).trans (pgBatch_complete hn))
    obtain ⟨k, m, hframe⟩ := pgCodeword_frame par { p with sr := sr, nbits := 0 } sr p.cwidx
    have hcpg : c.pg = { p with sr := sr, nbits := 0, parerr := k, msg := m } := hframe
    rw [htick, hsr, hshifted]
    show ({ c with pg := pgNextWord c.pg } : PgOut).logged = _
    rw [pgNextWord_eq (by rw [hcpg]; exact hs), hcpg]
    rfl
  · have htick : o = _ :=
      pgTick_of_dispatch ((pgDispatch_immediate hs).trans (pgImmediate_sync hn (hsr.trans hw)))
    rw [htick, hshifted]
    rfl
  · have htick : o = _ :=
      pgTick_of_dispatch ((pgDispatch_immediate hs).trans (pgImmediate_lost hn (hsr ▸ hw)))
    rw [htick, loseSync_logged]
    rfl

end Settled
end Sys2Proof
end
